-- ==== Sys2Proof/Word.lean ====
section
/-! DEFINITION. Word types, sparse maps and the operand syntax that every layer shares. -/

namespace Sys2Proof

abbrev Byte := BitVec 8
abbrev W64 := BitVec 64
abbrev W128 := BitVec 128
/-- A 57-bit virtual address (R12, R376). -/
abbrev Addr := BitVec 57

/-- A sparse map from natural keys: keys strictly rising, no entry equal to the default. -/
abbrev SMap (α : Type) := List (Nat × α)

namespace SMap

/-- What the map holds at `k`; an unlisted key reads as `d`. -/
def get {α : Type} (d : α) : SMap α → Nat → α
  | [], _ => d
  | (a, x) :: r, k => if k < a then d else if k = a then x else get d r k

/-- Store `x` at `k`, keeping the canonical form: storing the default removes the entry. -/
def set {α : Type} [DecidableEq α] (d : α) : SMap α → Nat → α → SMap α
  | [], k, x => if x = d then [] else [(k, x)]
  | (a, y) :: r, k, x =>
    if k < a then (if x = d then (a, y) :: r else (k, x) :: (a, y) :: r)
    else if k = a then (if x = d then r else (a, x) :: r)
    else (a, y) :: set d r k x

/-- Every key of the list is at least `lo`, keys rise strictly and no entry holds the default. -/
def wfFrom {α : Type} [DecidableEq α] (d : α) : Nat → SMap α → Bool
  | _, [] => true
  | lo, (a, x) :: r => decide (lo ≤ a) && decide (x ≠ d) && wfFrom d (a + 1) r

/-- The canonical form of a sparse map. -/
def wf {α : Type} [DecidableEq α] (d : α) (m : SMap α) : Bool := wfFrom d 0 m

end SMap

/-- A guard of an instruction word (R79): unconditional, or on a predicate depth. -/
inductive Guard where
  | always
  | on (depth : Fin 8) (neg : Bool)
deriving DecidableEq, Repr

/-- The operands a 10-bit operand field names (R80). -/
inductive Operand where
  | v (n : Fin 320)
  | k (n : Fin 64)
  | m (n : Fin 8)
  | a (n : Fin 16)
  | zero
  | tid
  | lane
  | warp
  | team
  | core
  | clk
  | imm
deriving DecidableEq, Repr

/-- A thing named by an operand field that holds nothing of the instruction's own (R78): the field value 0. -/
def Operand.unused : Operand := .v 0

/-- Integer lane widths (Table 3-3). -/
inductive IWidth where
  | w64
  | w32
  | w16
  | w8
deriving DecidableEq, Repr

def IWidth.bits : IWidth → Nat
  | .w64 => 64
  | .w32 => 32
  | .w16 => 16
  | .w8 => 8

/-- The seven paths of Table 9-1. -/
inductive Path where
  | t
  | q
  | a
  | c
  | m
  | f
  | h
deriving DecidableEq, Repr

/-- Access scopes, narrow to wide (Table 3-8, Table 9-2). -/
inductive Scope where
  | thread
  | team
  | cohort
  | die
  | package
  | system
deriving DecidableEq, Repr

def Scope.rank : Scope → Nat
  | .thread => 0
  | .team => 1
  | .cohort => 2
  | .die => 3
  | .package => 4
  | .system => 5

/-- Units that can be fenced (R474). -/
inductive UnitKind where
  | core
  | slice
  | pseudoChannel
  | mscPartition
deriving DecidableEq, Repr

/-- Where a soft error strikes (Table 12-6): the storage class and the place in it. -/
inductive Spot where
  | reg (grid team tid n : Nat)
  | tile (grid team warp word : Nat)
  | pad (grid team word : Nat)
  | cell (grid team win cell : Nat)
  | l1 (core word : Nat)
  | l2 (sector : Nat)
  | msc (sector : Nat)
  /-- A tag of a slice. -/
  | tag (slice : Nat)
  /-- A written-out press entry of the reserved region, by its place in `State.press`. -/
  | run (i : Nat)
  /-- An update counter of the reserved region, by its place in `State.counters`. -/
  | counter (i : Nat)
  /-- The entry of a region in the region table. -/
  | table (region : Nat)
  | dram (sector : Nat)
  | link (sector : Nat)
  /-- The sideband or payload of a flit in a mesh or on a link, by its place in `State.flits` (R421). -/
  | flit (i : Nat)
  /-- The control state of a unit (R474). -/
  | control (unit : UnitKind) (n : Nat)
deriving DecidableEq, Repr

/-- A request through BAR2 or UALink into an aperture (R441-R443). Atomics are FetchAdd, Swap and CAS on 4, 8 or 16 bytes; a peer also sends
the other atomics and the reductions of Table 7-6, by their code. -/
inductive WindowOp where
  | read (len : Nat)
  | write (bytes : List Byte)
  /-- A write whose data are poisoned (Table 16-6, Table 16-7). -/
  | writePoisoned (bytes : List Byte)
  | fetchAdd (n : Nat) (x : Nat)
  | swap (n : Nat) (x : Nat)
  | cas (n : Nat) (cmp x : Nat)
  | atom (code n x : Nat)
  | red (code n x : Nat)
deriving DecidableEq, Repr

end Sys2Proof
end

