-- ==== Sys2Proof/Config.lean ====
section
/-! DEFINITION. What an implementation fixes and the spec leaves open: opaque constants. Nothing in Lean can evaluate one, so a
statement that holds holds for every value of them. -/

namespace Sys2Proof

/-- Free values, drawn in order by the counter `State.free` (log 2). -/
opaque Config.freeValue : Nat → W64

/-- Free choices between values the spec allows, drawn by the same counter (log 2). -/
opaque Config.freeChoice : Nat → Nat

/-- How far a core's %clk stands from the common count: R38 bounds the difference by 4 cc (log 9). -/
opaque Config.clkSkew : Nat → Nat

/-- AES-256-GCM sealing of a plaintext under a key, nonce and associated data: ciphertext then 16-byte tag (R417, named and not
defined by the spec; log 20). -/
opaque Config.seal : List Byte → List Byte → List Byte → List Byte → List Byte

/-- AES-256-GCM opening: the plaintext when the tag checks (R418; log 20). -/
opaque Config.unseal : List Byte → List Byte → List Byte → List Byte → Option (List Byte)

/-- SHA-512 (R468; log 20). -/
opaque Config.hash : List Byte → List Byte

/-- Whether a firmware image's root key, by its fused digest, and both signatures check, and the image's version; the layout of an
image is not the spec's (R468; log 20). -/
opaque Config.imageSigned : List Byte → List Byte → Bool
opaque Config.imageVersion : List Byte → Nat

/-- The AES-256 key that a command 3 buffer wraps, under the part's secret (R469; log 20). -/
opaque Config.unwrapKey : List Byte → List Byte → Option (List Byte)

/-- An ECDSA P-521 signature of a message under the device key (R469; log 20). -/
opaque Config.sign : List Byte → List Byte

/-- A save record whose layout belongs to the firmware (R480; log 21): the bytes of its body, by record type and what it holds; its
length in 16-byte units, by type and shape; and the length that the task processor reserves for it, by type and the team's resources. -/
opaque Config.saveByte : Nat → List Nat → Nat → Byte
opaque Config.saveLen : Nat → List Nat → BitVec 16
opaque Config.saveCap : Nat → List Nat → BitVec 16

/-- top of a floating slot whose largest finite magnitude is 0, by its bias: the logarithm that R68 takes of it has no value (log 84). -/
opaque Config.topOfZero : Int → Int

/-- log2 of BAR2's size, which the host resizes between 16 GiB and 1 TiB (Table 16-6; log 39). -/
opaque Config.bar2Bits : Nat

/-- The UALink port by which peers send requests for a 4 KiB page of the window, by a hash (Table 16-7; log 93). -/
opaque Config.portHash : Nat → Nat

/-- Whether a peer part advertises at link training that it holds compressed blocks (Table 16-4). -/
opaque Config.peerHoldsBlocks : Nat → Bool

/-- The physical granule that backs a granule of a team on its core (R30, R232; log 78). -/
opaque Config.granule : Nat → Nat

end Sys2Proof
end

