-- ==== Sys2Proof/Syntax.lean ====
section
/-! DEFINITION. The syntax: typed bodies of the instruction words of each format group, the clause header, and the one
inductive `Instr` with a constructor for every row of spec/opcode_table.json. -/

namespace Sys2Proof

/-- The fields every instruction word has (Table 3-1), operands already named. -/
structure Body where
  grd : Guard := .always
  fs : BitVec 4 := 0
  d : Operand := .unused
  a : Operand := .unused
  b : Operand := .unused
  c : Operand := .unused
  fl : Bool := false
  ru : Bool := false
  mod3 : BitVec 3 := 0
  imm : BitVec 32 := 0
deriving DecidableEq, Repr

/-- Group S (Table 3-5). -/
structure SBody extends Body where
  sysreg : BitVec 12 := 0
deriving DecidableEq, Repr

/-- Group V (Table 3-6). -/
structure VBody extends Body where
  fs2 : BitVec 4 := 0
  sel : BitVec 6 := 0
  subop : BitVec 6 := 0
  lut : BitVec 8 := 0
deriving DecidableEq, Repr

/-- Group L (Table 3-8). -/
structure LBody extends Body where
  seg : BitVec 4 := 0
  scope : BitVec 3 := 0
  hint : BitVec 2 := 0
  opx : BitVec 7 := 0
  qn : BitVec 5 := 0
  sz : BitVec 3 := 0
deriving DecidableEq, Repr

/-- Group M (Table 3-10). -/
structure MBody extends Body where
  kf : BitVec 8 := 0
  aux : BitVec 8 := 0
deriving DecidableEq, Repr

/-- Group X (Table 3-11); the function code is the constructor. -/
structure XBody extends Body where
  ch : BitVec 3 := 0
deriving DecidableEq, Repr

/-- A clause header without its marker and terminal code (Table 3-12). -/
structure Header where
  len : BitVec 4 := 1
  wait : BitVec 12 := 0
  setA : BitVec 4 := 15
  setB : BitVec 4 := 15
  safe : Bool := false
  spix : BitVec 12 := 0
  tgta : BitVec 16 := 0
  tgtb : BitVec 16 := 0
  join : BitVec 16 := 0
deriving DecidableEq, Repr

/-- One constructor per row of spec/opcode_table.json: instruction words, terminals (with the header that carries them) and
the part's other indivisible steps (95: what each step holds). -/
inductive Instr where
  /-- R139. Takes one issue slot and has no other effect. -/
  | nop (f : SBody)
  /-- R111. Forms a meeting at J = header + 16 × IMM whose sibling set is the executing threads. -/
  | meet (f : SBody)
  /-- R114. Clears the meeting-register valid bit of each executing thread. -/
  | meetx (f : SBody)
  /-- R117. Checks and prepares a counted loop on lcN, whose level opens at the clause boundary. -/
  | loop (f : SBody)
  /-- R121. Marks each executing thread to pop its innermost loop level at the clause boundary. -/
  | lbrk (f : SBody)
  /-- R123. Lowers the thread's bundle to the yield class until its next clause issues. -/
  | yield (f : SBody)
  /-- R124. Keeps each executing thread out of every bundle for up to 65,535 cc. -/
  | nap (f : SBody)
  /-- R126. Raises USER_TRAP at its word, carrying IMM. -/
  | trap (f : SBody)
  /-- R128. Fences at package scope and submits a child launch packet to the task processor; D later receives the status. -/
  | spawn (f : SBody)
  /-- R129. After the team's earlier children have retired, acquires at package scope and writes the number of children that the host ended after a fault. -/
  | joinc (f : SBody)
  /-- R130. Contributes a 64-bit value to the grid's result word under the packet's combine. -/
  | post (f : SBody)
  /-- R133. Reads a system register, subject to the privilege check. -/
  | sysrd (f : SBody)
  /-- R133. Writes a system register, subject to the privilege and access checks. -/
  | syswr (f : SBody)
  /-- R134. Asserts the common snapshot trigger with a tag when the context's snapshot enable is set. -/
  | snap (f : SBody)
  /-- R135. Replaces the thread's stochastic generator state from a register pair. -/
  | seed (f : SBody)
  /-- R136. Writes EFL to D. -/
  | flagrd (f : SBody)
  /-- R136. Clears the EFL bits named by the source mask. -/
  | flagclr (f : SBody)
  /-- R137. Checks a format definition and writes it to a slot of the executing warps. -/
  | wfmt (f : SBody)
  /-- R138. Reads a warp's format slot into D. -/
  | rfmt (f : SBody)
  /-- R138. Reads a segment base or limit, or the scratchpad limit, into D. -/
  | segrd (f : SBody)
  /-- R149. Per-lane integer add, wrapping or saturating. -/
  | iadd (f : VBody)
  /-- R149. Per-lane integer subtract. -/
  | isub (f : VBody)
  /-- R149. Per-lane integer multiply, low bits. -/
  | imul (f : VBody)
  /-- R149. Per-lane upper half of the integer product. -/
  | imulh (f : VBody)
  /-- R149. Per-lane integer multiply-add. -/
  | imad (f : VBody)
  /-- R149. Per-lane integer absolute value. -/
  | iabs (f : VBody)
  /-- R149. Per-lane integer negate. -/
  | ineg (f : VBody)
  /-- R149. Per-lane integer minimum. -/
  | imin (f : VBody)
  /-- R149. Per-lane integer maximum. -/
  | imax (f : VBody)
  /-- R150. 128-bit pair add, optionally pushing the carry. -/
  | iaddw (f : VBody)
  /-- R150. 128-bit pair subtract, optionally pushing the borrow. -/
  | isubw (f : VBody)
  /-- R151. Per-lane shift left. -/
  | shl (f : VBody)
  /-- R151. Per-lane logical shift right. -/
  | shr (f : VBody)
  /-- R151. Per-lane arithmetic shift right. -/
  | sar (f : VBody)
  /-- R151. Per-lane rotate. -/
  | rot (f : VBody)
  /-- R152. Funnel shift of A:B by C mod 64. -/
  | fshf (f : VBody)
  /-- R153. 64-bit bitwise AND. -/
  | and (f : VBody)
  /-- R153. 64-bit bitwise OR. -/
  | or (f : VBody)
  /-- R153. 64-bit bitwise XOR. -/
  | xor (f : VBody)
  /-- R153. 64-bit A AND NOT B. -/
  | andn (f : VBody)
  /-- R154. Three-input bitwise truth table. -/
  | lop3 (f : VBody)
  /-- R155. Per-lane population count. -/
  | popc (f : VBody)
  /-- R155. Per-lane leading-zero count. -/
  | clz (f : VBody)
  /-- R155. Per-lane trailing-zero count. -/
  | ctz (f : VBody)
  /-- R155. Per-lane bit reversal. -/
  | brev (f : VBody)
  /-- R156. Bit-field extract. -/
  | bfx (f : VBody)
  /-- R156. Bit-field insert. -/
  | bfi (f : VBody)
  /-- R157. Copies a 64-bit value. -/
  | mov (f : VBody)
  /-- R158. Writes IMM zero-extended to D. -/
  | movi (f : VBody)
  /-- R158. Writes IMM to D[63:32] and keeps D[31:0]. -/
  | movh (f : VBody)
  /-- R159. Selects A or B by a predicate depth. -/
  | sel (f : VBody)
  /-- R160. Compares one integer lane and pushes the outcome. -/
  | icmp (f : VBody)
  /-- R161. Pops predicate depth 0. -/
  | ppop (f : VBody)
  /-- R161. Pushes a copy of a predicate depth. -/
  | pdup (f : VBody)
  /-- R161. Pushes the negation of a predicate depth. -/
  | pnot (f : VBody)
  /-- R161. Pushes the AND of two predicate depths. -/
  | pand (f : VBody)
  /-- R161. Pushes the OR of two predicate depths. -/
  | por (f : VBody)
  /-- R161. Pushes the XOR of two predicate depths. -/
  | pxor (f : VBody)
  /-- R161. Exchanges two predicate depths. -/
  | pswap (f : VBody)
  /-- R161. Sets the whole predicate shift register from a value. -/
  | pset (f : VBody)
  /-- R161. Writes the predicate shift register's layout to D. -/
  | ptov (f : VBody)
  /-- R161. Pushes a selected bit of a source value. -/
  | vtop (f : VBody)
  /-- R164. Moves elements between the participants of a warp by warp-wide index. -/
  | shfl (f : VBody)
  /-- R165. Broadcasts one participant's 64-bit value to the warp. -/
  | bcast (f : VBody)
  /-- R166. Votes all, any or ballot over the participants' predicate entries. -/
  | vote (f : VBody)
  /-- R167. Warp reduction along a fixed tree. -/
  | wred (f : VBody)
  /-- R174. Element add through a slot. -/
  | eadd (f : VBody)
  /-- R174. Element subtract. -/
  | esub (f : VBody)
  /-- R174. Element multiply. -/
  | emul (f : VBody)
  /-- R174. Element fused multiply-add. -/
  | efma (f : VBody)
  /-- R174. Element multiply in which zero wins. -/
  | emulz (f : VBody)
  /-- R174. Element fused multiply-add in which a zero factor wins. -/
  | efmaz (f : VBody)
  /-- R175. Element minimum, choosing an operand code. -/
  | emin (f : VBody)
  /-- R175. Element maximum, choosing an operand code. -/
  | emax (f : VBody)
  /-- R176. Element absolute value. -/
  | eabs (f : VBody)
  /-- R176. Element negate. -/
  | eneg (f : VBody)
  /-- R176. Element copy-sign. -/
  | ecpys (f : VBody)
  /-- R180. Classifies element codes, pushing a result or writing a mask. -/
  | eclass (f : VBody)
  /-- R177. Multiplies elements by 2^n. -/
  | escale (f : VBody)
  /-- R178. Rounds elements to integral values. -/
  | eround (f : VBody)
  /-- R179. Compares one element pair and pushes the outcome. -/
  | ecmp (f : VBody)
  /-- R179. Compares every element pair into a mask. -/
  | ecmpm (f : VBody)
  /-- R181. Selects element codes by a mask. -/
  | eblend (f : VBody)
  /-- R182. Converts and repacks elements between slots. -/
  | ecvt (f : VBody)
  /-- R183. Exact dot product over register pairs with one rounding. -/
  | edot (f : VBody)
  /-- R184. Exact warp-wide sum with one rounding. -/
  | esumw (f : VBody)
  /-- R185. Reciprocal through the special-function unit. -/
  | rcp (f : VBody)
  /-- R185. Reciprocal square root. -/
  | rsq (f : VBody)
  /-- R185. Square root. -/
  | sqrt (f : VBody)
  /-- R185. Base-2 exponential. -/
  | exp2 (f : VBody)
  /-- R185. Base-2 logarithm. -/
  | log2 (f : VBody)
  /-- R187. Sine with exact argument reduction up to 65,536. -/
  | sin (f : VBody)
  /-- R187. Cosine with exact argument reduction up to 65,536. -/
  | cos (f : VBody)
  /-- R185. Hyperbolic tangent. -/
  | tanh (f : VBody)
  /-- R195. Scratchpad load. -/
  | sld (f : LBody)
  /-- R195. Scratchpad store. -/
  | sst (f : LBody)
  /-- R196. Scratchpad load of up to 16 consecutive words. -/
  | sldw (f : LBody)
  /-- R196. Scratchpad store of up to 16 consecutive words. -/
  | sstw (f : LBody)
  /-- R197. Packed-element scratchpad load. -/
  | sldp (f : LBody)
  /-- R197. Packed-element scratchpad store under a bit mask. -/
  | sstp (f : LBody)
  /-- R199. Load from a cohort peer's scratchpad. -/
  | cld (f : LBody)
  /-- R199. Store to a cohort peer's scratchpad. -/
  | cst (f : LBody)
  /-- R199. Atomic at a cohort peer's scratchpad. -/
  | catom (f : LBody)
  /-- R203. Appends an entry to a thread-fed LOAD queue and issues its global load. -/
  | qld (f : LBody)
  /-- R203. Appends a packed-element load entry to a LOAD queue. -/
  | qldp (f : LBody)
  /-- R206. Stores through a STORE queue at a scope. -/
  | qst (f : LBody)
  /-- R206. Packed-element store through a STORE queue. -/
  | qstp (f : LBody)
  /-- R204. Removes the oldest LOAD-queue entry into D. -/
  | qpop (f : LBody)
  /-- R201. Configures a queue's kind, depth and region once for the bundle. -/
  | qcfg (f : LBody)
  /-- R207. Appends one value to a named queue as a team release. -/
  | push (f : LBody)
  /-- R207. Removes the oldest named-queue value as a team acquire. -/
  | pop (f : LBody)
  /-- R210. Pops a named-queue value if one is present and pushes success. -/
  | qtry (f : LBody)
  /-- R209. Adds to a named queue's send allowance. -/
  | qallow (f : LBody)
  /-- R214. Arms a well with a target and clears its count and error record. -/
  | wellinit (f : LBody)
  /-- R215. Releases, then adds units to a well's COUNT and advances its generation. -/
  | arrive (f : LBody)
  /-- R216. Waits until a well's GEN differs, then acquires and returns GEN and the flags. -/
  | waitg (f : LBody)
  /-- R220. Atomic at the home L2 slice, returning the old value. -/
  | atom (f : LBody)
  /-- R221. Reduction without result, possibly gathered in the L1. -/
  | red (f : LBody)
  /-- R222. Sends a deterministic reduction contribution to the home press unit. -/
  | dred (f : LBody)
  /-- R220. Atomic on the team's scratchpad. -/
  | satom (f : LBody)
  /-- R224. Orders accesses on each path at a scope. -/
  | fence (f : LBody)
  /-- R225. Orders accesses across the paths of its mask. -/
  | fenceX (f : LBody)
  /-- R227. Locks a line in L2 or pins it in the MSC and returns a status. -/
  | clock (f : LBody)
  /-- R227. Releases a line lock or pin. -/
  | cunlock (f : LBody)
  /-- R228. Prefetches a line to a cache level. -/
  | pref (f : LBody)
  /-- R246. Latches A rows into a row-group instance that adds its products to a window. -/
  | mma (f : MBody)
  /-- R247. Block-scaled matrix instance over K = 128. -/
  | mmas (f : MBody)
  /-- R252. Loads 64 bytes into the thread's four tile columns. -/
  | tld (f : MBody)
  /-- R252. Stores the thread's four tile columns. -/
  | tst (f : MBody)
  /-- R252. Clears the thread's four tile columns. -/
  | tzero (f : MBody)
  /-- R254. Allocates and clears a window from a descriptor. -/
  | accalloc (f : MBody)
  /-- R255. Unallocates a window. -/
  | accfree (f : MBody)
  /-- R255. Fills a window with zero or an infinity, clears OVF and unbinds it. -/
  | acczero (f : MBody)
  /-- R255. Changes a window's E0 and rescales its cells. -/
  | accalign (f : MBody)
  /-- R256. Reads cells out through a slot, or raw. -/
  | accrd (f : MBody)
  /-- R256. Writes cells from a slot, or raw. -/
  | accwr (f : MBody)
  /-- R257. Loads a whole window row from memory. -/
  | accld (f : MBody)
  /-- R257. Stores a whole window row read out through a slot. -/
  | accst (f : MBody)
  /-- R242. Row-group word that sets a window's precision register. -/
  | pwset (f : MBody)
  /-- R249. Writes the team's gang register. -/
  | gang (f : MBody)
  /-- R392. Starts a scribe transfer on a channel. -/
  | xcmdSgo (f : XBody)
  /-- R260. Reads a scribe channel's status. -/
  | xcmdSstat (f : XBody)
  /-- R400. Suspends a scribe channel at its next 4 KiB boundary. -/
  | xcmdSsusp (f : XBody)
  /-- R400. Resumes a suspended scribe channel. -/
  | xcmdSres (f : XBody)
  /-- R400. Ends a scribe transfer and forces its well. -/
  | xcmdSabort (f : XBody)
  /-- R410. Registers a scale tensor under a handle. -/
  | xcmdScreg (f : XBody)
  /-- R411. Unregisters a scale handle. -/
  | xcmdScunreg (f : XBody)
  /-- R410. Writes a handle's scale descriptor. -/
  | xcmdScdesc (f : XBody)
  /-- R411. Prefetches scales into the scale cache. -/
  | xcmdScpref (f : XBody)
  /-- R407. Writes an access-slice parameter. -/
  | xcmdRparam (f : XBody)
  /-- R260. Reads the ruling engine's state. -/
  | xcmdRstat (f : XBody)
  /-- R409. Ends the team's access slice. -/
  | xcmdRhalt (f : XBody)
  /-- R406. Caps the ruling engine's address rate for the team. -/
  | xcmdRrate (f : XBody)
  /-- R260. Multicasts bytes to cohort peers and optionally arrives at their wells. -/
  | xcmdFmcast (f : XBody)
  /-- R260. Arrives at a well of another resident team of the grid. -/
  | xcmdFwarr (f : XBody)
  /-- R260. Arrives at the wells of the ranked cohort peers. -/
  | xcmdFmwarr (f : XBody)
  /-- R330. Releases the 64 KiB region that holds an address from its home. -/
  | xcmdMrel (f : XBody)
  /-- R391. Reads and clears 64 dirty bits. -/
  | xcmdMsweep (f : XBody)
  /-- R322. Sets the context's residency quota. -/
  | xcmdMquota (f : XBody)
  /-- R260. Reads the context's quota and the lines it holds. -/
  | xcmdMquotard (f : XBody)
  /-- R260. Sets the context seed for later grids. -/
  | xcmdYseed (f : XBody)
  /-- R473. Re-arms the snapshot trigger and returns the missed count. -/
  | xcmdYsnap (f : XBody)
  /-- R415. Starts the migration engine on a descriptor. -/
  | xcmdYmigr (f : XBody)
  /-- R97. A hint-space word that takes one issue slot and does nothing else. -/
  | hintWord (opc : BitVec 6) (rest : BitVec 118)
  /-- R108. Terminal that continues at the sequential successor. -/
  | fall (h : Header)
  /-- R108. Terminal that continues at TGTA. -/
  | jmp (h : Header)
  /-- R112. Terminal that pops depth 0 per thread, branches and forms a meeting at JOIN. -/
  | brp (h : Header)
  /-- R92. Terminal that branches to code base plus the value of the last word's D register. -/
  | brx (h : Header)
  /-- R108. Terminal that pushes a return address and the loop level count, then jumps. -/
  | call (h : Header)
  /-- R116. Terminal that pops a return address and checks the loop level count. -/
  | ret (h : Header)
  /-- R115. Terminal that ends the thread and leaves its meeting. -/
  | exit (h : Header)
  /-- R120. Terminal that decrements the innermost loop counter and loops or closes the level. -/
  | endl (h : Header)
  /-- R94. A ready thread's next clause is fetched, its header checked and every word decoded before any word executes. -/
  | clauseDecode (b : Nat)
  /-- R359. Each cc, threads that became ready at clause boundaries are placed into bundles. -/
  | bundleFormation (core quad : Nat)
  /-- R363. A ready bundle that has missed 48 issue opportunities becomes overdue. -/
  | overdue (b : Nat)
  /-- R16. A long-latency operation completes for a thread, lowering its flag count and delivering its result and flags. -/
  | flagCompletion (op : Nat)
  /-- R124. A thread's nap expires and it may join bundles again. -/
  | napEnd (grid team tid : Nat)
  /-- R113. Every member of a meeting is done, and the waiting threads are released. -/
  | meetingRelease (grid team meeting : Nat)
  /-- R234. The whole row group stands at a row-group clause header and is released. -/
  | rendezvousRelease (grid team : Nat) (addr : Addr)
  /-- R248. A queued matrix instance runs on its free bands and steps every cell. -/
  | instanceRun (inst : Nat)
  /-- R365. Every 65,536 cc each team's matrix charge resets to zero. -/
  | epochBoundary
  /-- R369. After a fault, other bundles finish their clauses and operations complete, and then the team is held. -/
  | teamHeld (grid team : Nat)
  /-- R371. A fault record is written to the ring, TAIL advances and IVEC may be sent. -/
  | faultRecordWrite
  /-- R115. A team whose threads have exited and whose operations have completed releases its core resources. -/
  | teamResourceRelease (grid team : Nat)
  /-- R132. A team retires once its children have retired. -/
  | teamRetirement (grid team : Nat)
  /-- R347. The last team retires: release, DRED application, result word and completion well. -/
  | gridRetirement (grid : Nat)
  /-- R325. Invalidating the counter entries of a grid number finishes and the number is freed. -/
  | liveGridNumberFree (grid : Nat)
  /-- R340. A doorbell write sets a queue's tail. -/
  | sqdb (q : Nat) (tail : BitVec 16)
  /-- R339. A write to SQCTL, restricted to EN and PRIO while enabled, with an invalid LOG2N setting ERR. -/
  | sqctlWrite (q : Nat) (value : W64)
  /-- R341. The task processor chooses a queue and reads its head packet. -/
  | packetServe
  /-- R345. A launch packet is checked, and is accepted with a live-grid number, waits, or is refused. -/
  | launchPacket (q : Nat)
  /-- R348. A graph packet starts a task graph at its START node. -/
  | graphPacket (q : Nat)
  /-- R350. On a node grid's completion, its edges are evaluated and the next node is launched or the graph ends. -/
  | graphNodeAdvance (q : Nat)
  /-- R353. The first pending team that fits is placed on a chosen core. -/
  | teamPlacement
  /-- R353. The first pending team has waited 1 ms, and placements of equal or lower priority stop. -/
  | placementWaitLimit
  /-- R384. The task processor reserves save room and stops a team or cohort at its stop points. -/
  | preemption (grid team : Nat)
  /-- R384. After the drain, hoops are captured, records are written to the save image and resources are cleared. -/
  | preemptionSave (grid team : Nat)
  /-- R384. Step 1 exceeds PLIM and the pre-emption is abandoned. -/
  | preemptionLimit (grid team : Nat)
  /-- R388. Once no record is parked, a saved image is read back onto a core, or the image is refused. -/
  | resumption (grid team : Nat)
  /-- R383. A TCTL action that releases a held or saved team. -/
  | resume (grid team : Nat)
  /-- R383. A TCTL action that ends a whole grid. -/
  | endGrid (grid team : Nat)
  /-- R383. A TCTL action that pre-empts a team and keeps it saved. -/
  | save (grid team : Nat)
  /-- R371. The owner advances the fault ring head, letting a waiting record be written. -/
  | frhead (value : BitVec 16)
  /-- R465. Starts a TLB and code invalidation for a context range. -/
  | invctlGo (value : W64)
  /-- R379. Old translations are discarded and accesses that used them have performed, and BUSY clears. -/
  | invalidationComplete
  /-- R464. A write of a context's EN creates or removes the context and clears its TLB entries. -/
  | contextEn (ctx : Nat) (value : W64)
  /-- R415. The owner submits a migration descriptor. -/
  | migctlGo
  /-- R473. Clears LATCHED and MISSED. -/
  | snapctlArm
  /-- R473. The owner asserts the snapshot trigger. -/
  | snapctlTrig
  /-- R466. Starts a full reset. -/
  | devctlRst
  /-- R464. A write to a management register that has no row of its own. -/
  | registerWrite (off : BitVec 28) (value : W64)
  /-- R469. Mailbox command 2 stages a firmware image piece. -/
  | stageFirmware (piece : BitVec 16)
  /-- R470. Every 100 µs power and temperature are compared with their limits and the core clock is stepped. -/
  | powerCheck (watts : Nat) (dieTemps stackTemps : List Nat)
  /-- R471. A die or stack reaches its trip temperature and the part halts. -/
  | thermalTrip (stack : Bool) (sensor temp : Nat)
  /-- R474. A unit passes its error thresholds and is fenced. -/
  | unitFence (unit : UnitKind) (n : Nat)
  /-- R320. A request reaches an L2 slice and is served, homed or answered. -/
  | l2Access (req : Nat)
  /-- R329. A requester receives REHOME, updates its region cache and reissues. -/
  | rehome (req : Nat)
  /-- R329. 64 fc after a REHOME with no home, the request is reissued. -/
  | rehomeRetry (req : Nat)
  /-- R280. An atomic is performed indivisibly at the home slice. -/
  | atomicAtHome (req : Nat)
  /-- R221. A RED contribution is applied singly at the home. -/
  | redApplication (req : Nat)
  /-- R323. A DRED contribution arrives at the press and is held. -/
  | pressContribution (req : Nat)
  /-- R215. A well-arrival packet is applied atomically at a peer's bank, or discarded when the well is unarmed. -/
  | wellArrival (pkt : Nat)
  /-- R398. After each 4,096 bytes, or the last, are visible, the scribe arrives at the transfer's well. -/
  | scribeArrival (die ch : Nat)
  /-- R399. A transfer hits a fault or poison, stops and forces its well. -/
  | scribeEarlyEnd (die ch : Nat)
  /-- R401. A transfer suspended by pre-emption continues once its channel on the new die is free. -/
  | scribeContinue (die ch : Nat)
  /-- R403. The ruling engine executes an access thread's clause, feeding its FIFOs. -/
  | accessClause (grid team tid : Nat)
  /-- R428. An endpoint begins a packet when the count, node limit, drain mode and throttle permit. -/
  | packetInjection (pkt : Nat)
  /-- R424. The flits arriving at a router in one fc are ranked, ejected, forwarded or deflected. -/
  | flitArrival (die : Nat) (reply : Bool) (node : Nat)
  /-- R433. A KIND 3 acknowledgement reaches the source, freeing its tag and counting bytes as performed. -/
  | acknowledgement (pkt : Nat)
  /-- R433. An incomplete hoop is poisoned, acknowledged and freed after B_die + 1,024 fc. -/
  | hoopTimeout (hoop : Nat)
  /-- R429. Every 16 fc each node computes its fabric pressure. -/
  | fabricPressureUpdate
  /-- R437. A frame failing its CRC is replayed from the retry buffer. -/
  | linkRetry (link : Nat)
  /-- R437. After 8 failed retries the link retrains and delivers the frame's flits poisoned. -/
  | linkRetrain (link : Nat)
  /-- R414. A link trains, clearing its deduplication tables and sampling capabilities. -/
  | linkTraining (link : Nat) (peers : List Nat)
  /-- R441. A host request through BAR2 resolves through an aperture and is served or completed with an error. -/
  | hostWindowRequest (off : BitVec 40) (op : WindowOp)
  /-- R443. A UALink peer request resolves through an aperture and is served on path H. -/
  | peerWindowRequest (off : BitVec 40) (op : WindowOp)
  /-- R416. The engine sweeps dirty bits, sends sealed page frames and writes its status block. -/
  | migrationRound (port : Nat)
  /-- R418. A received frame is checked and its page written, or the stream ends with an error. -/
  | migrationFrameReceive (port : Nat) (frame : List Byte)
  /-- R444. The transport reports an unrecoverable failure and the stream ends with ERR. -/
  | migrationTransportFailure (port : Nat)
  /-- R336. A storage word suffers an upset that ECC later corrects and counts, or that makes its data poisoned. -/
  | softError (spot : Spot) (uncorrectable : Bool)
  /-- R261. An XCMD whose FUNC is not in Table 8-10, 0x70–0x7F included, raises ENGINE at the word with FUNC as operand detail. -/
  | xcmdUnassignedCode (f : XBody) (func : BitVec 7)
  /-- R467. The 48 V supply is lost and every state that a program or the owner can observe is discarded, apart from the fuses and the Iagar flash. -/
  | supplyLoss
  /-- R469. Mailbox command 1 returns a signed attestation report. -/
  | attest
  /-- R469. Mailbox command 3 loads a wrapped key into a key slot. -/
  | loadKeySlot
  /-- R469. Mailbox command 4 returns the identity certificate. -/
  | identityCertificate
  /-- R469. Mailbox command 5 clears the fence record at the next reset. -/
  | clearFenceRecord
  /-- R466. The supply rises, or PERST#, FLR or a return to D0 occurs, and the part resets and boots. -/
  | fullReset
  /-- R467. Entering D3hot ends every grid and stops the compute clocks. -/
  | d3hotEntry
deriving DecidableEq, Repr

end Sys2Proof
end

