-- ==== Sys2Proof/Decode.lean ====
section
/-! DEFINITION. The decoder: field slices, the operand classes and value rules of every opcode (Tables 4-7, 5-5, 6-4, 7-7, 8-11),
the fault order of R94, the clause header (R89, R90), the clause rules (R476), and the encoder beside it. -/

namespace Sys2Proof

/-! ## Fields of a word -/

/-- Bits [lo+n-1 : lo] of a word. -/
def fieldOf (n lo : Nat) (w : W128) : BitVec n := w.extractLsb' lo n

/-- R79: the guard field. -/
def Guard.code : Guard → BitVec 5
  | .always => 0
  | .on d neg => 1#1 ++ BitVec.ofBool neg ++ BitVec.ofNat 3 d.val

def Guard.ofCode (b : BitVec 5) : Guard :=
  if b.getLsbD 4 then .on (BitVec.toFin (b.extractLsb' 0 3)) (b.getLsbD 3) else .always

/-- Table 3-2: the field value of an operand. -/
def Operand.code : Operand → Nat
  | .v n => n.val
  | .k n => 320 + n.val
  | .m n => 384 + n.val
  | .a n => 392 + n.val
  | .zero => 408
  | .tid => 409
  | .lane => 410
  | .warp => 411
  | .team => 412
  | .core => 413
  | .clk => 414
  | .imm => 415

/-- Table 3-2 read the other way; values 416-1023 name nothing (R80). -/
def Operand.ofCode (n : Nat) : Option Operand :=
  if h : n < 320 then some (.v ⟨n, h⟩)
  else if n < 384 then some (.k (Fin.ofNat 64 (n - 320)))
  else if n < 392 then some (.m (Fin.ofNat 8 (n - 384)))
  else if n < 408 then some (.a (Fin.ofNat 16 (n - 392)))
  else match n with
    | 408 => some .zero
    | 409 => some .tid
    | 410 => some .lane
    | 411 => some .warp
    | 412 => some .team
    | 413 => some .core
    | 414 => some .clk
    | 415 => some .imm
    | _ => none

def Operand.ofField (b : BitVec 10) : Operand := (Operand.ofCode b.toNat).getD .unused

/-- Table 3-1: the whole word from its opcode, its common fields and its extension. -/
def Body.bits (f : Body) (opc : BitVec 10) (xf : BitVec 32) : W128 :=
  opc ++ f.grd.code ++ f.fs ++ BitVec.ofNat 10 f.d.code ++ BitVec.ofNat 10 f.a.code ++ BitVec.ofNat 10 f.b.code ++
    BitVec.ofNat 10 f.c.code ++ BitVec.ofBool f.fl ++ BitVec.ofBool f.ru ++ f.mod3 ++ f.imm ++ xf

def Body.of (w : W128) : Body where
  grd := .ofCode (fieldOf 5 113 w)
  fs := fieldOf 4 109 w
  d := .ofField (fieldOf 10 99 w)
  a := .ofField (fieldOf 10 89 w)
  b := .ofField (fieldOf 10 79 w)
  c := .ofField (fieldOf 10 69 w)
  fl := w.getLsbD 68
  ru := w.getLsbD 67
  mod3 := fieldOf 3 64 w
  imm := fieldOf 32 32 w

/-- Table 3-5. -/
def SBody.bits (f : SBody) (opc : BitVec 10) : W128 := f.toBody.bits opc (f.sysreg ++ 0#20)

def SBody.of (w : W128) : SBody := { toBody := .of w, sysreg := fieldOf 12 20 w }

/-- Table 3-6. -/
def VBody.bits (f : VBody) (opc : BitVec 10) : W128 := f.toBody.bits opc (f.fs2 ++ f.sel ++ f.subop ++ f.lut ++ 0#8)

def VBody.of (w : W128) : VBody :=
  { toBody := .of w, fs2 := fieldOf 4 28 w, sel := fieldOf 6 22 w, subop := fieldOf 6 16 w, lut := fieldOf 8 8 w }

/-- Table 3-8. -/
def LBody.bits (f : LBody) (opc : BitVec 10) : W128 :=
  f.toBody.bits opc (f.seg ++ f.scope ++ f.hint ++ f.opx ++ f.qn ++ f.sz ++ 0#8)

def LBody.of (w : W128) : LBody :=
  { toBody := .of w, seg := fieldOf 4 28 w, scope := fieldOf 3 25 w, hint := fieldOf 2 23 w, opx := fieldOf 7 16 w,
    qn := fieldOf 5 11 w, sz := fieldOf 3 8 w }

/-- Table 3-10. -/
def MBody.bits (f : MBody) (opc : BitVec 10) : W128 := f.toBody.bits opc (f.kf ++ f.aux ++ 0#16)

def MBody.of (w : W128) : MBody := { toBody := .of w, kf := fieldOf 8 24 w, aux := fieldOf 8 16 w }

/-- Table 3-11, with the one opcode of group X. -/
def XBody.bits (f : XBody) (func : BitVec 7) : W128 := f.toBody.bits 0x240 (func ++ f.ch ++ 0#22)

def XBody.of (w : W128) : XBody := { toBody := .of w, ch := fieldOf 3 22 w }

/-- Table 3-12: the header that carries terminal code `t`. -/
def Header.bits (h : Header) (t : BitVec 3) : W128 :=
  0x3FF#10 ++ h.len ++ h.wait ++ h.setA ++ h.setB ++ t ++ BitVec.ofBool h.safe ++ h.spix ++ h.tgta ++ h.tgtb ++ h.join ++ 0#30

def Header.of (w : W128) : Header where
  len := fieldOf 4 114 w
  wait := fieldOf 12 102 w
  setA := fieldOf 4 98 w
  setB := fieldOf 4 94 w
  safe := w.getLsbD 90
  spix := fieldOf 12 78 w
  tgta := fieldOf 16 62 w
  tgtb := fieldOf 16 46 w
  join := fieldOf 16 30 w

/-! ## Encoder -/

/-- The 128-bit word of an instruction word or terminal, from Tables 3-1, 3-5, 3-6, 3-8, 3-10 to 3-19; events have none. -/
def encode : Instr → Option W128
  | .nop f => some (f.bits 0x000)
  | .meet f => some (f.bits 0x001)
  | .meetx f => some (f.bits 0x002)
  | .loop f => some (f.bits 0x003)
  | .lbrk f => some (f.bits 0x004)
  | .yield f => some (f.bits 0x005)
  | .nap f => some (f.bits 0x006)
  | .trap f => some (f.bits 0x007)
  | .spawn f => some (f.bits 0x008)
  | .joinc f => some (f.bits 0x009)
  | .post f => some (f.bits 0x00a)
  | .sysrd f => some (f.bits 0x00b)
  | .syswr f => some (f.bits 0x00c)
  | .snap f => some (f.bits 0x00d)
  | .seed f => some (f.bits 0x00e)
  | .flagrd f => some (f.bits 0x00f)
  | .flagclr f => some (f.bits 0x010)
  | .wfmt f => some (f.bits 0x011)
  | .rfmt f => some (f.bits 0x012)
  | .segrd f => some (f.bits 0x013)
  | .iadd f => some (f.bits 0x040)
  | .isub f => some (f.bits 0x041)
  | .imul f => some (f.bits 0x042)
  | .imulh f => some (f.bits 0x043)
  | .imad f => some (f.bits 0x044)
  | .iabs f => some (f.bits 0x045)
  | .ineg f => some (f.bits 0x046)
  | .imin f => some (f.bits 0x047)
  | .imax f => some (f.bits 0x048)
  | .iaddw f => some (f.bits 0x049)
  | .isubw f => some (f.bits 0x04a)
  | .shl f => some (f.bits 0x050)
  | .shr f => some (f.bits 0x051)
  | .sar f => some (f.bits 0x052)
  | .rot f => some (f.bits 0x053)
  | .fshf f => some (f.bits 0x054)
  | .and f => some (f.bits 0x058)
  | .or f => some (f.bits 0x059)
  | .xor f => some (f.bits 0x05a)
  | .andn f => some (f.bits 0x05b)
  | .lop3 f => some (f.bits 0x05c)
  | .popc f => some (f.bits 0x060)
  | .clz f => some (f.bits 0x061)
  | .ctz f => some (f.bits 0x062)
  | .brev f => some (f.bits 0x063)
  | .bfx f => some (f.bits 0x064)
  | .bfi f => some (f.bits 0x065)
  | .mov f => some (f.bits 0x068)
  | .movi f => some (f.bits 0x069)
  | .movh f => some (f.bits 0x06a)
  | .sel f => some (f.bits 0x06b)
  | .icmp f => some (f.bits 0x070)
  | .ppop f => some (f.bits 0x078)
  | .pdup f => some (f.bits 0x079)
  | .pnot f => some (f.bits 0x07a)
  | .pand f => some (f.bits 0x07b)
  | .por f => some (f.bits 0x07c)
  | .pxor f => some (f.bits 0x07d)
  | .pswap f => some (f.bits 0x07e)
  | .pset f => some (f.bits 0x07f)
  | .ptov f => some (f.bits 0x080)
  | .vtop f => some (f.bits 0x081)
  | .shfl f => some (f.bits 0x088)
  | .bcast f => some (f.bits 0x089)
  | .vote f => some (f.bits 0x08a)
  | .wred f => some (f.bits 0x08b)
  | .eadd f => some (f.bits 0x0c0)
  | .esub f => some (f.bits 0x0c1)
  | .emul f => some (f.bits 0x0c2)
  | .efma f => some (f.bits 0x0c3)
  | .emulz f => some (f.bits 0x0c4)
  | .efmaz f => some (f.bits 0x0c5)
  | .emin f => some (f.bits 0x0c6)
  | .emax f => some (f.bits 0x0c7)
  | .eabs f => some (f.bits 0x0c8)
  | .eneg f => some (f.bits 0x0c9)
  | .ecpys f => some (f.bits 0x0ca)
  | .eclass f => some (f.bits 0x0cb)
  | .escale f => some (f.bits 0x0cc)
  | .eround f => some (f.bits 0x0cd)
  | .ecmp f => some (f.bits 0x0ce)
  | .ecmpm f => some (f.bits 0x0cf)
  | .eblend f => some (f.bits 0x0d0)
  | .ecvt f => some (f.bits 0x0d1)
  | .edot f => some (f.bits 0x0d2)
  | .esumw f => some (f.bits 0x0d3)
  | .rcp f => some (f.bits 0x100)
  | .rsq f => some (f.bits 0x101)
  | .sqrt f => some (f.bits 0x102)
  | .exp2 f => some (f.bits 0x103)
  | .log2 f => some (f.bits 0x104)
  | .sin f => some (f.bits 0x105)
  | .cos f => some (f.bits 0x106)
  | .tanh f => some (f.bits 0x107)
  | .sld f => some (f.bits 0x140)
  | .sst f => some (f.bits 0x141)
  | .sldw f => some (f.bits 0x142)
  | .sstw f => some (f.bits 0x143)
  | .sldp f => some (f.bits 0x144)
  | .sstp f => some (f.bits 0x145)
  | .cld f => some (f.bits 0x148)
  | .cst f => some (f.bits 0x149)
  | .catom f => some (f.bits 0x14a)
  | .qld f => some (f.bits 0x150)
  | .qldp f => some (f.bits 0x151)
  | .qst f => some (f.bits 0x152)
  | .qstp f => some (f.bits 0x153)
  | .qpop f => some (f.bits 0x154)
  | .qcfg f => some (f.bits 0x155)
  | .push f => some (f.bits 0x158)
  | .pop f => some (f.bits 0x159)
  | .qtry f => some (f.bits 0x15a)
  | .qallow f => some (f.bits 0x15b)
  | .wellinit f => some (f.bits 0x160)
  | .arrive f => some (f.bits 0x161)
  | .waitg f => some (f.bits 0x162)
  | .atom f => some (f.bits 0x1c0)
  | .red f => some (f.bits 0x1c1)
  | .dred f => some (f.bits 0x1c2)
  | .satom f => some (f.bits 0x1c3)
  | .fence f => some (f.bits 0x1d0)
  | .fenceX f => some (f.bits 0x1d1)
  | .clock f => some (f.bits 0x1e0)
  | .cunlock f => some (f.bits 0x1e1)
  | .pref f => some (f.bits 0x1e2)
  | .mma f => some (f.bits 0x200)
  | .mmas f => some (f.bits 0x201)
  | .tld f => some (f.bits 0x208)
  | .tst f => some (f.bits 0x209)
  | .tzero f => some (f.bits 0x20a)
  | .accalloc f => some (f.bits 0x210)
  | .accfree f => some (f.bits 0x211)
  | .acczero f => some (f.bits 0x212)
  | .accalign f => some (f.bits 0x213)
  | .accrd f => some (f.bits 0x214)
  | .accwr f => some (f.bits 0x215)
  | .accld f => some (f.bits 0x216)
  | .accst f => some (f.bits 0x217)
  | .pwset f => some (f.bits 0x220)
  | .gang f => some (f.bits 0x221)
  | .xcmdSgo f => some (f.bits 0x00)
  | .xcmdSstat f => some (f.bits 0x01)
  | .xcmdSsusp f => some (f.bits 0x02)
  | .xcmdSres f => some (f.bits 0x03)
  | .xcmdSabort f => some (f.bits 0x04)
  | .xcmdScreg f => some (f.bits 0x20)
  | .xcmdScunreg f => some (f.bits 0x21)
  | .xcmdScdesc f => some (f.bits 0x22)
  | .xcmdScpref f => some (f.bits 0x23)
  | .xcmdRparam f => some (f.bits 0x30)
  | .xcmdRstat f => some (f.bits 0x31)
  | .xcmdRhalt f => some (f.bits 0x32)
  | .xcmdRrate f => some (f.bits 0x33)
  | .xcmdFmcast f => some (f.bits 0x40)
  | .xcmdFwarr f => some (f.bits 0x41)
  | .xcmdFmwarr f => some (f.bits 0x42)
  | .xcmdMrel f => some (f.bits 0x50)
  | .xcmdMsweep f => some (f.bits 0x51)
  | .xcmdMquota f => some (f.bits 0x52)
  | .xcmdMquotard f => some (f.bits 0x53)
  | .xcmdYseed f => some (f.bits 0x60)
  | .xcmdYsnap f => some (f.bits 0x61)
  | .xcmdYmigr f => some (f.bits 0x62)
  | .xcmdUnassignedCode f func => some (f.bits func)
  | .hintWord opc rest => some (0b1110#4 ++ opc ++ rest)
  | .fall h => some (h.bits 0)
  | .jmp h => some (h.bits 1)
  | .brp h => some (h.bits 2)
  | .brx h => some (h.bits 3)
  | .call h => some (h.bits 4)
  | .ret h => some (h.bits 5)
  | .exit h => some (h.bits 6)
  | .endl h => some (h.bits 7)
  | .clauseDecode _ => none
  | .bundleFormation _ _ => none
  | .overdue _ => none
  | .flagCompletion _ => none
  | .napEnd _ _ _ => none
  | .meetingRelease _ _ _ => none
  | .rendezvousRelease _ _ _ => none
  | .instanceRun _ => none
  | .epochBoundary => none
  | .teamHeld _ _ => none
  | .faultRecordWrite => none
  | .teamResourceRelease _ _ => none
  | .teamRetirement _ _ => none
  | .gridRetirement _ => none
  | .liveGridNumberFree _ => none
  | .sqdb _ _ => none
  | .sqctlWrite _ _ => none
  | .packetServe => none
  | .launchPacket _ => none
  | .graphPacket _ => none
  | .graphNodeAdvance _ => none
  | .teamPlacement => none
  | .placementWaitLimit => none
  | .preemption _ _ => none
  | .preemptionSave _ _ => none
  | .preemptionLimit _ _ => none
  | .resumption _ _ => none
  | .resume _ _ => none
  | .endGrid _ _ => none
  | .save _ _ => none
  | .frhead _ => none
  | .invctlGo _ => none
  | .invalidationComplete => none
  | .contextEn _ _ => none
  | .migctlGo => none
  | .snapctlArm => none
  | .snapctlTrig => none
  | .devctlRst => none
  | .registerWrite _ _ => none
  | .attest => none
  | .stageFirmware _ => none
  | .loadKeySlot => none
  | .identityCertificate => none
  | .clearFenceRecord => none
  | .fullReset => none
  | .d3hotEntry => none
  | .powerCheck _ _ _ => none
  | .thermalTrip _ _ _ => none
  | .unitFence _ _ => none
  | .l2Access _ => none
  | .rehome _ => none
  | .rehomeRetry _ => none
  | .atomicAtHome _ => none
  | .redApplication _ => none
  | .pressContribution _ => none
  | .wellArrival _ => none
  | .scribeArrival _ _ => none
  | .scribeEarlyEnd _ _ => none
  | .scribeContinue _ _ => none
  | .accessClause _ _ _ => none
  | .packetInjection _ => none
  | .flitArrival _ _ _ => none
  | .acknowledgement _ => none
  | .hoopTimeout _ => none
  | .fabricPressureUpdate => none
  | .linkRetry _ => none
  | .linkRetrain _ => none
  | .linkTraining _ _ => none
  | .hostWindowRequest _ _ => none
  | .peerWindowRequest _ _ => none
  | .migrationRound _ => none
  | .migrationFrameReceive _ _ => none
  | .migrationTransportFailure _ => none
  | .supplyLoss => none
  | .softError _ _ => none

/-! ## Decode faults and limits -/

/-- The decode faults of R94 with their operand detail (Table 14-3). B0 has no experimental opcode, so LIFETIME cannot arise
at decode (R95, R96). -/
inductive DecodeFault where
  | clauseFormat (detail : Nat)
  | illegalOpcode (opc : Nat)
  | reservedField (bit : Nat)
  | illegalOperand (field value : Nat)
deriving DecidableEq, Repr

/-- Table 2-3, the default slots. -/
def defaultFmt : List W64 :=
  [0x00000000_0501FEF1, 0x00000000_0501FCF1, 0x00000000_05003D4B, 0x00000010_08001C69, 0x00000000_05003C4B, 0x00000010_00000425,
   0x00000030_000000E1, 0x00000030_00000100, 0x00000030_00000061, 0x00000030_000003E1, 0x00000030_000001E1, 0x00000030_00000020,
   0x00000000_0501FEF1, 0x00000000_0501FEF1, 0x00000000_0501FEF1, 0x00000000_0501FEF1]

/-- R46: W = SGN + EW + MW of a slot value. -/
def fmtWidth (x : W64) : Nat :=
  (x.extractLsb' 0 1).toNat + (x.extractLsb' 1 4).toNat + (x.extractLsb' 5 5).toNat

/-- R61: elements per register. -/
def fmtElems (x : W64) : Nat := 64 / fmtWidth x

/-- What a word's decode takes from the team and warp: VPW (R24), KN (R29), the tile count (R28) and the slots in force. -/
structure Limits where
  vpw : Nat := 320
  kn : Nat := 64
  tiles : Nat := 8
  fmt : List W64 := defaultFmt
deriving DecidableEq, Repr

def Limits.slot (lim : Limits) (n : Nat) : W64 := lim.fmt.getD n 0

/-- The operand classes an instruction accepts in a field (R81). -/
inductive Cls where
  /-- Field unused: must be zero (R78). -/
  | none
  /-- Vector, team-uniform or %zero. -/
  | vkz
  /-- Vector or team-uniform. -/
  | vk
  /-- Vector or %zero. -/
  | vz
  /-- Vector. -/
  | v
  /-- Even vector pair (R27). -/
  | pair
  /-- Vector, team-uniform, special, immediate. -/
  | any
  /-- Vector, team-uniform or special. -/
  | r
  /-- Vector, team-uniform or immediate. -/
  | vki
  /-- Team-uniform or %zero. -/
  | kz
  /-- Team-uniform, immediate or %zero. -/
  | kzi
  /-- Team-uniform. -/
  | k
  /-- Tile. -/
  | m
  /-- Tile or team-uniform. -/
  | mk
  /-- Window. -/
  | a
deriving DecidableEq, Repr

/-- Classes that accept the immediate. -/
def Cls.takesImm : Cls → Bool
  | .any => true
  | .vki => true
  | .kzi => true
  | _ => false

/-- Whether a class accepts the field value `n` with `span` consecutive registers (R24, R27, R28, R29, R37, R80). -/
def Cls.accepts (c : Cls) (lim : Limits) (span n : Nat) : Bool :=
  if n < 320 then
    match c with
    | .pair => n % 2 == 0 && decide (n + 1 < lim.vpw)
    | .vkz | .vk | .vz | .v | .any | .r | .vki => decide (n + span ≤ lim.vpw)
    | _ => false
  else if n < 384 then
    match c with
    | .vkz | .vk | .any | .r | .vki | .kz | .kzi | .k | .mk => decide (n - 320 + span ≤ lim.kn)
    | _ => false
  else if n < 392 then
    match c with
    | .m | .mk => decide (n - 384 < lim.tiles)
    | _ => false
  else if n < 408 then c == .a
  else if n == 408 then
    match c with
    | .vkz | .vz | .any | .r | .kz | .kzi => true
    | _ => false
  else if n < 415 then c == .any || c == .r
  else n == 415 && c.takesImm

/-! ## The opcode rows -/

def bitsMask (n lo : Nat) : W128 := (BitVec.ofNat 128 (2 ^ n - 1)) <<< lo
def mFS : W128 := bitsMask 4 109
def mWidth : W128 := bitsMask 2 109
def mFL : W128 := bitsMask 1 68
def mRU : W128 := bitsMask 1 67
def mMod (m : Nat) : W128 := BitVec.ofNat 128 (m % 8) <<< 64
def mImm : W128 := bitsMask 32 32
def mSys : W128 := bitsMask 12 20
def mFS2 : W128 := bitsMask 4 28
def mSel : W128 := bitsMask 6 22
def mSel3 : W128 := bitsMask 3 22
def mSub : W128 := bitsMask 6 16
def mLut : W128 := bitsMask 8 8
def mSeg : W128 := bitsMask 4 28
def mScope : W128 := bitsMask 3 25
def mHint : W128 := bitsMask 2 23
def mOpx : W128 := bitsMask 7 16
def mQn : W128 := bitsMask 5 11
def mSz : W128 := bitsMask 3 8
def mKf : W128 := bitsMask 8 24
def mAux5 : W128 := bitsMask 5 16
def mFunc : W128 := bitsMask 7 25
def mCh : W128 := bitsMask 3 22

/-- One opcode's encoding rule: the non-operand bits it may set, the class of each operand field, the registers a field
spans, and further value rules, each with the bit it offends at. -/
structure Row where
  mask : W128 := 0
  d : Cls := .none
  a : Cls := .none
  b : Cls := .none
  c : Cls := .none
  dSpan : Nat := 1
  aSpan : Nat := 1
  bSpan : Nat := 1
  bad : List (Bool × Nat) := []
deriving DecidableEq, Repr

/-- The lowest set bit at or above `lo` of an n-bit field, or `lo` when the field is zero: the offending bit of an illegal
field value. -/
def offend (w : W128) (n lo : Nat) : Nat :=
  ((List.range n).find? fun i => w.getLsbD (lo + i)).elim lo (lo + ·)

/-- A value rule on the n-bit field at `lo`. -/
def rule (w : W128) (n lo : Nat) (illegal : Nat → Bool) : Bool × Nat :=
  (illegal (fieldOf n lo w).toNat, offend w n lo)

/-- Table 4-3: the system register numbers. -/
def sysregListed (n : Nat) : Bool :=
  n < 0x008 || (0x010 ≤ n && n < 0x018) || n == 0x020 || (0x100 ≤ n && n ≤ 0x120)

/-- R182: the largest SEL of a conversion between slots of `ed` and `es` elements. -/
def selLimit (ed es : Nat) : Nat :=
  if ed == es then 0 else (max ed es + min ed es - 1) / min ed es - 1

def selRule (lim : Limits) (w : W128) : Bool × Nat :=
  rule w 6 22 fun j => decide (selLimit (fmtElems (lim.slot (fieldOf 4 109 w).toNat)) (fmtElems (lim.slot (fieldOf 4 28 w).toNat)) < j)

/-- Tables 3-8 and 7-7: SZ at most 100, .sx only below 8 bytes (R194), HINT below 11, SCOPE within [slo, shi]. -/
def szRule (w : W128) : Bool × Nat := rule w 3 8 (4 < ·)
def sxRule (w : W128) : Bool × Nat := (w.getLsbD 64 && decide (3 ≤ (fieldOf 3 8 w).toNat), 64)
def hintRule (w : W128) : Bool × Nat := rule w 2 23 (· == 3)
def scopeRule (w : W128) (slo shi : Nat) : Bool × Nat := rule w 3 25 fun s => s < slo || shi < s

/-- R197: a packed count above E of the slot in force. -/
def countRule (lim : Limits) (w : W128) : Bool × Nat :=
  rule w 7 16 (fmtElems (lim.slot (fieldOf 4 109 w).toNat) < ·)

def atomElem (opx : Nat) : Bool := 0x10 ≤ opx && opx ≤ 0x12

/-- R218, Table 7-5: operation, size and slot of an atomic. -/
def atomRules (lim : Limits) (w : W128) (rmw : Bool) : List (Bool × Nat) :=
  let op := (fieldOf 7 16 w).toNat
  let sz := (fieldOf 3 8 w).toNat
  let listed := op ≤ 7 || (rmw && (op == 8 || op == 9)) || atomElem op
  let sizeOk :=
    if atomElem op then sz ≤ 3 && decide (fmtWidth (lim.slot (fieldOf 4 109 w).toNat) ≤ 8 * 2 ^ sz)
    else sz == 2 || sz == 3 || (op == 9 && sz == 4)
  [(!listed, offend w 7 16), (listed && !sizeOk, offend w 3 8),
   (listed && !atomElem op && (fieldOf 4 109 w).toNat != 0, offend w 4 109)]

/-- The data class of an access of the word's size: a pair for 16 bytes (R194). -/
def dataCls (w : W128) (c : Cls) : Cls := if fieldOf 3 8 w == 4 then .pair else c

/-- R252: AUX of a group M memory operand: .sp with SEG other than 0 is refused. -/
def auxRule (w : W128) : Bool × Nat := (w.getLsbD 20 && fieldOf 4 16 w != 0, offend w 4 16)

/-- Table 8-10: the function codes that name a command. -/
def funcListed (n : Nat) : Bool :=
  n < 5 || (0x20 ≤ n && n < 0x24) || (0x30 ≤ n && n < 0x34) || (0x40 ≤ n && n < 0x43) || (0x50 ≤ n && n < 0x54) ||
    (0x60 ≤ n && n < 0x63)

/-- The row of a defined opcode; `none` for ILLEGAL_OPCODE (R95). DEDUCED (log 88): A, B and C of XCMD take the class of Table 8-11,
also in a command of Table 8-10 that has no such argument, and a code outside Table 8-10 restricts neither operands nor IMM: it raises
ENGINE at the word. -/
def rowOf (lim : Limits) (w : W128) : Option Row :=
  let mod3 := (fieldOf 3 64 w).toNat
  let subop := (fieldOf 6 16 w).toNat
  let fs := (fieldOf 4 109 w).toNat
  let slotMode := w.getLsbD 65
  let lanesW := 2 ^ (fs % 4)
  match (fieldOf 10 118 w).toNat with
  | 0x000 | 0x002 | 0x004 | 0x005 => some {}
  | 0x001 | 0x007 => some { mask := mImm }
  | 0x003 => some { mask := mImm ||| mMod 7, a := .r, bad := [rule w 3 64 (2 < ·)] }
  | 0x006 | 0x00A | 0x010 => some { a := .any }
  | 0x008 => some { mask := mFL, d := .vz, a := .vk }
  | 0x009 | 0x00F => some { d := .vkz }
  | 0x00B => some { mask := mSys, d := .vkz, bad := [rule w 12 20 (!sysregListed ·)] }
  | 0x00C => some { mask := mSys, a := .any, bad := [rule w 12 20 (!sysregListed ·)] }
  | 0x00D => some { mask := bitsMask 16 32 }
  | 0x00E => some { a := .pair }
  | 0x011 => some { mask := mFS, a := .vki }
  | 0x012 => some { mask := mFS, d := .vkz }
  | 0x013 => some { mask := mMod 7 ||| (if mod3 == 2 then 0 else mFS), d := .vkz, bad := [rule w 3 64 (2 < ·)] }
  | 0x040 | 0x041 | 0x042 => some { mask := mWidth ||| mMod 3, d := .vkz, a := .any, b := .any }
  | 0x043 | 0x047 | 0x048 | 0x053 => some { mask := mWidth ||| mMod 1, d := .vkz, a := .any, b := .any }
  | 0x044 => some { mask := mWidth ||| mMod 3, d := .vkz, a := .any, b := .any, c := .any }
  | 0x045 | 0x046 => some { mask := mWidth ||| mMod 3, d := .vkz, a := .any }
  | 0x049 | 0x04A => some { mask := mMod 4, d := .pair, a := .pair, b := .pair }
  | 0x050 | 0x051 | 0x052 => some { mask := mWidth, d := .vkz, a := .any, b := .any }
  | 0x054 => some { mask := mMod 1, d := .vkz, a := .any, b := .any, c := .any }
  | 0x058 | 0x059 | 0x05A | 0x05B => some { d := .vkz, a := .any, b := .any }
  | 0x05C => some { mask := mLut, d := .vkz, a := .any, b := .any, c := .any }
  | 0x060 | 0x061 | 0x062 | 0x063 => some { mask := mWidth, d := .vkz, a := .any }
  | 0x064 => some { mask := mMod 1, d := .vkz, a := .any, b := .any }
  | 0x065 => some { d := .vkz, a := .any, b := .any, c := .any }
  | 0x068 => some { d := .vkz, a := .any }
  | 0x069 | 0x06A => some { mask := mImm, d := .vkz }
  | 0x06B => some { mask := mSel3, d := .vkz, a := .any, b := .any }
  | 0x070 => some { mask := mWidth ||| mMod 1 ||| mSub ||| mSel, a := .any, b := .any,
                    bad := [rule w 6 16 (5 < ·), rule w 6 22 (lanesW ≤ ·)] }
  | 0x078 => some {}
  | 0x079 | 0x07A => some { mask := mSel3 }
  | 0x07B | 0x07C | 0x07D | 0x07E => some { mask := mSel }
  | 0x07F => some { a := .any }
  | 0x080 => some { d := .vkz }
  | 0x081 => some { mask := mSel, a := .any }
  | 0x088 => some { mask := (if slotMode then mFS else mWidth) ||| mMod 6 ||| mSub, d := .v, a := .v, b := .any,
                    bad := [rule w 6 16 (3 < ·)] }
  | 0x089 => some { mask := mMod 4, d := .vkz, a := .v, b := .kzi }
  | 0x08A => some { mask := mSub ||| mSel3, d := if subop == 2 then .vkz else .none, bad := [rule w 6 16 (2 < ·)] }
  | 0x08B => some { mask := (if slotMode then mFS else mWidth) ||| mMod 3 ||| mSub, d := .vkz, a := .v,
                    bad := [rule w 6 16 fun s => if slotMode then s < 8 || 10 < s else 5 < s] }
  | 0x0C0 | 0x0C1 | 0x0C2 | 0x0C4 | 0x0C6 | 0x0C7 | 0x0CA | 0x0CC => some { mask := mFS, d := .vkz, a := .any, b := .any }
  | 0x0C3 | 0x0C5 | 0x0D0 => some { mask := mFS, d := .vkz, a := .any, b := .any, c := .any }
  | 0x0C8 | 0x0C9 => some { mask := mFS, d := .vkz, a := .any }
  | 0x0CB =>
    if mod3 % 2 == 1 then some { mask := mFS ||| mMod 1 ||| bitsMask 10 32, d := .vkz, a := .r }
    else some { mask := mFS ||| mMod 1 ||| bitsMask 10 32 ||| mSel, a := .r, bad := [rule w 6 22 (fmtElems (lim.slot fs) ≤ ·)] }
  | 0x0CD => some { mask := mFS ||| mMod 7, d := .vkz, a := .any, bad := [rule w 3 64 (5 < ·)] }
  | 0x0CE => some { mask := mFS ||| mSub ||| mSel, a := .any, b := .any,
                    bad := [rule w 6 16 (6 < ·), rule w 6 22 (fmtElems (lim.slot fs) ≤ ·)] }
  | 0x0CF => some { mask := mFS ||| mSub, d := .vkz, a := .any, b := .any, bad := [rule w 6 16 (6 < ·)] }
  | 0x0D1 => some { mask := mFS ||| mFS2 ||| mSel, d := .vkz, a := .any, bad := [selRule lim w] }
  | 0x0D2 =>
    let n := (fieldOf 4 32 w).toNat
    some { mask := mFL ||| mFS ||| mFS2 ||| mMod 1 ||| bitsMask 4 32, d := .vz, a := .v, b := .v,
           c := if mod3 % 2 == 1 then .r else .none, aSpan := n, bSpan := n, bad := [rule w 4 32 fun n => n == 0 || 8 < n] }
  | 0x0D3 => some { mask := mFL ||| mFS ||| mFS2, d := .vz, a := .v }
  | 0x100 | 0x101 | 0x102 | 0x103 | 0x104 | 0x105 | 0x106 | 0x107 =>
    some { mask := mFL ||| mFS ||| mFS2 ||| mSel, d := .vz, a := .any, bad := [selRule lim w] }
  | 0x140 => some { mask := mFL ||| mImm ||| mMod 1 ||| mSz, d := dataCls w .vz, a := .r, bad := [szRule w, sxRule w] }
  | 0x141 => some { mask := mImm ||| mSz, a := .r, b := dataCls w .r, bad := [szRule w] }
  | 0x142 => some { mask := mFL ||| mImm ||| mSz ||| bitsMask 4 16, d := .vz, a := .r,
                    dSpan := (fieldOf 4 16 w).toNat + 1, bad := [rule w 3 8 (· != 3)] }
  | 0x143 => some { mask := mImm ||| mSz ||| bitsMask 4 16, a := .r, b := .vz,
                    bSpan := (fieldOf 4 16 w).toNat + 1, bad := [rule w 3 8 (· != 3)] }
  | 0x144 => some { mask := mFL ||| mFS ||| mImm ||| mOpx, d := .vz, a := .r, b := .r, bad := [countRule lim w] }
  | 0x145 => some { mask := mFS ||| mImm ||| mOpx, a := .r, b := .r, c := .vk, bad := [countRule lim w] }
  | 0x148 => some { mask := mFL ||| mImm ||| mMod 1 ||| mSz, d := dataCls w .vz, a := .r, c := .vkz, bad := [szRule w, sxRule w] }
  | 0x149 => some { mask := mImm ||| mSz, a := .r, b := dataCls w .r, c := .vkz, bad := [szRule w] }
  | 0x14A => some { mask := mFL ||| mFS ||| mImm ||| mOpx ||| mSz, d := dataCls w .vz, a := .r, b := dataCls w .r, c := .vkz,
                    bad := szRule w :: atomRules lim w true }
  | 0x150 => some { mask := mImm ||| mMod 1 ||| mSeg ||| mHint ||| mQn ||| mSz, a := .r, bad := [szRule w, sxRule w, hintRule w] }
  | 0x151 => some { mask := mFS ||| mImm ||| mSeg ||| mHint ||| mOpx ||| mQn, a := .r, b := .r, bad := [hintRule w, countRule lim w] }
  | 0x152 => some { mask := mFL ||| mImm ||| mSeg ||| mScope ||| mHint ||| mQn ||| mSz, a := .r, b := dataCls w .r,
                    bad := [szRule w, hintRule w, scopeRule w 0 5] }
  | 0x153 => some { mask := mFL ||| mFS ||| mImm ||| mSeg ||| mScope ||| mHint ||| mOpx ||| mQn, a := .r, b := .r, c := .vk,
                    bad := [hintRule w, scopeRule w 0 5, countRule lim w] }
  | 0x154 => some { mask := mFL ||| mQn ||| mSz, d := dataCls w .vz, bad := [szRule w] }
  | 0x155 => some { mask := mImm ||| mMod 7 ||| mQn, a := .kz, b := .kz, bad := [rule w 3 64 (4 < ·)] }
  | 0x158 | 0x15B => some { mask := mQn, b := .any }
  | 0x159 | 0x15A => some { mask := mQn, d := .vkz }
  | 0x160 => some { mask := mImm, a := .r, b := .r }
  | 0x161 =>
    if mod3 % 2 == 1 then some { mask := mImm ||| mMod 1 ||| mScope, a := .r, b := .r, c := .vkz, bad := [scopeRule w 2 2] }
    else some { mask := mImm ||| mMod 1 ||| mScope, a := .r, b := .r, bad := [scopeRule w 1 2] }
  | 0x162 => some { mask := mImm ||| mScope, d := .vz, a := .r, b := .r, bad := [scopeRule w 1 2] }
  | 0x1C0 => some { mask := mFL ||| mFS ||| mImm ||| mSeg ||| mHint ||| mOpx ||| mSz, d := dataCls w .vz, a := .r, b := dataCls w .r,
                    bad := szRule w :: hintRule w :: atomRules lim w true }
  | 0x1C1 | 0x1C2 => some { mask := mFS ||| mImm ||| mSeg ||| mHint ||| mOpx ||| mSz, a := .r, b := .r,
                            bad := szRule w :: hintRule w :: atomRules lim w false }
  | 0x1C3 => some { mask := mFL ||| mFS ||| mImm ||| mOpx ||| mSz, d := dataCls w .vz, a := .r, b := dataCls w .r,
                    bad := szRule w :: atomRules lim w true }
  | 0x1D0 => some { mask := mMod 7 ||| mScope, bad := [rule w 3 64 (2 < ·), scopeRule w 1 5] }
  | 0x1D1 => some { mask := mMod 7 ||| mScope ||| mOpx,
                    bad := [rule w 3 64 (2 < ·), scopeRule w 1 5,
                            rule w 7 16 fun m => ((List.range 7).filter fun i => m.testBit i).length < 2] }
  | 0x1E0 | 0x1E1 => some { mask := mFL ||| mImm ||| mMod 1 ||| mSeg, d := .vz, a := .r }
  | 0x1E2 => some { mask := mImm ||| mMod 7 ||| mSeg ||| mHint, a := .r, bad := [rule w 3 64 (2 < ·), hintRule w] }
  | 0x200 => some { mask := mFL ||| mRU ||| mMod 1 ||| mKf, d := .a, a := .pair, b := .mk, bSpan := 2,
                    bad := [rule w 8 24 fun k => k == 0 || 128 < k] }
  | 0x201 => some { mask := mFL ||| mRU ||| mMod 1 ||| mKf, d := .a, a := .pair, b := .mk, c := .k, bSpan := 2,
                    bad := [rule w 8 24 (· != 128)] }
  | 0x208 => some { mask := mFL ||| mImm ||| mAux5, d := .m, a := .r, bad := [auxRule w] }
  | 0x209 => some { mask := mFL ||| mImm ||| mAux5, a := .r, b := .m, bad := [auxRule w] }
  | 0x20A => some { d := .m }
  | 0x210 => some { d := .a, a := .vk }
  | 0x211 => some { mask := mFL, d := .a }
  | 0x212 => some { mask := mFL ||| mMod 7, d := .a, bad := [rule w 3 64 (2 < ·)] }
  | 0x213 => some { mask := mFL, d := .a, a := .r }
  | 0x214 => some { mask := mFL ||| mMod 3 ||| (if mod3 % 2 == 1 then 0 else mFS), d := if mod3 % 2 == 1 then .pair else .vz,
                    a := .a, b := .r, c := if mod3 / 2 % 2 == 1 then .r else .none }
  | 0x215 => some { mask := mFL ||| mMod 3 ||| (if mod3 % 2 == 1 then 0 else mFS), d := .a, a := .r,
                    b := if mod3 % 2 == 1 then .pair else .v, c := if mod3 / 2 % 2 == 1 then .r else .none }
  | 0x216 => some { mask := mFL ||| mFS ||| mMod 2 ||| mAux5 ||| mImm, d := .a, a := .r,
                    c := if mod3 / 2 % 2 == 1 then .r else .none, bad := [auxRule w] }
  | 0x217 => some { mask := mFL ||| mFS ||| mMod 2 ||| mAux5 ||| mImm, a := .r, b := .a,
                    c := if mod3 / 2 % 2 == 1 then .r else .none, bad := [auxRule w] }
  | 0x220 => some { mask := mFS ||| mMod 7 ||| mAux5, d := .a, bad := [rule w 3 64 (5 < ·)] }
  | 0x221 => some { a := .any }
  | 0x240 =>
    let func := (fieldOf 7 25 w).toNat
    let imm := if !funcListed func || func == 0x40 then mImm else if func == 0x50 || func == 0x51 then bitsMask 4 32 else 0
    some { mask := mFL ||| mFunc ||| (if func < 0x20 then mCh else 0) ||| imm, d := .vz, a := .r, b := .r, c := .r }
  | _ => none

/-! ## Checking one word -/

def clsMask (c : Cls) (lo : Nat) : W128 := if c == .none then 0 else bitsMask 10 lo

/-- The bits of the word that may be nonzero: opcode, guard, the fields it uses, IMM when an operand takes it, and the D field
of the last word of a brx clause (R78, R79, R81, R92). -/
def Row.allowed (r : Row) (brx : Bool) (w : W128) : W128 :=
  let takes := (r.a.takesImm && fieldOf 10 89 w == 415) || (r.b.takesImm && fieldOf 10 79 w == 415) ||
    (r.c.takesImm && fieldOf 10 69 w == 415)
  bitsMask 10 118 ||| (if w.getLsbD 117 then bitsMask 5 113 else 0) ||| r.mask |||
    (if brx then bitsMask 10 99 else clsMask r.d 99) ||| clsMask r.a 89 ||| clsMask r.b 79 ||| clsMask r.c 69 |||
    (if takes then mImm else 0)

def lowestSet (w : W128) : Option Nat := (List.range 128).find? fun i => w.getLsbD i

/-- Table 14-3: the lowest offending bit of a word under its row. -/
def Row.reserved (r : Row) (brx : Bool) (w : W128) : Option Nat :=
  ((lowestSet (w &&& ~~~ r.allowed brx w)).toList ++ (r.bad.filter (·.1)).map (·.2)).min?

/-- The lowest field whose operand the instruction or the brx terminal does not accept. -/
def Row.illegal (r : Row) (lim : Limits) (brx : Bool) (w : W128) : Option (Nat × Nat) :=
  let d := (fieldOf 10 99 w).toNat
  let a := (fieldOf 10 89 w).toNat
  let b := (fieldOf 10 79 w).toNat
  let c := (fieldOf 10 69 w).toNat
  if (r.d != .none && !r.d.accepts lim r.dSpan d) || (brx && !Cls.vk.accepts lim 1 d) then some (0, d)
  else if r.a != .none && !r.a.accepts lim r.aSpan a then some (1, a)
  else if r.b != .none && !r.b.accepts lim (if b < 320 then r.bSpan else if r.b == .mk then 2 else 1) b then some (2, b)
  else if r.c != .none && !r.c.accepts lim 1 c then some (3, c)
  else none

def isHint (w : W128) : Bool := fieldOf 4 124 w == 0b1110

/-- R94 within one word, the clause rules of R476 apart; `brx` marks the last word of a clause whose terminal is brx. -/
def checkWord (lim : Limits) (brx : Bool) (w : W128) : Option DecodeFault :=
  if fieldOf 10 118 w == 0x3FF then some (.clauseFormat 3)
  else if isHint w then
    if brx && !Cls.vk.accepts lim 1 (fieldOf 10 99 w).toNat then some (.illegalOperand 0 (fieldOf 10 99 w).toNat) else none
  else match rowOf lim w with
    | none => some (.illegalOpcode (fieldOf 10 118 w).toNat)
    | some r => match r.reserved brx w with
      | some bit => some (.reservedField bit)
      | none => (r.illegal lim brx w).map fun p => .illegalOperand p.1 p.2

/-- The command of group X that a function code names (Table 8-10). -/
def buildX (f : XBody) (func : BitVec 7) : Instr :=
  match func.toNat with
  | 0x00 => .xcmdSgo f
  | 0x01 => .xcmdSstat f
  | 0x02 => .xcmdSsusp f
  | 0x03 => .xcmdSres f
  | 0x04 => .xcmdSabort f
  | 0x20 => .xcmdScreg f
  | 0x21 => .xcmdScunreg f
  | 0x22 => .xcmdScdesc f
  | 0x23 => .xcmdScpref f
  | 0x30 => .xcmdRparam f
  | 0x31 => .xcmdRstat f
  | 0x32 => .xcmdRhalt f
  | 0x33 => .xcmdRrate f
  | 0x40 => .xcmdFmcast f
  | 0x41 => .xcmdFwarr f
  | 0x42 => .xcmdFmwarr f
  | 0x50 => .xcmdMrel f
  | 0x51 => .xcmdMsweep f
  | 0x52 => .xcmdMquota f
  | 0x53 => .xcmdMquotard f
  | 0x60 => .xcmdYseed f
  | 0x61 => .xcmdYsnap f
  | 0x62 => .xcmdYmigr f
  | _ => .xcmdUnassignedCode f func

/-- The instruction a checked word stands for. -/
def buildWord (w : W128) : Option Instr :=
  if isHint w then some (.hintWord (fieldOf 6 118 w) (fieldOf 118 0 w)) else
  match (fieldOf 10 118 w).toNat with
  | 0x000 => some (.nop (.of w))
  | 0x001 => some (.meet (.of w))
  | 0x002 => some (.meetx (.of w))
  | 0x003 => some (.loop (.of w))
  | 0x004 => some (.lbrk (.of w))
  | 0x005 => some (.yield (.of w))
  | 0x006 => some (.nap (.of w))
  | 0x007 => some (.trap (.of w))
  | 0x008 => some (.spawn (.of w))
  | 0x009 => some (.joinc (.of w))
  | 0x00a => some (.post (.of w))
  | 0x00b => some (.sysrd (.of w))
  | 0x00c => some (.syswr (.of w))
  | 0x00d => some (.snap (.of w))
  | 0x00e => some (.seed (.of w))
  | 0x00f => some (.flagrd (.of w))
  | 0x010 => some (.flagclr (.of w))
  | 0x011 => some (.wfmt (.of w))
  | 0x012 => some (.rfmt (.of w))
  | 0x013 => some (.segrd (.of w))
  | 0x040 => some (.iadd (.of w))
  | 0x041 => some (.isub (.of w))
  | 0x042 => some (.imul (.of w))
  | 0x043 => some (.imulh (.of w))
  | 0x044 => some (.imad (.of w))
  | 0x045 => some (.iabs (.of w))
  | 0x046 => some (.ineg (.of w))
  | 0x047 => some (.imin (.of w))
  | 0x048 => some (.imax (.of w))
  | 0x049 => some (.iaddw (.of w))
  | 0x04a => some (.isubw (.of w))
  | 0x050 => some (.shl (.of w))
  | 0x051 => some (.shr (.of w))
  | 0x052 => some (.sar (.of w))
  | 0x053 => some (.rot (.of w))
  | 0x054 => some (.fshf (.of w))
  | 0x058 => some (.and (.of w))
  | 0x059 => some (.or (.of w))
  | 0x05a => some (.xor (.of w))
  | 0x05b => some (.andn (.of w))
  | 0x05c => some (.lop3 (.of w))
  | 0x060 => some (.popc (.of w))
  | 0x061 => some (.clz (.of w))
  | 0x062 => some (.ctz (.of w))
  | 0x063 => some (.brev (.of w))
  | 0x064 => some (.bfx (.of w))
  | 0x065 => some (.bfi (.of w))
  | 0x068 => some (.mov (.of w))
  | 0x069 => some (.movi (.of w))
  | 0x06a => some (.movh (.of w))
  | 0x06b => some (.sel (.of w))
  | 0x070 => some (.icmp (.of w))
  | 0x078 => some (.ppop (.of w))
  | 0x079 => some (.pdup (.of w))
  | 0x07a => some (.pnot (.of w))
  | 0x07b => some (.pand (.of w))
  | 0x07c => some (.por (.of w))
  | 0x07d => some (.pxor (.of w))
  | 0x07e => some (.pswap (.of w))
  | 0x07f => some (.pset (.of w))
  | 0x080 => some (.ptov (.of w))
  | 0x081 => some (.vtop (.of w))
  | 0x088 => some (.shfl (.of w))
  | 0x089 => some (.bcast (.of w))
  | 0x08a => some (.vote (.of w))
  | 0x08b => some (.wred (.of w))
  | 0x0c0 => some (.eadd (.of w))
  | 0x0c1 => some (.esub (.of w))
  | 0x0c2 => some (.emul (.of w))
  | 0x0c3 => some (.efma (.of w))
  | 0x0c4 => some (.emulz (.of w))
  | 0x0c5 => some (.efmaz (.of w))
  | 0x0c6 => some (.emin (.of w))
  | 0x0c7 => some (.emax (.of w))
  | 0x0c8 => some (.eabs (.of w))
  | 0x0c9 => some (.eneg (.of w))
  | 0x0ca => some (.ecpys (.of w))
  | 0x0cb => some (.eclass (.of w))
  | 0x0cc => some (.escale (.of w))
  | 0x0cd => some (.eround (.of w))
  | 0x0ce => some (.ecmp (.of w))
  | 0x0cf => some (.ecmpm (.of w))
  | 0x0d0 => some (.eblend (.of w))
  | 0x0d1 => some (.ecvt (.of w))
  | 0x0d2 => some (.edot (.of w))
  | 0x0d3 => some (.esumw (.of w))
  | 0x100 => some (.rcp (.of w))
  | 0x101 => some (.rsq (.of w))
  | 0x102 => some (.sqrt (.of w))
  | 0x103 => some (.exp2 (.of w))
  | 0x104 => some (.log2 (.of w))
  | 0x105 => some (.sin (.of w))
  | 0x106 => some (.cos (.of w))
  | 0x107 => some (.tanh (.of w))
  | 0x140 => some (.sld (.of w))
  | 0x141 => some (.sst (.of w))
  | 0x142 => some (.sldw (.of w))
  | 0x143 => some (.sstw (.of w))
  | 0x144 => some (.sldp (.of w))
  | 0x145 => some (.sstp (.of w))
  | 0x148 => some (.cld (.of w))
  | 0x149 => some (.cst (.of w))
  | 0x14a => some (.catom (.of w))
  | 0x150 => some (.qld (.of w))
  | 0x151 => some (.qldp (.of w))
  | 0x152 => some (.qst (.of w))
  | 0x153 => some (.qstp (.of w))
  | 0x154 => some (.qpop (.of w))
  | 0x155 => some (.qcfg (.of w))
  | 0x158 => some (.push (.of w))
  | 0x159 => some (.pop (.of w))
  | 0x15a => some (.qtry (.of w))
  | 0x15b => some (.qallow (.of w))
  | 0x160 => some (.wellinit (.of w))
  | 0x161 => some (.arrive (.of w))
  | 0x162 => some (.waitg (.of w))
  | 0x1c0 => some (.atom (.of w))
  | 0x1c1 => some (.red (.of w))
  | 0x1c2 => some (.dred (.of w))
  | 0x1c3 => some (.satom (.of w))
  | 0x1d0 => some (.fence (.of w))
  | 0x1d1 => some (.fenceX (.of w))
  | 0x1e0 => some (.clock (.of w))
  | 0x1e1 => some (.cunlock (.of w))
  | 0x1e2 => some (.pref (.of w))
  | 0x200 => some (.mma (.of w))
  | 0x201 => some (.mmas (.of w))
  | 0x208 => some (.tld (.of w))
  | 0x209 => some (.tst (.of w))
  | 0x20a => some (.tzero (.of w))
  | 0x210 => some (.accalloc (.of w))
  | 0x211 => some (.accfree (.of w))
  | 0x212 => some (.acczero (.of w))
  | 0x213 => some (.accalign (.of w))
  | 0x214 => some (.accrd (.of w))
  | 0x215 => some (.accwr (.of w))
  | 0x216 => some (.accld (.of w))
  | 0x217 => some (.accst (.of w))
  | 0x220 => some (.pwset (.of w))
  | 0x221 => some (.gang (.of w))
  | 0x240 => some (buildX (.of w) (fieldOf 7 25 w))
  | _ => none

/-- Decode one body word. -/
def decodeWord (lim : Limits) (brx : Bool) (w : W128) : Except DecodeFault Instr :=
  match checkWord lim brx w with
  | some f => .error f
  | none => match buildWord w with
    | some i => .ok i
    | none => .error (.illegalOpcode (fieldOf 10 118 w).toNat)

/-! ## Clause headers -/

/-- Table 3-13: the target fields a terminal uses. -/
def termMask : Nat → W128
  | 1 => bitsMask 16 62
  | 2 => bitsMask 16 62 ||| bitsMask 16 46 ||| bitsMask 16 30
  | 4 => bitsMask 16 62 ||| bitsMask 16 46
  | _ => 0

/-- R90: the header checks that need nothing but the header. -/
def checkHeader (w : W128) : Option DecodeFault :=
  if fieldOf 10 118 w != 0x3FF then some (.clauseFormat 1)
  else if fieldOf 4 114 w == 0 then some (.clauseFormat 2)
  else
    let allowed := bitsMask 38 90 ||| (if w.getLsbD 90 then bitsMask 12 78 else 0) ||| termMask (fieldOf 3 91 w).toNat
    let flag (n : Nat) := 12 ≤ n && n ≤ 14
    let bad := [rule w 4 98 flag, rule w 4 94 flag]
    (((lowestSet (w &&& ~~~ allowed)).toList ++ (bad.filter (·.1)).map (·.2)).min?).map .reservedField

/-- Table 3-13: the terminal that a code names. -/
def buildTerm (h : Header) (t : Nat) : Instr :=
  match t with
  | 0 => .fall h
  | 1 => .jmp h
  | 2 => .brp h
  | 3 => .brx h
  | 4 => .call h
  | 5 => .ret h
  | 6 => .exit h
  | _ => .endl h

def decodeHeader (w : W128) : Except DecodeFault Instr :=
  match checkHeader w with
  | some f => .error f
  | none => .ok (buildTerm (.of w) (fieldOf 3 91 w).toNat)

def termOf (w : W128) : Nat := (fieldOf 3 91 w).toNat

/-! ## Clause rules -/

def opcOf (w : W128) : Nat := (fieldOf 10 118 w).toNat

/-- R119, R208, R216, R234 and R476: the CLAUSE_FORMAT detail of body word `w`, given the header and the words before it. -/
def clauseRule (hdr : W128) (before : List W128) (w : W128) : Option Nat :=
  let h := Header.of hdr
  let term := termOf hdr
  let op := opcOf w
  let had (o : Nat) : Bool := before.any (opcOf · == o)
  if op == 0x3FF then some 3
  else if op == 0x003 then if had 0x003 || had 0x004 || term != 0 then some 4 else none
  else if op == 0x004 then if had 0x003 || term == 3 || term == 4 || term == 5 || term == 6 then some 4 else none
  else if op == 0x009 then if h.len != 1 || !h.safe then some 4 else none
  else if op == 0x162 then if h.len != 1 || !h.safe then some 5 else none
  else if op == 0x158 || op == 0x159 || op == 0x200 || op == 0x201 || op == 0x220 then if h.safe then none else some 5
  else none

/-- R94 on one body word: the clause rules first, then the word's own decode. -/
def decodeBody (lim : Limits) (hdr : W128) (before : List W128) (last : Bool) (w : W128) : Except DecodeFault Instr :=
  match clauseRule hdr before w with
  | some d => .error (.clauseFormat d)
  | none => decodeWord lim (last && termOf hdr == 3) w

/-! ## Words as bytes -/

/-- Little-endian value of a list of bytes (R76). -/
def leNat : List Byte → Nat
  | [] => 0
  | b :: r => b.toNat + 256 * leNat r

/-- The n little-endian bytes of a number. -/
def leBytes : Nat → Nat → List Byte
  | 0, _ => []
  | n + 1, x => BitVec.ofNat 8 x :: leBytes n (x / 256)

/-- Decode the first 16 bytes: a header by its marker, any other word as a body word. -/
def decodeBytes (lim : Limits) (bs : List Byte) : Except DecodeFault Instr :=
  let w := BitVec.ofNat 128 (leNat (bs.take 16))
  if opcOf w == 0x3FF then decodeHeader w else decodeWord lim false w

/-- The instruction the decoder reads from a word of `nbits` bits, at the widest limits a team can have. -/
def decodeTableWord (nbits w : Nat) : Option Instr :=
  match decodeBytes {} (leBytes 16 (w % 2 ^ nbits)) with
  | .ok i => some i
  | .error _ => none

end Sys2Proof
end

