-- ==== Sys2Proof/Machine/State.lean ====
section
/-! DEFINITION. The machine's state as plain data, its fault and refusal reasons, and the state after reset. -/

namespace Sys2Proof.Machine

/-- Reasons the model stops with a fault. -/
inductive Fault where
  /-- Raised by `step` when the word a bundle holds does not decode. CLAUSE_DECODE lets no such word into a bundle, so no run reaches it. Safe. -/
  | undecodedWord
deriving DecidableEq, Repr

/-- Reasons the model refuses to move. -/
inductive Refusal where
  /-- Raised by `exec` for an instruction without a meaning. Safe. -/
  | notModelled (mnemonic : String)
  /-- Raised when the agenda or a caller names an event that cannot happen in this state, or a word that no bundle is issuing. Safe: the spec gives no step there. -/
  | notEnabled (event : String)
deriving DecidableEq, Repr

/-- What the agenda may ask for: a table event, an issue of one quadrant, or the passing of one fabric clock. -/
inductive Action where
  | event (i : Instr)
  | issue (core quad : Nat)
  | tick
deriving DecidableEq, Repr

/-- A raised fault as the record carries it (Tables 14-2 and 14-3). -/
structure Trap where
  code : Nat
  kind : Nat := 1
  detail : Nat := 0
  vaddr : Nat := 0
  aux : Nat := 0
deriving DecidableEq, Repr

/-! ## Threads, warps and teams -/

/-- One open loop level (R15, R118). -/
structure Level where
  ctr : Nat := 0
  start : Addr := 0
  last : Addr := 0
deriving DecidableEq, Repr

/-- Where a thread stands (R109, R359, R369). -/
inductive Place where
  /-- At a clause boundary, or at the word a resumption continues at. -/
  | boundary
  /-- In bundle `b`. -/
  | bundle (b : Nat)
  /-- Stopped at a fault point. -/
  | held
  | exited
deriving DecidableEq, Repr

/-- A trap that waits at the header that waits on its flag (R188, R205). -/
structure Deferred where
  flag : Option Nat := none
  trap : Trap := { code := 0 }
  /-- FP_TRAP: the EFL bits the word raised, and the clause and word that issued it as detail bits [51:16] hold them. -/
  efl : BitVec 32 := 0
  src : Nat := 0
  /-- The operation: a lower number was issued earlier; and the issue of its word. -/
  id : Nat := 0
  issue : Nat := 0
  /-- A poisoned QPOP: queue, slot and destination registers (R205). -/
  pop : Option (Nat × Nat × Option (Nat × Nat)) := none
  /-- The flags of QPOPs whose entries stand behind its entry (R204). -/
  behind : List Nat := []
deriving DecidableEq, Repr

/-- Thread state (Table 1-1) and what the part tracks per thread. -/
structure Thread where
  tid : Nat := 0
  pc : Addr := 0
  place : Place := .boundary
  /-- The word index a resumed thread continues at: 0 the header, LEN + 1 the terminal (Table 14-1). -/
  resumeAt : Nat := 0
  /-- The format slots of the clause it continues in, and the instances it contributed to there (R32, R236). -/
  resumeFmt : List W64 := []
  contrib : List Nat := []
  /-- The header and words of that clause as it fetched them, from which it finishes (R379). -/
  resumeHdr : W128 := 0
  resumeWords : List W128 := []
  /-- The kind of the fault the thread is held at. -/
  heldKind : Nat := 0
  /-- Released from a BREAKPOINT or SAFEPOINT_DISTANCE at its header, which it executes without matching (Table 14-3). -/
  exempt : Bool := false
  /-- Its next clause is the first after a RESUME (R382). -/
  stepOk : Bool := false
  /-- It was released from the rendezvous of its clause (R234). -/
  released : Bool := false
  /-- When a named queue first held it back at its header, as a stamp; 0 when none does (R208). -/
  qheld : Nat := 0
  v : SMap W64 := []
  pend : SMap (Option Nat) := []
  cf : SMap Nat := []
  pred : List Bool := []
  efl : BitVec 32 := 0
  /-- EFL bits of completed long words, by flag, that FLAGRD sees once a clause has waited on the flag (R22). -/
  eflHeld : SMap (BitVec 32) := []
  s0 : W64 := 0
  s1 : W64 := 0
  lc : SMap (BitVec 32) := []
  levels : List Level := []
  calls : List (Addr × Nat) := []
  mrJ : Addr := 0
  mrV : Bool := false
  mrRef : Nat := 0
  lbrk : Bool := false
  newLevel : Option (Level × Nat) := none
  yielded : Bool := false
  nap : Option Nat := none
  napNext : Option Nat := none
  notBefore : Nat := 0
  spd : Nat := 0
  /-- The thread raised the SAFEPOINT_DISTANCE that holds it: RESUME resets its count (Table 14-3). -/
  farOff : Bool := false
  lastSafe : Nat := 0xFFF
  /-- The address whose TRANSLATION or PROTECTION holds the thread: its retry walks afresh (Table 14-3). -/
  retryVa : Option Nat := none
  /-- The thread raised the POISON that holds it (R205). -/
  tookPoison : Bool := false
  dreds : Nat := 0
  deferred : List Deferred := []
  vpoison : List Nat := []
  /-- Per path, the earlier requests that later accesses on it wait for (R273, R274). -/
  fences : List (Path × List Nat) := []
  /-- Row-group words executed, per window and row group (R235): window + 16 × the mask of the group's warps. -/
  rg : SMap Nat := []
  /-- The FA of the latest PWSET word on each window (R237). -/
  rgFa : SMap Nat := []
  /-- The children its team had when it reached its next header (R129). -/
  joinAt : Nat := 0
deriving DecidableEq, Repr

/-- A meeting (R110): its address and its siblings. -/
structure Meeting where
  id : Nat := 0
  addr : Addr := 0
  members : List Nat := []
deriving DecidableEq, Repr

/-- Warp state (Table 1-1). -/
structure Warp where
  idx : Nat := 0
  slot : Nat := 0
  fmt : List W64 := defaultFmt
  /-- Tile columns, keyed 128 × tile + column. -/
  tiles : SMap W128 := []
  /-- Poisoned lane words of tiles, keyed 2 × (128 × tile + column) + half (R337). -/
  tilePoison : List Nat := []
deriving DecidableEq, Repr

/-- A team-uniform register with its last commit (R29, R41, R42). -/
structure KReg where
  val : W64 := 0
  old : W64 := 0
  stamp : Nat := 0
  prod : Nat := 0
  writers : List Nat := []
deriving DecidableEq, Repr

/-- Special marks of an accumulator cell (R67, R71). -/
inductive Mark where
  | none
  | pinf
  | ninf
  | nan
deriving DecidableEq, Repr

structure Cell where
  q : Int := 0
  mark : Mark := .none
  poison : Bool := false
deriving DecidableEq, Repr

/-- The precision register's contents (Table 8-2). -/
abbrev Pw := W64

/-- An accumulator window (R30, R232, R254) and what is held beside it. -/
structure Window where
  n : Nat := 0
  row0 : Nat := 0
  rows : Nat := 1
  col0 : Nat := 0
  cols : Nat := 1
  lane0 : Nat := 0
  lanes : Nat := 1
  e0 : Int := 0
  ovf : Bool := false
  pw : Pw := 0
  /-- The row group the window is bound to (R236): warp slots' indices, lowest first. -/
  binding : Option (List Nat) := none
  /-- Cells keyed 128 × row + column. -/
  cells : SMap Cell := []
deriving DecidableEq, Repr

/-- One entry of a LOAD or STORE FIFO (R202-R206). -/
structure QEntry where
  slot : Nat := 0
  bytes : Nat := 8
  ready : Bool := false
  poison : Option Trap := none
  req : Nat := 0
  /-- The outstanding QPOP that has taken it (R204). -/
  claimed : Option Nat := none
  /-- Its load, for a reissue: address, bytes fetched, extension and packing (R205). -/
  va : Nat := 0
  len : Nat := 0
  sx : Bool := false
  pack : Option (Nat × Nat × Nat) := none
deriving DecidableEq, Repr

/-- The FIFO of one thread (R202). -/
structure Fifo where
  tid : Nat := 0
  next : Nat := 0
  entries : List QEntry := []
deriving DecidableEq, Repr

/-- A queue (R201, R207): kinds are numbered as Table 7-2. -/
structure Queue where
  n : Nat := 0
  kind : Nat := 0
  depth : Nat := 0
  base : Nat := 0
  fifos : List Fifo := []
  occ : Nat := 0
  head : Nat := 0
  allow : Nat := 0
deriving DecidableEq, Repr

/-- What a member brings to a row-group instance: `op` 0 MMA, 1 MMAS, 2 PWSET; the values of kN, kN+1 and the scale selector
(R239, R247); the slots and semiring a PWSET names. -/
structure RgArg where
  op : Nat := 0
  k : Nat := 0
  b : Operand := .zero
  spec : W64 := 0
  off : W64 := 0
  sel : W64 := 0
  fa : Nat := 0
  fb : Nat := 0
  semi : Nat := 0
deriving DecidableEq, Repr

/-- A contributing row of an instance: the latched A registers and the format slots of its warp. -/
structure ARow where
  tid : Nat := 0
  regs : List W64 := []
  arg : RgArg := {}
  slots : List W64 := []
deriving DecidableEq, Repr

/-- A row-group instance: collecting contributions, or queued to run (R235, R246 to R248). -/
structure Inst where
  id : Nat := 0
  win : Nat := 0
  /-- The row group: warp indices, ascending. -/
  group : List Nat := []
  /-- Place in the sequence of its window and row group (R235). -/
  seq : Nat := 0
  rows : List ARow := []
  arrived : List Nat := []
  /-- The columns of a tile B, and its poisoned halves, as the threads of member 0 left them at their words (R253). -/
  tile : SMap W128 := []
  tileBad : List Nat := []
  queued : Bool := false
  /-- A check failed when its last members exited (R251). -/
  failed : Bool := false
  /-- The cc in which it entered the matrix queue, and the bands it occupies (R248, R364). -/
  queuedAt : Nat := 0
  bands : List Nat := []
  /-- Its step on the cells has been taken by an accumulator word that comes after it (R258). -/
  applied : Bool := false
  /-- The word as the last contributing bundle executed it. -/
  clause : Addr := 0
  widx : Nat := 0
  /-- The precision register at its place, and for an MMA or MMAS the slots, the B codes by column and the scale codes. -/
  arg : RgArg := {}
  pw : Pw := 0
  fmtA : W64 := 0
  fmtB : W64 := 0
  cols : List (List Nat) := []
  sa : List (Nat × Nat) := []
  sb : Nat := 0
deriving DecidableEq, Repr

/-- An instance that runs on its bands: its row group, its bands and the cc at which it ends (R248, R364). -/
structure Run where
  group : List Nat := []
  bands : List Nat := []
  ends : Nat := 0
deriving DecidableEq, Repr

/-- A registered scale tensor (15: R410, R411). -/
structure Handle where
  n : Nat := 0
  reg : List Byte := []
  desc : W64 := 0
  /-- Its 128-byte lines in the core's scale cache, by virtual address (R413). -/
  lines : SMap (List Byte) := []
deriving DecidableEq, Repr

/-- Where a team stands (R353, R369, R383-R388). -/
inductive Phase where
  /-- Waiting to be placed for the first time, or after a pre-emption; `held` says that it resumes held. -/
  | pending (saved held : Bool)
  | running
  /-- A fault has been raised and the team is not yet held (R369). -/
  | holding
  | held
  /-- Pre-emption has begun; `wasHeld` says that it was held before. -/
  | saving (wasHeld bySave : Bool)
  /-- Saved by TCTL and kept so. -/
  | kept (held : Bool)
  | ending
  | released
  | retired
deriving DecidableEq, Repr

/-- Team state (Table 1-1). -/
structure Team where
  grid : Nat := 0
  index : Nat := 0
  core : Nat := 0
  rank : Nat := 0
  phase : Phase := .running
  warps : List Warp := []
  threads : List Thread := []
  k : SMap KReg := []
  wins : List Window := []
  gang : List Nat := []
  queues : List Queue := []
  spad : SMap Byte := []
  spadPoison : List Nat := []
  meetings : List Meeting := []
  insts : List Inst := []
  runs : List Run := []
  handles : List Handle := []
  params : SMap W64 := []
  rateCap : Nat := 64
  /-- The access threads of its slice: their vector registers, predicate, loops and calls (R403). -/
  access : List Thread := []
  /-- Addresses formed since `rateFrom`, for the cap of R406. -/
  rateFrom : Nat := 0
  rateUsed : Nat := 0
  accessEnded : Bool := true
  supplied : Nat := 0
  /-- Children accepted so far, and those retired after a fault that no JOINC has counted yet (R129). -/
  children : Nat := 0
  faulted : Nat := 0
  /-- Swapped out for a child: it waits until none of its children is pending (R358). -/
  forChild : Bool := false
  charge : Nat := 0
  placedAt : Nat := 0
  waitingSince : Nat := 0
  savingSince : Nat := 0
  /-- Stores that this team's threads have observed, or passed on by a team release, with the path of that access (R274, R277). -/
  seen : List (Path × Nat) := []
  /-- What a long word raised in each thread that executed it, by issue and thread, while one of them may still trap on it (R188). -/
  longFlags : List (Nat × Nat × BitVec 32) := []
deriving DecidableEq, Repr

/-- A k write of a clause that has not retired (R41). -/
structure KWrite where
  n : Nat := 0
  val : W64 := 0
  prod : Nat := 0
deriving DecidableEq, Repr

/-- A bundle (R359): threads of one team at one clause. -/
structure Bundle where
  id : Nat := 0
  grid : Nat := 0
  team : Nat := 0
  core : Nat := 0
  quad : Nat := 0
  addr : Addr := 0
  /-- Members in ascending (warp slot, lane). -/
  members : List Nat := []
  decoded : Bool := false
  /-- Its clause could not be read when it formed. -/
  blind : Bool := false
  hdr : W128 := 0
  words : List W128 := []
  /-- The next word, 1 to LEN; LEN + 1 is the terminal. -/
  idx : Nat := 0
  startAt : Nat := 0
  /-- Its next word was found unable to issue in this cc (R361). -/
  stalled : Bool := false
  fmt : List W64 := defaultFmt
  kw : List KWrite := []
  /-- Named-queue reservations: queue, pops, pushes (R208). -/
  resv : List (Nat × Nat × Nat) := []
  /-- Row-group instances that its words contributed to. -/
  contrib : List Nat := []
  since : Nat := 0
  missed : Nat := 0
  overdue : Bool := false
  yielded : Bool := false
  /-- One more than the cc in which it last issued (R363). -/
  issuedAt : Nat := 0
deriving DecidableEq, Repr

/-! ## Grids -/

/-- The fields of a launch packet that its grid keeps (Tables 13-2 and 13-3). -/
structure Launch where
  code : Addr := 0
  entry : Nat := 0
  access : Nat := 0xFFFFFFFF
  gx : Nat := 1
  gy : Nat := 1
  gz : Nat := 1
  wpt : Nat := 1
  coh : Nat := 1
  vregs : Nat := 16
  kregs : Nat := 8
  tiles : Nat := 0
  accg : Nat := 0
  queues : Nat := 0
  spad : Nat := 0
  sys : Bool := false
  serial : Bool := false
  fmt : List W64 := defaultFmt
  sg : List (W64 × W64) := []
  well : Nat := 0
  result : Nat := 0
  comb : Nat := 0
  prio : Nat := 0
  spn : Nat := 0
  spoff : Nat := 0
  caoff : Nat := 0
  calen : Nat := 0
deriving DecidableEq, Repr

/-- A live grid (R346). -/
structure Grid where
  num : Nat := 0
  ctx : Nat := 0
  launch : Launch := {}
  depth : Nat := 0
  /-- The team that spawned it, and its place among that team's children (R128). -/
  parent : Option (Nat × Nat) := none
  childIdx : Nat := 0
  /-- The queue it descends from (R347), and whether it is a node of that queue's graph. -/
  queue : Nat := 0
  graphNode : Bool := false
  acceptedAt : Nat := 0
  /-- Teams placed for the first time, which are the first of the grid, and teams retired. -/
  started : Nat := 0
  done : Nat := 0
  seed : W64 := 0
  order : Nat := 0
  post : Option W64 := none
  postBy : Nat := 0
  /-- The first fault's code, and the code the grid was ended with (R347, R383). -/
  fault : Option Nat := none
  ended : Option Nat := none
  /-- The failing record's offset, when a refused image ended it (R388). -/
  endBytes : Option Nat := none
  matrixTime : Nat := 0
  /-- All its teams have retired and its completion has been delivered; the number awaits R325. -/
  retired : Bool := false
deriving DecidableEq, Repr

/-- A context's registers (Table 19-3) and its residency (R322). -/
structure Ctx where
  id : Nat := 0
  en : Bool := false
  dten : Bool := false
  snapen : Bool := false
  dovf : Bool := false
  root : W64 := 0
  seed : W64 := 0
  trapen : W64 := 0
  dtbase : W64 := 0
  qceil : W64 := 0
  spool : W64 := 0
  splen : W64 := 0
  ppool : W64 := 0
  pplen : W64 := 0
  sstep : W64 := 0
  bp : SMap W64 := []
  quota : Nat := 0
deriving DecidableEq, Repr

/-! ## Requests and long operations -/

/-- Who issued a request. -/
inductive Agent where
  | thread (grid team tid : Nat)
  | engine (grid team : Nat)
  | scribe (die ch : Nat)
  | host
deriving DecidableEq, Repr

/-- What a memory request does when it performs. Addresses are virtual; `bits` are single stream bits of a packed access. -/
inductive ReqKind where
  /-- Fills slot `slot` of a thread's FIFO of queue `q` (R203, R408). -/
  | load (tid q slot : Nat)
  /-- Stores bytes under a bit mask. -/
  | store (data mask : List Byte)
  | atom (op n x cmp : Nat) (fmt : W64)
  | red (op n x : Nat) (fmt : W64)
  /-- `slot` is the format slot of the word (R323). -/
  | dred (op n x : Nat) (fmt : W64) (g seq slot : Nat)
  | lock (msc release : Bool)
deriving DecidableEq, Repr

/-- A memory request in flight (R264-R266). -/
structure Req where
  id : Nat := 0
  path : Path := .q
  agent : Agent := .host
  ctx : Nat := 0
  core : Nat := 0
  va : Nat := 0
  len : Nat := 0
  kind : ReqKind := .store [] []
  scope : Scope := .die
  hint : Nat := 0
  sx : Bool := false
  /-- Packed loads: first bit, element width and count (R197). -/
  pack : Option (Nat × Nat × Nat) := none
  after : List Nat := []
  /-- A store that its core's L1 has taken, as every warp of the core reads it (R266, R278, R316). -/
  taken : Bool := false
  /-- Stores that the L1 took earlier and that reach the home of the same bytes first (R268). -/
  behind : List Nat := []
  /-- An acquire or full event at cohort scope or wider follows it: as it performs, its core's L1 turns stale (R317). -/
  marks : Bool := false
  /-- A release or full event at cohort scope or wider follows it: what its read finds written on these paths comes before what waits
  for it (R274, R277). -/
  passes : List Path := []
  /-- The word that issued it, by bundle and index (R193). -/
  word : Nat × Nat := (0, 0)
  /-- Physical places checked at the word, (kind, address, length) each; loads are translated when they perform. -/
  segs : List (Nat × Nat × Nat) := []
  op : Option Nat := none
  queue : Option Nat := none
  /-- Held update-only in the issuing core's L1 (R221, R318). -/
  gathered : Bool := false
  /-- Its home has accepted it (R329, R330). -/
  accepted : Bool := false
  /-- Its packets have left for their homes (R422); some of its data reached the home poisoned (R437). -/
  sent : Bool := false
  bad : Bool := false
  /-- A REHOME answer on its way to the requester, for a region (R329). -/
  rehomeReg : Nat := 0
  rehome : Option (Option (Nat × Nat)) := none
  rehomeAt : Nat := 0
deriving DecidableEq, Repr

/-- What a long operation still waits for. -/
inductive OpWait where
  | ready
  /-- A request to perform. -/
  | req
  /-- An entry of a LOAD queue (R204). -/
  | pop (q : Nat)
  /-- The reply of an engine command. -/
  | reply (cmd : Nat)
  /-- The application of a row-group instance (R236). -/
  | inst (n : Nat)
deriving DecidableEq, Repr

/-- A long-latency operation of one thread (R16, R18, R22). -/
structure Op where
  id : Nat := 0
  grid : Nat := 0
  team : Nat := 0
  tid : Nat := 0
  flag : Option Nat := none
  wait : OpWait := .ready
  dst : List (Nat × W64) := []
  /-- Destination registers of a value not yet known: first register and register count. -/
  dreg : Option (Nat × Nat) := none
  efl : BitVec 32 := 0
  /-- The clause and word that issued it, as detail bits [51:16] of FP_TRAP hold them (R188), and which issue of a word it was. -/
  src : Nat := 0
  issue : Nat := 0
  poison : Option Trap := none
  /-- A QPOP's queue, and the slot it took. -/
  popq : Option (Nat × Nat) := none
  /-- The instance it contributed to, and the earliest cc of its completion (R236). -/
  inst : Option Nat := none
  notBefore : Nat := 0
  /-- The bits of an engine's reply gathered so far (R260). -/
  acc : Nat := 0
  /-- The load whose reply brings a QPOP's data (R422). -/
  via : Option Nat := none
deriving DecidableEq, Repr

/-- A word held by a core's L1 (R315-R317): a 16-byte word of device memory. -/
structure L1Word where
  core : Nat := 0
  word : Nat := 0
  data : List Byte := []
  stale : Bool := false
deriving DecidableEq, Repr

/-- A cached page table entry (R378, R379): a leaf in a core's TLB (unit 0 to 383) or a die's (384 + die), or an upper-level entry that
a die's walkers hold (1,408 + die). -/
structure TlbEntry where
  unit : Nat := 0
  ctx : Nat := 0
  level : Nat := 1
  /-- The address bits above what the entry covers. -/
  tag : Nat := 0
  entry : W64 := 0
deriving DecidableEq, Repr

/-- A code word as it was fetched when a fault of kind 0 was raised, and the threads (grid, team, tid) whose retry reads it (R373,
R379). -/
structure CodeCopy where
  holders : List (Nat × Nat × Nat) := []
  ctx : Nat := 0
  va : Nat := 0
  word : W128 := 0
deriving DecidableEq, Repr

/-- A region table entry (Table 12-3): ST 0 unhomed, 1 homed, 2 moving. -/
structure Region where
  st : Nat := 0
  die : Nat := 0
  node : Nat := 0
  /-- The move under way is a release (R330). -/
  release : Bool := false
deriving DecidableEq, Repr

/-- A locked or pinned line (R227, R322). -/
structure Lock where
  ctx : Nat := 0
  line : Nat := 0
  msc : Bool := false
deriving DecidableEq, Repr

/-- A DRED contribution held by the press (R323). -/
structure Press where
  grid : Nat := 0
  pa : Nat := 0
  op : Nat := 0
  n : Nat := 4
  fmt : W64 := 0
  x : Nat := 0
  g : Nat := 0
  seq : Nat := 0
  va : Nat := 0
  ctx : Nat := 0
  /-- The format slot of its word (R323). -/
  slot : Nat := 0
  /-- The slice that holds it, as 192 × die + node. -/
  home : Nat := 0
  /-- The run it was written out in, the stack of the run's first entry, whether it went into the context's press pool, and the
  16-byte units of the pool that the run takes. -/
  run : Option Nat := none
  stack : Nat := 0
  pool : Bool := false
  units : List Nat := []
deriving DecidableEq, Repr

/-- An error that a unit recorded: whether it was beyond correction, and the fc (R474). -/
structure UnitError where
  unit : UnitKind
  n : Nat := 0
  hard : Bool := false
  fc : Nat := 0
deriving DecidableEq, Repr

/-- An update sequence number (R60, R325). -/
structure Counter where
  bit : Nat := 0
  grid : Nat := 0
  count : Nat := 0
  stack : Nat := 0
  pool : Bool := false
  /-- The 16-byte unit of its context's press pool that it takes (R325). -/
  unit : Nat := 0
deriving DecidableEq, Repr

/-! ## Engines, fabric and services -/

/-- One scribe channel (R392-R401): `status` 0 idle, 1 running, 2 suspended, 3 ended with error. -/
structure Scribe where
  die : Nat := 0
  ch : Nat := 0
  status : Nat := 0
  /-- The team that holds the channel, or held it last. -/
  holder : Option (Nat × Nat) := none
  ctx : Nat := 0
  record : List Byte := []
  /-- Slots SFS and DFS as the XCMD saw them (R393). -/
  fmtS : W64 := 0
  fmtD : W64 := 0
  well : Nat := 0
  /-- Destination bytes written and counted. -/
  done : Nat := 0
  miss : Bool := false
  /-- Suspension asked for, by which commands, and by pre-emption (R400, R401). -/
  suspend : Bool := false
  cmds : List Nat := []
  byPreempt : Bool := false
  /-- Destination bytes whose packets have left the scribe (R402); whether the reads of the piece that goes on there have left; what they
  have brought, by source offset, and 0xFF for each byte that is not poisoned. -/
  sent : Nat := 0
  reading : Bool := false
  buf : List (Int × List Byte × List Byte) := []
  /-- An element that reaches past the bytes sent, with its code (R397). -/
  carry : Option (Nat × Nat) := none
  /-- Where and why the transfer ends early, once the packets before have been acknowledged (R399). -/
  stop : Option (Nat × Nat) := none
deriving DecidableEq, Repr

/-- A fabric packet (16: Table 16-2), by its KIND: 0 read request, 1 write, 2 atomic or other request, 3 acknowledgement or status, 4 read
reply, 5 bulk write, 6 multicast data, 7 well arrival, 8 block form. -/
structure Packet where
  id : Nat := 0
  kind : Nat := 7
  /-- Source node, as 192 × die + node, its endpoint there (Table 16-1, SEP), and tag. -/
  src : Nat := 0
  sep : Nat := 0
  tag : Nat := 0
  /-- Node and endpoint that a packet goes to, when it is not for teams; how many data bytes it carries, and how many its answer, 0 for an
  acknowledgement; the bytes of memory that they are, as kind, address and length. -/
  dst : Option (Nat × Nat) := none
  size : Nat := 0
  back : Nat := 0
  place : Option (Nat × Nat × Nat) := none
  /-- The requester takes block form (Table 16-4). -/
  blocks : Bool := false
  /-- The request that it carries, the operation that waits for its answer, the scribe channel, by die and channel, whose transfer it is
  of, the thread whose cohort store it is, or whose load of a tile, and that tile. -/
  req : Option Nat := none
  op : Option Nat := none
  chan : Option (Nat × Nat) := none
  thread : Option (Nat × Nat × Nat) := none
  tile : Option Nat := none
  /-- A member of an ordered transfer, and its order number (R432). -/
  ord : Bool := false
  oseq : Nat := 0
  /-- Some of its data came poisoned (R337, R433, R437), or did so on a link. -/
  bad : Bool := false
  tainted : Bool := false
  grid : Nat := 0
  team : Nat := 0
  /-- Destinations not yet acknowledged: core and team index. -/
  dests : List (Nat × Nat) := []
  offset : Nat := 0
  /-- Payload that takes effect when the packet is applied, and the bits of it that are written; for an answer, what was read and 0xFF for
  a byte that is not poisoned. The first `lead` bytes lie before the place: the part of a sector that the packet before it began. -/
  data : List Byte := []
  mask : List Byte := []
  lead : Nat := 0
  /-- The context and virtual address of the payload (R390), and the source offset of a scribe's read. -/
  ctx : Nat := 0
  va : Nat := 0
  from' : Int := 0
  /-- The well arrival it makes, or that follows its data: well offset and amount. -/
  arrive : Option (Nat × Nat) := none
  /-- The command whose reply waits for it. -/
  cmd : Option Nat := none
  /-- KIND 3, 4 and 8: the packet it answers, and the destination that answers. -/
  answers : Nat := 0
  by' : Nat × Nat := (0, 0)
  /-- A well was found not armed. -/
  missed : Bool := false
  begun : Bool := false
  /-- Flits injected so far. -/
  next : Nat := 0
  /-- Endpoints that hold it whole. -/
  reached : List Nat := []
deriving DecidableEq, Repr

/-- A flit in a mesh (16: Table 16-1). Nodes are 192 × die + node. -/
structure Flit where
  pkt : Nat := 0
  idx : Nat := 0
  /-- On the reply mesh. -/
  reply : Bool := false
  /-- Where it arrives next, by which port (0 N, 1 E, 2 S, 3 W), and at which fc; `cross` in a crossing's receive queue. -/
  at' : Nat := 0
  port : Nat := 0
  due : Nat := 0
  cross : Bool := false
  src : Nat := 0
  sep : Nat := 0
  tag : Nat := 0
  ord : Bool := false
  oseq : Nat := 0
  /-- The node that injected it into its die (R428). -/
  inj : Nat := 0
  /-- Unicast destination, or for multicast the cores of its MCMAP. -/
  dst : Nat := 0
  mc : List Nat := []
  ripe : Nat := 0
  poisoned : Bool := false
deriving DecidableEq, Repr

/-- A hoop (R431-R433): the flits of a packet held at an endpoint; `core` is a core's number, or the number that `endOf` gives another
endpoint. A reserved hoop awaits the reply to the request packet `pkt`. -/
structure Hoop where
  id : Nat := 0
  pkt : Nat := 0
  core : Nat := 0
  reserved : Bool := false
  slot : Nat := 0
  got : List Nat := []
  bad : List Nat := []
  /-- Flits whose sectors are written. -/
  applied : Nat := 0
  since : Nat := 0
deriving DecidableEq, Repr

/-- A packet that a pre-emption has parked (R387): the team whose image holds its HOOP record, the packet, and what has been received
of it. -/
structure Parked where
  grid : Nat := 0
  team : Nat := 0
  pkt : Packet := {}
  hoop : Hoop := {}
deriving DecidableEq, Repr

/-- One end's deduplication table of a link's direction (R414): the slot that the next full block takes, and its 256-byte blocks. -/
structure Dedup where
  fill : Nat := 0
  slots : SMap (List Byte) := []
deriving DecidableEq, Repr

/-- A link of the part (16:R436-R439). -/
structure Link where
  n : Nat := 0
  up : Bool := false
  peers : List Nat := []
  retries : Nat := 0
  replays : Nat := 0
  retrains : Nat := 0
  /-- Capabilities sampled at its training: compressed blocks, deduplication references (Table 19-2). -/
  cmp : Bool := false
  dedup : Bool := false
  /-- The sender's table and the receiver's mirror, by direction: on a UALink port 0 leaves the part and 1 enters it. -/
  sender : SMap Dedup := []
  mirror : SMap Dedup := []
deriving DecidableEq, Repr

/-- A submission queue (R339, Table 13-1). -/
structure Sq where
  n : Nat := 0
  base : W64 := 0
  en : Bool := false
  prio : Nat := 0
  sysok : Bool := false
  ctx : Nat := 0
  log2n : Nat := 0
  err : Bool := false
  head : BitVec 16 := 0
  tail : BitVec 16 := 0
  lastErr : Nat := 0
  /-- The packet read at the head and chosen for service (R341). -/
  packet : Option (List Byte) := none
  last : Option Nat := none
deriving DecidableEq, Repr

/-- A running task graph (R350). -/
structure Graph where
  queue : Nat := 0
  ctx : Nat := 0
  nodes : Nat := 0
  nnodes : Nat := 0
  maxSteps : Nat := 0
  gwell : Nat := 0
  node : Nat := 0
  steps : Nat := 0
  /-- The node as this visit read it. -/
  bytes : List Byte := []
  /-- The grid running the node, once accepted. -/
  grid : Option Nat := none
  /-- The finished grid's combined word, or the code it ended with. -/
  result : Option (Sum Nat W64) := none
deriving DecidableEq, Repr

/-- What the loader knows of an image that the code area does not hold (R102, R107). -/
structure Image where
  /-- The `.seg` minima: segment and minimum. -/
  mins : List (Nat × Nat) := []
  /-- The offsets that the translator's table gives to segment numbers that do not exist. -/
  absent : List Nat := []
deriving DecidableEq, Repr

/-- A core's ruling engine (R366): the addresses it formed in a cc, the turn after the one it served last, and the turns that threads
it skipped keep. -/
structure Turn where
  cc : Nat := 0
  used : Nat := 0
  next : Nat := 0
  owed : List Nat := []
deriving DecidableEq, Repr

/-- A team's saved state (R386, R480), kept whole beside its image in the save pool. -/
structure Saved where
  team : Team := {}
  scribes : List Scribe := []
  ctx : Nat := 0
  /-- Virtual address of the image, its bytes, and its records as (offset, type). -/
  addr : Nat := 0
  image : List Byte := []
  records : List (Nat × Nat) := []
  /-- The team control block written behind the image (R411). -/
  control : List Byte := []
deriving DecidableEq, Repr

/-- Room reserved in a context's save pool for the image of a team (R479). -/
structure Room where
  ctx : Nat := 0
  off : Nat := 0
  size : Nat := 0
  grid : Nat := 0
  team : Nat := 0
deriving DecidableEq, Repr

/-- A stream of the migration engine (R415-R419): the fields of its descriptor that it goes on using, and its progress. -/
structure MigStream where
  /-- Model's own: which stream it is (log 2). -/
  id : Nat := 0
  port : Nat := 0
  /-- MODE of the run under way (Table 15-5). -/
  mode : Nat := 0
  slot : Nat := 0
  salt : Nat := 0
  ctx : Nat := 0
  maxr : Nat := 1
  thresh : Nat := 0
  va : Nat := 0
  len : Nat := 0
  status : Nat := 0
  /-- The peer part that a send stream goes to (Table 15-5). -/
  peer : Nat := 0
  /-- The team whose `.ymigr` submitted the run (R260, R265). -/
  team : Option (Nat × Nat) := none
  /-- A run is under way; otherwise the stream stands in WAITF. -/
  running : Bool := true
  seq : Nat := 0
  /-- Rounds of the stream, and of the run. -/
  rounds : Nat := 0
  runRounds : Nat := 0
  sent : Nat := 0
  found : Nat := 0
  skip : Nat := 0
deriving DecidableEq, Repr

/-- The management space's registers that have no home elsewhere (19). -/
structure Mgmt where
  /-- DEVSTAT.STATE (Table 19-2). -/
  devstate : Nat := 1
  fwver : BitVec 32 := 0
  nocmp : Bool := false
  nodedup : Bool := false
  newfence : Bool := false
  hvec : Nat := 0
  mbcmd : W64 := 0
  mbstat : Nat := 0
  mbuf : SMap Byte := []
  pwrcap : Nat := 3600
  watts : Nat := 0
  dieTemps : List Nat := []
  stackTemps : List Nat := []
  /-- Telemetry counters by offset (Table 19-6). -/
  telemetry : SMap W64 := []
  snapLatched : Bool := false
  snapFlt : Bool := false
  snapSrc : Nat := 0
  snapTag : Nat := 0
  snapMissed : Nat := 0
  snapCore : Nat := 0
  snapCc : Nat := 0
  snapData : SMap W64 := []
  frbase : W64 := 0
  frEn : Bool := false
  frLog2n : Nat := 0
  frFull : Bool := false
  frIvec : Nat := 0
  frTail : BitVec 16 := 0
  frHead : BitVec 16 := 0
  tctlGrid : Nat := 0
  tctlTeam : Nat := 0
  tctlAct : Nat := 0
  tctlStatus : Nat := 0
  plim : W64 := 12000000
  invva : W64 := 0
  invCtx : Nat := 0
  invPages : Nat := 0
  invBusy : Bool := false
  /-- The invalidation under way, as its GO write gave it: context, first page, pages (0: the whole context). -/
  invRunCtx : Nat := 0
  invRunFirst : Nat := 0
  invRunPages : Nat := 0
  /-- APn by n (Table 16-5). -/
  aps : SMap W64 := []
  migdesc : W64 := 0
  migReply : Nat := 0
  /-- Fenced units: cores; slices as 192 × die + node; pseudo-channels and partitions as 384 × stack + channel (R474). -/
  fencedCores : List Nat := []
  fencedSlices : List Nat := []
  fencedPcs : List Nat := []
  fencedMscs : List Nat := []
  /-- D3hot has been entered, or the 48 V supply lost: nothing moves until a full reset (R467). -/
  d3hot : Bool := false
  /-- Board energy in tenths of a mJ, of which Table 19-6 shows the whole mJ. -/
  energy : Nat := 0
  /-- The image that Iagar runs (R468). -/
  running : List Byte := []
  /-- Advanced Error Reporting: the status of uncorrectable errors (R442, log 101). -/
  aer : Nat := 0
deriving DecidableEq, Repr

/-- What survives a full reset: fuses and the Iagar flash (R467). -/
structure Iagar where
  rootDigest : List Byte := []
  antiRollback : W64 := 0
  secret : List Byte := []
  serial : List Byte := []
  images : List (List Byte) := []
  staged : SMap Byte := []
  /-- Bytes of the image that command 2 has staged, whole pieces of 4 KiB (R469). -/
  stagedLen : Nat := 0
  identity : List Byte := []
  recCores : List Nat := []
  recSlices : List Nat := []
  recPcs : List Nat := []
  recMscs : List Nat := []
  clearFences : Bool := false
deriving DecidableEq, Repr

/-- A fault record of Table 14-2 and the team it belongs to; one `sent` to the ring stays until the owner answers it. -/
structure FaultRec where
  grid : Nat := 0
  team : Nat := 0
  sent : Bool := false
  /-- Its team was resumed before the ring had room for it (R371). -/
  due : Bool := false
  bytes : List Byte := []
deriving DecidableEq, Repr

/-- The machine (INVENTORY, State). Fields are plain data; maps are in the canonical form of `SMap`. -/
structure State where
  fc : Nat := 0
  cc : Nat := 0
  mhz : Nat := 1200
  clkAcc : Nat := 0
  /-- Model's own: what moves next (log 1). -/
  agenda : List Action := []
  /-- Model's own: the index of the next free value (log 2). -/
  free : Nat := 0
  /-- Model's own: the next unused identifier (log 2). -/
  nextId : Nat := 0
  /-- Model's own: the bundle whose word is being executed (log 1). -/
  cur : Option Nat := none
  /-- Quadrants that have issued in this cc, as 4 × core + quadrant (R361). -/
  quadIssued : List Nat := []
  /-- Words issued by core, and deflections by node, as a snapshot latches them (R473). -/
  issued : SMap Nat := []
  deflects : SMap Nat := []
  teams : List Team := []
  grids : List Grid := []
  bundles : List Bundle := []
  ops : List Op := []
  reqs : List Req := []
  mem : SMap Byte := []
  hostMem : SMap Byte := []
  peerMem : SMap Byte := []
  /-- Poisoned 32-byte sectors of device memory: storage class by sector number (R337). -/
  poison : SMap Nat := []
  l1 : List L1Word := []
  tlb : List TlbEntry := []
  /-- Code words held for faults of kind 0 until an invalidation discards them or their clause begins (R373). -/
  codeCopies : List CodeCopy := []
  regions : SMap Region := []
  /-- Region caches: (requester, region) to its recorded home (R328). -/
  regionCache : List ((Nat × Nat) × (Nat × Nat)) := []
  locks : List Lock := []
  hints : SMap Nat := []
  /-- The 16-byte words of device memory that hold bytes of a posted host write (R291). -/
  posted : List Nat := []
  /-- Errors that units have recorded: within a second the corrected ones, within 24 hours the others; and the units that have passed a
  threshold and are to be fenced (R474). -/
  errors : List UnitError := []
  failing : List (UnitKind × Nat) := []
  press : List Press := []
  counters : List Counter := []
  packets : List Packet := []
  flits : List Flit := []
  hoops : List Hoop := []
  /-- Packets parked by pre-emptions, in the order of capture (R387). -/
  hoopRecs : List Parked := []
  /-- Fabric pressure by node; the fc at which a node waited to inject in the last 64; the fc after its last packet began. -/
  pressure : SMap Nat := []
  /-- One more than the fc of the last computation of fabric pressure (R429) and than the cc of the last epoch boundary (R365); 0 before. -/
  pressureAt : Nat := 0
  epochAt : Nat := 0
  waits : SMap (List Nat) := []
  lastBegin : SMap Nat := []
  /-- The endpoint that began a packet last at a node (R430); nodes that waited to inject in this fc, and nodes that injected (R429). -/
  lastSep : SMap Nat := []
  waited : List Nat := []
  injected : List Nat := []
  /-- The next OSEQ that a source sends to a destination, and the next that the destination applies, by pair (R432). -/
  oseqSent : SMap Nat := []
  oseqDone : SMap Nat := []
  /-- Routers served in this fc, as 2 × node + mesh. -/
  routed : List Nat := []
  links : List Link := (List.range 34).map fun n => { n, up := true, cmp := true, dedup := true }
  scribes : List Scribe := []
  /-- Transfers of resumed teams that wait for their channel (R401). -/
  scribeWait : List Scribe := []
  /-- By die: the cc until which the scribe's last packets occupy it, and the channel it serves first (R402). -/
  scribeTurn : SMap (Nat × Nat) := []
  /-- By quadrant, as 4 × core + quadrant: the cc until which its special-function unit is occupied (R173). -/
  sfuUntil : SMap Nat := []
  /-- Ruling engines by core (R366). -/
  ruling : SMap Turn := []
  sqs : SMap Sq := []
  rr : SMap Nat := []
  graphs : List Graph := []
  acceptOrder : Nat := 0
  /-- The pending team that has waited 1 ms, as 2^32 × acceptance order + index, and its grid's priority (R353). -/
  placeHold : Option (Nat × Nat) := none
  /-- What the loader knows of each image, by 2^64 × context + code base (log 26). -/
  images : SMap Image := []
  saves : List Saved := []
  rooms : List Room := []
  ctxs : SMap Ctx := []
  faults : List FaultRec := []
  /-- SEQ of the next fault event (Table 14-2). -/
  seq : Nat := 0
  /-- MSI-X vectors sent, newest first: what the host sees. -/
  msix : List Nat := []
  /-- What the last window request was answered: status and bytes. -/
  winReply : Option (Nat × List Byte) := none
  streams : List MigStream := []
  keySlots : SMap (List Byte) := []
  /-- The SALTs recorded for each key slot since it was last loaded (R417). -/
  salts : SMap (List Nat) := []
  /-- Frames sent on the Ultra Ethernet ports, newest first, with the port and the peer that each goes to. -/
  frames : List (Nat × Nat × List Byte) := []
  mgmt : Mgmt := {}
  iagar : Iagar := {}
deriving DecidableEq, Repr

/-- The machine right after reset: every field at the value of its declaration (R466; logs 3 to 8 name those the spec does not
give). -/
def State.reset : State := {}

end Sys2Proof.Machine
end

