-- ==== Sys2Proof/Machine/Ops.lean ====
section
/-! DEFINITION. The named operations over the state: lookups and updates, the issue environment of a word, raising a fault and
releasing a held team, translation, physical memory, dirty marks, scratchpad and wells. -/

namespace Sys2Proof.Machine

/-! ## Lookups and updates -/

def State.team? (s : State) (g t : Nat) : Option Team := s.teams.find? fun x => x.grid == g && x.index == t
def State.grid? (s : State) (g : Nat) : Option Grid := s.grids.find? fun x => x.num == g
def State.bundle? (s : State) (b : Nat) : Option Bundle := s.bundles.find? fun x => x.id == b
def State.op? (s : State) (n : Nat) : Option Op := s.ops.find? fun x => x.id == n
def State.req? (s : State) (n : Nat) : Option Req := s.reqs.find? fun x => x.id == n
/-- Whether a request has not performed. -/
def State.inFlight (s : State) (n : Nat) : Bool := s.reqs.any (·.id == n)
def State.packet? (s : State) (n : Nat) : Option Packet := s.packets.find? fun x => x.id == n
def State.ctx (s : State) (c : Nat) : Ctx := s.ctxs.get {} c
def State.sq (s : State) (q : Nat) : Sq := s.sqs.get {} q

def Team.thread? (t : Team) (n : Nat) : Option Thread := t.threads.find? fun x => x.tid == n
def State.threadOf (s : State) (g t tid : Nat) : Option Thread :=
  match s.team? g t with
  | some x => x.thread? tid
  | none => none
def Team.warp? (t : Team) (n : Nat) : Option Warp := t.warps.find? fun x => x.idx == n
def Team.window? (t : Team) (n : Nat) : Option Window := t.wins.find? fun x => x.n == n
def Team.queue? (t : Team) (n : Nat) : Option Queue := t.queues.find? fun x => x.n == n

/-- Replace the team that has `t`'s grid and index. -/
def State.setTeam (s : State) (t : Team) : State :=
  { s with teams := s.teams.map fun x => if x.grid == t.grid && x.index == t.index then t else x }

def State.updTeam (s : State) (g t : Nat) (f : Team → Team) : State :=
  { s with teams := s.teams.map fun x => if x.grid == g && x.index == t then f x else x }

def State.updGrid (s : State) (g : Nat) (f : Grid → Grid) : State :=
  { s with grids := s.grids.map fun x => if x.num == g then f x else x }

def State.updBundle (s : State) (b : Nat) (f : Bundle → Bundle) : State :=
  { s with bundles := s.bundles.map fun x => if x.id == b then f x else x }

def State.updCtx (s : State) (c : Nat) (f : Ctx → Ctx) : State := { s with ctxs := s.ctxs.set {} c (f (s.ctx c)) }
def State.updSq (s : State) (q : Nat) (f : Sq → Sq) : State := { s with sqs := s.sqs.set {} q (f (s.sq q)) }
def State.updMgmt (s : State) (f : Mgmt → Mgmt) : State := { s with mgmt := f s.mgmt }
def State.updOp (s : State) (n : Nat) (f : Op → Op) : State :=
  { s with ops := s.ops.map fun x => if x.id == n then f x else x }
def State.updReq (s : State) (n : Nat) (f : Req → Req) : State :=
  { s with reqs := s.reqs.map fun x => if x.id == n then f x else x }
def State.updPacket (s : State) (n : Nat) (f : Packet → Packet) : State :=
  { s with packets := s.packets.map fun x => if x.id == n then f x else x }

def Team.updThread (t : Team) (n : Nat) (f : Thread → Thread) : Team :=
  { t with threads := t.threads.map fun x => if x.tid == n then f x else x }
def Team.updWarp (t : Team) (n : Nat) (f : Warp → Warp) : Team :=
  { t with warps := t.warps.map fun x => if x.idx == n then f x else x }
def Team.updWindow (t : Team) (n : Nat) (f : Window → Window) : Team :=
  { t with wins := t.wins.map fun x => if x.n == n then f x else x }
def Team.updQueue (t : Team) (n : Nat) (f : Queue → Queue) : Team :=
  { t with queues := t.queues.map fun x => if x.n == n then f x else x }

/-- Insertion sort by a natural key, ascending and stable. -/
def insertBy {α : Type} (key : α → Nat) (x : α) : List α → List α
  | [] => [x]
  | y :: r => if key x < key y then x :: y :: r else y :: insertBy key x r

def sortBy {α : Type} (key : α → Nat) (l : List α) : List α := l.foldl (fun acc x => insertBy key x acc) []

def Thread.lane (t : Thread) : Nat := t.tid % 32
def Thread.warp (t : Thread) : Nat := t.tid / 32

/-- A clause address as a 64-bit virtual address (R376). -/
def vaOf (a : Addr) : Nat := (a.signExtend 64).toNat

/-- Whether a fault holds a thread or an access thread of a team (R369, R408). -/
def Team.anyHeld (t : Team) : Bool := (t.threads ++ t.access).any (·.place == .held)

/-- A thread's place in the order (warp slot, lane). -/
def Team.order (t : Team) (tid : Nat) : Nat := ((t.warp? (tid / 32)).map (·.slot)).getD 0 * 32 + tid % 32

/-- Grid-linear thread index (R23). -/
def gridThread (g : Grid) (t : Team) (tid : Nat) : Nat := t.index * g.launch.wpt * 32 + tid

/-- A number is used up. -/
def bumpId (s : State) : State := { s with nextId := s.nextId + 1 }

/-- The node that hosts a core, as 192 × die + node (R420). -/
def coreNode (core : Nat) : Nat := core / 48 * 192 + 4 * (core % 48)

/-- sys.fpress at a core's endpoint (Table 4-3). -/
def fpressOf (s : State) (core : Nat) : Nat := s.pressure.get 0 (coreNode core)

def Grid.teamCount (g : Grid) : Nat := g.launch.gx * g.launch.gy * g.launch.gz

/-! ## Fault codes (Table 14-3) -/

def fIllegalOpcode : Nat := 0x01
def fIllegalOperand : Nat := 0x02
def fReservedField : Nat := 0x03
def fClauseFormat : Nat := 0x04
def fLifetime : Nat := 0x05
def fHazard : Nat := 0x06
def fSafepointDistance : Nat := 0x07
def fSegmentLimit : Nat := 0x08
def fTranslation : Nat := 0x09
def fProtection : Nat := 0x0A
def fAlignment : Nat := 0x0B
def fGang : Nat := 0x0C
def fAccRange : Nat := 0x0D
def fPoison : Nat := 0x0E
def fHostAtomic : Nat := 0x0F
def fNesting : Nat := 0x10
def fLoop : Nat := 0x11
def fCallDepth : Nat := 0x12
def fFormat : Nat := 0x13
def fFpTrap : Nat := 0x14
def fUserTrap : Nat := 0x15
def fBreakpoint : Nat := 0x16
def fQueue : Nat := 0x17
def fCohort : Nat := 0x18
def fPrivilege : Nat := 0x19
def fWell : Nat := 0x1A
def fEngine : Nat := 0x1B

/-- The trap of a decode fault (R94, Table 14-3). -/
def decodeTrap : DecodeFault → Trap
  | .clauseFormat d => { code := fClauseFormat, kind := 0, detail := d }
  | .illegalOpcode o => { code := fIllegalOpcode, kind := 0, detail := o }
  | .reservedField b => { code := fReservedField, kind := 0, detail := b }
  | .illegalOperand f v => { code := fIllegalOperand, kind := 0, detail := f + v * 2 ^ 16 }

/-! ## The issue environment -/

/-- What a word sees: the issuing bundle, its team, its grid and its context. -/
structure Env where
  b : Bundle := {}
  t : Team := {}
  g : Grid := {}
  c : Ctx := {}
deriving DecidableEq, Repr

/-- The environment of a bundle. -/
def State.envOf (s : State) (b : Bundle) : Option Env :=
  match s.team? b.grid b.team, s.grid? b.grid with
  | some t, some g => some { b, t, g, c := s.ctx g.ctx }
  | _, _ => none

/-- The environment of the bundle that `cur` names. -/
def State.env? (s : State) : Option Env :=
  match s.cur with
  | none => none
  | some n => match s.bundle? n with
    | none => none
    | some b => s.envOf b

/-- The threads of the bundle in ascending (warp slot, lane). -/
def Env.threads (e : Env) : List Thread := e.b.members.filterMap e.t.thread?

/-- R20, R79: whether a guard holds in a predicate register. -/
def guardHolds (g : Guard) (pred : List Bool) : Bool :=
  match g with
  | .always => true
  | .on d neg => (pred.getD d.val false) != neg

/-- The threads of the bundle that execute a word guarded by `g`. -/
def Env.exec (e : Env) (g : Guard) : List Thread := e.threads.filter fun x => guardHolds g x.pred

/-- The flag a long word attaches to (R16); `none` when the header names 15. -/
def Env.flag (e : Env) (fl : Bool) : Option Nat :=
  let h := Header.of e.b.hdr
  let n := (if fl then h.setB else h.setA).toNat
  if n < 12 then some n else none

/-- The value of a format slot in force in the clause (R32). -/
def Env.slot (e : Env) (n : Nat) : W64 := e.b.fmt.getD n 0

/-- R37, R38: %clk on a core. -/
def clkOf (s : State) (core : Nat) : W64 := BitVec.ofNat 64 (s.cc + Config.clkSkew core % 5)

/-! ## Raising a fault -/

/-- Bytes of a fault record (Table 14-2). -/
def recordBytes (s : State) (e : Env) (w : Nat) (widx : Nat) (tr : Trap) (tmask hmask : Nat) (last unif : Bool) : List Byte :=
  leBytes 1 tr.code ++ leBytes 1 tr.kind ++ leBytes 2 e.g.ctx ++ leBytes 2 e.g.num ++ leBytes 1 w ++ leBytes 1 widx ++
  leBytes 4 e.t.index ++ leBytes 4 tmask ++ leBytes 4 hmask ++ leBytes 2 e.t.core ++
  leBytes 1 ((if last then 1 else 0) + (if unif then 2 else 0)) ++ leBytes 1 0 ++ leBytes 8 (vaOf e.b.addr) ++
  leBytes 8 tr.detail ++ leBytes 8 tr.vaddr ++ leBytes 4 s.seq ++ leBytes 4 tr.aux ++ leBytes 8 (clkOf s e.t.core).toNat

def laneMask (l : List Nat) : Nat := l.foldl (fun m n => m ||| 2 ^ (n % 32)) 0

/-- One record per warp of the faulting bundle (R370): the lanes that raised the fault and the lanes that only stopped. A warp none
of whose lanes raised it carries the event's detail, or that of an entry with code 0, which raises nothing, and 0 in an FP_TRAP without
one (R188). -/
def faultRecords (s : State) (e : Env) (widx : Nat) (tr : Trap) (raised : List (Nat × Trap)) (unif : Bool) : List FaultRec :=
  let warps := (e.b.members.map (· / 32)).eraseDups
  let lastW := warps.getLast?.getD 0
  warps.map fun w =>
    let up := (raised.filter fun p => p.1 / 32 == w && p.2.code == tr.code).map (·.1)
    let down := e.b.members.filter fun m => m / 32 == w && !up.contains m
    let mine := (((raised.find? fun p => p.1 / 32 == w && p.2.code == tr.code).or (raised.find? fun p => p.1 / 32 == w && p.2.code == 0)).map
      (·.2)).getD { tr with vaddr := 0, detail := if tr.code == fFpTrap then 0 else tr.detail }
    { grid := e.g.num, team := e.t.index,
      bytes := recordBytes s e w widx { tr with detail := mine.detail, vaddr := mine.vaddr, aux := mine.aux }
        (laneMask up) (laneMask down) (w == lastW) unif }

/-- Commit the k writes of a clause (R41, R42): of two commits in one cc, the value of the higher producing thread remains, and the
threads of both bundles read it. One old value is kept: a read after commits in two consecutive cycles returns the first commit's value
or the second's (log 76). -/
def commitK (cc : Nat) (members : List Nat) (k : SMap KReg) (kw : List KWrite) : SMap KReg :=
  kw.foldl (fun m w =>
    let r := m.get {} w.n
    let writers := if r.stamp == cc then r.writers ++ members else members
    if r.stamp == cc && w.prod < r.prod then m.set {} w.n { r with writers }
    else m.set {} w.n { val := w.val, old := if r.stamp == cc then r.old else r.val, stamp := cc, prod := w.prod, writers }) k

/-- A telemetry counter (Table 19-6) counts. -/
def countTelemetry (s : State) (off n : Nat) : State :=
  s.updMgmt fun m => { m with telemetry := m.telemetry.set 0 off (m.telemetry.get 0 off + BitVec.ofNat 64 n) }

/-- Threads of a team's bundles that have not begun their clause stand at the boundary again, and the bundles' reservations
end. -/
def dissolve (s : State) (g t : Nat) : State :=
  let gone := (s.bundles.filter fun b => b.grid == g && b.team == t && !b.decoded).map (·.id)
  let back (x : Thread) : Thread := match x.place with
    | .bundle b => if gone.contains b then { x with place := .boundary } else x
    | _ => x
  { s.updTeam g t (fun tm => { tm with threads := tm.threads.map back }) with bundles := s.bundles.filter fun b => !gone.contains b.id }

/-- Where the threads of a bundle continue after a fault at word `n` (Table 14-1). -/
def resumePoint (b : Bundle) (n : Nat) (tr : Trap) : Nat :=
  if tr.kind == 2 then (Header.of b.hdr).len.toNat + 1 else if tr.kind == 0 || tr.kind == 3 then b.startAt
  else if tr.code == fUserTrap then n + 1 else n

/-- What a fault at word `n` does to the threads of the faulting bundle: they are held at the point its kind resumes at (R368), without
the mark of a YIELD or the nap of a NAP before it (Table 4-8); a thread that raised SAFEPOINT_DISTANCE itself is marked for its RESUME
(R375), and one whose address did not translate for a fresh walk (Table 14-3). -/
def stopThread (e : Env) (n : Nat) (tr : Trap) (raised : List (Nat × Trap)) (x : Thread) : Thread :=
  if e.b.members.contains x.tid then
    { x with place := .held, pc := e.b.addr, heldKind := tr.kind, resumeFmt := e.b.fmt, contrib := e.b.contrib, yielded := false, napNext := none
             resumeAt := resumePoint e.b n tr, resumeHdr := if resumePoint e.b n tr == 0 then 0 else e.b.hdr
             resumeWords := if resumePoint e.b n tr == 0 then [] else e.b.words
             tookPoison := tr.code == fPoison && raised.any fun p => p.1 == x.tid && p.2.code == tr.code
             exempt := tr.code == fBreakpoint || tr.code == fSafepointDistance || tr.kind == 4
             retryVa := ((raised.find? fun p => p.1 == x.tid && (p.2.code == fTranslation || p.2.code == fProtection)).map (·.2.vaddr))
             farOff := tr.code == fSafepointDistance && raised.any fun p => p.1 == x.tid && p.2.code == tr.code }
  else x

/-- Take a fault (R368 to R370): the whole bundle stops at word `widx` with `kind`, the records are queued under one SEQ, the
bundle's k writes of earlier words commit, and the team is to be held. `tr` is the fault, `raised` the threads that raised one. -/
def raiseAt (s : State) (e : Env) (widx : Nat) (tr : Trap) (raised : List (Nat × Trap)) (unif : Bool := false) : State :=
  let recs := faultRecords s e widx tr raised unif
  let s := s.updTeam e.t.grid e.t.index fun t =>
    { t with threads := t.threads.map (stopThread e widx tr raised), k := commitK s.cc e.b.members t.k e.b.kw,
             phase := match t.phase with
               | .running => .holding
               | p => p }
  let s := (dissolve s e.t.grid e.t.index).updGrid e.g.num fun g => { g with fault := some (g.fault.getD tr.code) }
  { s with bundles := s.bundles.filter (·.id != e.b.id), faults := s.faults ++ recs, seq := (s.seq + 1) % 2 ^ 32,
           cur := none, free := s.free + 1 }

/-- The fault of a word: the first in (warp slot, lane) order of the threads that raise one. -/
def raiseWord (s : State) (e : Env) (raised : List (Nat × Trap)) (unif : Bool := false) : State :=
  match raised with
  | [] => s
  | (_, tr) :: _ => raiseAt s e e.b.idx tr raised unif

/-! ## Finishing a word -/

/-- Leave the word: the team's new state, the bundle's k writes, and the next word. A thread that YIELD marked lowers its bundle for
its next issue (R123, R361). A bundle that issues and stays ready takes the cc of the issue as its ready time (log 27). -/
def finishWord (s : State) (e : Env) (t : Team) (kw : List KWrite) : State :=
  let s := s.setTeam t
  let low := (e.b.members.filterMap t.thread?).any (·.yielded)
  let s := s.updBundle e.b.id fun b => { b with idx := b.idx + 1, kw := kw, missed := 0, overdue := false, yielded := low, since := s.cc, issuedAt := s.cc + 1 }
  { s with cur := none, free := s.free + 1, nextId := s.nextId + 1, issued := s.issued.set 0 e.t.core (s.issued.get 0 e.t.core + 1) }

/-- The number of a quadrant. -/
def quadId (core quad : Nat) : Nat := 4 * core + quad

/-- A word that stalls (R16, R206, R364): the bundle stays at it and is not ready, and its quadrant may issue from another
(R361). -/
def stallWord (s : State) : State :=
  { s with cur := none, free := s.free + 1
           quadIssued := match s.cur.bind s.bundle? with
             | some b => s.quadIssued.erase (quadId b.core b.quad)
             | none => s.quadIssued
           bundles := s.bundles.map fun b => if some b.id == s.cur then { b with stalled := true } else b }

/-- Replace threads of a team by those of a list, by tid. -/
def Team.putThreads (t : Team) (l : List Thread) : Team :=
  { t with threads := t.threads.map fun x => (l.find? fun y => y.tid == x.tid).getD x }

/-! ## Physical memory -/

/-- The memory of a kind of page: 0 device DRAM, 1 host, 2 peer (Table 14-5). -/
def State.memOf (s : State) (kind : Nat) : SMap Byte :=
  match kind with
  | 0 => s.mem
  | 1 => s.hostMem
  | _ => s.peerMem

/-- Byte of a physical address. -/
def State.physByte (s : State) (kind a : Nat) : Byte := (s.memOf kind).get 0 a

/-- Consecutive bytes; the search for the later ones begins where the first stands. -/
def State.physBytes (s : State) (kind a n : Nat) : List Byte :=
  let m : SMap Byte := (s.memOf kind).dropWhile fun c => decide (c.1 < a)
  (List.range n).map fun i => SMap.get 0 m (a + i)

def State.setPhysByte (s : State) (kind a : Nat) (b : Byte) : State :=
  match kind with
  | 0 => { s with mem := s.mem.set 0 a b }
  | 1 => { s with hostMem := s.hostMem.set 0 a b }
  | _ => { s with peerMem := s.peerMem.set 0 a b }

/-- Poison of written device sectors (R337): a write of a whole sector clears it, a partial write keeps it. -/
def clearPoison (p : SMap Nat) (a n : Nat) : SMap Nat :=
  (List.range (n / 32 + 1)).foldl (fun p i =>
    let sec := (a + 31) / 32 + i
    if sec * 32 + 32 ≤ a + n then p.set 0 sec 0 else p) p

/-- Write consecutive bytes. -/
def State.setPhysBytes (s : State) (kind a : Nat) (bs : List Byte) : State :=
  let s := ((List.range bs.length).zip bs).foldl (fun s p => s.setPhysByte kind (a + p.1) p.2) s
  if kind == 0 then { s with poison := clearPoison s.poison a bs.length } else s

/-- R333: the stack of a 256-byte block. -/
def blockStack (b : Nat) : Nat := (b % 16) ^^^ (b / 2 ^ 16 % 16)

/-- The storage class of poison among bytes of memory; 0 for none. Blocks of a fenced pseudo-channel are poisoned (R338). -/
def State.poisonOf (s : State) (kind a n : Nat) : Nat :=
  if kind != 0 then 0
  else if !s.mgmt.fencedPcs.isEmpty && (List.range ((a + n - 1) / 256 - a / 256 + 1)).any fun i =>
      s.mgmt.fencedPcs.contains (384 * blockStack (a / 256 + i) + (a / 256 + i) / 16 % 384) then 7
  else
    ((List.range ((a + n - 1) / 32 - a / 32 + 1)).map fun i => s.poison.get 0 (a / 32 + i)).foldl max 0

def State.phys64 (s : State) (a : Nat) : Nat := leNat (s.physBytes 0 a 8)

/-! ## Translation (R376, R377) -/

def bitsOf (x lo n : Nat) : Nat := x / 2 ^ lo % 2 ^ n

/-- R377: whether an entry read at a level is malformed. Address bits that Table 14-5 has zero count among its malformed fields (log 99). -/
def pteBad (e level : Nat) : Bool :=
  let leaf := e.testBit 1
  let r := e.testBit 2
  let w := e.testBit 3
  let x := e.testBit 4
  let kind := bitsOf e 5 2
  bitsOf e 8 4 != 0 || bitsOf e 52 12 != 0 || kind == 3 || (w && x) || (x && kind != 0) ||
  (level == 1 && !leaf) || ((level == 4 || level == 5) && leaf) ||
  (!leaf && (r || w || x || kind != 0 || e.testBit 7)) ||
  ((!leaf || kind == 0) && bitsOf e 40 12 != 0) || (kind == 2 && bitsOf e 50 2 != 0) ||
  (leaf && level == 3 && bitsOf e 12 18 != 0) || (leaf && level == 2 && bitsOf e 12 9 != 0)

/-- The walk from a table at `root` for `level`: the leaf and its level, or the cause and level of a TRANSLATION fault. -/
def walk (s : State) (root va : Nat) : Nat → Sum (Nat × Nat) (Nat × Nat)
  | 0 => .inl (1, 0)
  | level + 1 =>
    let e := s.phys64 (root + 8 * bitsOf va (12 + 9 * level) 9)
    if !e.testBit 0 then .inl (1, level + 1)
    else if pteBad e (level + 1) then .inl (3, level + 1)
    else if e.testBit 1 then .inr (e, level + 1)
    else walk s (bitsOf e 12 28 * 4096) va level

/-- An access class of a translation (Table 14-4). -/
inductive Access where
  | read
  | write
  | fetch
  | atomic
deriving DecidableEq, Repr

def Access.code : Access → Nat
  | .read => 0
  | .write => 1
  | .fetch => 2
  | .atomic => 3

/-- A resolved physical address. -/
structure PA where
  kind : Nat := 0
  addr : Nat := 0
deriving DecidableEq, Repr

/-- R376: bits [63:57] must equal bit 56. -/
def canonical (va : Nat) : Bool := bitsOf va 56 8 == 0 || bitsOf va 56 8 == 0xFF

/-- The physical address a leaf at a level gives. -/
def leafPA (leaf level va : Nat) : PA :=
  let off := va % 2 ^ (12 + 9 * (level - 1))
  let kind := bitsOf leaf 5 2
  let base := bitsOf leaf 12 40 * 4096
  { kind := kind, addr := if kind == 0 then (base + off) % 2 ^ 40 else base + off }

def peerReachable (s : State) (part : Nat) : Bool := s.links.any fun l => l.up && l.peers.contains part

/-- The address bits above what an entry of a level covers. -/
def entryTag (va level : Nat) : Nat := va % 2 ^ 57 / 2 ^ (12 + 9 * (level - 1))

/-- The unit number of an agent without a TLB of its own, which walks afresh: the task processor, the windows, the migration engine
(log 91). -/
def noTlb : Nat := 4096

/-- The shared TLB of the die that a core's or a scribe's accesses go through (R378). -/
def dieUnit (unit : Nat) : Nat := if unit < 384 then 384 + unit / 48 else unit

/-- The die that a unit's entries belong to. -/
def unitDie (unit : Nat) : Nat := if 1024 ≤ unit && unit != noTlb then unit - 1024 else dieUnit unit

/-- R378: whether an entry of a unit stands where an agent looks: its core's TLB, its die's, and its die's walkers. -/
def seesUnit (unit held : Nat) : Bool := held == unit || held == dieUnit unit || held == 1024 + dieUnit unit

/-- Whether a cached entry serves an address of a context: the page it maps, its 64 KiB group (R377), or the span below it. -/
def TlbEntry.serves (t : TlbEntry) (ctx va : Nat) : Bool :=
  t.ctx == ctx && (t.tag == entryTag va t.level || (t.level == 1 && t.entry.getLsbD 7 && t.tag / 16 == entryTag va 1 / 16))

/-- The leaf of a page by a level 1 entry of its 64 KiB group. -/
def groupLeaf (e level va : Nat) : Nat :=
  if level == 1 && e.testBit 7 then e - bitsOf e 12 4 * 2 ^ 12 + bitsOf va 12 4 * 2 ^ 12 else e

/-- The translation that a cached entry gives: its leaf, or what a walk from the table it names finds. -/
def TlbEntry.resolve (s : State) (t : TlbEntry) (va : Nat) : Sum (Nat × Nat) (Nat × Nat) :=
  let e := t.entry.toNat
  if e.testBit 1 then .inr (groupLeaf e t.level va, t.level) else walk s (bitsOf e 12 28 * 4096) va (t.level - 1)

/-- The translation of a fresh walk. -/
def freshWalk (s : State) (ctx va : Nat) : Sum (Nat × Nat) (Nat × Nat) := walk s ((s.ctx ctx).root.toNat / 4096 * 4096 % 2 ^ 40) va 5

/-- R378, R379: the translations of a page that may be in force for an agent: the fresh walk, or one that an entry of its units still
gives. -/
def translationOf (s : State) (unit ctx va : Nat) : Sum (Nat × Nat) (Nat × Nat) :=
  let fresh := freshWalk s ctx va
  let cached := ((s.tlb.filter fun t => seesUnit unit t.unit && t.serves ctx va).map (·.resolve s va)).filter (· != fresh)
  if cached.isEmpty then fresh else (cached[Config.freeChoice s.free % (cached.length + 1)]?).getD fresh

/-- Translate one byte's address for an access of an agent (R376, R377, Table 14-4). -/
def translate (s : State) (unit ctx va : Nat) (acc : Access) : Except Trap PA :=
  let det (cause level : Nat) : Nat := acc.code + cause * 4 + level * 32
  if !canonical va then .error { code := fTranslation, detail := det 2 0, vaddr := va }
  else match translationOf s unit ctx va with
    | .inl (cause, level) => .error { code := fTranslation, detail := det cause level, vaddr := va }
    | .inr (leaf, level) =>
      let needR := acc == .read || acc == .atomic
      let needW := acc == .write || acc == .atomic
      let pa := leafPA leaf level va
      if needR && !leaf.testBit 2 then .error { code := fProtection, detail := det 1 level, vaddr := va }
      else if needW && !leaf.testBit 3 then .error { code := fProtection, detail := det 2 level, vaddr := va }
      else if acc == .fetch && !leaf.testBit 4 then .error { code := fProtection, detail := det 3 level, vaddr := va }
      else if pa.kind == 2 && !peerReachable s (bitsOf leaf 40 10) then
        .error { code := fProtection, detail := det 4 level, vaddr := va }
      else .ok pa

/-- The upper-level entries that a walk reads, with their levels. -/
def walkPath (s : State) (root va : Nat) : Nat → List (Nat × Nat)
  | 0 => []
  | level + 1 =>
    let e := s.phys64 (root + 8 * bitsOf va (12 + 9 * level) 9)
    if !e.testBit 0 || pteBad e (level + 1) || e.testBit 1 then [] else (level + 1, e) :: walkPath s (bitsOf e 12 28 * 4096) va level

/-- Put an entry into a unit that holds `cap` of them; the oldest gives way (log 90). -/
def addTlb (cap : Nat) (l : List TlbEntry) (t : TlbEntry) : List TlbEntry :=
  if l.contains t then l else t :: ((l.filter (·.unit == t.unit)).take (cap - 1) ++ l.filter (·.unit != t.unit))

/-- Remember the translation that an access of a unit used, so that it may be used again until it is invalidated (R378, R379): in the
core's TLB of 256 entries, in its die's of 16,384, and the upper-level entries in the die's walkers. -/
def cacheTranslation (s : State) (unit ctx va : Nat) : State :=
  match translationOf s unit ctx va with
  | .inl _ => s
  | .inr (e, l) =>
    let die := dieUnit unit
    let leaf (u : Nat) : TlbEntry := { unit := u, ctx, level := l, tag := entryTag va l, entry := BitVec.ofNat 64 e }
    let tlb := addTlb 16384 s.tlb (leaf die)
    let tlb := if unit < 384 then addTlb 256 tlb (leaf unit) else tlb
    let up := if freshWalk s ctx va == .inr (e, l) then walkPath s ((s.ctx ctx).root.toNat / 4096 * 4096 % 2 ^ 40) va 5 else []
    { s with tlb := up.foldl (fun m p => addTlb (m.length + 2) m
        { unit := 1024 + die, ctx, level := p.1, tag := entryTag va p.1, entry := BitVec.ofNat 64 p.2 }) tlb }

/-- Check an access of n bytes page by page: the physical address of its first byte and of each later page. -/
def translateRange (s : State) (unit ctx va n : Nat) (acc : Access) : Except Trap (List (PA × Nat)) :=
  let pages := (va + n - 1) / 4096 - va / 4096 + 1
  (List.range pages).foldl (fun r i =>
    match r with
    | .error e => .error e
    | .ok l =>
      let lo := if i == 0 then va else (va / 4096 + i) * 4096
      let hi := min (va + n) ((va / 4096 + i + 1) * 4096)
      match translate s unit ctx (lo % 2 ^ 64) acc with
      | .error e => .error e
      | .ok pa => .ok (l ++ [(pa, hi - lo)])) (.ok [])

/-- The copy of a code word that still stands for the retry of a fault of kind 0 (R373, R379). -/
def codeCopy (s : State) (ctx va : Nat) : Option W128 := (s.codeCopies.find? fun c => c.ctx == ctx && c.va == va).map (·.word)

/-- Fetch one 16-byte code word (R76): the copy that a fault of kind 0 left, until an invalidation discards it (R373), else the word
in memory. -/
def fetchWord (s : State) (unit ctx va : Nat) : Except Trap W128 :=
  match codeCopy s ctx va with
  | some w => .ok w
  | none => match translate s unit ctx va .fetch with
  | .error t => .error { t with kind := 0 }
  | .ok pa => .ok (BitVec.ofNat 128 (leNat (s.physBytes pa.kind pa.addr 16)))

/-- What the loader knows of the image at a code base of a context (log 26). -/
def imageAt (s : State) (ctx code : Nat) : Image := s.images.get {} (2 ^ 64 * ctx + code)

/-- Walk the upper levels of a dirty table (R389): entries of Table 14-5, each naming the next by its PA (log 17). -/
def dirtyWalk (s : State) (va root : Nat) : Nat → Option Nat
  | 0 => some root
  | l + 1 =>
    let e := s.phys64 (root + 8 * bitsOf va (12 + 9 * (l + 1)) 9)
    if e.testBit 0 then dirtyWalk s va (bitsOf e 6 34 * 64) l else none

/-- The leaf that holds a page's dirty bit. -/
def dirtyLeaf (s : State) (ctx va : Nat) : Option Nat := dirtyWalk s va ((s.ctx ctx).dtbase.toNat / 64 * 64 % 2 ^ 40) 4

/-- R389, R390: set the dirty bit of one page. -/
def dirtyPage (s : State) (ctx va : Nat) : State :=
  match dirtyLeaf s ctx va with
  | none => s.updCtx ctx fun c => { c with dovf := true }
  | some leaf =>
    let bit := bitsOf va 12 9
    let a := leaf + bit / 8
    s.setPhysByte 0 a (s.physByte 0 a ||| BitVec.ofNat 8 (2 ^ (bit % 8)))

def markDirty (s : State) (ctx va n : Nat) : State :=
  if !(s.ctx ctx).dten || n == 0 then s
  else (List.range ((va + n - 1) / 4096 - va / 4096 + 1)).foldl (fun s i => dirtyPage s ctx ((va / 4096 + i) * 4096)) s

/-! ## Segments and scratchpad -/

/-- R36, R191: the offset check of a segment or scratchpad. -/
def limitCheck (o n limit seg rank : Nat) : Option Trap :=
  if o + n > limit then some { code := fSegmentLimit, detail := o, aux := seg + rank * 2 ^ 8 } else none

def alignCheck (a n : Nat) : Option Trap :=
  if a % n != 0 then some { code := fAlignment, detail := a } else none

/-- A segment register, bound by the launch packet and held for the grid: Table 1-1 gives sg0 to sg15 context scope, and two grids of
one context have bindings of their own (log 96). -/
def Grid.seg (g : Grid) (n : Nat) : W64 × W64 := g.launch.sg.getD n (0, 0)

/-- R191: the offset of a memory operand. -/
def offsetOf (a : W64) (imm : BitVec 32) : Nat := (a + imm.signExtend 64).toNat

def Team.spadBytes (t : Team) (o n : Nat) : List Byte := (List.range n).map fun i => t.spad.get 0 (o + i)

def Team.spadPoisoned (t : Team) (o n : Nat) : Bool := t.spadPoison.any fun w => w * 8 < o + n && o < w * 8 + 8

/-- Write scratchpad bytes; a word wholly written loses its poison (R337). -/
def Team.setSpad (t : Team) (o : Nat) (bs : List Byte) : Team :=
  { t with
    spad := ((List.range bs.length).zip bs).foldl (fun m p => m.set 0 (o + p.1) p.2) t.spad
    spadPoison := t.spadPoison.filter fun w => !(o ≤ w * 8 && w * 8 + 8 ≤ o + bs.length) }

/-- Write under a bit mask (R198). -/
def maskMerge (old new mask : Byte) : Byte := (new &&& mask) ||| (old &&& ~~~ mask)

def poisonTrap (cls : Nat) : Trap := { code := fPoison, detail := cls * 256 }

/-! ## Wells (R213 to R217) -/

structure Well where
  count : Nat := 0
  target : Nat := 0
  gen : Nat := 0
  err : Bool := false
  armed : Bool := false
  ebytes : Nat := 0
  ecode : Nat := 0
  eeng : Nat := 0
  /-- Reserved bits [127:98] and [255:184], kept as they stand. -/
  rsv1 : Nat := 0
  rsv2 : Nat := 0
deriving DecidableEq, Repr

def Well.ofBytes (bs : List Byte) : Well :=
  let x := leNat bs
  { count := bitsOf x 0 32, target := bitsOf x 32 32, gen := bitsOf x 64 32, err := x.testBit 96, armed := x.testBit 97,
    ebytes := bitsOf x 128 32, ecode := bitsOf x 160 8, eeng := bitsOf x 168 16, rsv1 := bitsOf x 98 30, rsv2 := bitsOf x 184 72 }

def Well.toBytes (w : Well) : List Byte :=
  leBytes 4 w.count ++ leBytes 4 w.target ++ leBytes 4 w.gen ++
  leBytes 4 ((if w.err then 1 else 0) + (if w.armed then 2 else 0) + w.rsv1 * 4) ++ leBytes 4 w.ebytes ++
  leBytes 12 (w.ecode + w.eeng * 2 ^ 8 + w.rsv2 * 2 ^ 24)

/-- R213: armed means ARMED = 1 and TARGET nonzero. -/
def Well.live (w : Well) : Bool := w.armed && w.target != 0

/-- R215: add n units and advance. The quotient is the number of generations passed. -/
def Well.add (w : Well) (n : Nat) : Well :=
  if w.target == 0 then w else
  { w with count := (w.count + n) % w.target, gen := (w.gen + (w.count + n) / w.target) % 2 ^ 32 }

/-- R217: force the well to completion with an error record. -/
def Well.force (w : Well) (ebytes ecode eeng : Nat) : Well :=
  { (({ w with count := w.target } : Well).add 0) with err := true, ebytes := ebytes % 2 ^ 32, ecode := ecode % 2 ^ 8, eeng := eeng % 2 ^ 16 }

def Team.well (t : Team) (o : Nat) : Well := .ofBytes (t.spadBytes o 32)
/-- An update of a well's fields: a partial write, which clears no poison (R337). -/
def Team.setWell (t : Team) (o : Nat) (w : Well) : Team := { t.setSpad o w.toBytes with spadPoison := t.spadPoison }

/-! ## Releasing a held team (R383) -/

/-- A held thread stands again at its fault point (Table 14-1); one that raised SAFEPOINT_DISTANCE counts from 0 (Table 14-3). The
clauses of a thread that moved to another core start late enough for its %clk not to fall (R38). -/
def releaseHeld (cc : Nat) (x : Thread) : Thread :=
  if x.place == .held then
    { x with place := .boundary, notBefore := max cc x.notBefore, stepOk := true, farOff := false, retryVa := none, tookPoison := false, spd := if x.farOff then 0 else x.spd }
  else x

/-- The cached entries after those of a team's die that serve an address it retries are gone: the retry walks afresh (Table 14-3). -/
def dropRetries (s : State) (t : Team) : List TlbEntry :=
  let ctx := ((s.grid? t.grid).map (·.ctx)).getD 0
  let vas := (t.threads ++ t.access).filterMap fun x => if x.place == .held then x.retryVa else none
  s.tlb.filter fun e => !(unitDie e.unit == unitDie t.core && vas.any fun va => e.serves ctx va)

/-- RESUME of a held team. A pre-emption of it that is under way goes on (R383, R384). -/
def releaseTeam (s : State) (t : Team) : State :=
  let phase : Phase := match t.phase with
    | .saving _ b => .saving false b
    | _ => .running
  { s with tlb := dropRetries s t }.setTeam { t with phase, threads := t.threads.map (releaseHeld s.cc), access := t.access.map (releaseHeld s.cc) }

end Sys2Proof.Machine
end

