-- ==== Sys2Proof/Machine/Operands.lean ====
section
/-! DEFINITION. Operand forms: reading every class of Table 3-2, the register checks of R18 and R374, and the ways a word runs
over the threads of its bundle: per thread, once for the bundle, short or long. -/

namespace Sys2Proof.Machine

abbrev Result := Host.Outcome State Fault Refusal

/-! ## Reading operands -/

/-- R41: a k register as this bundle reads it. Less than 2 cc after another bundle's commit, the old or the new value; in the cc of the
commit the old one, since another commit of that cc may still replace the new one, which then no read observes (R42, log 76). -/
def kRead (s : State) (e : Env) (n : Nat) : W64 :=
  match e.b.kw.find? fun w => w.n == n with
  | some w => w.val
  | none =>
    let r := e.t.k.get {} n
    if s.cc < r.stamp + 2 && r.old != r.val && !(e.b.members.any r.writers.contains) then
      if s.cc == r.stamp || (Config.freeChoice s.free >>> n) % 2 == 0 then r.old else r.val
    else r.val

/-- The 64-bit value of an operand in a thread (Tables 1-5 and 3-2); IMM is sign-extended (R81). -/
def readOp (s : State) (e : Env) (imm : BitVec 32) (x : Thread) (o : Operand) : W64 :=
  match o with
  | .v n => x.v.get 0 n.val
  | .k n => kRead s e n.val
  | .tid => BitVec.ofNat 64 x.tid
  | .lane => BitVec.ofNat 64 x.lane
  | .warp => BitVec.ofNat 64 x.warp
  | .team => BitVec.ofNat 64 e.t.index
  | .core => BitVec.ofNat 64 e.t.core
  | .clk => clkOf s e.t.core
  | .imm => imm.signExtend 64
  | .zero | .m _ | .a _ => 0

/-- R27: the even register holds bits [63:0]. -/
def readPair (x : Thread) (o : Operand) : W128 :=
  match o with
  | .v n => x.v.get 0 (n.val + 1) ++ x.v.get 0 n.val
  | _ => 0

/-- The vector registers an operand names, `span` of them. -/
def regsOf (o : Operand) (span : Nat := 1) : List Nat :=
  match o with
  | .v n => (List.range span).map (n.val + ·)
  | _ => []

/-! ## Register checks -/

/-- What a word does to vector registers, whether it is long, whether it accesses a scratchpad (path T), and whether it drops a
poisoned source without a fault (PREF). -/
structure Use where
  reads : List Nat := []
  writes : List Nat := []
  long : Bool := false
  bank : Bool := false
  drops : Bool := false
deriving DecidableEq, Repr

/-- R18, R374: the HAZARD of one thread, if any; `flag` is the flag a long word attaches to. Of several pending registers the detail names
the first that the word reads, in the order A, B, C, else the first that it writes (log 49). -/
def hazardOf (u : Use) (flag : Option Nat) (x : Thread) : Option Trap :=
  let pending (n : Nat) : Bool := (x.pend.get none n).isSome
  let mark (n : Nat) : Nat := ((x.pend.get none n).getD 0) * 2 ^ 16
  match u.reads.find? pending with
  | some n => some { code := fHazard, detail := n + mark n }
  | none => match u.writes.find? pending with
    | some n => some { code := fHazard, detail := n + 2 ^ 10 + mark n }
    | none =>
      if u.long && flag.isNone then u.writes.head?.map fun n => { code := fHazard, detail := n + 2 ^ 10 + 2 ^ 11 } else none

/-- R337: a read of a poisoned register. -/
def regPoison (u : Use) (x : Thread) : Option Trap :=
  if !u.drops && u.reads.any x.vpoison.contains then some (poisonTrap 1) else none

/-- The faults a word's registers raise: HAZARD in every thread of the bundle, poison in the executing ones. -/
def regTraps (e : Env) (u : Use) (flag : Option Nat) (ex : List Thread) : List (Nat × Trap) :=
  match e.threads.filterMap fun x => (hazardOf u flag x).map fun t => (x.tid, t) with
  | [] => ex.filterMap fun x => (regPoison u x).map fun t => (x.tid, t)
  | l => l

/-- R16: a long word stalls while an executing thread's flag stands at 63. -/
def flagFull (u : Use) (flag : Option Nat) (ex : List Thread) : Bool :=
  match flag with
  | some n => u.long && ex.any fun x => 63 ≤ x.cf.get 0 n
  | none => false

/-- R224, R273: earlier accesses that an event orders before the scratchpad accesses of a thread have not performed. -/
def bankHeld (s : State) (x : Thread) : Bool := x.fences.any fun f => f.1 == .t && f.2.any s.inFlight

/-! ## Results -/

/-- What a word leaves in one thread: its new state, the values of D and its next registers, the flags, and for a long word
what the operation waits for. -/
structure Out where
  th : Thread
  vals : List W64 := []
  efl : BitVec 32 := 0
  wait : OpWait := .ready
  poison : Option Trap := none
  popq : Option (Nat × Nat) := none
  /-- The load whose reply brings the data. -/
  via : Option Nat := none
deriving DecidableEq, Repr

/-- Write consecutive registers. A write of a whole register clears its poison. -/
def Thread.putRegs (x : Thread) (n : Nat) (vals : List W64) : Thread :=
  { x with
    v := ((List.range vals.length).zip vals).foldl (fun v p => v.set 0 (n + p.1) p.2) x.v
    vpoison := x.vpoison.filter fun r => !(n ≤ r && r < n + vals.length) }

/-- The short result of one thread: D if it is a vector register, and the flags. -/
def shortThread (d : Operand) (o : Out) : Thread :=
  let x := { o.th with efl := o.th.efl ||| o.efl }
  match d with
  | .v n => x.putRegs n.val o.vals
  | _ => x

/-- A k write of the clause replaces an earlier one of the same register (R42). -/
def putK (kw : List KWrite) (n : Nat) (val : W64) (prod : Nat) : List KWrite :=
  kw.filter (·.n != n) ++ [{ n := n, val := val, prod := prod }]

/-- R148: the team-uniform D takes the value of the last executing thread. A word without a result leaves a D field that only
names a brx register (R92) to nothing. -/
def kwAfter (e : Env) (d : Operand) (outs : List Out) : List KWrite :=
  match d, outs.getLast? with
  | .k n, some o => match o.vals with
    | [] => e.b.kw
    | v :: _ => putK e.b.kw n.val v (e.t.order o.th.tid)
  | _, _ => e.b.kw

/-- The long result of one thread: the flag's count rises and D becomes pending on it (R16, R18). -/
def longThread (d : Operand) (count : Nat) (flag : Option Nat) (o : Out) : Thread :=
  match flag with
  | none => o.th
  | some n =>
    { o.th with cf := o.th.cf.set 0 n (o.th.cf.get 0 n + 1),
                pend := (regsOf d count).foldl (fun p r => p.set none r (some n)) o.th.pend }

/-- The operation that completes later (R16, R22). -/
def longOp (id : Nat) (e : Env) (d : Operand) (count : Nat) (flag : Option Nat) (o : Out) : Op :=
  { id, grid := e.t.grid, team := e.t.index, tid := o.th.tid, flag, wait := o.wait, efl := o.efl, poison := o.poison, popq := o.popq, via := o.via
    src := (e.b.addr - e.g.launch.code).toNat / 16 % 2 ^ 32 + e.b.idx * 2 ^ 32, issue := 16 * e.b.id + e.b.idx
    dst := match d with
      | .v n => (List.range o.vals.length).zip o.vals |>.map fun p => (n.val + p.1, p.2)
      | _ => []
    dreg := match d with
      | .v n => some (n.val, count)
      | _ => none }

/-- A D field that the word does not use holds v0 and names no register (R78): such a word leaves D to nothing. -/
def resultIn (f : Body) (u : Use) : Body :=
  match f.d with
  | .v _ => if u.writes.isEmpty then { f with d := .zero } else f
  | _ => f

/-! ## Per-thread words -/

/-- Split a list of per-thread outcomes: the traps, if any, else the results. -/
def splitOuts (l : List (Nat × Except Trap Out)) : List (Nat × Trap) × List Out :=
  (l.filterMap fun p => match p.2 with
     | .error t => some (p.1, t)
     | .ok _ => none,
   l.filterMap fun p => match p.2 with
     | .error _ => none
     | .ok o => some o)

/-- R188: the FP_TRAP of a short word, with the detail formed over each warp's executing threads; those that trap come first. -/
def fpTraps (e : Env) (outs : List Out) : List (Nat × Trap) :=
  let en := e.c.trapen.setWidth 32 &&& 0xFF
  let orOver (w : Nat) (m : BitVec 32) : Nat :=
    ((outs.filter fun o => o.th.warp == w).foldl (fun a o => a ||| (o.efl &&& m)) 0).toNat
  let up (o : Out) : Bool := o.efl &&& en != 0
  if !outs.any up then []
  else (outs.filter up).map (fun o => (o.th.tid, { code := fFpTrap, detail := orOver o.th.warp en + orOver o.th.warp 0xFF * 2 ^ 8 })) ++
    (outs.filter (!up ·)).map fun o => (o.th.tid, { code := 0, detail := orOver o.th.warp 0xFF * 2 ^ 8 })

/-- R188: the threads with the trapping word's flags merged and everything else as before the word. -/
def eflOnly (e : Env) (outs : List Out) : Team :=
  outs.foldl (fun t o => t.updThread o.th.tid fun x => { x with efl := x.efl ||| o.efl }) e.t

/-- Finish a word all of whose executing threads have a result; a short word that raises an enabled flag takes FP_TRAP. -/
def commitOuts (s : State) (e : Env) (f : Body) (long uniform : Bool) (count : Nat) (outs : List Out) : State :=
  if long then
    let flag := e.flag f.fl
    let ops := ((List.range outs.length).zip outs).map fun p => longOp (s.nextId + p.1) e f.d count flag p.2
    finishWord { s with ops := s.ops ++ ops, nextId := s.nextId + outs.length } e
      (e.t.putThreads (outs.map (longThread f.d count flag))) e.b.kw
  else match fpTraps e outs with
    | [] => finishWord s e (e.t.putThreads (outs.map (shortThread f.d))) (kwAfter e f.d outs)
    | l => raiseWord (s.setTeam (eflOnly e outs)) e l uniform

/-- A word that acts in each executing thread on its own: every source is read before any result is written (R144), a fault in
any thread leaves the word without effect (R368). A uniform word's fault names every executing thread (R147). -/
def regWord (s : State) (f : Body) (u : Use) (uniform : Bool) (eff : Env → Thread → Except Trap Out) : Result :=
  match s.env? with
  | none => .refused (.notEnabled "issue")
  | some e =>
    let ex := e.exec f.grd
    match regTraps e u (e.flag f.fl) ex with
    | t :: r => .next (raiseWord s e (t :: r))
    | [] =>
      if flagFull u (e.flag f.fl) ex then .next (stallWord s)
      else match splitOuts (ex.map fun x => (x.tid, eff e x)) with
        | (t :: r, _) => .next (raiseWord s e (if uniform then ex.map fun x => (x.tid, t.2) else t :: r) uniform)
        | ([], outs) => .next (commitOuts s e (resultIn f u) u.long uniform (max 1 u.writes.length) outs)

/-- A word whose executing threads act together: all their results are computed from the state before the word, over the
bundle's environment, and the team may change beside them. -/
def groupWord (s : State) (f : Body) (u : Use) (uniform : Bool) (eff : Env → List Thread → Except (List (Nat × Trap)) (Team × List Out)) : Result :=
  match s.env? with
  | none => .refused (.notEnabled "issue")
  | some e =>
    let ex := e.exec f.grd
    match regTraps e u (e.flag f.fl) ex with
    | t :: r => .next (raiseWord s e (t :: r))
    | [] =>
      if flagFull u (e.flag f.fl) ex then .next (stallWord s)
      else match eff e ex with
        | .error l => .next (raiseWord s e l)
        | .ok (t, outs) => .next (commitOuts s { e with t := t } (resultIn f u) u.long uniform (max 1 u.writes.length) outs)

/-! ## Words that act on memory -/

/-- Run one long or short action per executing thread, in ascending (warp slot, lane), over the state (R193). The action is
given the identifier of the operation it may leave behind. -/
def actAll (e : Env) (act : Env → State → Thread → Nat → State × Out) : List Thread → State → State × List (Nat × Out)
  | [], s => (s, [])
  | x :: r, s =>
    let p := act e { s with nextId := s.nextId + 1 } x s.nextId
    let q := actAll e act r p.1
    (q.1, (s.nextId, p.2) :: q.2)

/-- Apply the results of a memory word to the threads as the state now holds them. -/
def commitActs (s : State) (e : Env) (f : Body) (long : Bool) (count : Nat) (outs : List (Nat × Out)) : State :=
  let t := (s.team? e.t.grid e.t.index).getD e.t
  if long then
    let flag := e.flag f.fl
    let ops := outs.map fun p => longOp p.1 e f.d count flag p.2
    finishWord { s with ops := s.ops ++ ops } e (t.putThreads (outs.map fun p => longThread f.d count flag p.2)) e.b.kw
  else finishWord s e (t.putThreads (outs.map fun p => shortThread f.d p.2)) (kwAfter e f.d (outs.map (·.2)))

/-- A word whose threads act on memory one after another: all checks pass in every executing thread before any acts. `stall`
holds the bundle at the word. -/
def memWord (s : State) (f : Body) (u : Use) (chk : Env → Thread → Option Trap) (stall : Env → Thread → Bool)
    (act : Env → State → Thread → Nat → State × Out) : Result :=
  match s.env? with
  | none => .refused (.notEnabled "issue")
  | some e =>
    let ex := e.exec f.grd
    match regTraps e u (e.flag f.fl) ex with
    | t :: r => .next (raiseWord s e (t :: r))
    | [] => match ex.filterMap fun x => (chk e x).map fun t => (x.tid, t) with
      | t :: r => .next (raiseWord s e (t :: r))
      | [] =>
        if flagFull u (e.flag f.fl) ex || (u.bank && ex.any (bankHeld s)) || ex.any (stall e) then .next (stallWord s)
        else
          let r := actAll e act ex s
          .next (commitActs r.1 e (resultIn f u) u.long (max 1 u.writes.length) r.2)

/-! ## Words that act once for the bundle -/

/-- A word that acts once, with the executing thread of highest (warp slot, lane) as its source; the values go to D of every
executing thread, or once to a team-uniform D. With no executing thread it has no effect beyond `idle`. -/
def onceWord (s : State) (f : Body) (u : Use) (idle : Env → State → State)
    (eff : Env → State → Thread → Except Trap (State × (Thread → Out))) : Result :=
  match s.env? with
  | none => .refused (.notEnabled "issue")
  | some e =>
    let ex := e.exec f.grd
    match regTraps e u (e.flag f.fl) ex with
    | t :: r => .next (raiseWord s e (t :: r))
    | [] => match ex.getLast? with
      | none => .next (finishWord (idle e s) e (((idle e s).team? e.t.grid e.t.index).getD e.t) e.b.kw)
      | some x =>
        if flagFull u (e.flag f.fl) ex then .next (stallWord s)
        else match eff e s x with
          | .error t => .next (raiseWord s e (ex.map fun y => (y.tid, t)))
          | .ok (s1, out) =>
            let t1 := (s1.team? e.t.grid e.t.index).getD e.t
            let outs := ((List.range ex.length).zip ex).map fun p => (s1.nextId + p.1, out ((t1.thread? p.2.tid).getD p.2))
            .next (commitActs { s1 with nextId := s1.nextId + ex.length } e (resultIn f u) u.long (max 1 u.writes.length) outs)

end Sys2Proof.Machine
end

