-- ==== Sys2Proof/Machine/Flags.lean ====
section
/-! DEFINITION. Flag and number computations: EFL bits, format slots, decoding, rounding into a slot, exact sums, the stochastic
generators, packing, and the new value of an atomic. -/

namespace Sys2Proof.Machine

/-! ## EFL bits (Table 1-2) -/

abbrev Efl := BitVec 32

def fNV : Efl := 1
def fDZ : Efl := 2
def fOF : Efl := 4
def fUF : Efl := 8
def fNX : Efl := 16
def fSA : Efl := 32
def fIW : Efl := 64
def fFZ : Efl := 128

def flagIf (b : Bool) (f : Efl) : Efl := if b then f else 0

/-! ## Integer lanes (R61, R142, R149) -/

/-- Lane or element `i` of width `w` of a register value. -/
def elemOf (w i : Nat) (x : W64) : Nat := x.toNat / 2 ^ (w * i) % 2 ^ w

/-- A register from its elements of width `w`, element 0 lowest; the bits above are zero. -/
def packElems (w : Nat) (l : List Nat) : W64 :=
  BitVec.ofNat 64 (l.foldr (fun x acc => x % 2 ^ w + 2 ^ w * acc) 0)

/-- An n-bit number as a two's-complement integer. -/
def signedOf (w x : Nat) : Int := if x % 2 ^ w < 2 ^ (w - 1) then (x % 2 ^ w : Nat) else (x % 2 ^ w : Nat) - (2 ^ w : Nat)

def laneVal (w : Nat) (signed : Bool) (x : Nat) : Int := if signed then signedOf w x else (x % 2 ^ w : Nat)

/-- R149: the bits of an exact lane result, saturated or wrapped. -/
def deliver (x : Int) (w : Nat) (signed sat : Bool) : Nat :=
  let lo : Int := if signed then -(2 ^ (w - 1) : Nat) else 0
  let hi : Int := if signed then (2 ^ (w - 1) : Nat) - 1 else (2 ^ w : Nat) - 1
  let y := if sat then max lo (min hi x) else x
  (y % (2 ^ w : Nat)).toNat

/-! ## Format slots (Table 2-1) -/

structure Fmt where
  sgn : Bool := false
  ew : Nat := 0
  mw : Nat := 0
  bias : Int := 0
  sub : Nat := 0
  inf : Nat := 0
  nan : Nat := 0
  rnd : Nat := 0
  srb : Nat := 0
  sat : Bool := false
  int : Bool := false
deriving DecidableEq, Repr

def Fmt.of (x : W64) : Fmt :=
  let n := x.toNat
  { sgn := n.testBit 0, ew := bitsOf n 1 4, mw := bitsOf n 5 5, bias := signedOf 12 (bitsOf n 10 12), sub := bitsOf n 22 2,
    inf := bitsOf n 24 2, nan := bitsOf n 26 2, rnd := bitsOf n 28 3, srb := bitsOf n 31 5, sat := n.testBit 36, int := n.testBit 37 }

def Fmt.width (f : Fmt) : Nat := (if f.sgn then 1 else 0) + f.ew + f.mw
def Fmt.elems (f : Fmt) : Nat := 64 / f.width
def Fmt.stochastic (f : Fmt) : Bool := f.rnd == 5

/-- R46, Table 2-2. -/
def fmtValid (x : W64) : Bool :=
  let f := Fmt.of x
  1 ≤ f.width && f.width ≤ 32 && bitsOf x.toNat 38 26 == 0 && f.sub != 3 && f.inf != 3 && f.rnd != 7 &&
  (f.rnd != 5 || (1 ≤ f.srb && f.srb ≤ 24)) &&
  (if f.int then f.ew == 0 && f.mw ≤ 31 && f.bias == 0 && f.sub == 0 && f.inf == 0 && f.nan == 0
   else 1 ≤ f.ew && f.ew ≤ 8 && f.mw ≤ 23 && (f.inf != 1 || (f.nan == 1 && 1 ≤ f.mw)) && (f.nan != 1 || 1 ≤ f.mw) &&
     (f.inf != 2 || f.nan == 0 || f.nan == 3) && (f.nan != 3 || f.sgn))

/-! ## Exact values -/

/-- A decoded value. A number is ±(m + t) × 2^e, where t is 0, or, when `sticky`, some amount strictly between 0 and 1. A NaN
carries whether its use sets NV. `inexact` marks a value already truncated (R75). -/
inductive Val where
  | nan (nv : Bool)
  | inf (neg : Bool)
  | num (neg : Bool) (m : Nat) (e : Int) (sticky inexact : Bool)
deriving DecidableEq, Repr

def Val.zero (neg : Bool) : Val := .num neg 0 0 false false
def Val.exact (neg : Bool) (m : Nat) (e : Int) : Val := .num neg m e false false

/-- A signed integer times 2^e; zero is +0. -/
def Val.ofInt (x : Int) (e : Int) : Val := .exact (x < 0) x.natAbs e

def Val.isNan : Val → Bool
  | .nan _ => true
  | _ => false
def Val.isInf : Val → Bool
  | .inf _ => true
  | _ => false
def Val.isZero : Val → Bool
  | .num _ m _ st _ => m == 0 && !st
  | _ => false
def Val.sign : Val → Bool
  | .nan _ => false
  | .inf s => s
  | .num s _ _ _ _ => s
def Val.neg : Val → Val
  | .nan q => .nan q
  | .inf s => .inf !s
  | .num s m e st ix => .num (!s) m e st ix
def Val.abs : Val → Val
  | .nan q => .nan q
  | .inf _ => .inf false
  | .num _ m e st ix => .num false m e st ix
def Val.withSign (n : Bool) : Val → Val
  | .nan q => .nan q
  | .inf _ => .inf n
  | .num _ m e st ix => .num n m e st ix

/-- Number of bits of m. -/
def bitLen (m : Nat) : Nat := if m == 0 then 0 else Nat.log2 m + 1

/-- m × 2^k as a natural number, for k ≥ 0, else the floor. -/
def shiftNat (m : Nat) (k : Int) : Nat := if 0 ≤ k then m * 2 ^ k.toNat else m / 2 ^ (-k).toNat

/-- Compare m1 × 2^e1 with m2 × 2^e2: true when the first is smaller. -/
def magLt (m1 : Nat) (e1 : Int) (m2 : Nat) (e2 : Int) : Bool :=
  if m1 == 0 then m2 != 0
  else if m2 == 0 then false
  else
    let t1 : Int := (bitLen m1 : Nat) + e1
    let t2 : Int := (bitLen m2 : Nat) + e2
    if t1 < t2 then true else if t2 < t1 then false
    else
      let lo := min e1 e2
      m1 * 2 ^ (e1 - lo).toNat < m2 * 2 ^ (e2 - lo).toNat

/-- Order of two exact numbers: a < b, with -0 below +0 when `zeros`. -/
def valLt (zeros : Bool) : Val → Val → Bool
  | .inf s, .inf t => s && !t
  | .inf s, .num .. => s
  | .num .., .inf t => !t
  | .num s m e _ _, .num t n g _ _ =>
    if m == 0 && n == 0 then zeros && s && !t
    else if m == 0 then !t && n != 0
    else if n == 0 then s
    else if s != t then s
    else if s then magLt n g m e else magLt m e n g
  | _, _ => false

/-! ## Decoding (R48, Table 2-4) -/

def Fmt.topExp (f : Fmt) : Nat := 2 ^ f.ew - 1
def Fmt.allOnes (f : Fmt) : Nat := 2 ^ (f.ew + f.mw) - 1

/-- The special value of a code, if it is one. -/
def Fmt.special (f : Fmt) (c : Nat) : Option Val :=
  let mag := c % 2 ^ (f.ew + f.mw)
  let s := f.sgn && c.testBit (f.width - 1)
  let ex := mag / 2 ^ f.mw
  let fr := mag % 2 ^ f.mw
  if f.nan == 1 && ex == f.topExp && fr != 0 then some (.nan (!fr.testBit (f.mw - 1)))
  else if f.nan == 2 && mag == f.allOnes then some (.nan false)
  else if f.nan == 3 && s && mag == 0 then some (.nan false)
  else if f.inf == 1 && ex == f.topExp && fr == 0 then some (.inf s)
  else if f.inf == 2 && mag == f.allOnes then some (.inf s)
  else none

/-- Decode a W-bit code: its value and FZ when an input is flushed. -/
def Fmt.decode (f : Fmt) (code : Nat) : Val × Efl :=
  let c := code % 2 ^ f.width
  if f.int then
    if f.sgn && c.testBit (f.width - 1) then (.exact true (2 ^ f.width - c) 0, 0) else (.exact false c 0, 0)
  else match f.special c with
    | some v => (v, 0)
    | none =>
      let s := f.sgn && c.testBit (f.width - 1)
      let ex := c / 2 ^ f.mw % 2 ^ f.ew
      let fr := c % 2 ^ f.mw
      if ex == 0 then
        if f.sub == 2 && fr != 0 then (.zero s, fFZ) else (.exact s fr (1 - f.bias - f.mw), 0)
      else (.exact s (2 ^ f.mw + fr) (ex - f.bias - f.mw), 0)

/-- The magnitude code of the largest finite value (Table 2-4). -/
def Fmt.maxCode (f : Fmt) : Nat :=
  if f.inf == 2 || f.nan == 2 then f.allOnes - 1
  else if f.inf == 1 then f.allOnes - 2 ^ f.mw
  else if f.nan == 1 then f.topExp * 2 ^ f.mw
  else f.allOnes

/-- The largest finite magnitude as m × 2^e. -/
def Fmt.maxFinite (f : Fmt) : Nat × Int :=
  let ex := f.maxCode / 2 ^ f.mw
  let fr := f.maxCode % 2 ^ f.mw
  if ex == 0 then (fr, 1 - f.bias - f.mw) else (2 ^ f.mw + fr, ex - f.bias - f.mw)

def Fmt.signBit (f : Fmt) (s : Bool) : Nat := if s && f.sgn then 2 ^ (f.width - 1) else 0

/-- R56: the canonical NaN. -/
def Fmt.canonicalNan (f : Fmt) : Nat :=
  if f.nan == 1 then f.topExp * 2 ^ f.mw + 2 ^ (f.mw - 1)
  else if f.nan == 2 then f.allOnes
  else 2 ^ (f.ew + f.mw)

/-- R51: zero of a sign where the format has one. -/
def Fmt.zeroCode (f : Fmt) (s : Bool) : Nat := if f.nan == 3 then 0 else f.signBit s

def Fmt.infCode (f : Fmt) (s : Bool) : Nat :=
  (if f.inf == 1 then f.topExp * 2 ^ f.mw else f.allOnes) + f.signBit s

/-- R56. -/
def Fmt.nanResult (f : Fmt) (nv : Bool) : Nat × Efl :=
  if f.nan != 0 then (f.canonicalNan, flagIf nv fNV) else (0, fNV)

/-! ## Rounding (R51 to R55) -/

/-- Table 2-5 on n0 + rem/den, with more below when `sticky`; `draw` is the SRB-bit random value. -/
def roundInt (rnd srb draw : Nat) (s : Bool) (n0 rem den : Nat) (sticky : Bool) : Nat :=
  let above := rem != 0 || sticky
  let up := match rnd with
    | 0 => 2 * rem > den || (2 * rem == den && (sticky || n0 % 2 == 1))
    | 1 => false
    | 2 => above && !s
    | 3 => above && s
    | 4 => 2 * rem ≥ den
    | 5 => rem * 2 ^ srb / den + draw % 2 ^ srb ≥ 2 ^ srb
    | _ => above && n0 % 2 == 0
  if up then n0 + 1 else n0

/-- Round the magnitude (m + t) × 2^e to a multiple of 2^qe: the count of quanta and whether it is inexact. -/
def roundAt (rnd srb draw : Nat) (s : Bool) (m : Nat) (e qe : Int) (sticky : Bool) : Nat × Bool :=
  if qe ≤ e then (roundInt rnd srb draw s (m * 2 ^ (e - qe).toNat) 0 1 sticky, sticky)
  else
    let den := 2 ^ (qe - e).toNat
    (roundInt rnd srb draw s (m / den) (m % den) den sticky, m % den != 0 || sticky)

/-- R55. -/
def Fmt.toInteger (f : Fmt) (draw : Nat) (x : Val) : Nat × Efl :=
  let w := f.width
  let lo : Int := if f.sgn then -(2 ^ (w - 1) : Nat) else 0
  let hi : Int := if f.sgn then (2 ^ (w - 1) : Nat) - 1 else (2 ^ w : Nat) - 1
  let code (n : Int) : Nat := (n % (2 ^ w : Nat)).toNat
  match x with
  | .nan _ => (0, fNV)
  | .inf s => if f.sat then (code (if s then lo else hi), fSA) else (0, fNV)
  | .num s m e st ix =>
    let (n, nx) := roundAt f.rnd f.srb draw s m e 0 st
    let y : Int := if s then -(n : Nat) else n
    let fl := flagIf (nx || ix) fNX
    if y < lo then (if f.sat then (code lo, fl ||| fSA) else (code y, fl ||| fIW))
    else if hi < y then (if f.sat then (code hi, fl ||| fSA) else (code y, fl ||| fIW))
    else (code y, fl)

/-- R53: the largest finite magnitude with a sign. Where it is 0 it is the zero of that sign, +0 in a slot that has no other (R50;
log 84). -/
def Fmt.largest (f : Fmt) (s : Bool) : Nat := if f.maxCode == 0 then f.zeroCode s else f.maxCode + f.signBit s

/-- R53, a finite overflow. -/
def Fmt.overflow (f : Fmt) (s : Bool) : Nat × Efl :=
  let big := f.largest s
  if f.sat then (big, fOF ||| fNX ||| fSA)
  else if f.inf != 0 then
    let toInf := f.rnd == 0 || f.rnd == 4 || f.rnd == 5 || (f.rnd == 2 && !s) || (f.rnd == 3 && s)
    (if toInf then f.infCode s else big, fOF ||| fNX)
  else if f.nan != 0 then (f.canonicalNan, fOF ||| fNX ||| fNV)
  else (big, fOF ||| fNX ||| fSA)

/-- R53, an exact infinity. -/
def Fmt.infiniteInput (f : Fmt) (s : Bool) : Nat × Efl :=
  let big := f.largest s
  if f.inf != 0 then (f.infCode s, 0)
  else if f.sat then (big, fSA)
  else if f.nan != 0 then (f.canonicalNan, fNV)
  else (big, fSA)

/-- R51: deliver a value into a slot. A tiny value that was cut before it came here, and fits the slot, sets UF with NX (log 83). -/
def Fmt.roundTo (f : Fmt) (draw : Nat) (x : Val) : Nat × Efl :=
  match x with
  | .nan nv => if f.int then f.toInteger draw x else f.nanResult nv
  | .inf s =>
    if f.int then f.toInteger draw x
    else if !f.sgn && s then (if f.nan != 0 then f.canonicalNan else 0, fNV)
    else f.infiniteInput s
  | .num s m e st ix =>
    if f.int then f.toInteger draw x
    else if m == 0 && !st then (f.zeroCode s, flagIf ix fNX)
    else if !f.sgn && s then (if f.nan != 0 then f.canonicalNan else 0, fNV)
    else
      let top : Int := (bitLen m : Nat) + e - 1
      let emin := 1 - f.bias
      let tiny := top < emin
      if tiny && f.sub != 0 then (f.zeroCode s, fFZ ||| fUF ||| fNX)
      else
        let qe := max top emin - f.mw
        let (n, nx) := roundAt f.rnd f.srb draw s m e qe st
        let (mm, me) := f.maxFinite
        if magLt mm me n qe then f.overflow s
        else
          let fl := flagIf (nx || ix) (fNX ||| flagIf tiny fUF)
          if n == 0 then (f.zeroCode s, fl)
          else if tiny then (n + f.signBit s, fl)
          else (((qe + f.mw + f.bias).toNat) * 2 ^ f.mw + (n - 2 ^ f.mw) + f.signBit s, fl)

/-! ## Exact sums and products (R65, R174) -/

def Val.prod (a b : Val) : Val :=
  match a, b with
  | .nan p, .nan q => .nan (p || q)
  | .nan p, _ => .nan p
  | _, .nan q => .nan q
  | .inf s, .inf t => .inf (s != t)
  | .inf s, .num t m _ _ _ => if m == 0 then .nan true else .inf (s != t)
  | .num s m _ _ _, .inf t => if m == 0 then .nan true else .inf (s != t)
  | .num s m e _ _, .num t n g _ _ => .exact (s != t) (m * n) (e + g)

/-- R174: a product in which a zero factor gives +0. -/
def Val.prodz (a b : Val) : Val := if a.isZero || b.isZero then .zero false else a.prod b

/-- The exact sum of finite terms as an integer times a power of two. -/
def sumTerms (l : List Val) : Int × Int :=
  l.foldl (fun acc v =>
    match v with
    | .num s m e _ _ =>
      if m == 0 then acc
      else if acc.1 == 0 then (if s then -(m : Int) else m, e)
      else
        let lo := min acc.2 e
        let x : Int := (m * 2 ^ (e - lo).toNat : Nat)
        (acc.1 * (2 ^ (acc.2 - lo).toNat : Nat) + (if s then -x else x), lo)
    | _ => acc) (0, 0)

/-- R65, the value before its one rounding. -/
def exactSum (f : Fmt) (l : List Val) : Val :=
  if l.any Val.isNan then .nan (l.any fun v => v == .nan true)
  else if l.any (· == .inf false) && l.any (· == .inf true) then .nan true
  else match l.find? Val.isInf with
    | some v => v
    | none =>
      let (t, e) := sumTerms l
      if t == 0 then .zero (l.all Val.sign || f.rnd == 3) else .ofInt t e

/-! ## Stochastic generators (R57, R59) -/

/-- xorshift128+: the value drawn and the new state. -/
def xsNext (s0 s1 : W64) : W64 × W64 × W64 :=
  let x := s0 ^^^ (s0 <<< 23)
  let n := x ^^^ s1 ^^^ (x >>> 17) ^^^ (s1 >>> 26)
  (n + s1, s1, n)

def mixZ (z : W64) : W64 :=
  let z := (z ^^^ (z >>> 31)) * 0xB5E27C194D83A6F1
  let z := (z ^^^ (z >>> 29)) * 0x6D2B79F5C4E10A97
  z ^^^ (z >>> 32)

/-- R59: H. -/
def hMix (seed : W64) (a n : Nat) : W64 :=
  mixZ (seed ^^^ mixZ (BitVec.ofNat 64 a * 0x8F3A61C52B97D4E3 + BitVec.ofNat 64 n))

/-- R58: bits [63 : 64 − SRB]. -/
def drawBits (srb : Nat) (x : W64) : Nat := x.toNat / 2 ^ (64 - srb)

/-- A generator's state while a word draws. -/
structure Rng where
  s0 : W64 := 0
  s1 : W64 := 0
deriving DecidableEq, Repr

/-- Deliver a value, drawing first under a stochastic slot (R58). -/
def Fmt.put (f : Fmt) (r : Rng) (x : Val) : Nat × Efl × Rng :=
  if f.stochastic then
    let (d, s0, s1) := xsNext r.s0 r.s1
    let (c, fl) := f.roundTo (drawBits f.srb d) x
    (c, fl, { s0, s1 })
  else
    let (c, fl) := f.roundTo 0 x
    (c, fl, r)

/-- Deliver a list of values in order: codes, flags and the generator. -/
def Fmt.putAll (f : Fmt) : Rng → List Val → List Nat × Efl × Rng
  | r, [] => ([], 0, r)
  | r, v :: l =>
    let (c, fl, r1) := f.put r v
    let (cs, fls, r2) := f.putAll r1 l
    (c :: cs, fl ||| fls, r2)

/-! ## EMIN and EMAX (R175) -/

/-- The code of a value decoded with input flushing: the code itself, or the zero of its sign when it was flushed. -/
def Fmt.inCode (f : Fmt) (c : Nat) : Nat :=
  let (v, fl) := f.decode c
  if fl == fFZ then f.zeroCode v.sign else c % 2 ^ f.width

/-- The code EMIN (or EMAX) chooses, and its flags. -/
def Fmt.minmax (f : Fmt) (isMax : Bool) (ca cb : Nat) : Nat × Efl :=
  let (a, fa) := f.decode ca
  let (b, fb) := f.decode cb
  let nv := flagIf (a == .nan true || b == .nan true) fNV
  let fl := fa ||| fb ||| nv
  if a.isNan && b.isNan then
    let (c, g) := f.nanResult false
    (c, fl ||| g)
  else if a.isNan then (f.inCode cb, fl)
  else if b.isNan then (f.inCode ca, fl)
  else if (if isMax then valLt true a b else valLt true b a) then (f.inCode cb, fl) else (f.inCode ca, fl)

/-! ## Packed streams (R62) -/

/-- Element of `w` bits at stream bit `b` of a byte list. -/
def streamElem (bs : List Byte) (b w : Nat) : Nat :=
  leNat (((bs.drop (b / 8)).take ((b % 8 + w + 7) / 8))) / 2 ^ (b % 8) % 2 ^ w

/-- Bytes and bit mask of elements of `w` bits laid from bit `b` (below 8) of the first byte. -/
def packStream (b w : Nat) (l : List Nat) : List Byte × List Byte :=
  let n := (b + w * l.length + 7) / 8
  let v := l.foldr (fun x acc => x % 2 ^ w + 2 ^ w * acc) 0
  (leBytes n (v * 2 ^ b), leBytes n ((2 ^ (w * l.length) - 1) * 2 ^ b))

/-! ## Atomics (R219) -/

/-- R219 for one n-byte location: new value, flags and the number of element roundings that draw. `draws i` is the random value
of element i's eadd. -/
def atomNew (op n old x cmp : Nat) (fmt : W64) (draws : Nat → Nat) : Nat × Efl :=
  let w := 8 * n
  let m := 2 ^ w
  let o := old % m
  let y := x % m
  match op with
  | 0x00 => ((o + y) % m, 0)
  | 0x01 => (if signedOf w y < signedOf w o then y else o, 0)
  | 0x02 => (min o y, 0)
  | 0x03 => (if signedOf w o < signedOf w y then y else o, 0)
  | 0x04 => (max o y, 0)
  | 0x05 => (o &&& y, 0)
  | 0x06 => (o ||| y, 0)
  | 0x07 => (o ^^^ y, 0)
  | 0x08 => (y, 0)
  | 0x09 => (if o == cmp % m then y else o, 0)
  | _ =>
    let f := Fmt.of fmt
    let count := w / f.width
    let one (i : Nat) : Nat × Efl :=
      let a := o / 2 ^ (f.width * i) % 2 ^ f.width
      let b := y / 2 ^ (f.width * i) % 2 ^ f.width
      if op == 0x10 then
        let (va, ga) := f.decode a
        let (vb, gb) := f.decode b
        let (c, g) := f.roundTo (draws i) (exactSum f [va, vb])
        (c, ga ||| gb ||| g)
      else f.minmax (op == 0x12) a b
    let rs := (List.range count).map one
    let low := rs.foldr (fun r acc => r.1 % 2 ^ f.width + 2 ^ f.width * acc) 0
    (o / 2 ^ (f.width * count) * 2 ^ (f.width * count) + low, rs.foldl (fun a r => a ||| r.2) 0)

end Sys2Proof.Machine
end

