-- ==== Sys2Proof/Machine/Block.lean ====
section
/-! DEFINITION. Compressed blocks (12: R335, Table 12-5): the modes of a granule, the block form of 256 bytes, and its expansion. -/

namespace Sys2Proof.Machine

/-- The eight 32-bit words, or sixteen 16-bit words, of a granule. -/
def granuleWords (n : Nat) (g : List Byte) : List Nat := (List.range (32 / n)).map fun i => leNat ((g.drop (n * i)).take n)

/-- The payload of a granule under a mode, where the mode's condition holds. -/
def granulePayload (g : List Byte) (mode : Nat) : Option (List Byte) :=
  let w := granuleWords 4 g
  let w0 := w.getD 0 0
  let u := granuleWords 2 g
  let delta (bits x : Nat) : Int := signedOf 32 ((x + 2 ^ 32 - w0) % 2 ^ 32) + (2 ^ (bits - 1) : Nat)
  let near (bits : Nat) : Bool := w.all fun x => 0 ≤ delta bits x && delta bits x < (2 ^ bits : Nat)
  match mode with
  | 0 => some g
  | 1 => if g.all (· == 0) then some [] else none
  | 2 => if w.all (· == w0) then some (leBytes 4 w0) else none
  | 3 => if near 8 then some (leBytes 4 w0 ++ w.flatMap fun x => leBytes 1 ((x + 2 ^ 32 - w0) % 2 ^ 8)) else none
  | 4 => if near 16 then some (leBytes 4 w0 ++ w.flatMap fun x => leBytes 2 ((x + 2 ^ 32 - w0) % 2 ^ 16)) else none
  | 5 => if u.all fun x => bitsOf x 7 8 == bitsOf (u.getD 0 0) 7 8 then
      some (leBytes 1 (bitsOf (u.getD 0 0) 7 8) ++ u.flatMap fun x => leBytes 1 (bitsOf x 15 1 * 128 + x % 128)) else none
  | _ => none

/-- The mode of fewest payload bytes whose condition holds, the lowest code on a tie. -/
def granuleMode (g : List Byte) : Nat × List Byte :=
  (List.range 6).foldl (fun best m =>
    match granulePayload g m with
    | some p => if p.length < best.2.length then (m, p) else best
    | none => best) (0, g)

/-- Payload bytes of each mode. -/
def modeBytes (mode : Nat) : Nat := [32, 0, 4, 12, 20, 17].getD mode 0

/-- The 32 bytes that a mode and its payload expand to. -/
def expandGranule (mode : Nat) (p : List Byte) : List Byte :=
  let w0 := leNat (p.take 4)
  let word (n i : Nat) : Nat := (w0 + ((signedOf (8 * n) (leNat ((p.drop (4 + n * i)).take n))) % (2 ^ 32 : Nat)).toNat) % 2 ^ 32
  match mode with
  | 0 => p
  | 1 => List.replicate 32 0
  | 2 => (List.range 8).flatMap fun _ => leBytes 4 w0
  | 3 => (List.range 8).flatMap fun i => leBytes 4 (word 1 i)
  | 4 => (List.range 8).flatMap fun i => leBytes 4 (word 2 i)
  | _ => (List.range 16).flatMap fun i =>
      let b := (p.getD (i + 1) 0).toNat
      leBytes 2 (b / 128 * 2 ^ 15 + (p.getD 0 0).toNat * 2 ^ 7 + b % 128)

/-- The block form of 256 bytes: a descriptor of eight codes of three bits, then the payloads in granule order (log 67). -/
def blockForm (b : List Byte) : List Byte :=
  let gs := (List.range 8).map fun i => granuleMode ((b.drop (32 * i)).take 32)
  leBytes 3 (gs.foldr (fun g acc => g.1 + 8 * acc) 0) ++ gs.flatMap (·.2)

/-- Expand the granules of a block: their bytes and what follows them. -/
def expandGranules : List Nat → List Byte → Option (List Byte × List Byte)
  | [], r => some ([], r)
  | m :: ms, r =>
    if 6 ≤ m || r.length < modeBytes m then none
    else (expandGranules ms (r.drop (modeBytes m))).map fun q => (expandGranule m (r.take (modeBytes m)) ++ q.1, q.2)

/-- Expand `n` blocks: their bytes, when the form is whole and nothing follows. -/
def expandBlocks : Nat → List Byte → Option (List Byte)
  | 0, r => if r.isEmpty then some [] else none
  | n + 1, r =>
    if r.length < 3 then none
    else match expandGranules ((List.range 8).map fun i => leNat (r.take 3) / 8 ^ i % 8) (r.drop 3) with
      | none => none
      | some (b, rest) => (expandBlocks n rest).map (b ++ ·)

end Sys2Proof.Machine
end

