-- ==== Sys2Proof/Machine/Traffic.lean ====
section
/-! DEFINITION. Endpoints of the meshes and the packets of memory requests, engines and I/O dies (16: R420 to R423, R433, R436, R440).
A node is 192 × die + node; ports are 0 N, 1 E, 2 S, 3 W. -/

namespace Sys2Proof.Machine

/-! ## Geometry (R420, R436) -/

def nodeCol (x : Nat) : Nat := x % 192 % 16
def nodeRow (x : Nat) : Nat := x % 192 / 16
def nodeDie (x : Nat) : Nat := x / 192

/-- The core hosted at a node. -/
def nodeCore (x : Nat) : Nat := nodeDie x * 48 + x % 192 / 4

/-- What a directional port leads to: a router of the same die, the link of a die boundary, or the I/O die (R420). -/
inductive PortKind where
  | mesh
  | die
  | io
deriving DecidableEq, Repr

/-- Where a directional port leads; none at an edge that faces nothing. -/
def portTo (x port : Nat) : Option (Nat × PortKind) :=
  let d := nodeDie x
  match port with
  | 0 => if nodeRow x != 0 then some (x - 16, .mesh) else if 4 ≤ d then some (x - 4 * 192 + 176, .die) else some (x, .io)
  | 1 => if nodeCol x != 15 then some (x + 1, .mesh) else if d % 4 != 3 then some (x + 192 - 15, .die) else none
  | 2 => if nodeRow x != 11 then some (x + 16, .mesh) else if d < 4 then some (x + 4 * 192 - 176, .die) else some (x, .io)
  | _ => if nodeCol x != 0 then some (x - 1, .mesh) else if d % 4 != 0 then some (x - 192 + 15, .die) else none

def opposite (port : Nat) : Nat := (port + 2) % 4

/-- Where a flit heads in this die: column, row, and the port it then crosses by. -/
def aimOf (x dst : Nat) : Nat × Nat × Option Nat :=
  let d := nodeDie x
  let e := nodeDie dst
  if d == e then (nodeCol dst, nodeRow dst, none)
  else if d % 4 < e % 4 then (15, nodeRow x, some 1)
  else if e % 4 < d % 4 then (0, nodeRow x, some 3)
  else if d < e then (nodeCol x, 11, some 2)
  else (nodeCol x, 0, some 0)

/-- R423: the productive ports of a flit bound for `dst`, the preferred one first. -/
def productive (x dst : Nat) : List Nat :=
  let a := aimOf x dst
  let dx := max (a.1 - nodeCol x) (nodeCol x - a.1)
  let dy := max (a.2.1 - nodeRow x) (nodeRow x - a.2.1)
  let h := if dx == 0 then [] else [if nodeCol x < a.1 then 1 else 3]
  let v := if dy == 0 then [] else [if nodeRow x < a.2.1 then 2 else 0]
  if dx == 0 && dy == 0 then a.2.2.toList else if dy ≤ dx then h ++ v else v ++ h

/-- A crossing port: one that leads to another die or to the I/O die. -/
def isCrossing (x port : Nat) : Bool :=
  match portTo x port with
  | some (_, .die) | some (_, .io) => true
  | _ => false

/-! ## Endpoints (R420, Table 16-1) -/

/-- The number of an endpoint: a core's own, else one of its node and SEP. -/
def endOf (node sep : Nat) : Nat := if sep == 0 then nodeCore node else 384 + 16 * node + sep

def endNode (k : Nat) : Nat := if k < 384 then coreNode k else (k - 384) / 16

/-- The node by which an I/O die sends into a die's column, or takes from it: the outer edge of the die in its own row of dies (R439). -/
def ioEdge (io die col : Nat) : Nat := if io == 0 then 192 * (die % 4) + col else 192 * (4 + die % 4) + 176 + col

/-- The endpoint of the I/O port there: N for I/O die 0, S for I/O die 1. -/
def ioSep (io : Nat) : Nat := if io == 0 then 7 else 9

/-- R334: the die and node of the controller of a device block, and its endpoint there. -/
def controllerOf (pa : Nat) : Nat × Nat := ((pa / 256 % 16 ^^^ pa / 2 ^ 24 % 16) / 2, pa / 4096 % 384 / 2)
def controllerSep (pa : Nat) : Nat := 2 + 2 * ((pa / 256 % 16 ^^^ pa / 2 ^ 24 % 16) % 2) + pa / 4096 % 384 % 2

/-- The node whose slice a requester takes for the home of a device address: the region's home, else its own node, which homes it (R327). -/
def homeNode (s : State) (src pa : Nat) : Nat :=
  let r := s.regions.get {} (pa / 65536)
  if r.st == 0 then src else 192 * r.die + r.node

/-! ## Links (R414, R436, R437, R443) -/

/-- The link a crossing flit is on: die boundaries 0 to 9, those between columns first (log 23). -/
def boundaryOf (x port : Nat) : Nat :=
  let d := nodeDie x
  if port == 1 then d / 4 * 3 + d % 4 else if port == 3 then d / 4 * 3 + d % 4 - 1 else 6 + d % 4

/-- Links are numbered with the UALink ports after the die boundaries (log 23). -/
def updLink (s : State) (n : Nat) (f : Link → Link) : State :=
  if s.links.any (·.n == n) then { s with links := s.links.map fun l => if l.n == n then f l else l }
  else { s with links := s.links ++ [f { n }] }

def linkOf (s : State) (n : Nat) : Link := (s.links.find? (·.n == n)).getD { n }

/-- Table 16-7: the UALink port of a page's requests: a hash over the ports that `pick` admits (log 93). -/
def portOf (s : State) (pick : Link → Bool) (page : Nat) : Nat :=
  let ports := (List.range 24).filter fun i => (linkOf s (10 + i)).up && pick (linkOf s (10 + i))
  ports.getD (Config.portHash page % max 1 ports.length) (Config.portHash page % 24)

/-- The port by which a request to a peer leaves: one that reaches the part that its address names. -/
def peerPort (s : State) (a : Nat) : Nat := portOf s (fun l => l.peers.contains (bitsOf a 40 10)) (a / 4096)

/-- Where packets for a place go, from a node: the slice of its home, or the I/O die of the host or of a peer (R439, log 93). -/
def placeEnd (s : State) (src : Nat) (g : Nat × Nat × Nat) : Nat × Nat :=
  if g.1 == 0 then (homeNode s src g.2.1, 1)
  else
    let io := if g.1 == 1 || peerPort s g.2.1 < 12 then 0 else 1
    (ioEdge io (nodeDie src) (nodeCol src), ioSep io)

/-- The links on the way from a die to another: columns first, then rows (R436). -/
def pathLinks (d e : Nat) : List Nat :=
  ((List.range (max (d % 4) (e % 4))).filter (min (d % 4) (e % 4) ≤ ·)).map (d / 4 * 3 + ·) ++ (if d / 4 == e / 4 then [] else [6 + e % 4])

/-- Whether block form may travel from a node to another: every link between their dies has the capability (R440, Table 19-2). -/
def pathTakes (s : State) (x y : Nat) : Bool := (pathLinks (nodeDie x) (nodeDie y)).all fun n => (linkOf s n).cmp

/-! ## Packets -/

def Packet.onReply (p : Packet) : Bool := p.kind == 4 || p.kind == 5 || p.kind == 6 || p.kind == 8

/-- Whether a packet answers another (R422). -/
def Packet.isAnswer (p : Packet) : Bool := p.kind == 3 || p.kind == 4 || p.kind == 8

/-- Flits of a packet (Table 16-2). -/
def flitCount (p : Packet) : Nat :=
  match p.kind with
  | 1 => 1 + p.size / 16
  | 2 => min 3 (1 + (p.size + 15) / 16)
  | 4 | 5 => max 1 ((p.size + 63) / 64)
  | 6 => (p.data.length + 63) / 64
  | 8 => 1 + (p.size + 63) / 64
  | _ => 1

/-- Endpoints a packet goes to, and those away from its own node. -/
def Packet.ends (p : Packet) : List Nat :=
  match p.dst with
  | some (n, e) => [endOf n e]
  | none => (p.dests.map (·.1)).eraseDups

def Packet.away (p : Packet) : List Nat := p.ends.filter fun k => endNode k != p.src

/-- Leave a packet of an endpoint to be injected. -/
def sendPacket (s : State) (p : Packet) : State := { s with packets := s.packets ++ [p] }

/-- Leave a packet with a number of its own. -/
def sendNew (s : State) (p : Packet) : State := { sendPacket s { p with id := s.nextId } with nextId := s.nextId + 1 }

def sendAll (s : State) (l : List Packet) : State := l.foldl sendNew s

/-- The block form that answers a packet: for a read within one device block, by a requester that takes it, over links that carry it, where
the slice misses, which is free (R440, Table 16-4). -/
def blockAnswer (s : State) (p : Packet) : Option (List Byte) :=
  match p.place with
  | some (0, a, n) =>
    if p.blocks && n != 0 && a / 256 == (a + n - 1) / 256 && s.poisonOf 0 (a / 256 * 256) 256 == 0 &&
       pathTakes s (p.dst.getD (0, 0)).1 p.src && Config.freeChoice (s.free + p.id) % 2 == 1
    then some (blockForm (s.physBytes 0 (a / 256 * 256) 256)) else none
  | _ => none

/-- What a scribe's read finds where it arrives: the bytes, and 0xFF for each that is not poisoned. -/
def readBack (s : State) (p : Packet) : List Byte × List Byte :=
  let sound (ok : Nat → Bool) : List Byte := (List.range p.back).map fun i => if ok i then 0xFF else 0
  if p.chan.isNone then ([], []) else
  match p.place with
  | some g => (s.physBytes g.1 g.2.1 p.back, sound fun i => s.poisonOf g.1 (g.2.1 + i) 1 == 0)
  | none => match s.team? p.grid p.team with
    | some t => (t.spadBytes p.offset p.back, sound fun i => !t.spadPoisoned (p.offset + i) 1)
    | none => ([], [])

/-- R433: the answer to a packet by the endpoint it went to: its data, or an acknowledgement. -/
def answerOf (s : State) (p : Packet) : Packet :=
  let home := p.dst.getD (0, 0)
  let q : Packet := { kind := if p.back == 0 then 3 else 4, src := home.1, sep := home.2, dst := some (p.src, p.sep), size := p.back
                      place := p.place, req := p.req, answers := p.id, bad := p.bad }
  if p.back == 0 then q else match blockAnswer s p with
  | none => { q with data := (readBack s p).1, mask := (readBack s p).2 }
  | some b => { q with kind := 8, size := b.length - 3, data := b }

/-- The bytes that an answer brings to a scribe; none is sound of an answer that came poisoned. -/
def answerData (a q : Packet) : List Byte × List Byte :=
  let d := if a.kind == 8 then ((((expandBlocks 1 a.data).getD []).drop ((q.place.map (·.2.1)).getD 0 % 256)).take q.back, List.replicate q.back 0xFF)
    else (a.data, a.mask)
  (d.1, if a.bad then d.1.map fun _ => 0 else d.2)

/-- An endpoint answers a packet, which keeps its tag until the answer comes. -/
def answer (s : State) (p : Packet) : State :=
  let s := sendNew s (answerOf s p)
  { s with packets := s.packets.map fun q => if q.id == p.id then { q with reached := [] } else q }

/-- A slice that misses fetches the block from its controller, in block form where its requester takes that, and may write another back;
which do is free (log 22). -/
def slicePackets (s : State) (p : Packet) : List Packet :=
  match p.dst, p.place with
  | some (n, 1), some (0, a, _) =>
    let c := controllerOf a
    let fetch : Packet := { kind := 0, src := n, sep := 1, dst := some (192 * c.1 + c.2, controllerSep a), back := 256, blocks := p.blocks
                            place := some (0, a / 256 * 256, 256) }
    let back : Packet := { fetch with kind := 5, size := 256, back := 0, blocks := false, place := none }
    (if (Config.freeChoice (s.free + p.id)).testBit 2 then [fetch] else []) ++ (if (Config.freeChoice (s.free + p.id)).testBit 3 then [back] else [])
  | _, _ => []

/-- The packets of a request that have reached their homes. -/
def reachedOf (s : State) (req : Nat) : List Packet := s.packets.filter fun p => p.req == some req && !p.isAnswer && !p.reached.isEmpty

/-- A home answers the packets of a request that have reached it. -/
def answerReq (s : State) (req : Nat) : State :=
  (reachedOf s req).foldl (fun s p => sendAll (answer s p) (slicePackets s p)) s

/-- R329: a slice answers REHOME to the packets of a request that have reached it, without data. -/
def answerMoved (s : State) (req : Nat) : State := (reachedOf s req).foldl (fun s p => answer s { p with back := 0 }) s

/-- The pair of endpoints whose ordered packets are numbered together. -/
def pairKey (p : Packet) (k : Nat) : Nat := endOf p.src p.sep * 2 ^ 20 + k

/-- R432: a packet of an ordered transfer takes the next number of its pair of endpoints; one that leaves the die or stays in its node
is not ordered. -/
def sendOrdered (s : State) (p : Packet) : State :=
  match p.dst with
  | some (n, e) =>
    if nodeDie n != nodeDie p.src || n == p.src then sendNew s p
    else
      let k := pairKey p (endOf n e)
      let q := s.oseqSent.get 0 k
      sendNew { s with oseqSent := s.oseqSent.set 0 k ((q + 1) % 256) } { p with ord := true, oseq := q }
  | none => sendNew s p

/-! ## What a request sends (R422) -/

/-- A run of bytes cut at multiples of `n`. -/
def cutRun (n addr len : Nat) : List (Nat × Nat) :=
  (List.range ((addr + len - 1) / n + 1 - addr / n)).map fun i =>
    let lo := max addr ((addr / n + i) * n)
    (lo, min (addr + len) ((addr / n + i + 1) * n) - lo)

/-- Read requests of at most 512 bytes. -/
def readPackets (s : State) (p : Packet) (segs : List (Nat × Nat × Nat)) : List Packet :=
  (segs.filter (·.2.2 != 0)).flatMap fun g => (cutRun 512 g.2.1 g.2.2).map fun c =>
    { p with kind := 0, dst := some (placeEnd s p.src g), back := c.2, place := some (g.1, c) }

/-- The 16-byte words that a run of bytes touches, in bytes. -/
def wordSpan (addr len : Nat) : Nat := (addr + len + 15) / 16 * 16 - addr / 16 * 16

/-- How bytes of a partial 64-byte unit go: the words that they touch, three to a packet. -/
def partialRuns (c : Nat × Nat) : List (Nat × Nat) :=
  (cutRun 48 0 (wordSpan c.1 c.2)).map fun w =>
    let lo := max c.1 (c.1 / 16 * 16 + w.1)
    (lo, min (c.1 + c.2) (c.1 / 16 * 16 + w.1 + w.2) - lo)

/-- How a run of at most 512 bytes that does not cross a multiple of 512 goes: its whole 64-byte units in one KIND 5 packet, the words of
a partial unit in KIND 1 packets, in ascending order, as kind, address and length. -/
def writeRuns (addr len : Nat) : List (Nat × Nat × Nat) :=
  let parts := cutRun 64 addr len
  let whole := parts.filter (·.2 == 64)
  let small (l : List (Nat × Nat)) : List (Nat × Nat × Nat) := (l.flatMap partialRuns).map fun c => (1, c)
  small (parts.filter fun c => c.2 != 64 && c.1 == addr) ++
    (if whole.isEmpty then [] else [(5, (whole.headD (0, 0)).1, 64 * whole.length)]) ++ small (parts.filter fun c => c.2 != 64 && c.1 != addr)

/-- The write packets of such a run. A KIND 1 packet's head carries its first word's address and the mask of its bytes: its place. -/
def writeRunPackets (p : Packet) (kind addr len : Nat) : List Packet :=
  (writeRuns addr len).map fun c => { p with kind := c.1, size := if c.1 == 1 then wordSpan c.2.1 c.2.2 else c.2.2, place := some (kind, c.2) }

/-- Write packets for places. -/
def writePackets (s : State) (p : Packet) (segs : List (Nat × Nat × Nat)) : List Packet :=
  (segs.filter (·.2.2 != 0)).flatMap fun g => (cutRun 512 g.2.1 g.2.2).flatMap fun c =>
    writeRunPackets { p with dst := some (placeEnd s p.src g) } g.1 c.1 c.2

/-- The packets of a request of a core, for the places it touches. -/
def reqPackets (s : State) (r : Req) (segs : List (Nat × Nat × Nat)) : List Packet :=
  let p : Packet := { src := coreNode r.core, req := some r.id, op := r.op }
  let one (size back : Nat) : List Packet :=
    (segs.take 1).map fun g => { p with kind := 2, dst := some (placeEnd s p.src g), size, back, place := some g }
  match r.kind with
  | .load .. => readPackets s p segs
  | .store .. => writePackets s p segs
  | .atom op n _ _ _ => one (if op == 9 then 2 * n else n) n
  | .red _ n _ _ => one n 0
  | .dred _ n _ _ _ _ _ => one n 0
  | .lock .. => one 0 0

/-- Whether the packets of a request have reached their homes. -/
def carried (s : State) (r : Req) : Bool :=
  r.sent && s.packets.all fun p => p.req != some r.id || p.isAnswer || !p.reached.isEmpty

/-- R422: an operation completes once the answers of its packets have come. -/
def replyOnWay (s : State) (o : Op) : Bool :=
  s.packets.any fun p => p.op == some o.id || (p.req.isSome && p.req == o.via)

/-! ## Region requests (R328) -/

/-- The requester whose region cache an endpoint's accesses go by: a core, a die's scribe, an I/O die. -/
def requesterOf (src sep : Nat) : Nat := if sep == 0 then nodeCore src else if sep == 6 then 384 + nodeDie src else if sep == 9 then 393 else 392

/-- What an endpoint asks of the region table for places that its region cache does not know: of a controller of the stack that holds the
region's entry (R326); which one is free (log 22). -/
def askRegions (s : State) (p : Packet) (segs : List (Nat × Nat × Nat)) : List Packet :=
  let regs := ((segs.filter fun g => g.1 == 0 && g.2.2 != 0).flatMap fun g => [g.2.1 / 65536, (g.2.1 + g.2.2 - 1) / 65536]).eraseDups
  let h := Config.freeChoice (s.free + s.nextId) % 384
  (regs.filter fun r => !s.regionCache.any fun c => c.1 == (requesterOf p.src p.sep, r)).map fun r =>
    { src := p.src, sep := p.sep, kind := 2, dst := some (192 * (r % 16 / 2) + h / 2, 2 + 2 * (r % 2) + h % 2) }

/-! ## Traffic of other endpoints -/

/-- The packets `p` of an access that its endpoint makes at once: reads or writes of places, answered without effect (log 22). -/
def sendFor (s : State) (p : Packet) (write : Bool) (segs : List (Nat × Nat × Nat)) : State :=
  sendAll s (askRegions s p segs ++ if write then writePackets s p segs else readPackets s p segs)

def sendTraffic (s : State) (src sep : Nat) (write : Bool) (segs : List (Nat × Nat × Nat)) : State := sendFor s { src, sep } write segs

/-- A request of an I/O die enters at the outer-edge node in the column of its destination (R439). -/
def ioTraffic (s : State) (io : Nat) (write : Bool) (at' : Nat) (g : Nat × Nat × Nat) : State :=
  sendTraffic s (ioEdge io (nodeDie at') (nodeCol at')) (ioSep io) write [g]

end Sys2Proof.Machine
end

