-- ==== Sys2Proof/Machine/Mem.lean ====
section
/-! DEFINITION. Memory requests (09, 12): the L1, homing and routing, performing a request at its home, the press unit, update
sequence numbers, locks, and what releases, acquires and fences do to requests in flight. -/

namespace Sys2Proof.Machine

/-! ## Homes (R326 to R330) -/

def regionOf (pa : Nat) : Nat := pa / 65536

/-- Distance between two nodes of a die (R327). -/
def hops (a b : Nat) : Nat := ((a % 16 : Int) - (b % 16 : Nat)).natAbs + ((a / 16 : Int) - (b / 16 : Nat)).natAbs

/-- The live slice of a die nearest a node, ties to the lowest node; the node itself when the die has none. -/
def nearestSlice (s : State) (die node : Nat) : Nat :=
  let live := (List.range 192).filter fun n => !s.mgmt.fencedSlices.contains (192 * die + n)
  (live.foldl (fun best n =>
    match best with
    | none => some n
    | some b => if hops node n < hops node b then some n else some b) none).getD node

/-- First touch (R327): home an unhomed region for a requester at `at192` = 192 × die + node. -/
def firstTouch (s : State) (reg at192 : Nat) : State :=
  let x : Region := { st := 1, die := at192 / 192, node := nearestSlice s (at192 / 192) (at192 % 192) }
  { s with regions := s.regions.set {} reg x }

/-- Stack of a device address (R333). -/
def stackOf (pa : Nat) : Nat := (pa / 256 % 16) ^^^ (pa / 2 ^ 24 % 16)

/-- A requester's region cache holds 512 entries (R328); the oldest gives way (log 74). Requesters: core n as n, the scribe of die d
as 384 + d, I/O die i as 392 + i. -/
def cacheRegion (s : State) (who reg : Nat) (home : Nat × Nat) : State :=
  let mine := (s.regionCache.filter fun c => c.1.1 == who && c.1.2 != reg).take 511
  { s with regionCache := ((who, reg), home) :: mine ++ s.regionCache.filter fun c => c.1.1 != who }

/-! ## Segments of a request: (kind, address, length) -/

def segsOf (l : List (PA × Nat)) : List (Nat × Nat × Nat) := l.map fun p => (p.1.kind, p.1.addr, p.2)

def segBytes (s : State) (segs : List (Nat × Nat × Nat)) : List Byte := segs.flatMap fun g => s.physBytes g.1 g.2.1 g.2.2

/-- Write consecutive bytes over the segments. -/
def setSegBytes (s : State) : List (Nat × Nat × Nat) → List Byte → State
  | [], _ => s
  | (k, a, n) :: r, bs => setSegBytes (s.setPhysBytes k a (bs.take n)) r (bs.drop n)

def segPoison (s : State) (segs : List (Nat × Nat × Nat)) : Nat :=
  (segs.map fun g => s.poisonOf g.1 g.2.1 g.2.2).foldl max 0

/-- The 16-byte words of device memory that segments touch. -/
def segWords (segs : List (Nat × Nat × Nat)) : List Nat :=
  segs.flatMap fun g => if g.1 != 0 || g.2.2 == 0 then []
    else (List.range ((g.2.1 + g.2.2 - 1) / 16 - g.2.1 / 16 + 1)).map (g.2.1 / 16 + ·)

/-- The 128-byte lines of device memory that segments touch. -/
def segLines (segs : List (Nat × Nat × Nat)) : List Nat := ((segWords segs).map (· / 8)).eraseDups

def isDevice (segs : List (Nat × Nat × Nat)) : Bool := segs.all fun g => g.1 == 0

/-- Where each byte of an access lies in device memory: its address, and its place in the access. -/
def segPlaces (segs : List (Nat × Nat × Nat)) : List (Nat × Nat) :=
  (segs.foldl (fun (acc : List (Nat × Nat) × Nat) g =>
    (acc.1 ++ (if g.1 == 0 then (List.range g.2.2).map fun i => (g.2.1 + i, acc.2 + i) else []), acc.2 + g.2.2)) ([], 0)).1

/-- Whether a store covers a word fully. -/
def coversWord (segs : List (Nat × Nat × Nat)) (mask : List Byte) (w : Nat) : Bool :=
  ((segPlaces segs).filter fun p => p.1 / 16 == w && mask.getD p.2 0 == 0xFF).length == 16

/-- Whether a store covers a 32-byte sector fully. -/
def coversSector (segs : List (Nat × Nat × Nat)) (mask : List Byte) (k : Nat) : Bool :=
  coversWord segs mask (2 * k) && coversWord segs mask (2 * k + 1)

/-- Whether two lists of places share a byte. -/
def segsMeet (a b : List (Nat × Nat × Nat)) : Bool :=
  a.any fun x => b.any fun y => x.1 == y.1 && x.2.1 < y.2.1 + y.2.2 && y.2.1 < x.2.1 + x.2.2

/-- Replace bytes under bit masks. -/
def maskBytes : List Byte → List Byte → List Byte → List Byte
  | o :: os, n :: ns, m :: ms => maskMerge o n m :: maskBytes os ns ms
  | os, _, _ => os

/-- Write bytes over the segments under bit masks: a sector that is not written whole keeps its poison (R337). -/
def maskSegBytes (s : State) (segs : List (Nat × Nat × Nat)) (data mask : List Byte) : State :=
  { setSegBytes s segs (maskBytes (segBytes s segs) data mask) with poison := s.poison.filter fun p => !coversSector segs mask p.1 }

/-- Write scratchpad bytes under bit masks: a word that is not written whole keeps its poison (R337). -/
def Team.setSpadMask (t : Team) (o : Nat) (data mask : List Byte) : Team :=
  { t.setSpad o (maskBytes (t.spadBytes o data.length) data mask) with
    spadPoison := t.spadPoison.filter fun w => !((List.range 8).all fun i => o ≤ 8 * w + i && mask.getD (8 * w + i - o) 0 == 0xFF) }

/-- R390: a performed write to device or host memory marks its pages. -/
def markWrite (s : State) (r : Req) : State :=
  if r.segs.any fun g => g.1 < 2 then markDirty s r.ctx r.va r.len else s

/-! ## Completing requests -/

/-- The request has performed: it leaves and its home answers, its STORE entry leaves its FIFO, and its operation's wait ends. -/
def dropReq (s : State) (r : Req) : State :=
  let s := answerReq { s with reqs := s.reqs.filter fun x => x.id != r.id } r.id
  let s := match r.op with
    | some o => s.updOp o fun o => if o.wait == .req then { o with wait := .ready } else o
    | none => s
  match r.kind, r.queue, r.agent with
  | .store .., some q, .thread g t tid => s.updTeam g t fun t => t.updQueue q fun q =>
      { q with fifos := q.fifos.map fun f => if f.tid == tid then { f with entries := f.entries.filter (·.req != r.id) } else f }
  | _, _, _ => s

/-! ## Update sequence numbers and atomics (R59, R60, R219, R325) -/


/-- The context of a grid. -/
def ctxOf (s : State) (grid : Nat) : Nat := ((s.grid? grid).map (·.ctx)).getD 0

/-- The 16-byte units of a context's press pool that runs and counter entries hold (R324). -/
def poolUnits (s : State) (ctx : Nat) : List Nat :=
  ((s.press.filter fun p => p.pool && p.run.isSome && p.ctx == ctx).flatMap (·.units) ++
    (s.counters.filter fun c => c.pool && ctxOf s c.grid == ctx).map (·.unit)).eraseDups

/-- Where `n` units go among those in use: the lowest place that takes them together, else the lowest free ones (log 73). -/
def poolPlace (used : List Nat) (limit n : Nat) : List Nat :=
  match (sortBy id (0 :: used.map (· + 1))).find? fun c => c + n ≤ limit && used.all fun u => u < c || c + n ≤ u with
  | some c => (List.range n).map (c + ·)
  | none => ((List.range (used.length + n)).filter fun u => !used.contains u).take n

/-- The regions of places that have no home are homed for the slice at `node` (192 × die + node), whose access enters the mesh there
(R327). -/
def sliceTouch (s : State) (node : Nat) (segs : List (Nat × Nat × Nat)) : State :=
  (((segWords segs).map (· / 4096)).eraseDups).foldl (fun s reg => if (s.regions.get {} reg).st == 0 then firstTouch s reg node else s) s

/-- The slice that homes a device address, as 192 × die + node. -/
def homeSlice (s : State) (pa : Nat) : Nat := 192 * (s.regions.get {} (regionOf pa)).die + (s.regions.get {} (regionOf pa)).node

/-- The device places of units of a context's press pool, a range from PPOOL on; neighbours are one place. -/
def unitSegs (s : State) (ctx : Nat) (units : List Nat) : List (Nat × Nat × Nat) :=
  units.foldr (fun u l =>
    let a := ((s.ctx ctx).ppool.toNat + 16 * u) % 2 ^ 40
    match l with
    | (k, b, n) :: r => if a + 16 == b then (k, a, n + 16) :: r else (0, a, 16) :: l
    | [] => [(0, a, 16)]) []

/-- The slice at `node` writes bytes into units of a context's press pool. -/
def writeUnits (s : State) (node ctx : Nat) (units : List Nat) (bytes : List Byte) : State :=
  setSegBytes (sliceTouch s node (unitSegs s ctx units)) (unitSegs s ctx units) bytes

/-- R59, R60, R325: the count of an element for a grid. One of an entry in the press pool whose bytes are poisoned is a free value
(log 73). -/
def updateSeq (s : State) (grid bit : Nat) : Nat :=
  match s.counters.find? fun c => c.bit == bit && c.grid == grid with
  | none => 0
  | some c => if c.pool && segPoison s (unitSegs s (ctxOf s grid) [c.unit]) != 0 then Config.freeChoice s.free % 2 ^ 32 else c.count

/-- A counter entry as 16 bytes (R325). -/
def counterBytes (c : Counter) : List Byte := leBytes 8 c.bit ++ leBytes 2 (c.grid % 2 ^ 12) ++ leBytes 4 c.count ++ [0, 0]

/-- A counter entry that lies in the press pool is written there. -/
def writeCounter (s : State) (node : Nat) (c : Counter) : State :=
  if c.pool then writeUnits s node (ctxOf s c.grid) [c.unit] (counterBytes c) else s

/-- The next update sequence number of an element, in a location at `pa`. -/
def bumpSeq (s : State) (grid pa bit : Nat) : State :=
  let node := homeSlice s pa
  let stack := stackOf pa
  match s.counters.find? fun c => c.bit == bit && c.grid == grid with
  | some c =>
    let c' := { c with count := (updateSeq s grid bit + 1) % 2 ^ 32 }
    writeCounter { s with counters := s.counters.map fun x => if x == c then c' else x } node c'
  | none =>
    let ctx := ctxOf s grid
    let pool := 65536 ≤ (s.counters.filter fun c => c.stack == stack && !c.pool).length
    let unit := if pool then (poolPlace (poolUnits s ctx) ((s.ctx ctx).pplen.toNat / 16) 1).headD 0 else 0
    let c : Counter := { bit, grid, count := 1, stack, pool, unit }
    writeCounter { s with counters := s.counters ++ [c] } node c

/-- Number of element roundings that draw in one memory-side update. -/
def drawCount (op n : Nat) (fmt : W64) : Nat :=
  if op == 0x10 && (Fmt.of fmt).stochastic then 8 * n / (Fmt.of fmt).width else 0

/-- The element bit address of R59. -/
def elemBit (va w i : Nat) : Nat := 8 * (va % 2 ^ 57) + w * i

/-- Apply one memory-side operation at its home for a grid: the old value and the state after. -/
def applyAtomic (s : State) (grid va : Nat) (segs : List (Nat × Nat × Nat)) (op n x cmp : Nat) (fmt : W64) : State × Nat :=
  let old := leNat (segBytes s segs)
  let f := Fmt.of fmt
  let seed := ((s.grid? grid).map (·.seed)).getD 0
  let draw (i : Nat) : Nat := drawBits f.srb (hMix seed (elemBit va f.width i) (updateSeq s grid (elemBit va f.width i)))
  let v := (atomNew op n old x cmp fmt draw).1
  let s1 := setSegBytes s segs (leBytes n v)
  let pa := (segs.head?.map (·.2.1)).getD 0
  ((List.range (drawCount op n fmt)).foldl (fun s i => bumpSeq s grid pa (elemBit va f.width i)) s1, old)

/-! ## Gathered reductions (R221, R318) -/

def reqGrid (r : Req) : Nat :=
  match r.agent with
  | .thread g _ _ => g
  | .engine g _ => g
  | _ => 0

/-- R226, R321: an access raises a line's hint to its own: 1 evict-first, 2 normal, 3 evict-last. Where the line has been filled
since, which is a free choice, it has the hint of this access alone. -/
def raiseHint (s : State) (hint : Nat) (segs : List (Nat × Nat × Nat)) : State :=
  let h := if hint == 0 then 2 else if hint == 1 then 1 else 3
  let filled := Config.freeChoice s.free % 2 == 1
  { s with hints := (segLines segs).foldl (fun m l => m.set 0 l (if filled then h else max h (m.get 0 l))) s.hints }

/-! ## The L1 (R315 to R318) -/

def State.l1Word? (s : State) (core w : Nat) : Option L1Word := s.l1.find? fun x => x.core == core && x.word == w

def State.setL1 (s : State) (x : L1Word) : State :=
  { s with l1 := x :: s.l1.filter fun y => !(y.core == x.core && y.word == x.word) }

/-- R317: every word a core's L1 holds becomes stale. -/
def markStale (s : State) (core : Nat) : State :=
  { s with l1 := s.l1.map fun x => if x.core == core then { x with stale := true } else x }

/-- Words leave a core's L1: those that an atomic changes (R316), and those of a line whose contribution was sent home (R318). -/
def dropL1 (s : State) (core : Nat) (ws : List Nat) : State :=
  { s with l1 := s.l1.filter fun x => !(x.core == core && ws.contains x.word) }

/-- The 16-byte words of the lines that segments touch. -/
def lineWords (segs : List (Nat × Nat × Nat)) : List Nat := (segLines segs).flatMap fun l => (List.range 8).map (8 * l + ·)

/-- Apply a RED at its home; a contribution to a poisoned sector is discarded (R337). Its core's L1 drops the words it changes,
or the whole line where it held that line update-only. -/
def performRed (s : State) (r : Req) : State :=
  match r.kind with
  | .red op n x fmt =>
    let s := raiseHint (dropL1 s r.core (if r.gathered then lineWords r.segs else segWords r.segs)) r.hint r.segs
    let s := if segPoison s r.segs != 0 then s else (applyAtomic s (reqGrid r) r.va r.segs op n x 0 fmt).1
    let s := dropReq (markWrite s r) r
    if r.marks then markStale s r.core else s
  | _ => s

/-- A request leaves its core, as packets to the homes of what it touches, once (R422). -/
def sendReq (s : State) (r : Req) (segs : List (Nat × Nat × Nat)) : State :=
  if r.sent then s
  else sendAll (s.updReq r.id fun q => { q with sent := true }) (askRegions s { src := coreNode r.core } segs ++ reqPackets s r segs)

/-- The home recalls the gathered contributions of some lines, in ascending core number. -/
def recallLines (s : State) (lines : List Nat) : State :=
  (sortBy (·.core) (s.reqs.filter fun r => r.gathered && (segLines r.segs).any lines.contains)).foldl
    (fun s r => performRed (sendReq s r r.segs) r) s

/-- The bytes of a store that fall in one word, put over what the word holds. -/
def putWord (segs : List (Nat × Nat × Nat)) (data mask : List Byte) (w : Nat) (d : List Byte) : List Byte :=
  (segPlaces segs).foldl (fun d p => if p.1 / 16 == w then
    d.set (p.1 % 16) (maskMerge (d.getD (p.1 % 16) 0) (data.getD p.2 0) (mask.getD p.2 0)) else d) d

/-- The bytes of a word as the stores that a core's L1 has taken leave them, oldest first (R266, R278). -/
def overlay (s : State) (core w : Nat) (d : List Byte) : List Byte :=
  s.reqs.foldl (fun d r => if r.taken && r.core == core then
    (match r.kind with
     | .store data mask => putWord r.segs data mask w d
     | _ => d) else d) d

/-- The word of a core's L1 that may serve a read (R317). -/
def l1Usable (s : State) (core w : Nat) : Option L1Word := (s.l1Word? core w).filter fun x => !x.stale

/-- A word as its home serves it to a core. -/
def homeWord (s : State) (core w : Nat) : List Byte := overlay s core w (s.physBytes 0 (16 * w) 16)

/-- Words come into a core's L1; a word of a posted host write among them first turns the rest stale (R291). -/
def bringL1 (s : State) (core : Nat) (ws : List Nat) : State :=
  let s := if ws.any s.posted.contains then markStale s core else s
  ws.foldl (fun s x => s.setL1 { core, word := x, data := homeWord s core x }) s

/-- R315: a fill brings an aligned block of 1, 2, 4 or 8 words around a word that missed; which block the predictor chooses is free
(log 66). A fill that brings a word of a posted host write acts as an acquire first, so that no later read of the word finds older
words beside it (R291). -/
def fillL1 (s : State) (core w choice : Nat) : State :=
  let n := 2 ^ (choice % 4)
  bringL1 s core (((List.range n).map (w / n * n + ·)).filter fun x => x == w || (l1Usable s core x).isNone)

/-- One 16-byte word as a read returns it: from the L1, or from the home, which refills the L1. A word may always have left the L1
(R310), so either is free. -/
def readWord (s : State) (core i w : Nat) : State × List Byte :=
  let c := Config.freeChoice s.free / 8 ^ i
  match l1Usable s core w with
  | some x => if c % 2 == 0 then (s, x.data) else (fillL1 s core w (c / 2), homeWord s core w)
  | none => (fillL1 s core w (c / 2), homeWord s core w)

/-- Read segments word by word: the state after and the bytes. -/
def readSegs (s : State) (core : Nat) (segs : List (Nat × Nat × Nat)) : State × List Byte :=
  let ws := segWords segs
  let p := ((List.range ws.length).zip ws).foldl (fun (acc : State × List (Nat × List Byte)) iw =>
    let q := readWord acc.1 core iw.1 iw.2
    (q.1, (iw.2, q.2) :: acc.2)) (s, [])
  let byte (a : Nat) : Byte := (((p.2.find? fun x => x.1 == a / 16).map fun x => x.2.getD (a % 16) 0)).getD 0
  (p.1, segs.flatMap fun g => if g.1 == 0 then (List.range g.2.2).map fun i => byte (g.2.1 + i) else s.physBytes g.1 g.2.1 g.2.2)

/-- R291: a read at the home that returns a posted host write acts as an acquire: what the core's L1 holds turns stale. -/
def meetPosted (s : State) (core : Nat) (segs : List (Nat × Nat × Nat)) : State :=
  if (segWords segs).any s.posted.contains then markStale s core else s

/-- Segments as their homes hold them, with the stores of the core that are on their way there. -/
def homeBytes (s : State) (core : Nat) (segs : List (Nat × Nat × Nat)) : List Byte :=
  segs.flatMap fun g => if g.1 == 0 then (List.range g.2.2).map fun i => (homeWord s core ((g.2.1 + i) / 16)).getD ((g.2.1 + i) % 16) 0
    else s.physBytes g.1 g.2.1 g.2.2

/-- The stores that a read in a core sees before their home does. -/
def observed (s : State) (core : Nat) (segs : List (Nat × Nat × Nat)) : List Nat :=
  (s.reqs.filter fun r => r.taken && r.core == core && segsMeet r.segs segs).map (·.id)

/-- R316: a store as its core's L1 takes it, or as it passes on its way home: words the L1 holds are updated, words it covers whole
are allocated. -/
def storeL1 (s : State) (core : Nat) (segs : List (Nat × Nat × Nat)) (data mask : List Byte) : State :=
  (segWords segs).foldl (fun s w =>
    let put (d : List Byte) : List Byte := overlay s core w (putWord segs data mask w d)
    let whole := coversWord segs mask w
    match s.l1Word? core w with
    | some x => s.setL1 { x with data := put x.data, stale := x.stale && !whole }
    | none => if whole then s.setL1 { core, word := w, data := put (List.replicate 16 0) } else s) s

/-! ## Queue entries -/

/-- Where slot `i` of a thread's FIFO lies (R202). -/
def slotAddr (q : Queue) (tid i : Nat) : Nat := q.base + 16 * q.depth * tid + 16 * i

def Queue.fifo (q : Queue) (tid : Nat) : Fifo := (q.fifos.find? fun f => f.tid == tid).getD { tid }

def Queue.setFifo (q : Queue) (f : Fifo) : Queue :=
  { q with fifos := if q.fifos.any fun x => x.tid == f.tid then q.fifos.map fun x => if x.tid == f.tid then f else x else q.fifos ++ [f] }

/-- The AUX word of a POISON on a queue entry (Table 14-2). -/
def entryAux (q slot : Nat) : Nat := q + slot * 2 ^ 8

/-- Extend a loaded value to 64 bits (R194). -/
def extend (n : Nat) (sx : Bool) (bs : List Byte) : List Byte :=
  if n ≤ 8 then
    let v := leNat bs
    leBytes 8 (if sx then ((signedOf (8 * n) v) % (2 ^ 64 : Nat)).toNat else v)
  else bs

/-- The register values of an entry's bytes. -/
def regVals (bs : List Byte) : List W64 :=
  if bs.length ≤ 8 then [BitVec.ofNat 64 (leNat bs)]
  else [BitVec.ofNat 64 (leNat (bs.take 8)), BitVec.ofNat 64 (leNat (bs.drop 8))]

/-- Values for consecutive destination registers. -/
def dstOf (dreg : Option (Nat × Nat)) (vals : List W64) : List (Nat × W64) :=
  match dreg with
  | some (d, c) => ((List.range c).zip vals).map fun p => (d + p.1, p.2)
  | none => []

def entriesOverlap (a b : QEntry) : Bool := a.va < b.va + b.len && b.va < a.va + a.len

/-- R204: entries leave in append order: whether one stands behind another of its FIFO. -/
def entryHeld (fi : Fifo) (en : QEntry) : Bool := !(fi.entries.takeWhile fun x => x.req != en.req).isEmpty

/-- How many bytes of its slot an entry fills. -/
def slotBytes (en : QEntry) : Nat := if en.bytes == 16 then 16 else 8

/-- What an entry's slot of the region holds. -/
def slotData (t : Team) (q : Queue) (tid : Nat) (en : QEntry) : List Byte := t.spadBytes (slotAddr q tid en.slot) (slotBytes en)

/-- The team after an entry receives data, which go into its slot, or poison (R202, R205). -/
def fillTeam (t : Team) (tid q slot n : Nat) (res : Except Trap (List Byte)) : Team :=
  match t.queue? q with
  | none => t
  | some qq =>
    let f := qq.fifo tid
    match res with
    | .error p =>
      t.updQueue q fun qq => qq.setFifo { f with entries := f.entries.map fun e =>
        if e.req == n then { e with ready := true, poison := some p } else e }
    | .ok bs =>
      (t.updQueue q fun qq => qq.setFifo { f with entries := f.entries.map fun e =>
        if e.req == n then { e with ready := true, poison := none } else e }).setSpad (slotAddr qq tid slot) bs

/-- The head of a thread's FIFO, when its data or poison have come and a QPOP that has taken it still waits: the team, the queue, the
entry, those behind it, and the QPOP. -/
def poppedHead (s : State) (g t tid q : Nat) : Option (Team × Queue × QEntry × List QEntry × Op) :=
  match s.team? g t with
  | none => none
  | some tm => match tm.queue? q with
    | none => none
    | some qq => match (qq.fifo tid).entries with
      | [] => none
      | en :: rest => ((if en.ready then en.claimed else none).bind s.op?).bind fun o => if o.wait == .pop q then some (tm, qq, en, rest, o) else none

/-- R204, R205: entries that QPOPs have taken leave in append order, each with what its slot holds. A poisoned head stays, and its QPOP
ends with the poison. -/
def settleFifo (g t tid q : Nat) : Nat → State → State
  | 0, s => s
  | n + 1, s =>
    match poppedHead s g t tid q with
    | none => s
    | some (tm, qq, en, rest, o) => match en.poison with
      | some p => s.updOp o.id fun o => { o with wait := .ready, poison := some p, popq := some (q, en.slot), via := some en.req }
      | none => settleFifo g t tid q n ((s.updTeam g t fun t => t.updQueue q fun qq => qq.setFifo { qq.fifo tid with entries := rest }).updOp o.id fun o =>
          { o with wait := .ready, dst := dstOf o.dreg (regVals (slotData tm qq tid en)), via := some en.req
                   poison := if tm.spadPoisoned (slotAddr qq tid en.slot) (slotBytes en) then some (poisonTrap 2) else none })

/-- Deliver data or poison to the entry that awaits it, and to the QPOPs whose turn has come. A FIFO holds at most 32 entries. -/
def fillEntry (s : State) (g t tid q slot n : Nat) (res : Except Trap (List Byte)) : State :=
  settleFifo g t tid q 32 (s.updTeam g t fun t => fillTeam t tid q slot n res)

/-! ## Locks (R227, R322, R332) -/

def lockSet (s : State) (line : Nat) : Nat × Nat :=
  let pa := line * 128
  let r := s.regions.get {} (regionOf pa)
  (192 * r.die + r.node, (pa / 2 ^ 8 % 256) ^^^ (pa / 2 ^ 16 % 256))

/-- Partition and set of a line in the memory-side cache (R332, R333). -/
def mscSet (line : Nat) : Nat × Nat :=
  let pa := line * 128
  let hb := pa / 2 ^ 12
  (stackOf pa * 384 + hb % 384, (2 * (hb / 384) + pa / 128 % 2) % 896)

/-- R322, R332: whether the set of a line would keep no replaceable way if it held one more locked or pinned line. -/
def lockFull (s : State) (msc : Bool) (line : Nat) : Bool :=
  let lines := ((s.locks.filter fun l => l.msc == msc &&
    (if msc then mscSet l.line == mscSet line else lockSet s l.line == lockSet s line)).map (·.line)).eraseDups
  !lines.contains line && (if msc then 11 else 15) ≤ lines.length

def residency (s : State) (ctx : Nat) : Nat := (s.locks.filter (·.ctx == ctx)).length

/-- CLOCK or CUNLOCK at its home: the status and the state after (R227). A partition that has been bypassed pins as before (log 99). -/
def lockLine (s : State) (ctx line : Nat) (msc release : Bool) : State × Nat :=
  let l : Lock := { ctx, line, msc }
  if release then
    if s.locks.contains l then ({ s with locks := s.locks.filter (· != l) }, 0) else (s, 3)
  else if s.locks.contains l then (s, 0)
  else if lockFull s msc line then (s, 1)
  else if (s.ctx ctx).quota ≤ residency s ctx then (s, 2)
  else ({ s with locks := l :: s.locks }, 0)

/-! ## The press unit (R323 to R325) -/

/-- Runs in the press area (or the pool of a context), as bytes. -/
def heldPress (s : State) (home : Nat) : List Press := s.press.filter fun p => p.home == home && p.run.isNone

def runBytes (s : State) (pick : Press → Bool) : Nat :=
  let l := s.press.filter fun p => p.run.isSome && pick p
  48 * l.length + 64 * (l.map (·.run)).eraseDups.length

def areaBytes (s : State) (stack : Nat) : Nat := runBytes s fun p => !p.pool && p.stack == stack

def poolBytes (s : State) (ctx : Nat) : Nat :=
  runBytes s (fun p => p.pool && p.ctx == ctx) +
    16 * (s.counters.filter fun c => c.pool && ctxOf s c.grid == ctx).length

/-- A run as bytes (R323): a header with the grid, the number of entries and the stack, then 48 bytes an entry. Where the fields of
the header and of the third word stand is the model's choice (log 73). -/
def runImage (stack : Nat) (l : List Press) : List Byte :=
  leBytes 8 ((l.headD {}).grid) ++ leBytes 8 l.length ++ leBytes 8 stack ++ List.replicate 40 0 ++
    l.flatMap fun p => leBytes 8 (elemBit p.va 8 0) ++ leBytes 8 p.g ++ leBytes 4 p.seq ++ leBytes 4 (p.op + 2 ^ 8 * p.n + 2 ^ 16 * p.slot) ++
      leBytes 8 p.fmt.toNat ++ leBytes 8 p.x ++ List.replicate 8 0

/-- The entries that `pick` names, of one grid, become a run: in the press area of the stack of its first entry, else in the
context's pool, whose lowest free bytes it takes (R323, R324). -/
def writeRun (s : State) (pick : Press → Bool) : State :=
  let mine := sortBy (fun p => elemBit p.va 8 0 * 2 ^ 96 + p.g * 2 ^ 32 + p.seq) (s.press.filter pick)
  let ctx := (mine.headD {}).ctx
  let stack := stackOf (mine.headD {}).pa
  let full := 3 * 2 ^ 20 < areaBytes s stack + 64 + 48 * mine.length
  let units := if full then poolPlace (poolUnits s ctx) ((s.ctx ctx).pplen.toNat / 16) (4 + 3 * mine.length) else []
  let s1 := { s with nextId := s.nextId + 1
                     press := s.press.map fun p => if pick p then { p with run := some s.nextId, stack, pool := full, units } else p }
  writeUnits s1 (mine.headD {}).home ctx units (runImage stack mine)

/-- PRESS_SPILL: the held entries of a slice become runs, one for each grid; of a released region, those of the region (R330). -/
def spillPress (s : State) (held : Press → Bool) : State :=
  (((s.press.filter held).map (·.grid)).eraseDups).foldl (fun s g => writeRun s fun p => held p && p.grid == g) s

def heldAt (home : Nat) (p : Press) : Bool := p.home == home && p.run.isNone

/-! ## Moving a region (R330) -/

def inRegion (reg pa : Nat) : Bool := pa / 65536 == reg

/-- Locks of a region after its move: those its new home's sets cannot take are dropped. R330 gives no order in which they are tried;
the model tries the newest lock first (log 92). -/
def settleLocks (s : State) (reg : Nat) : State :=
  let mine := s.locks.filter fun l => !l.msc && inRegion reg (l.line * 128)
  mine.foldl (fun s l => if lockFull s false l.line then s else { s with locks := l :: s.locks })
    { s with locks := s.locks.filter fun l => l.msc || !inRegion reg (l.line * 128) }

/-- An entry moves to another press unit; the seventeenth there spills the sixteen before it (R323). -/
def movePress (home : Nat) (s : State) (p : Press) : State :=
  let s := if 16 ≤ (heldPress s home).length then spillPress (countTelemetry s 0x118 1) (heldAt home) else s
  { s with press := s.press.map fun q => if q == p then { q with home } else q }

/-- R330, step 6: the end of a move. -/
def settleRegion (s : State) (reg : Nat) : State :=
  let r := s.regions.get {} reg
  if r.release then { s with regions := s.regions.set {} reg {} }
  else
    let x : Region := { st := 1, die := r.die, node := nearestSlice s r.die r.node }
    let home := 192 * x.die + x.node
    let s := settleLocks { s with regions := s.regions.set {} reg x } reg
    (s.press.filter fun p => p.run.isNone && inRegion reg p.pa).foldl (movePress home) s

/-- A contribution is held by the press of its home. -/
def performDred (s : State) (r : Req) : State :=
  match r.kind with
  | .dred op n x fmt g sq slot =>
    let pa := (r.segs.head?.map (·.2.1)).getD 0
    let rg := s.regions.get {} (regionOf pa)
    let home := 192 * rg.die + rg.node
    let s := raiseHint (if 16 ≤ (heldPress s home).length then spillPress (countTelemetry s 0x118 1) (heldAt home) else s) r.hint r.segs
    let p : Press := { grid := reqGrid r, pa, op, n, fmt, x, g, seq := sq, va := r.va, ctx := r.ctx, slot, home }
    dropReq (if segPoison s r.segs != 0 then s else { s with press := s.press ++ [p] }) r
  | _ => s

/-- The press unit of a contribution reaches its location: a region that is leaving its home has left it, and one without a home is
homed for the unit's slice (R327, R330). -/
def pressReach (s : State) (p : Press) : State :=
  let reg := regionOf p.pa
  sliceTouch (if (s.regions.get {} reg).st == 2 then settleRegion s reg else s) p.home [(0, p.pa, p.n)]

/-- Whether a contribution's run lies in the press pool in poisoned bytes. -/
def runLost (s : State) (p : Press) : Bool := p.pool && segPoison s (unitSegs s p.ctx p.units) != 0

/-- A contribution is applied at its location. One to a poisoned sector is discarded, and one that was lost with its run poisons the
sector (R337, log 73). -/
def pressOne (s : State) (p : Press) : State :=
  let segs := [(0, p.pa, p.n)]
  let s := pressReach s p
  if segPoison s segs != 0 then s
  else if runLost s p then { s with poison := s.poison.set 0 (p.pa / 32) 6 }
  else markDirty (applyAtomic s p.grid p.va segs p.op p.n p.x 0 p.fmt).1 p.ctx p.va p.n

/-- PRESS_APPLICATION: a grid's contributions in ascending issuer index, each location written once (R282, R323). -/
def applyPress (s : State) (grid : Nat) : State :=
  let mine := sortBy (fun p => p.g * 2 ^ 32 + p.seq) (s.press.filter (·.grid == grid))
  let s := mine.foldl pressOne (recallLines s (mine.map (·.pa / 128)).eraseDups)
  { s with press := s.press.filter (·.grid != grid) }

/-- R337: written data that came poisoned leave the device sectors they touch poisoned, with the class of the link. -/
def poisonSegs (s : State) (segs : List (Nat × Nat × Nat)) : State :=
  segs.foldl (fun s g => if g.1 != 0 || g.2.2 == 0 then s
    else (List.range ((g.2.1 + g.2.2 - 1) / 32 - g.2.1 / 32 + 1)).foldl (fun s i => { s with poison := s.poison.set 0 (g.2.1 / 32 + i) 8 }) s) s

/-! ## Performing a request -/

/-- The data of a load: the register image of its bytes, packed or extended (R194, R197). -/
def loadData (r : Req) (bs : List Byte) : List Byte :=
  match r.pack with
  | some (b, w, n) => leBytes 8 (packElems w ((List.range n).map fun i => streamElem bs (b + w * i) w)).toNat
  | none => extend r.len r.sx bs

/-- The poison of a load that faulted after issue (R205, Table 14-3). -/
def loadPoison (q slot : Nat) (t : Trap) : Trap :=
  { code := fPoison, detail := 1 + t.code * 2 ^ 8, vaddr := t.vaddr, aux := entryAux q slot }

/-- The translation of a load as it performs. -/
def loadSegs (s : State) (r : Req) : Except Trap (List (Nat × Nat × Nat)) :=
  match translateRange s r.core r.ctx r.va r.len .read with
  | .error t => .error t
  | .ok l => .ok (segsOf l)

/-- The places a request touches now. -/
def reqSegs (s : State) (r : Req) : Except Trap (List (Nat × Nat × Nat)) :=
  match r.kind with
  | .load .. => loadSegs s r
  | _ => .ok r.segs

/-- Those of a request that translates. -/
def placesOf (s : State) (r : Req) : List (Nat × Nat × Nat) :=
  match reqSegs s r with
  | .error _ => []
  | .ok l => l

/-- Whether two accesses share a byte, by their virtual addresses or, where two mappings name one page, by their places (R269). -/
def sharesByte (s : State) (va len : Nat) (segs : List (Nat × Nat × Nat)) (r : Req) : Bool :=
  (r.va < va + len && va < r.va + r.len) || segsMeet (placesOf s r) segs

/-- The stores, taken by an L1 and still on their way home, that a thread knows as its read performs: those whose bytes the read
returned, and all that its team has seen or has had passed on by then. -/
def knownTo (s : State) (r : Req) (ids : List Nat) : List Req :=
  match r.agent with
  | .thread g t _ =>
    let seen := ((s.team? g t).map (·.seen)).getD []
    s.reqs.filter fun q => q.taken && (ids.contains q.id || seen.any (·.2 == q.id))
  | _ => []

/-- What a later access waits for, once a read it waits for has performed and its thread knows the stores `known`: those that an event
after the read passes on (R274, R277), and at its home those to bytes it writes (R269, R276). -/
def Req.learn (q r : Req) (new : List Nat) (known : List Req) : Req :=
  if !(q.after ++ q.behind).contains r.id then q else
  match q.kind with
  | .load .. => { q with after := (q.after ++ new).eraseDups }
  | _ => { q with after := (q.after ++ new).eraseDups
                  behind := (q.behind ++ (known.filter fun k => segsMeet k.segs q.segs).map (·.id)).eraseDups }

/-- R269, R274 to R277: a read has performed. What its thread knows by then comes before all that waits for the read, as far as an
event after the read passes it on or the bytes are the same; where the read was to mark the L1 as it performed, so do the stores. -/
def passObserved (s : State) (r : Req) (ids : List Nat) : State :=
  let known := knownTo s r ids
  let new := (known.filter fun q => r.passes.contains q.path).map (·.id)
  let more (l : List Nat) : List Nat := if l.contains r.id then (l ++ new).eraseDups else l
  let mark (q : Req) : Req := if r.marks && new.contains q.id then { q with marks := true } else q
  let s := { s with reqs := s.reqs.map fun q => mark (q.learn r new known) }
  match r.agent with
  | .thread g t tid => s.updTeam g t fun t => t.updThread tid fun x => { x with fences := x.fences.map fun f => (f.1, more f.2) }
  | _ => s

/-- A thread of a team has read bytes of these stores, by a path. -/
def observe (s : State) (r : Req) (ids : List Nat) : State :=
  match r.agent with
  | .thread g t _ => if ids.isEmpty then s else s.updTeam g t fun t => { t with seen := (t.seen ++ ids.map fun i => (r.path, i)).eraseDups }
  | _ => s

def reqTeam (r : Req) : Nat × Nat :=
  match r.agent with
  | .thread g t _ => (g, t)
  | .engine g t => (g, t)
  | _ => (0, 0)

def performLoad (s : State) (r : Req) (q slot tid : Nat) : State :=
  let who := reqTeam r
  match loadSegs s r with
  | .error t => dropReq (fillEntry s who.1 who.2 tid q slot r.id (.error (loadPoison q slot t))) r
  | .ok segs =>
    let s := recallLines (raiseHint (cacheTranslation s r.core r.ctx r.va) r.hint segs) (segLines segs)
    let cls := segPoison s segs
    if cls != 0 then
      dropReq (fillEntry s who.1 who.2 tid q slot r.id (.error { poisonTrap cls with aux := entryAux q slot })) r
    else
      let p := readSegs s r.core segs
      let ids := observed s r.core segs
      dropReq (fillEntry (passObserved (observe p.1 r ids) r ids) who.1 who.2 tid q slot r.id (.ok (loadData r p.2))) r

/-- R202: the entry of a store through a queue, with its team, queue and thread. A store that the L1 has taken left the region with its
word's data. -/
def storeEntry (s : State) (r : Req) : Option (Team × Queue × Nat × QEntry) :=
  match r.taken, r.queue, s.team? (reqTeam r).1 (reqTeam r).2, r.agent with
  | false, some q, some t, .thread _ _ tid =>
    (t.queue? q).bind fun qq => ((qq.fifo tid).entries.find? fun e => e.req == r.id).map fun en => (t, qq, tid, en)
  | _, _, _, _ => none

/-- R202: what a store through a queue writes: its entry as the region now holds it. -/
def storeBytes (s : State) (r : Req) (data : List Byte) : List Byte :=
  match storeEntry s r with
  | none => data
  | some (t, q, tid, en) =>
    let img := slotData t q tid en
    match r.pack with
    | some (b, w, n) => (packStream b w ((List.range n).map fun i => elemOf w i (BitVec.ofNat 64 (leNat (img.take 8))))).1
    | none => img.take data.length

/-- Whether a store takes its data from a slot that is poisoned (R337). -/
def storePoisoned (s : State) (r : Req) : Bool :=
  match storeEntry s r with
  | none => false
  | some (t, q, tid, en) => t.spadPoisoned (slotAddr q tid en.slot) (slotBytes en)

/-- A whole word that a store covers holds no byte of a host write any more. -/
def unpost (s : State) (segs : List (Nat × Nat × Nat)) (mask : List Byte) : State :=
  if s.posted.isEmpty then s else { s with posted := s.posted.filter fun w => !coversWord segs mask w }

def performStore (s : State) (r : Req) (data mask : List Byte) : State :=
  let data := storeBytes s r data
  let s := recallLines s (segLines r.segs)
  let s := maskSegBytes s r.segs data mask
  let s := unpost (if r.taken then s else storeL1 s r.core r.segs data mask) r.segs mask
  dropReq (markWrite (raiseHint s r.hint r.segs) r) r

/-- The old value goes to the operation's destination registers. -/
def atomResult (s : State) (op : Option Nat) (n old : Nat) : State :=
  match op with
  | none => s
  | some o => s.updOp o fun o => { o with dst := dstOf o.dreg (regVals (leBytes (max 8 n) old)) }

/-- An operation ends with poison. -/
def poisonOp (s : State) (op : Option Nat) (cls : Nat) : State :=
  match op with
  | some o => s.updOp o fun o => { o with poison := some (poisonTrap cls) }
  | none => s

def performAtom (s : State) (r : Req) (op n x cmp : Nat) (fmt : W64) : State :=
  let s := recallLines (raiseHint s r.hint r.segs) (segLines r.segs)
  let cls := segPoison s r.segs
  if cls != 0 then dropReq (poisonOp s r.op cls) r
  else
    let p := applyAtomic s (reqGrid r) r.va r.segs op n x cmp fmt
    let s := passObserved (meetPosted (dropL1 p.1 r.core (segWords r.segs)) r.core r.segs) r []
    dropReq (atomResult (markWrite s r) r.op n p.2) r

/-- CLOCK consumes the data of its line (R337). -/
def performLock (s : State) (r : Req) (msc release : Bool) : State :=
  let line := (r.segs.head?.map (·.2.1)).getD 0 / 128
  let cls := s.poisonOf 0 (128 * line) 128
  if !release && cls != 0 then dropReq (poisonOp s r.op cls) r
  else
    let p := lockLine s r.ctx line msc release
    dropReq (atomResult p.1 r.op 8 p.2) r

/-- The regions of an access that completes at once (R327 to R329): one that is leaving its home has left it, one without a home
is homed for the requester at `node`, and a stale cache entry costs a REHOME. -/
def reachHomes (s : State) (who node : Nat) (segs : List (Nat × Nat × Nat)) : State :=
  (((segWords segs).map (· / 4096)).eraseDups).foldl (fun s reg =>
    let s := if (s.regions.get {} reg).st == 2 then countTelemetry (settleRegion s reg) 0x108 1 else s
    let s := if (s.regions.get {} reg).st == 0 then firstTouch s reg node else s
    let h := s.regions.get {} reg
    let stale := s.regionCache.any fun c => c.1 == (who, reg) && c.2 != (h.die, h.node)
    cacheRegion (if stale then countTelemetry s 0x108 1 else s) who reg (h.die, h.node)) s

/-- First touch of the regions that a request reaches at their homes: all but those of a load that its core's L1 serves whole. -/
def homeFor (s : State) (r : Req) : State :=
  match r.kind with
  | .load .. => match loadSegs s r with
    | .error _ => s
    | .ok segs => if isDevice segs && (segWords segs).all fun w => (l1Usable s r.core w).isSome then s else reachHomes s r.core (coreNode r.core) segs
  | _ => reachHomes s r.core (coreNode r.core) r.segs

/-- R327, R328, R439: a request that an I/O die sends enters the die of its destination, which the die's region cache knows, else that
of the block's controller, in the destination's column, at the edge on the I/O die's side (log 93). -/
def ioTouch (s : State) (io : Nat) (write : Bool) (segs : List (Nat × Nat × Nat)) : State :=
  segs.foldl (fun s g =>
    let c := ((s.regionCache.find? fun c => c.1 == (392 + io, regionOf g.2.1)).map (·.2)).getD (controllerOf g.2.1)
    let s := reachHomes s (392 + io) (192 * c.1 + c.2 % 16 + if io == 0 then 0 else 176) [g]
    ioTraffic s io write (192 * c.1 + c.2) g) s

/-- What an I/O die reads or writes: its places are homed, and gathered contributions to them come home (R318, R439). -/
def ioReach (s : State) (io : Nat) (write : Bool) (segs : List (Nat × Nat × Nat)) : State := recallLines (ioTouch s io write segs) (segLines segs)

/-! ## Payloads (R422, R432, R433) -/

/-- Whether a packet brings bytes that are written where it arrives. -/
def Packet.lands (p : Packet) : Bool := !p.data.isEmpty && !p.isAnswer

/-- Where a packet's own first byte goes, as an address or a scratchpad offset; where its payload begins and ends. -/
def Packet.first (p : Packet) : Nat := (p.place.map (·.2.1)).getD p.offset
def Packet.base (p : Packet) : Nat := p.first - p.lead
def Packet.top (p : Packet) : Nat := p.base + p.data.length

/-- Where the bytes of flit `i` begin: a word after the head of KIND 1, else 64 bytes. -/
def Packet.flitAt (p : Packet) (i : Nat) : Nat :=
  if p.kind != 1 then p.first + 64 * i else if i == 0 then p.base else p.first / 16 * 16 + 16 * (i - 1)

/-- How far a packet's first `n` flits bring its whole 32-byte sectors (R432). -/
def Packet.upTo (p : Packet) (n : Nat) : Nat :=
  if flitCount p ≤ n then p.top else min p.top (max p.base (p.flitAt n / 32 * 32))

/-- Bytes `lo` to `hi` of a packet's payload, or of its mask. -/
def Packet.slice (p : Packet) (lo hi : Nat) (l : List Byte) : List Byte := (l.drop (lo - p.base)).take (hi - lo)

/-- The parts of `lo` to `hi` that poisoned flits bring; the head of KIND 1 says where every byte goes. -/
def Packet.spoiled (p : Packet) (lo hi : Nat) (bad : List Nat) : List (Nat × Nat) :=
  if p.kind == 1 && bad.contains 0 then [(lo, hi)]
  else (bad.map fun i => (max lo (p.flitAt i), min hi (p.flitAt (i + 1)))).filter fun c => c.1 < c.2

/-- Bytes `lo` to `hi` of a packet go into a team's scratchpad; words that poisoned flits touch are poison (R337). -/
def landSpad (p : Packet) (lo hi : Nat) (bad : List Nat) (t : Team) : Team :=
  let t := t.setSpadMask lo (p.slice lo hi p.data) (p.slice lo hi p.mask)
  { t with spadPoison := (t.spadPoison ++ (p.spoiled lo hi bad).flatMap fun (c : Nat × Nat) =>
      (List.range ((c.2 - 1) / 8 - c.1 / 8 + 1)).map (c.1 / 8 + ·)).eraseDups }

/-- Bytes `lo` to `hi` of a packet go to their homes, or to the host or a peer; the sectors that poisoned flits touch are poison, and
pages are marked (R337, R390). The L1 of the issuing team's core keeps no word that its engine writes: the engine is of every instance
of the team's threads (R265, R283). -/
def landSegs (s : State) (p : Packet) (kind lo hi : Nat) (bad : List Nat) : State :=
  let segs := [(kind, lo, hi - lo)]
  let mask := p.slice lo hi p.mask
  let s := recallLines (reachHomes s (384 + nodeDie p.src) p.src segs) (segLines segs)
  let s := dropL1 (maskSegBytes s segs (p.slice lo hi p.data) mask) (((s.team? p.grid p.team).map (·.core)).getD 0) (segWords segs)
  let s := poisonSegs (unpost s segs mask) ((p.spoiled lo hi bad).map fun (c : Nat × Nat) => (kind, c.1, c.2 - c.1))
  if kind < 2 then markDirty s p.ctx (p.va + lo - p.first) (hi - lo) else s

/-- R432: a packet of whose flits an endpoint has applied the first `m` applies those up to `n`: sectors are written whole and in
ascending order, in the scratchpads of the teams there or at their homes. -/
def landFlits (s : State) (p : Packet) (teams : List Nat) (m n : Nat) (bad : List Nat) : State :=
  let lo := p.upTo m
  let hi := p.upTo n
  if !p.lands || hi ≤ lo then s else
  match p.place with
  | some g => landSegs s p g.1 lo hi bad
  | none => teams.foldl (fun s t => s.updTeam p.grid t (landSpad p lo hi bad)) s

/-- The rest of a packet's payload lands at once; the packet travels on without it. -/
def landNow (s : State) (p : Packet) (m : Nat) (bad : List Nat) : State :=
  (landFlits s p [p.team] m (flitCount p) bad).updPacket p.id fun q => { q with data := [] }

/-- Whether a packet is the cohort store of a thread to a mate's scratchpad, on its way there. -/
def Packet.mateStore (p : Packet) : Bool :=
  p.lands && p.place.isNone && p.thread.any fun i => (i.1, i.2.1) != (p.grid, p.team)

/-- R199, R433: the cohort stores among these packets are written at their banks. -/
def landStores (s : State) (pick : Packet → Bool) : State :=
  (s.packets.filter fun p => p.mateStore && pick p).foldl (fun s p => landNow s p 0 []) s

/-- Those of one thread. -/
def landThread (s : State) (g t tid : Nat) : State := landStores s fun p => p.thread == some (g, t, tid)

/-- A request whose data are poisoned, in its slot or on the way (R337, R437): what it stores is poison, an atomic ends with POISON, and a contribution
is discarded. -/
def performBad (s : State) (r : Req) : State :=
  match r.kind with
  | .atom .. => dropReq (poisonOp s r.op 8) r
  | .store data mask => poisonSegs (performStore s r data mask) r.segs
  | _ => dropReq s r

/-- Whether a request brings poison to its home: a load and a lock carry no data. -/
def badData (s : State) (r : Req) : Bool :=
  match r.kind with
  | .load .. | .lock .. => false
  | .store .. => r.bad || storePoisoned s r
  | _ => r.bad

/-- What a request does at its home. An event that follows it may mark its core's L1 as it performs (R317). -/
def performAt (s : State) (r : Req) : State :=
  let s := if badData s r then performBad s r else match r.kind with
    | .load tid q slot => performLoad s r q slot tid
    | .store data mask => performStore s r data mask
    | .atom op n x cmp fmt => performAtom s r op n x cmp fmt
    | .red .. => performRed s r
    | .dred .. => performDred s r
    | .lock msc release => performLock s r msc release
  if r.marks then markStale s r.core else s

/-- Perform a request now, at the homes it reaches. -/
def performReq (s : State) (r : Req) : State := performAt (homeFor s r) r

/-- Whether everything a request waits for has performed. -/
def reqReady (s : State) (r : Req) : Bool := (r.after ++ r.behind).all fun a => !s.inFlight a

/-- Whether the issuing core's L1 serves a request whole (R315). -/
def l1Serves (s : State) (r : Req) (segs : List (Nat × Nat × Nat)) : Bool :=
  match r.kind with
  | .load .. => isDevice segs && (segWords segs).all (fun w => (l1Usable s r.core w).isSome) &&
      (List.range (segWords segs).length).all fun i => (Config.freeChoice s.free / 8 ^ i) % 2 == 0
  | _ => false

/-! ## Draining -/

/-- One round of everything a set of requests waits for. -/
def waitsOn (s : State) (ids : List Nat) : List Nat :=
  (ids ++ s.reqs.flatMap fun r => if ids.contains r.id then r.after ++ r.behind else []).eraseDups

def closure (s : State) : Nat → List Nat → List Nat
  | 0, ids => ids
  | n + 1, ids => let ids' := waitsOn s ids
                  if ids'.length == ids.length then ids else closure s n ids'

/-- Perform a set of requests and all they wait for, oldest first; one that has not left its core leaves it (R422). -/
def drainReqs (s : State) (ids : List Nat) : State :=
  let all := closure s s.reqs.length ids
  (sortBy id all).foldl (fun s n =>
    match s.req? n with
    | some r => performReq (if l1Serves s r (placesOf s r) then s else sendReq s r (placesOf s r)) r
    | none => s) s

def isLoad (k : ReqKind) : Bool :=
  match k with
  | .load .. => true
  | _ => false

def isLoadLike (k : ReqKind) : Bool :=
  match k with
  | .load .. | .atom .. => true
  | _ => false

def isStore (k : ReqKind) : Bool :=
  match k with
  | .store .. => true
  | _ => false

/-- A thread's requests in flight. -/
def threadReqs (s : State) (g t tid : Nat) : List Req := s.reqs.filter fun r => r.agent == .thread g t tid

/-! ## Releases, acquires and fences (R273 to R277) -/

/-- An engine acts on a command of a team, and belongs to the instances of its threads (R265): a scribe whose transfer has not
ended, one that waits to go on after a resumption (R401), a migration stream that a thread submitted. -/
def engineActs (s : State) (g t : Nat) : Bool :=
  (s.scribes.any fun c => (c.status == 1 || c.status == 2) && c.holder == some (g, t)) || (s.scribeWait.any fun c => c.status != 3 && c.holder == some (g, t)) ||
    s.streams.any fun m => m.team == some (g, t) && m.running

/-- Whether a write must stand at its home to be performed at a scope for a team's threads (Table 9-3). -/
def homeScope (s : State) (g t scope : Nat) : Bool := 2 ≤ scope || engineActs s g t

/-- The stores of a team's own threads and of others that a release passes on. -/
def passOn (t : Team) (mine : List Req) : Team :=
  { t with seen := (t.seen ++ (mine.filter fun r => isStore r.kind).map fun r => (r.path, r.id)).eraseDups }

/-- A release on every path at a scope (R266, R274). At team scope, with no engine in the instance, the stores that the L1 has taken
are performed and are passed on; everything else performs, cohort stores at their banks. Elsewhere everything performs, with what the team has seen, its reads in
flight included. -/
def releaseThread (s : State) (g t tid : Nat) (teamOnly : Bool) : State :=
  let s := landThread s g t tid
  let mine := threadReqs s g t tid
  if teamOnly && !engineActs s g t then
    (drainReqs s ((mine.filter fun r => !r.taken).map (·.id))).updTeam g t fun tm => passOn tm (mine.filter (·.taken))
  else
    let seen (s : State) : List Nat := (((s.team? g t).map (·.seen)).getD []).map (·.2)
    let s := drainReqs s (mine.map (·.id) ++ seen s)
    let s := drainReqs s (seen s)
    s.updTeam g t fun tm => { tm with seen := tm.seen.filter fun p => s.inFlight p.2 }

/-- Earlier requests that later accesses of a thread on a path wait for. -/
def addFence (x : Thread) (p : Path) (ids : List Nat) : Thread :=
  if ids.isEmpty then x else
  { x with fences := if x.fences.any (·.1 == p) then x.fences.map fun f => if f.1 == p then (p, (f.2 ++ ids).eraseDups) else f
                     else x.fences ++ [(p, ids)] }

/-- The paths of a thread's own accesses. -/
def threadPaths : List Path := [.t, .q, .a, .m]

/-- Requests that mark their core's L1 stale as they perform. -/
def markOn (s : State) (ids : List Nat) : State :=
  { s with reqs := s.reqs.map fun r => if ids.contains r.id then { r with marks := true } else r }

/-- An acquire on every path in one thread: its earlier loads and atomics come before every later access; stores that its team has
seen come before its accesses at the homes; at cohort scope or wider the L1 turns stale before a later read (R274, R317). -/
def acquireThread (s : State) (g t tid core : Nat) (wide : Bool) : State :=
  let ids := ((threadReqs s g t tid).filter fun r => isLoadLike r.kind).map (·.id)
  let fenced (x : Thread) (seen : List (Path × Nat)) : Thread :=
    addFence (threadPaths.foldl (fun x p => addFence x p ids) x) .a (seen.map (·.2))
  let s := s.updTeam g t fun tm => tm.updThread tid fun x => fenced x (tm.seen.filter fun p => s.inFlight p.2)
  if wide then markStale (markOn s ids) core else s

/-- The kind of a fence (R224). -/
inductive FenceKind where
  | full
  | rel
  | acq
deriving DecidableEq, Repr

def FenceKind.of (mod3 : BitVec 3) : FenceKind := if mod3 == 1 then .rel else if mod3 == 2 then .acq else .full

/-- Whether a fence over a set of paths covers an earlier request of its own thread: an acquire covers loads and atomics (R224). -/
def fenceOwn (kind : FenceKind) (ps : List Path) (r : Req) : Bool := ps.contains r.path && (kind != .acq || isLoadLike r.kind)

/-- Whether a fence covers a store that the team has seen: a release by the store's path (R274), a full fence also by the path it was
read on (R277). -/
def fenceSeen (kind : FenceKind) (ps : List Path) (seen : List (Path × Nat)) (r : Req) : Bool :=
  seen.any fun p => p.2 == r.id && (ps.contains r.path || (kind != .rel && ps.contains p.1))

/-- What a later access on path `p` waits for, when a fence over the paths `ps` stands before it. A store that the L1 has taken is
performed at team scope for every access but those at the homes; an acquire orders stores seen before those alone. -/
def fenceIds (s : State) (g t tid : Nat) (kind : FenceKind) (atHome : Bool) (ps : List Path) (p : Path) : List Nat :=
  let seen := ((s.team? g t).map (·.seen)).getD []
  (s.reqs.filter fun r => (atHome || !r.taken || p == .a) &&
    ((r.agent == .thread g t tid && fenceOwn kind ps r) || (fenceSeen kind ps seen r && (kind != .acq || p == .a)))).map (·.id)

/-- Reads of a thread that a release or full fence follows pass on what they find: a release the stores of its own paths, a full fence
all (R274, R277). -/
def passAfter (s : State) (g t tid : Nat) (kind : FenceKind) (ps : List Path) : State :=
  { s with reqs := s.reqs.map fun r =>
      if r.agent == .thread g t tid && isLoadLike r.kind && fenceOwn kind ps r then
        { r with passes := (r.passes ++ if kind == .rel then ps else threadPaths).eraseDups } else r }

/-- A fence of one thread: `groups` are the sets of paths ordered together, each path alone for FENCE (R224, R225, R277). -/
def fenceThread (s : State) (g t tid core : Nat) (kind : FenceKind) (scope : Nat) (groups : List (List Path)) : State :=
  let atHome := homeScope s g t scope
  let ids (ps : List Path) (p : Path) : List Nat := fenceIds s g t tid kind atHome ps p
  let fenced (x : Thread) : Thread := groups.foldl (fun x ps => ps.foldl (fun x p => addFence x p (ids ps p)) x) x
  let mine := (threadReqs s g t tid).filter (·.taken)
  let read (ps : List Path) : Bool := ps.contains .q || ps.contains .m
  let s0 := if kind != .acq && atHome then groups.foldl (fun s ps => passAfter s g t tid kind ps) s else s
  let s0 := if kind != .acq && groups.any (·.contains .t) then landThread s0 g t tid else s0
  let s1 := s0.updTeam g t fun tm => if kind == .acq then tm.updThread tid fenced else passOn (tm.updThread tid fenced) mine
  if kind != .rel && 2 ≤ scope && groups.any read then
    markStale (markOn s1 ((groups.filter read).flatMap fun ps => ids ps .q ++ ids ps .m)) core
  else s1

/-! ## Issuing requests -/

/-- What fences of a thread still hold its accesses on a path back for. -/
def fencedIds (s : State) (x : Thread) (path : Path) : List Nat :=
  (((x.fences.find? fun f => f.1 == path).map (·.2)).getD []).filter s.inFlight

/-- Earlier accesses of a thread on one path to overlapping bytes (R269). -/
def overlapping (s : State) (g t tid : Nat) (path : Path) (va len : Nat) (segs : List (Nat × Nat × Nat)) : List Req :=
  (threadReqs s g t tid).filter fun r => r.path == path && sharesByte s va len segs r

/-- What a load waits for: fences, and earlier overlapping accesses. A store that the L1 has taken is read from there. -/
def loadAfter (s : State) (g t tid core ctx : Nat) (path : Path) (va len : Nat) : List Nat :=
  let segs := placesOf s { kind := .load 0 0 0, core, ctx, va, len }
  ((s.threadOf g t tid).map fun x => fencedIds s x path).getD [] ++
    ((overlapping s g t tid path va len segs).filter fun r => !r.taken).map (·.id)

/-- Accesses of other threads of the same word to overlapping bytes, which come first (R193). -/
def sameWord (s : State) (r : Req) : List Req :=
  s.reqs.filter fun q => q.word == r.word && q.core == r.core && q.agent != r.agent && sharesByte s r.va r.len r.segs q

/-- The stores, taken by the L1 and still on their way to the same bytes, that a write of a thread follows to the home: all that its
team has seen or passed on, which come before it at team scope (R265, R274), and for a store that the L1 takes too all of the core's
(R268). -/
def followed (s : State) (t : Team) (r : Req) (taken : Bool) : List Req :=
  s.reqs.filter fun q => q.taken && segsMeet q.segs r.segs && ((taken && q.core == r.core) || t.seen.any (·.2 == q.id))

/-- A request of a thread, with what it waits for. A store behind stores that the L1 has taken is taken too and follows them home;
one that waits for anything else is seen by nobody before its home (R268, R269, R274). -/
def placedReq (s : State) (e : Env) (x : Thread) (r : Req) : Req :=
  let r := { r with agent := .thread e.t.grid e.t.index x.tid, ctx := e.g.ctx, core := e.t.core, word := (e.b.id, e.b.idx) }
  let load := isLoad r.kind
  let before := overlapping s e.t.grid e.t.index x.tid r.path r.va r.len (placesOf s r) ++ (if load then [] else sameWord s r) ++
    s.reqs.filter fun q => r.after.contains q.id
  let home := if isStore r.kind || load then before.filter (·.taken) else []
  let after := ((s.threadOf e.t.grid e.t.index x.tid).map fun x => fencedIds s x r.path).getD [] ++
    (before.map (·.id)).filter fun i => !home.any (·.id == i)
  let taken := isStore r.kind && isDevice r.segs && after.isEmpty
  let behind := if load then [] else ((home ++ followed s ((s.team? e.t.grid e.t.index).getD e.t) r taken).map (·.id)).eraseDups
  { r with after, taken, gathered := r.gathered && after.isEmpty && behind.isEmpty, behind }

/-- Put a request of a thread in flight; its core's L1 takes a store that waits for nothing. -/
def issueReq (s : State) (e : Env) (x : Thread) (r : Req) : State :=
  let r := placedReq s e x r
  let s := { s with reqs := s.reqs ++ [r] }
  match r.kind with
  | .store data mask => if r.taken then storeL1 s e.t.core r.segs data mask else s
  | _ => s

/-! ## The start of a move (R330, steps 1 to 5) -/

/-- The slice stops serving a region, performs what it accepted and recalls what cores hold; a release drops its locks. -/
def startMove (s : State) (reg : Nat) (release : Bool) : State :=
  let r := s.regions.get {} reg
  let s := { s with regions := s.regions.set {} reg { r with st := 2, release } }
  let mine := s.reqs.filter fun q => q.segs.any fun g => g.1 == 0 && inRegion reg g.2.1
  let s := (sortBy (·.id) (mine.filter (·.accepted))).foldl performAt s
  let s := recallLines s ((mine.filter (·.gathered)).flatMap fun q => segLines q.segs).eraseDups
  if release then { spillPress s (fun p => p.run.isNone && inRegion reg p.pa) with locks := s.locks.filter fun l => l.msc || !inRegion reg (l.line * 128) } else s

/-! ## Routing (R327 to R330) -/

/-- The node a request enters its mesh at, as 192 × die + node. -/
def entryNode (r : Req) : Nat := coreNode r.core

/-- Where a request goes: the requester's region cache, else the region table. -/
def routeOf (s : State) (r : Req) (reg : Nat) : Option (Nat × Nat) :=
  match s.regionCache.find? fun c => c.1 == (r.core, reg) with
  | some c => some c.2
  | none =>
    let x := s.regions.get {} reg
    if x.st == 1 then some (x.die, x.node) else none

/-- What became of a request that reached a slice. -/
inductive Arrival where
  | served
  | answered
deriving DecidableEq, Repr

/-- R329: the slice answers REHOME. -/
def answerRehome (s : State) (r : Req) (reg : Nat) (home : Option (Nat × Nat)) : State × Arrival :=
  (countTelemetry (s.updReq r.id fun q => { q with rehome := some home, rehomeReg := reg, rehomeAt := s.fc }) 0x108 1, .answered)

/-- A request reaches the slice it was routed to: the slice homes the region, homes it now, or answers REHOME (R327, R329).
A move under way may end first (R330). -/
def arrive (s : State) (r : Req) (reg : Nat) : State × Arrival :=
  let x0 := s.regions.get {} reg
  let s := if x0.st == 2 && Config.freeChoice s.free % 2 == 0 then settleRegion s reg else s
  let x := s.regions.get {} reg
  match routeOf s r reg with
  | none =>
    if x.st == 0 then
      let s := firstTouch s reg (entryNode r)
      let h := s.regions.get {} reg
      (cacheRegion s r.core reg (h.die, h.node), .served)
    else answerRehome s r reg none
  | some w =>
    if x.st == 1 && (x.die, x.node) == w then (cacheRegion s r.core reg w, .served)
    else if x.st == 2 then answerRehome s r reg none
    else
      let s := if x.st == 0 then firstTouch s reg (entryNode r) else s
      let h := s.regions.get {} reg
      answerRehome s r reg (some (h.die, h.node))

/-- The regions a request touches, in turn: all serve it, or one answers REHOME. -/
def arriveAll (s : State) (r : Req) : List Nat → State × Arrival
  | [] => (s, .served)
  | reg :: rest => match arrive s r reg with
    | (s, .served) => arriveAll s r rest
    | a => a

end Sys2Proof.Machine
end

