-- ==== Sys2Proof/Machine/Snap.lean ====
section
/-! DEFINITION. The snapshot trigger and what every block latches (R134, R473, Table 19-7). -/

namespace Sys2Proof.Machine

/-- Flits in flight in a die (R428). -/
def inFlight (s : State) (die : Nat) : Nat :=
  (s.flits.map fun f => if !f.cross && f.at' / 192 == die then max 1 f.mc.length else 0).foldl (· + ·) 0

/-- %clk, resident bundles per quadrant, words issued, matrix queue occupancy, fabric pressure. -/
def snapCoreData (s : State) (core : Nat) : List Nat :=
  [s.cc + Config.clkSkew core % 5] ++
  ((List.range 4).map fun q => (s.bundles.filter fun b => b.core == core && b.quad == q).length) ++
  [s.issued.get 0 core,
   ((s.teams.filter fun t => t.core == core).map fun t => (t.insts.filter (·.queued)).length).foldl (· + ·) 0,
   fpressOf s core]

/-- F, flits held in hoops, deflections. -/
def snapNode (s : State) (x : Nat) : List Nat :=
  [inFlight s (x / 192), ((s.hoops.filter fun h => endNode h.core == x).map fun h => (h.got.filter (h.applied ≤ ·)).length).foldl (· + ·) 0, s.deflects.get 0 x]

/-- Whether a line's region is homed at a slice. -/
def homedAt (s : State) (x line : Nat) : Bool :=
  let r := s.regions.get {} (line / 512)
  r.st == 1 && 192 * r.die + r.node == x

/-- Press entries, directory entries, locked lines. -/
def snapSlice (s : State) (x : Nat) : List Nat :=
  let held := ((s.reqs.filter (·.gathered)).flatMap fun r => segLines r.segs).eraseDups
  [(heldPress s x).length, (held.filter (homedAt s x)).length, (((s.locks.filter fun l => !l.msc && homedAt s x l.line).map (·.line)).eraseDups).length]

/-- Status and bytes. -/
def snapScribe (s : State) (n : Nat) : List Nat :=
  let c := (s.scribes.find? fun c => 8 * c.die + c.ch == n).getD {}
  [c.status, c.done]

/-- Pending teams and live grids. -/
def snapTask (s : State) : List Nat :=
  [((s.grids.map fun g => if g.ended.isSome then 0 else g.launch.gx * g.launch.gy * g.launch.gz - g.started).foldl (· + ·) 0) +
    (s.teams.filter fun t => match t.phase with
      | .pending .. => true
      | _ => false).length,
   s.grids.length]

def snapIagar (s : State) : List Nat :=
  [s.mhz, s.mgmt.watts] ++ (List.range 8).map (fun i => s.mgmt.dieTemps.getD i 0) ++ (List.range 16).map fun i => s.mgmt.stackTemps.getD i 0

/-- The latched values in the order of the data window. -/
def snapValues (s : State) : List Nat :=
  (List.range 384).flatMap (snapCoreData s) ++ (List.range 1536).flatMap (snapNode s) ++ (List.range 1536).flatMap (snapSlice s) ++
  (List.range 64).flatMap (snapScribe s) ++ snapTask s ++ snapIagar s

/-- Field by place, zeros unlisted. -/
def snapMap (l : List Nat) : SMap W64 :=
  (((List.range l.length).zip l).map fun p => (p.1, BitVec.ofNat 64 p.2)).filter fun p => p.2 != 0

/-- The trigger (R473): latches, or counts as missed while latched. Triggers of one cc keep the lowest source. -/
def State.snapTrigger (s : State) (src tag core : Nat) : State :=
  s.updMgmt fun m =>
    if m.snapLatched then
      if m.snapCc == s.cc && (src < m.snapSrc || (src == m.snapSrc && core < m.snapCore)) then
        { m with snapSrc := src, snapTag := tag, snapCore := core, snapMissed := min 65535 (m.snapMissed + 1) }
      else { m with snapMissed := min 65535 (m.snapMissed + 1) }
    else { m with snapLatched := true, snapSrc := src, snapTag := tag, snapCore := core, snapCc := s.cc, snapData := snapMap (snapValues s) }

end Sys2Proof.Machine
end

