-- ==== Sys2Proof/Machine/Control.lean ====
section
/-! DEFINITION. Group S words that shape control flow and per-thread, warp and context state, and the eight terminals
(04: R108 to R140). SPAWN, JOINC and POST are in Nesting. -/

namespace Sys2Proof.Machine

/-! ## Addresses of a clause -/

/-- R91: header + 16 × a signed word offset. -/
def wordOffset (h : Addr) (off : Int) : Addr := h + BitVec.ofInt 57 (16 * off)

/-- R90: the word after a clause's last body word. -/
def succOf (h : Addr) (hdr : W128) : Addr := h + BitVec.ofNat 57 (16 * ((Header.of hdr).len.toNat + 1))

def Env.succ (e : Env) : Addr := succOf e.b.addr e.b.hdr

/-- succ(x) of another clause, whose header is read at x (R108). Where x cannot be fetched, the thread goes to x, whose fetch
then faults; where the word at x is no header, the bits of LEN in it count all the same (log 10). -/
def succAt (s : State) (unit ctx : Nat) (x : Addr) : Addr :=
  match fetchWord s unit ctx (vaOf x) with
  | .ok w => succOf x w
  | .error _ => x

def simple (f : Thread → Thread) : Env → Thread → Except Trap Out := fun _ x => .ok { th := f x }

/-! ## Meetings, loops and issue -/

/-- R139. -/
def execNop (f : SBody) (s : State) : Result := regWord s f.toBody {} false (simple id)

/-- R110: a new meeting of some threads of a team, each of which leaves its previous one. -/
def formMeeting (t : Team) (id : Nat) (j : Addr) (members : List Nat) : Team :=
  let live := t.meetings.filter fun m => t.threads.any fun x => x.mrV && x.mrRef == m.id
  { t with meetings := live ++ [{ id, addr := j, members }] }

def joinMeeting (id : Nat) (j : Addr) (x : Thread) : Thread := { x with mrJ := j, mrV := true, mrRef := id }

/-- R111. -/
def execMeet (f : SBody) (s : State) : Result :=
  groupWord s f.toBody {} false fun e ex =>
    let j := wordOffset e.b.addr f.imm.toInt
    .ok (formMeeting e.t s.nextId j (ex.map (·.tid)), ex.map fun x => { th := joinMeeting s.nextId j x })

/-- R114. -/
def execMeetx (f : SBody) (s : State) : Result := regWord s f.toBody {} false (simple fun x => { x with mrV := false })

def loopTrap (d : Nat) : Trap := { code := fLoop, detail := d }

/-- R117: the level a LOOP word prepares, or its fault. Of several checks that fail the first in the order count, fourth level, counter
in use, body end gives the detail (log 49). -/
def loopLevel (e : Env) (f : SBody) (count : Nat) (x : Thread) : Except Trap Level :=
  let start := e.succ
  let last := wordOffset e.b.addr f.imm.toInt
  if 2 ^ 32 ≤ count then .error (loopTrap 1)
  else if 3 ≤ x.levels.length then .error (loopTrap 2)
  else if x.levels.any (·.ctr == f.mod3.toNat) then .error (loopTrap 3)
  else if last.toNat < start.toNat then .error (loopTrap 4)
  else .ok { ctr := f.mod3.toNat, start, last }

def execLoop (f : SBody) (s : State) : Result :=
  regWord s f.toBody { reads := regsOf f.a } false fun e x =>
    let count := (readOp s e f.imm x f.a).toNat
    match loopLevel e f count x with
    | .error t => .error t
    | .ok lv => .ok { th := { x with newLevel := some (lv, count) } }

/-- R121. -/
def execLbrk (f : SBody) (s : State) : Result :=
  regWord s f.toBody {} false fun _ x =>
    if x.levels.isEmpty then .error (loopTrap 7) else .ok { th := { x with lbrk := true } }

/-- R123. -/
def execYield (f : SBody) (s : State) : Result := regWord s f.toBody {} false (simple fun x => { x with yielded := true })

/-- Each NAP of a clause keeps the thread out for its own count, so the longest counts; NAP #0 begins none (R124). -/
def longerNap (nap : Option Nat) (n : Nat) : Option Nat := if n == 0 then nap else some (max n (nap.getD 0))

/-- R124: the nap begins when the clause retires. -/
def execNap (f : SBody) (s : State) : Result :=
  regWord s f.toBody { reads := regsOf f.a } false fun e x =>
    .ok { th := { x with napNext := longerNap x.napNext (min 65535 (readOp s e f.imm x f.a).toNat) } }

/-- R126. -/
def execTrap (f : SBody) (s : State) : Result :=
  regWord s f.toBody {} false fun _ _ => .error { code := fUserTrap, detail := f.imm.toNat }

/-! ## System registers (R133, Tables 4-3 to 4-6) -/

/-- Table 4-4. -/
def predWord (p : List Bool) : W64 :=
  BitVec.ofNat 64 ((p.take 8).foldr (fun b acc => (if b then 1 else 0) + 2 * acc) 0 + (min 8 p.length) * 2 ^ 8)

/-- Table 4-5. -/
def mrWord (x : Thread) : W64 := BitVec.ofNat 64 (x.mrJ.toNat / 16 * 16 + (if x.mrV then 2 ^ 63 else 0))

/-- Table 4-6. -/
def nestWord (x : Thread) : W64 :=
  BitVec.ofNat 64 (x.calls.length + x.levels.length * 2 ^ 8 + ((x.levels.head?.map (·.ctr)).getD 0) * 2 ^ 16)

/-- Whether a system register is marked "system" in Table 4-3. -/
def sysregSystem (n : Nat) : Bool := 0x100 ≤ n

def sysValue (s : State) (e : Env) (x : Thread) (n : Nat) : W64 :=
  match n with
  | 0x000 => 0x51390200
  | 0x001 => BitVec.ofNat 64 e.g.ctx
  | 0x002 => BitVec.ofNat 64 (fpressOf s e.t.core)
  | 0x003 => BitVec.ofNat 64 e.g.depth
  | 0x004 => BitVec.ofNat 64 (e.g.launch.gx + e.g.launch.gy * 2 ^ 32)
  | 0x005 => BitVec.ofNat 64 e.g.launch.gz
  | 0x006 => BitVec.ofNat 64 e.g.launch.wpt
  | 0x007 => BitVec.ofNat 64 (e.t.rank + e.g.launch.coh * 2 ^ 16)
  | 0x010 | 0x011 | 0x012 => (x.lc.get 0 (n - 0x010)).setWidth 64
  | 0x013 => predWord x.pred
  | 0x014 => mrWord x
  | 0x015 => nestWord x
  | 0x016 => x.s0
  | 0x017 => x.s1
  | 0x020 => e.c.trapen
  | 0x120 => e.c.sstep
  | _ => e.c.bp.get 0 (n - 0x100)

def privilegeTrap (d : Nat) : Trap := { code := fPrivilege, detail := d }

def execSysrd (f : SBody) (s : State) : Result :=
  regWord s f.toBody { writes := regsOf f.d } false fun e x =>
    let n := f.sysreg.toNat
    if sysregSystem n && !e.g.launch.sys then .error (privilegeTrap n)
    else .ok { th := x, vals := [sysValue s e x n] }

/-- Whether a grid may write a system register. -/
def sysWritable (sys : Bool) (n : Nat) : Bool :=
  n == 0x010 || n == 0x011 || n == 0x012 || (sys && (n == 0x020 || 0x100 ≤ n))

/-- A SYSWR of a context register: reserved bits ignore writes. -/
def sysWriteCtx (c : Ctx) (n : Nat) (v : W64) : Ctx :=
  if n == 0x020 then { c with trapen := v &&& 0xFF }
  else if n == 0x120 then { c with sstep := v &&& 0xFFFFFFFF00003FFF }
  else { c with bp := c.bp.set 0 (n - 0x100) (v &&& 0x01FFFFFFFFFFFFF1) }

/-- R133. Threads that write a context register in one word write in ascending (warp slot, lane), so the last one's value stays
(log 82). -/
def execSyswr (f : SBody) (s : State) : Result :=
  let n := f.sysreg.toNat
  memWord s f.toBody { reads := regsOf f.a }
    (fun e _ => if sysWritable e.g.launch.sys n then none else some (privilegeTrap n)) (fun _ _ => false)
    fun e s x _ =>
      let v := readOp s e f.imm x f.a
      if n < 0x020 then (s, { th := { x with lc := x.lc.set 0 (n - 0x010) (v.setWidth 32) } })
      else (s.updCtx e.g.ctx fun c => sysWriteCtx c n v, { th := x })

/-- R134: one assertion of the trigger for the word (log 11). -/
def execSnap (f : SBody) (s : State) : Result :=
  onceWord s f.toBody {} (fun _ s => s) fun e s _ =>
    if !e.c.snapen then .error (privilegeTrap 0)
    else .ok (s.snapTrigger 0 (f.imm.toNat % 2 ^ 16) e.t.core, fun y => { th := y })

/-! ## Thread and warp state -/

/-- R23, R135: a state of all zeros is stored with s1 = 1. -/
def seeded (x : Thread) (a b : W64) : Thread := { x with s0 := a, s1 := if a == 0 && b == 0 then 1 else b }

/-- R135. -/
def execSeed (f : SBody) (s : State) : Result :=
  regWord s f.toBody { reads := regsOf f.a 2 } false fun _ x =>
    let p := readPair x f.a
    .ok { th := seeded x (p.extractLsb' 0 64) (p.extractLsb' 64 64) }

/-- R136. -/
def execFlagrd (f : SBody) (s : State) : Result :=
  regWord s f.toBody { writes := regsOf f.d } false fun _ x => .ok { th := x, vals := [x.efl.setWidth 64] }

/-- Every EFL bit that a value names is cleared, those of completed long words too. -/
def clearEfl (v : W64) (x : Thread) : Thread :=
  let keep := ~~~ (v.setWidth 32 &&& 0xFF)
  { x with efl := x.efl &&& keep, eflHeld := x.eflHeld.foldl (fun m p => m.set 0 p.1 (p.2 &&& keep)) [] }

/-- R136. -/
def execFlagclr (f : SBody) (s : State) : Result :=
  regWord s f.toBody { reads := regsOf f.a } false fun e x =>
    .ok { th := clearEfl (readOp s e f.imm x f.a) x }

/-- R137: the value each warp's slot takes, from its highest executing lane. -/
def wfmtValues (s : State) (e : Env) (f : SBody) (ex : List Thread) : List (Nat × W64) :=
  ((ex.map (·.warp)).eraseDups).filterMap fun w =>
    ((ex.filter (·.warp == w)).getLast?).map fun x => (w, readOp s e f.imm x f.a)

/-- R137: write a slot of each executing warp; the words of this clause go on under the old value (R32). -/
def execWfmt (f : SBody) (s : State) : Result :=
  groupWord s f.toBody { reads := regsOf f.a } false fun e ex =>
    let vs := wfmtValues s e f ex
    let bad := vs.filter fun p => !fmtValid p.2
    match ex.filterMap fun x => (bad.find? (·.1 == x.warp)).map fun p =>
        (x.tid, ({ code := fFormat, detail := p.2.toNat } : Trap)) with
    | [] => .ok (vs.foldl (fun t p => t.updWarp p.1 fun w => { w with fmt := w.fmt.set f.fs.toNat p.2 }) e.t,
                 ex.map fun x => { th := x })
    | l => .error l

/-- R138: the slot in force in the clause (log 12). -/
def execRfmt (f : SBody) (s : State) : Result :=
  regWord s f.toBody { writes := regsOf f.d } false fun e x => .ok { th := x, vals := [e.slot f.fs.toNat] }

/-- R138. -/
def execSegrd (f : SBody) (s : State) : Result :=
  regWord s f.toBody { writes := regsOf f.d } false fun e x =>
    let seg := e.g.seg f.fs.toNat
    .ok { th := x, vals := [if f.mod3 == 0 then seg.1 else if f.mod3 == 1 then seg.2 else BitVec.ofNat 64 e.g.launch.spad] }

/-! ## Terminals -/

/-- R118: open the prepared level, or pass it over when its count is zero. -/
def openLevel (s : State) (e : Env) (x : Thread) : Thread :=
  match x.newLevel with
  | none => x
  | some (lv, n) =>
    let x := { x with newLevel := none, lc := x.lc.set 0 lv.ctr (BitVec.ofNat 32 n) }
    if n == 0 then { x with pc := succAt s e.t.core e.g.ctx lv.last } else { x with levels := lv :: x.levels, pc := lv.start }

/-- What every thread keeps and drops when its clause retires (R123 to R125, R359). -/
def retireThread (cc : Nat) (x : Thread) : Thread :=
  { x with place := .boundary, resumeAt := 0, resumeFmt := [], resumeHdr := 0, resumeWords := [], contrib := [], exempt := false
           stepOk := false, released := false, notBefore := cc
           nap := match x.napNext with
             | some n => if n == 0 then none else some (cc + n)
             | none => none
           napNext := none }

/-- R108 for one thread, past the brp and exit cases: the LBRK mark first, else the terminal's own next address. -/
def boundary (s : State) (e : Env) (nxt : Thread → Except Trap Thread) (x : Thread) : Except Trap Thread :=
  if x.lbrk then
    match x.levels with
    | lv :: r => .ok { x with lbrk := false, levels := r, newLevel := none, pc := succAt s e.t.core e.g.ctx lv.last }
    | [] => .ok { x with lbrk := false }
  else match nxt x with
    | .error t => .error t
    | .ok y => .ok (openLevel s e y)

/-- Split boundary results into traps and threads. -/
def splitThreads (l : List (Nat × Except Trap Thread)) : List (Nat × Trap) × List Thread :=
  (l.filterMap fun p => match p.2 with
     | .error t => some (p.1, t)
     | .ok _ => none,
   l.filterMap fun p => match p.2 with
     | .error _ => none
     | .ok x => some x)

/-- R236: an instance's flags complete no earlier than 2 cc after a contributing clause retires. -/
def settleContrib (s : State) (b : Bundle) : List Op :=
  s.ops.map fun o => match o.inst with
    | some i => if b.contrib.contains i then { o with notBefore := max o.notBefore (s.cc + 2) } else o
    | none => o

/-- The clause retires: the bundle ends, its k writes commit (R41), its threads stand at their next clauses. -/
def retireClause (s : State) (e : Env) (t : Team) (l : List Thread) : State :=
  let t := { (t.putThreads (l.map fun x => { x with joinAt := t.children })) with k := commitK s.cc e.b.members t.k e.b.kw }
  let s := { s.setTeam t with ops := settleContrib s e.b }
  { s with bundles := s.bundles.filter (·.id != e.b.id), cur := none, free := s.free + 1, nextId := s.nextId + 1 }

/-- A terminal (R91, R108): every thread of the bundle, guarded or not; a fault is kind 2 and leaves all as before it. -/
def terminalWith (s : State) (pre : Env → Team × List Thread) (nxt : Env → Thread → Except Trap Thread) : Result :=
  match s.env? with
  | none => .refused (.notEnabled "issue")
  | some e =>
    let p := pre e
    match splitThreads (p.2.map fun x => (x.tid, boundary s e (nxt e) x)) with
    | (t :: r, _) => .next (raiseAt s e 0 { t.2 with kind := 2 } (t :: r))
    | ([], l) => .next (retireClause s e p.1 (l.map (retireThread s.cc)))

def plainPre (e : Env) : Team × List Thread := (e.t, e.threads)

def goTo (a : Addr) (x : Thread) : Except Trap Thread := .ok { x with pc := a }

/-- R108. -/
def execFall (_ : Header) (s : State) : Result := terminalWith s plainPre fun e => goTo e.succ

/-- R108. -/
def execJmp (h : Header) (s : State) : Result := terminalWith s plainPre fun e => goTo (wordOffset e.b.addr h.tgta.toInt)

/-- R112: each thread pops depth 0, the whole bundle meets at JOIN, and each goes its way; the LBRK check comes after (R108). -/
def execBrp (h : Header) (s : State) : Result :=
  match s.env? with
  | none => .refused (.notEnabled "issue")
  | some e =>
    let j := wordOffset e.b.addr h.join.toInt
    let popped := e.threads.map fun x => joinMeeting s.nextId j { x with pred := x.pred.tail }
    terminalWith s (fun e => (formMeeting e.t s.nextId j e.b.members, popped)) fun e x =>
      let took := ((e.t.thread? x.tid).map fun y => y.pred.headD false).getD false
      goTo (wordOffset e.b.addr (if took then h.tgta.toInt else h.tgtb.toInt)) x

/-- The operand the D field of the last body word names (R92). -/
def brxOperand (e : Env) : Operand := .ofField (fieldOf 10 99 (e.b.words.getLast?.getD 0))

/-- R92: the branch target of one thread. -/
def brxTarget (s : State) (e : Env) (x : Thread) : Except Trap Thread :=
  let o := brxOperand e
  match (regsOf o).find? fun n => (x.pend.get none n).isSome with
  | some n => .error { code := fHazard, detail := n + ((x.pend.get none n).getD 0) * 2 ^ 16 }
  | none =>
    let v := readOp s e 0 x o
    let a := (e.g.launch.code.signExtend 64 + v).toNat
    if v.toNat % 16 != 0 then .error { code := fAlignment, detail := a, vaddr := a }
    else if !canonical a then .error { code := fTranslation, detail := 2 + 2 * 4, vaddr := a }
    else .ok { x with pc := BitVec.ofNat 57 a }

def execBrx (_ : Header) (s : State) : Result := terminalWith s plainPre (brxTarget s)

/-- R108, R116. -/
def execCall (h : Header) (s : State) : Result :=
  terminalWith s plainPre fun e x =>
    if 16 ≤ x.calls.length then .error { code := fCallDepth, detail := 0 }
    else .ok { x with calls := (wordOffset e.b.addr h.tgtb.toInt, x.levels.length) :: x.calls,
                      pc := wordOffset e.b.addr h.tgta.toInt }

/-- R108, R116. -/
def execRet (_ : Header) (s : State) : Result :=
  terminalWith s plainPre fun _ x =>
    match x.calls with
    | [] => .error { code := fCallDepth, detail := 1 }
    | (a, lv) :: r => if lv != x.levels.length then .error (loopTrap 6) else .ok { x with calls := r, pc := a }

/-- R120. -/
def endLoop (e : Env) (x : Thread) : Except Trap Thread :=
  match x.levels with
  | [] => .error (loopTrap 5)
  | lv :: r =>
    if lv.last != e.b.addr then .error (loopTrap 5)
    else
      let c := x.lc.get 0 lv.ctr
      if c == 0 then .ok { x with levels := r, pc := e.succ }
      else if c != 1 then .ok { x with lc := x.lc.set 0 lv.ctr (c - 1), pc := lv.start }
      else .ok { x with lc := x.lc.set 0 lv.ctr 0, levels := r, pc := e.succ }

def execEndl (_ : Header) (s : State) : Result := terminalWith s plainPre endLoop

end Sys2Proof.Machine
end

