-- ==== Sys2Proof/Machine/IntAlu.lean ====
section
/-! DEFINITION. Integer arithmetic, shifts, logic, bit fields and moves (05: R142 to R160). -/

namespace Sys2Proof.Machine

/-- Table 3-3: the lane width of a width selector. -/
def laneWidth (fs : BitVec 4) : Nat := 64 / 2 ^ (fs.toNat % 4)

/-- Apply an operation to every lane of up to three sources (R142). -/
def mapLanes (w : Nat) (op : Nat → Nat → Nat → Nat) (a b c : W64) : W64 :=
  packElems w ((List.range (64 / w)).map fun i => op (elemOf w i a) (elemOf w i b) (elemOf w i c))

/-- The vector registers the A, B and C fields read. -/
def srcRegs (f : Body) : List Nat := regsOf f.a ++ regsOf f.b ++ regsOf f.c

/-- R144: the same operand under lane width `w`: every lane of an immediate is the low `w` bits of the sign-extended IMM. -/
def readLanes (s : State) (e : Env) (imm : BitVec 32) (w : Nat) (x : Thread) (o : Operand) : W64 :=
  if o == .imm then packElems w (List.replicate (64 / w) ((imm.signExtend 64).toNat % 2 ^ w)) else readOp s e imm x o

/-- A short word with one 64-bit result from A and the fields the instruction uses beside it, under lane width `w`. The register
checks name only used fields, since an unused field holds v0 and is never read (R78). -/
def wordUnder (w : Nat) (s : State) (f : Body) (srcs : List Operand) (op : Thread → W64 → W64 → W64 → W64) : Result :=
  regWord s f { reads := srcs.flatMap regsOf, writes := regsOf f.d } false fun e x =>
    let v := readLanes s e f.imm w x
    .ok { th := x, vals := [op x (v f.a) (v f.b) (v f.c)] }

def aluWord (s : State) (f : Body) (srcs : List Operand) (op : Thread → W64 → W64 → W64 → W64) : Result :=
  wordUnder 64 s f srcs op

/-- A lane-wise word: the operation sees the width, signedness and saturation of the word. -/
def laneWord (s : State) (f : VBody) (srcs : List Operand) (op : Nat → Bool → Bool → Nat → Nat → Nat → Nat) : Result :=
  let w := laneWidth f.fs
  wordUnder w s f.toBody srcs fun _ a b c => mapLanes w (op w (f.mod3.getLsbD 0) (f.mod3.getLsbD 1)) a b c

/-! ## Arithmetic (R149, Table 5-2) -/

def laneAdd (w : Nat) (sg sat : Bool) (a b _c : Nat) : Nat := deliver (laneVal w sg a + laneVal w sg b) w sg sat
def laneSub (w : Nat) (sg sat : Bool) (a b _c : Nat) : Nat := deliver (laneVal w sg a - laneVal w sg b) w sg sat
def laneMul (w : Nat) (sg sat : Bool) (a b _c : Nat) : Nat := deliver (laneVal w sg a * laneVal w sg b) w sg sat
def laneMulh (w : Nat) (sg _sat : Bool) (a b _c : Nat) : Nat :=
  deliver ((laneVal w sg a * laneVal w sg b) / (2 ^ w : Nat)) w sg false
def laneMad (w : Nat) (sg sat : Bool) (a b c : Nat) : Nat :=
  deliver (laneVal w sg a * laneVal w sg b + laneVal w sg c) w sg sat
def laneAbs (w : Nat) (sg sat : Bool) (a _b _c : Nat) : Nat := deliver ((laneVal w sg a).natAbs : Nat) w sg sat
def laneNeg (w : Nat) (sg sat : Bool) (a _b _c : Nat) : Nat := deliver (-laneVal w sg a) w sg sat
def laneMin (w : Nat) (sg _sat : Bool) (a b _c : Nat) : Nat := if laneVal w sg b < laneVal w sg a then b else a
def laneMax (w : Nat) (sg _sat : Bool) (a b _c : Nat) : Nat := if laneVal w sg a < laneVal w sg b then b else a

def execIadd (f : VBody) (s : State) : Result := laneWord s f [f.a, f.b] laneAdd
def execIsub (f : VBody) (s : State) : Result := laneWord s f [f.a, f.b] laneSub
def execImul (f : VBody) (s : State) : Result := laneWord s f [f.a, f.b] laneMul
def execImulh (f : VBody) (s : State) : Result := laneWord s f [f.a, f.b] laneMulh
def execImad (f : VBody) (s : State) : Result := laneWord s f [f.a, f.b, f.c] laneMad
def execIabs (f : VBody) (s : State) : Result := laneWord s f [f.a] laneAbs
def execIneg (f : VBody) (s : State) : Result := laneWord s f [f.a] laneNeg
def execImin (f : VBody) (s : State) : Result := laneWord s f [f.a, f.b] laneMin
def execImax (f : VBody) (s : State) : Result := laneWord s f [f.a, f.b] laneMax

/-- R19: push an entry; a ninth discards depth 7. -/
def pushPred (p : List Bool) (b : Bool) : List Bool := b :: p.take 7

/-- R150: a 128-bit pair result and the carry or borrow it may push. -/
def pairWord (s : State) (f : VBody) (op : W128 → W128 → W128 × Bool) : Result :=
  regWord s f.toBody { reads := regsOf f.a 2 ++ regsOf f.b 2, writes := regsOf f.d 2 } false fun _ x =>
    let r := op (readPair x f.a) (readPair x f.b)
    .ok { th := if f.mod3.getLsbD 2 then { x with pred := pushPred x.pred r.2 } else x
          vals := [r.1.extractLsb' 0 64, r.1.extractLsb' 64 64] }

def execIaddw (f : VBody) (s : State) : Result :=
  pairWord s f fun a b => (a + b, decide (2 ^ 128 ≤ a.toNat + b.toNat))
def execIsubw (f : VBody) (s : State) : Result :=
  pairWord s f fun a b => (a - b, decide (a.toNat < b.toNat))

/-! ## Shifts (R151, R152) -/

def laneShl (w : Nat) (_ _ : Bool) (a n _c : Nat) : Nat := if w ≤ n then 0 else a * 2 ^ n % 2 ^ w
def laneShr (w : Nat) (_ _ : Bool) (a n _c : Nat) : Nat := if w ≤ n then 0 else a / 2 ^ n
def laneSar (w : Nat) (_ _ : Bool) (a n _c : Nat) : Nat :=
  deliver (signedOf w a / (2 ^ (min n w) : Nat)) w true false
def laneRot (w : Nat) (right _ : Bool) (a n _c : Nat) : Nat :=
  let k := if right then (w - n % w) % w else n % w
  (a * 2 ^ k % 2 ^ w) + a / 2 ^ (w - k)

def execShl (f : VBody) (s : State) : Result := laneWord s f [f.a, f.b] laneShl
def execShr (f : VBody) (s : State) : Result := laneWord s f [f.a, f.b] laneShr
def execSar (f : VBody) (s : State) : Result := laneWord s f [f.a, f.b] laneSar
def execRot (f : VBody) (s : State) : Result := laneWord s f [f.a, f.b] laneRot

/-- R152: MOD3[0] = 1 delivers the upper half of u shifted left, 0 the lower half of u shifted right. -/
def funnel (left : Bool) (a b c : W64) : W64 :=
  let u : W128 := a ++ b
  let n := c.toNat % 64
  if left then (u <<< n).extractLsb' 64 64 else (u >>> n).extractLsb' 0 64

def execFshf (f : VBody) (s : State) : Result :=
  aluWord s f.toBody [f.a, f.b, f.c] fun _ a b c => funnel (f.mod3.getLsbD 0) a b c

/-! ## Logic and bit fields (R153 to R156) -/

def execAnd (f : VBody) (s : State) : Result := aluWord s f.toBody [f.a, f.b] fun _ a b _ => a &&& b
def execOr (f : VBody) (s : State) : Result := aluWord s f.toBody [f.a, f.b] fun _ a b _ => a ||| b
def execXor (f : VBody) (s : State) : Result := aluWord s f.toBody [f.a, f.b] fun _ a b _ => a ^^^ b
def execAndn (f : VBody) (s : State) : Result := aluWord s f.toBody [f.a, f.b] fun _ a b _ => a &&& ~~~ b

/-- R154. -/
def lop3 (lut : BitVec 8) (a b c : W64) : W64 :=
  BitVec.ofNat 64 ((List.range 64).foldr (fun k acc =>
    let i := (if a.getLsbD k then 4 else 0) + (if b.getLsbD k then 2 else 0) + (if c.getLsbD k then 1 else 0)
    (if lut.getLsbD i then 1 else 0) + 2 * acc) 0)

def execLop3 (f : VBody) (s : State) : Result := aluWord s f.toBody [f.a, f.b, f.c] fun _ a b c => lop3 f.lut a b c

def lanePopc (w : Nat) (_ _ : Bool) (a _b _c : Nat) : Nat := ((List.range w).filter a.testBit).length
def laneClz (w : Nat) (_ _ : Bool) (a _b _c : Nat) : Nat := w - bitLen a
def laneCtz (w : Nat) (_ _ : Bool) (a _b _c : Nat) : Nat := ((List.range w).find? a.testBit).getD w
def laneBrev (w : Nat) (_ _ : Bool) (a _b _c : Nat) : Nat :=
  (List.range w).foldl (fun acc k => 2 * acc + (if a.testBit k then 1 else 0)) 0

def execPopc (f : VBody) (s : State) : Result := laneWord s f [f.a] lanePopc
def execClz (f : VBody) (s : State) : Result := laneWord s f [f.a] laneClz
def execCtz (f : VBody) (s : State) : Result := laneWord s f [f.a] laneCtz
def execBrev (f : VBody) (s : State) : Result := laneWord s f [f.a] laneBrev

/-- R156: position and length of a field, cut at bit 63; none when it is empty. -/
def fieldSpan (ctl : W64) : Option (Nat × Nat) :=
  let pos := ctl.toNat % 256
  let len := ctl.toNat / 256 % 256
  if len == 0 || 64 ≤ pos then none else some (pos, min (pos + len) 64 - pos)

def bfx (signed : Bool) (a ctl : W64) : W64 :=
  match fieldSpan ctl with
  | none => 0
  | some (pos, n) =>
    let x := a.toNat / 2 ^ pos % 2 ^ n
    if signed then BitVec.ofInt 64 (signedOf n x) else BitVec.ofNat 64 x

def bfi (a b ctl : W64) : W64 :=
  match fieldSpan ctl with
  | none => a
  | some (pos, n) =>
    let m : W64 := BitVec.ofNat 64 ((2 ^ n - 1) * 2 ^ pos)
    (a &&& ~~~ m) ||| ((b <<< pos) &&& m)

def execBfx (f : VBody) (s : State) : Result := aluWord s f.toBody [f.a, f.b] fun _ a b _ => bfx (f.mod3.getLsbD 0) a b
def execBfi (f : VBody) (s : State) : Result := aluWord s f.toBody [f.a, f.b, f.c] fun _ a b c => bfi a b c

/-! ## Moves and selection (R157 to R159) -/

def execMov (f : VBody) (s : State) : Result := aluWord s f.toBody [f.a] fun _ a _ _ => a

def execMovi (f : VBody) (s : State) : Result := aluWord s f.toBody [] fun _ _ _ _ => f.imm.setWidth 64

/-- R158: MOVH reads D. -/
def execMovh (f : VBody) (s : State) : Result :=
  regWord s f.toBody { reads := regsOf f.d, writes := regsOf f.d } false fun e x =>
    .ok { th := x, vals := [f.imm ++ (readOp s e f.imm x f.d).extractLsb' 0 32] }

/-- R19: a read of a depth; beyond the count it yields false. -/
def predAt (x : Thread) (d : Nat) : Bool := x.pred.getD d false

def execSel (f : VBody) (s : State) : Result :=
  aluWord s f.toBody [f.a, f.b] fun x a b _ => if predAt x (f.sel.toNat % 8) then a else b

/-! ## Comparison (R160) -/

/-- Table 3-7: eq 0, ne 1, lt 2, le 3, gt 4, ge 5. -/
def intCompare (cc : Nat) (a b : Int) : Bool :=
  match cc with
  | 0 => a == b
  | 1 => a != b
  | 2 => a < b
  | 3 => a ≤ b
  | 4 => b < a
  | _ => b ≤ a

def execIcmp (f : VBody) (s : State) : Result :=
  regWord s f.toBody { reads := regsOf f.a ++ regsOf f.b } false fun e x =>
    let w := laneWidth f.fs
    let v (o : Operand) := laneVal w (f.mod3.getLsbD 0) (elemOf w f.sel.toNat (readLanes s e f.imm w x o))
    .ok { th := { x with pred := pushPred x.pred (intCompare f.subop.toNat (v f.a) (v f.b)) } }

end Sys2Proof.Machine
end

