-- ==== Sys2Proof/Machine/Scratch.lean ====
section
/-! DEFINITION. Scratchpad and cohort scratchpad words (07: R191 to R200) and SATOM (R220). Each access performs at its
word, a cohort store to a mate's scratchpad apart (log 14). -/

namespace Sys2Proof.Machine

/-! ## Operands of group L words -/

/-- The team as the state now holds it. -/
def teamNow (s : State) (e : Env) : Team := (s.team? e.t.grid e.t.index).getD e.t

/-- R191: o. -/
def memOffset (s : State) (e : Env) (x : Thread) (f : LBody) : Nat := offsetOf (readOp s e f.imm x f.a) f.imm

/-- Access size in bytes (Table 7-1). -/
def accBytes (f : LBody) : Nat := 2 ^ f.sz.toNat

/-- Registers a data operand of n bytes spans. -/
def spanOf (n : Nat) : Nat := if n == 16 then 2 else 1

/-- The low n bytes of a data operand. -/
def dataOf (s : State) (e : Env) (x : Thread) (f : LBody) (o : Operand) (n : Nat) : Nat :=
  if n == 16 then (readPair x o).toNat else (readOp s e f.imm x o).toNat % 2 ^ (8 * n)

/-- The first of several checks that fails. -/
def firstTrap (l : List (Option Trap)) : Option Trap := l.findSome? id

/-- R191, R192 for n bytes at scratchpad offset o. -/
def spCheck (e : Env) (o n al rank : Nat) : Option Trap :=
  firstTrap [limitCheck o n e.g.launch.spad 16 rank, alignCheck o al]

def spPoison (t : Team) (o n : Nat) : Option Trap := if t.spadPoisoned o n then some (poisonTrap 2) else none

/-! ## Own scratchpad -/

/-- R195. -/
def execSld (f : LBody) (s : State) : Result :=
  let n := accBytes f
  memWord s f.toBody { reads := regsOf f.a, writes := regsOf f.d (spanOf n), long := true, bank := true }
    (fun e x => let o := memOffset s e x f
                firstTrap [spCheck e o n n 0, spPoison e.t o n])
    (fun _ _ => false)
    fun e s x _ => (s, { th := x, vals := regVals (extend n (f.mod3.getLsbD 0) ((teamNow s e).spadBytes (memOffset s e x f) n)) })

/-- Store bytes in the team's scratchpad. -/
def putSpad (s : State) (e : Env) (o : Nat) (bs : List Byte) : State := s.setTeam ((teamNow s e).setSpad o bs)

/-- R195. -/
def execSst (f : LBody) (s : State) : Result :=
  let n := accBytes f
  memWord s f.toBody { reads := regsOf f.a ++ regsOf f.b (spanOf n), bank := true }
    (fun e x => spCheck e (memOffset s e x f) n n 0) (fun _ _ => false)
    fun e s x _ => (putSpad s e (memOffset s e x f) (leBytes n (dataOf s e x f f.b n)), { th := x })

/-- R196: the number of words. -/
def wordCount (f : LBody) : Nat := (f.opx.extractLsb' 0 4).toNat + 1

/-- R196. -/
def execSldw (f : LBody) (s : State) : Result :=
  let n := wordCount f
  memWord s f.toBody { reads := regsOf f.a, writes := regsOf f.d n, long := true, bank := true }
    (fun e x => let o := memOffset s e x f
                firstTrap [spCheck e o (8 * n) 8 0, spPoison e.t o (8 * n)])
    (fun _ _ => false)
    fun e s x _ => (s, { th := x, vals := (List.range n).map (fun i =>
      BitVec.ofNat 64 (leNat ((teamNow s e).spadBytes (memOffset s e x f + 8 * i) 8))) })

/-- The i-th of consecutive data registers; %zero stores zeros (log 15). -/
def regPlus (x : Thread) (o : Operand) (i : Nat) : W64 :=
  match o with
  | .v n => x.v.get 0 (n.val + i)
  | _ => 0

/-- R196. -/
def execSstw (f : LBody) (s : State) : Result :=
  let n := wordCount f
  memWord s f.toBody { reads := regsOf f.a ++ regsOf f.b n, bank := true }
    (fun e x => spCheck e (memOffset s e x f) (8 * n) 8 0) (fun _ _ => false)
    fun e s x _ => (putSpad s e (memOffset s e x f) ((List.range n).flatMap fun i => leBytes 8 (regPlus x f.b i).toNat), { th := x })

/-! ## Packed elements (R197, R198) -/

/-- What a packed access covers: element width, count, and from its byte base the first byte, the length and the first bit. -/
structure Packed where
  w : Nat := 1
  cnt : Nat := 1
  first : Nat := 0
  len : Nat := 1
  bit : Nat := 0
deriving DecidableEq, Repr

def packedOf (s : State) (e : Env) (x : Thread) (f : LBody) : Packed :=
  let fm := Fmt.of (e.slot f.fs.toNat)
  let w := fm.width
  let cnt := if f.opx == 0 then fm.elems else f.opx.toNat
  let j0 := (readOp s e f.imm x f.b).toNat
  let first := w * j0 / 8
  { w, cnt, first, len := (w * (j0 + cnt) - 1) / 8 - first + 1, bit := w * j0 % 8 }

/-- R197. -/
def execSldp (f : LBody) (s : State) : Result :=
  memWord s f.toBody { reads := regsOf f.a ++ regsOf f.b, writes := regsOf f.d, long := true, bank := true }
    (fun e x => let o := memOffset s e x f
                let p := packedOf s e x f
                firstTrap [limitCheck o (p.first + p.len) e.g.launch.spad 16 0, spPoison e.t (o + p.first) p.len])
    (fun _ _ => false)
    fun e s x _ =>
      let p := packedOf s e x f
      let bs := (teamNow s e).spadBytes (memOffset s e x f + p.first) p.len
      (s, { th := x, vals := [packElems p.w ((List.range p.cnt).map fun i => streamElem bs (p.bit + p.w * i) p.w)] })

/-- Data and mask bytes of a packed store of the elements of C. -/
def packedData (s : State) (e : Env) (x : Thread) (f : LBody) (p : Packed) : List Byte × List Byte :=
  let c := readOp s e f.imm x f.c
  packStream p.bit p.w ((List.range p.cnt).map fun i => elemOf p.w i c)

/-- R197, R198. -/
def execSstp (f : LBody) (s : State) : Result :=
  memWord s f.toBody { reads := regsOf f.a ++ regsOf f.b ++ regsOf f.c, bank := true }
    (fun e x => let p := packedOf s e x f
                limitCheck (memOffset s e x f) (p.first + p.len) e.g.launch.spad 16 0)
    (fun _ _ => false)
    fun e s x _ =>
      let p := packedOf s e x f
      let o := memOffset s e x f + p.first
      let d := packedData s e x f p
      (s.setTeam ((teamNow s e).setSpadMask o d.1 d.2), { th := x })

/-! ## Cohort scratchpad (R199) -/

/-- The rank an operand gives. -/
def rankOf (s : State) (e : Env) (x : Thread) (o : Operand) : Nat := (readOp s e 0 x o).toNat

def cohortTrap (rank : Nat) : Trap := { code := fCohort, detail := rank, aux := 16 + rank % 2 ^ 16 * 2 ^ 8 }

def rankCheck (e : Env) (rank : Nat) : Option Trap := if e.g.launch.coh ≤ rank then some (cohortTrap rank) else none

/-- The cohort member of a rank. -/
def peerIndex (e : Env) (rank : Nat) : Nat := e.t.index - e.t.rank + rank

def peerNow (s : State) (e : Env) (rank : Nat) : Team := (s.team? e.t.grid (peerIndex e rank)).getD {}

def peerCheck (e : Env) (rank o n al : Nat) : Option Trap := firstTrap [rankCheck e rank, spCheck e o n al (rank % 2 ^ 16)]

/-- The packet of a cohort scratchpad word to its mate's core, whose answer its operation waits for (R422, R433). Its ADDR is the
offset in the team's scratchpad (log 23). -/
def matePacket (s : State) (e : Env) (rank o : Nat) (p : Packet) : State :=
  sendNew s { p with src := coreNode e.t.core, dst := some (coreNode (peerNow s e rank).core, 0), grid := e.t.grid
                     team := peerIndex e rank, offset := o }

/-- The state once a thread's cohort stores are written, as its next access to its mates finds it (R199, R269). -/
def mates (s : State) (e : Env) (x : Thread) : State := landThread s e.t.grid e.t.index x.tid

/-- R199. -/
def execCld (f : LBody) (s : State) : Result :=
  let n := accBytes f
  memWord s f.toBody { reads := regsOf f.a ++ regsOf f.c, writes := regsOf f.d (spanOf n), long := true, bank := true }
    (fun e x => let o := memOffset s e x f
                let r := rankOf s e x f.c
                firstTrap [peerCheck e r o n n, spPoison (peerNow (mates s e x) e r) o n])
    (fun _ _ => false)
    fun e s x id =>
      let o := memOffset s e x f
      let r := rankOf s e x f.c
      let s := mates s e x
      (matePacket s e r o { kind := 0, back := n, op := some id }, { th := x, vals := regVals (extend n (f.mod3.getLsbD 0) ((peerNow s e r).spadBytes o n)) })

/-- Cohort stores on their way to bytes of a team's scratchpad. -/
def storesTo (g t o n : Nat) (p : Packet) : Bool := p.grid == g && p.team == t && p.offset < o + n && o < p.offset + p.data.length

/-- A cohort store leaves for its mate's bank, where its bytes are written as the packet arrives, or before an event or access that comes
after them; stores to the same bytes land in turn (R193, R199, R433). The own scratchpad is written at once. -/
def sendStore (s : State) (e : Env) (x : Thread) (rank o : Nat) (data : List Byte) : State :=
  let p : Packet := { kind := 1, size := 16 }
  if peerIndex e rank == e.t.index then
    (matePacket s e rank o p).updTeam e.t.grid e.t.index fun t => t.setSpad o data
  else
    matePacket (landStores s (storesTo e.t.grid (peerIndex e rank) o data.length)) e rank o
      { p with data, mask := data.map fun _ => 0xFF, thread := some (e.t.grid, e.t.index, x.tid) }

/-- R199. -/
def execCst (f : LBody) (s : State) : Result :=
  let n := accBytes f
  memWord s f.toBody { reads := regsOf f.a ++ regsOf f.b (spanOf n) ++ regsOf f.c, bank := true }
    (fun e x => peerCheck e (rankOf s e x f.c) (memOffset s e x f) n n) (fun _ _ => false)
    fun e s x _ => (sendStore s e x (rankOf s e x f.c) (memOffset s e x f) (leBytes n (dataOf s e x f f.b n)), { th := x })

/-! ## Atomics at a bank (R199, R219, R220) -/

/-- Draws of a thread's generator, and the generator after them. -/
def threadDraws (srb : Nat) : Nat → Rng → List Nat × Rng
  | 0, r => ([], r)
  | n + 1, r =>
    let d := xsNext r.s0 r.s1
    let q := threadDraws srb n { s0 := d.2.1, s1 := d.2.2 }
    (drawBits srb d.1 :: q.1, q.2)

/-- Registers an atomic reads and writes; cas reads D (R219). -/
def atomUse (f : LBody) (peer : Bool := false) : Use :=
  let k := spanOf (accBytes f)
  { reads := regsOf f.a ++ regsOf f.b k ++ (if peer then regsOf f.c else []) ++ (if f.opx == 9 then regsOf f.d k else []), writes := regsOf f.d k, long := true }

/-- The operand and compare value of an atomic. -/
def atomArgs (s : State) (e : Env) (x : Thread) (f : LBody) : Nat × Nat :=
  (dataOf s e x f f.b (accBytes f), if f.opx == 9 then dataOf s e x f f.d (accBytes f) else 0)

/-- An atomic on the bytes of a team's scratchpad: the new bytes and the thread's result. -/
def bankAtomic (s : State) (e : Env) (x : Thread) (f : LBody) (t : Team) (o : Nat) : List Byte × Out :=
  let n := accBytes f
  let fmt := e.slot f.fs.toNat
  let a := atomArgs s e x f
  let old := leNat (t.spadBytes o n)
  let ds := threadDraws (Fmt.of fmt).srb (drawCount f.opx.toNat n fmt) { s0 := x.s0, s1 := x.s1 }
  let r := atomNew f.opx.toNat n old a.1 a.2 fmt fun i => ds.1.getD i 0
  (leBytes n r.1, { th := { x with s0 := ds.2.s0, s1 := ds.2.s1 }, vals := regVals (leBytes (max 8 n) old), efl := r.2 })

/-- R220. -/
def execSatom (f : LBody) (s : State) : Result :=
  let n := accBytes f
  memWord s f.toBody { atomUse f with bank := true }
    (fun e x => let o := memOffset s e x f
                firstTrap [spCheck e o n n 0, spPoison e.t o n])
    (fun _ _ => false)
    fun e s x _ =>
      let o := memOffset s e x f
      let r := bankAtomic s e x f (teamNow s e) o
      (putSpad s e o r.1, r.2)

/-- R199. -/
def execCatom (f : LBody) (s : State) : Result :=
  let n := accBytes f
  memWord s f.toBody { atomUse f true with bank := true }
    (fun e x => let o := memOffset s e x f
                let r := rankOf s e x f.c
                firstTrap [peerCheck e r o n n, spPoison (peerNow (mates s e x) e r) o n])
    (fun _ _ => false)
    fun e s x id =>
      let o := memOffset s e x f
      let rk := rankOf s e x f.c
      let s := mates s e x
      let r := bankAtomic s e x f (peerNow s e rk) o
      let p : Packet := { kind := 2, size := if f.opx == 9 then 2 * n else n, back := n, op := some id }
      ((matePacket s e rk o p).updTeam e.t.grid (peerIndex e rk) fun t => t.setSpad o r.1, r.2)

end Sys2Proof.Machine
end

