-- ==== Sys2Proof/Machine/Queue.lean ====
section
/-! DEFINITION. Decoupling and named queues (07: R201 to R212). -/

namespace Sys2Proof.Machine

/-! ## Queues and their checks -/

def queueTrap (d : Nat) : Trap := { code := fQueue, detail := d }

def Team.putQueue (t : Team) (q : Queue) : Team :=
  { t with queues := if t.queues.any (·.n == q.n) then t.queues.map fun x => if x.n == q.n then q else x else t.queues ++ [q] }

def queueNow (t : Team) (f : LBody) : Queue := (t.queue? f.qn.toNat).getD { n := f.qn.toNat }

/-- Details 1 and 2 of Table 7-3. -/
def queueCheck (e : Env) (f : LBody) (kinds : List Nat) : Option Trap :=
  if e.g.launch.queues ≤ f.qn.toNat then some (queueTrap 1)
  else if kinds.contains (queueNow e.t f).kind then none else some (queueTrap 2)

/-- Bytes of a region (Table 7-2). -/
def regionBytes (e : Env) (kind depth : Nat) : Nat :=
  if kind == 0 then 0 else if kind == 4 then depth * 8 else e.g.launch.wpt * 32 * depth * 16

/-- R201, step 6: whether a queue holds something or something on it is outstanding. -/
def queueBusy (s : State) (t : Team) (q : Queue) : Bool :=
  q.fifos.any (fun f => !f.entries.isEmpty) || q.occ != 0 ||
  s.ops.any (fun o => o.grid == t.grid && o.team == t.index && (o.wait == .pop q.n || (o.popq.map (·.1)) == some q.n)) ||
  s.reqs.any (fun r => r.queue == some q.n && reqTeam r == (t.grid, t.index)) ||
  s.bundles.any fun b => b.grid == t.grid && b.team == t.index && b.resv.any fun r => r.1 == q.n && (r.2.1 != 0 || r.2.2 != 0)

/-- The checks of R201 in order. -/
def qcfgCheck (s : State) (e : Env) (f : LBody) (base depth : Nat) : Option Trap :=
  let kind := f.mod3.toNat
  let q := queueNow e.t f
  let size := regionBytes e kind depth
  let depthOk := if kind == 4 then 1 ≤ depth && depth ≤ 4096 else 1 ≤ depth && depth ≤ 32
  let clash := e.t.queues.any fun x => x.n != q.n && x.kind != 0 &&
    base < x.base + regionBytes e x.kind x.depth && x.base < base + size
  let busy := if queueBusy s e.t q then some (queueTrap 5) else none
  if e.g.launch.queues ≤ q.n then some (queueTrap 1)
  else if kind == 0 then busy
  else if !depthOk then some (queueTrap 7)
  else if base % 256 != 0 then some (queueTrap 5)
  else firstTrap [limitCheck base size e.g.launch.spad 16 0, if clash then some (queueTrap 5) else none, busy]

/-- R201. -/
def execQcfg (f : LBody) (s : State) : Result :=
  onceWord s f.toBody {} (fun _ s => s) fun e s x =>
    let base := memOffset s e x f
    let depth := (readOp s e f.imm x f.b).toNat
    let kind := f.mod3.toNat
    match qcfgCheck s e f base depth with
    | some t => .error t
    | none =>
      let q : Queue := if kind == 0 then { n := f.qn.toNat }
        else { n := f.qn.toNat, kind, depth, base, allow := if kind == 4 then depth else 0 }
      .ok (s.setTeam ((teamNow s e).putQueue q), fun y => { th := y })

/-! ## Global operands -/

def segNo (f : LBody) : Nat := f.seg.toNat

/-- R191: the virtual address of a global operand at offset o. -/
def globalVa (e : Env) (f : LBody) (o : Nat) : Nat := ((e.g.seg (segNo f)).1.toNat + o) % 2 ^ 64

/-- The limit and alignment checks of a global access; `al` 1 asks for none. -/
def globalCheck (e : Env) (f : LBody) (o n al : Nat) : Option Trap :=
  let va := globalVa e f o
  (firstTrap [limitCheck o n (e.g.seg (segNo f)).2.toNat (segNo f) 0, alignCheck va al]).map fun t => { t with vaddr := va }

def trapOf {α : Type} : Except Trap α → Option Trap
  | .error t => some t
  | .ok _ => none

/-- The physical segments of a checked access, or nothing. -/
def segsFor (s : State) (e : Env) (va n : Nat) (acc : Access) : List (Nat × Nat × Nat) :=
  match translateRange s e.t.core e.g.ctx va n acc with
  | .error _ => []
  | .ok l => segsOf l

/-- What a QLD or QST word accesses: byte offset from o, length, and packing. -/
structure Span where
  first : Nat := 0
  len : Nat := 1
  pack : Option (Nat × Nat × Nat) := none
deriving DecidableEq, Repr

def plainSpan (f : LBody) : Span := { len := accBytes f }

def packedSpan (p : Packed) : Span := { first := p.first, len := p.len, pack := some (p.bit, p.w, p.cnt) }

/-! ## LOAD queues (R203 to R205) -/

def unclaimed (fi : Fifo) : List QEntry := fi.entries.filter (·.claimed.isNone)

/-- Entries that fill a FIFO: one that a QPOP has taken keeps its slot until it leaves (R203 to R205, log 47). -/
def fifoHeld (fi : Fifo) : Nat := fi.entries.length

/-- Append an entry and put its load in flight. -/
def appendLoad (s : State) (e : Env) (x : Thread) (f : LBody) (id va : Nat) (sp : Span) (size : Nat) : State :=
  let t := teamNow s e
  let q := queueNow t f
  let fi := q.fifo x.tid
  let sx := sp.pack.isNone && f.mod3.getLsbD 0
  let en : QEntry := { slot := fi.next, bytes := size, req := id, va, len := sp.len, sx, pack := sp.pack }
  let s := s.setTeam (t.updQueue q.n fun q => q.setFifo { fi with next := (fi.next + 1) % max 1 q.depth, entries := fi.entries ++ [en] })
  issueReq s e x { id, path := .q, va, len := sp.len, kind := .load x.tid q.n fi.next, hint := f.hint.toNat, sx, pack := sp.pack,
                   queue := some q.n }

/-- QLD and QLDP: `span` gives the access of a thread, `size` the entry's. -/
def loadWord (f : LBody) (s : State) (reads : List Nat) (size al : Nat) (span : Env → Thread → Span) : Result :=
  memWord s f.toBody { reads := reads }
    (fun e x =>
      let sp := span e x
      firstTrap [queueCheck e f [1], if (queueNow e.t f).depth ≤ fifoHeld ((queueNow e.t f).fifo x.tid) then some (queueTrap 3) else none,
        globalCheck e f (memOffset s e x f) (sp.first + sp.len) al])
    (fun _ _ => false)
    fun e s x id =>
      let sp := span e x
      (appendLoad s e x f id ((globalVa e f (memOffset s e x f) + sp.first) % 2 ^ 64) sp size, { th := x })

/-- R203. -/
def execQld (f : LBody) (s : State) : Result :=
  loadWord f s (regsOf f.a) (accBytes f) (accBytes f) fun _ _ => plainSpan f

/-- R203. -/
def execQldp (f : LBody) (s : State) : Result :=
  loadWord f s (regsOf f.a ++ regsOf f.b) 8 1 fun e x => packedSpan (packedOf s e x f)

/-- The checks of QPOP at its word (R204, R205). -/
def qpopCheck (e : Env) (f : LBody) (x : Thread) : Option Trap :=
  match queueCheck e f [1, 2] with
  | some t => some t
  | none =>
    let q := queueNow e.t f
    match unclaimed (q.fifo x.tid) with
    | [] => if q.kind == 1 || e.t.accessEnded then some (queueTrap 4) else none   -- else the word stalls
    | en :: _ => if en.bytes != accBytes f then some (queueTrap 2) else if en.ready then en.poison else none

/-- R204: an engine-fed FIFO is empty while its slice runs: the word waits for the engine's next entry, where it stands (log 25). -/
def qpopStalls (e : Env) (f : LBody) (x : Thread) : Bool := (unclaimed ((queueNow e.t f).fifo x.tid)).isEmpty

/-- A QPOP attached to a flag takes an entry behind a poisoned one, whose POISON a wait on that flag raises too (log 47). -/
def noteBehind (q : Nat) (fl : Option Nat) (x : Thread) : Thread :=
  match fl with
  | none => x
  | some n => { x with deferred := x.deferred.map fun d => if (d.pop.map (·.1)) == some q then { d with behind := n :: d.behind } else d }

/-- QPOP in one thread: take the oldest entry, with its data if they are there and it is its turn (R204). -/
def takeEntry (s : State) (e : Env) (x : Thread) (f : LBody) (id : Nat) : State × Out :=
  let t := teamNow s e
  let q := queueNow t f
  let fi := q.fifo x.tid
  match unclaimed fi with
  | [] => (s, { th := x, wait := .pop q.n, popq := some (q.n, fi.next) })
  | en :: _ =>
    if en.ready && !entryHeld fi en then
      (s.setTeam (t.updQueue q.n fun q => q.setFifo { fi with entries := fi.entries.filter (·.req != en.req) }),
       { th := x, vals := regVals (slotData t q x.tid en), popq := some (q.n, en.slot), via := some en.req, poison := spPoison t (slotAddr q x.tid en.slot) (slotBytes en) })
    else
      (s.setTeam (t.updQueue q.n fun q => q.setFifo { fi with
          entries := fi.entries.map fun y => if y.req == en.req then { y with claimed := some id } else y }),
       { th := noteBehind q.n (e.flag f.fl) x, wait := .pop q.n, popq := some (q.n, en.slot) })

/-- R204. -/
def execQpop (f : LBody) (s : State) : Result :=
  memWord s f.toBody { writes := regsOf f.d (spanOf (accBytes f)), long := true }
    (fun e x => qpopCheck e f x) (fun e x => qpopStalls e f x) fun e s x id => takeEntry s e x f id

/-! ## STORE queues (R206) -/

/-- Whether a store is performed at its scope as its word leaves the state: its L1 has taken it, and its scope asks for no more
(Table 9-3). -/
def storeAtOnce (s : State) (e : Env) (scope id : Nat) : Bool :=
  !homeScope s e.t.grid e.t.index scope && s.reqs.any fun r => r.id == id && r.taken

def scopeOf (n : Nat) : Scope :=
  match n with
  | 0 => .thread
  | 1 => .team
  | 2 => .cohort
  | 3 => .die
  | 4 => .package
  | _ => .system

/-- Issue one store through a queue: its entry, its data in the region, its request. -/
def appendStore (s : State) (e : Env) (x : Thread) (f : LBody) (id va : Nat) (segs : List (Nat × Nat × Nat))
    (pack : Option (Nat × Nat × Nat)) (reg data mask : List Byte) : State :=
  let t := teamNow s e
  let q := queueNow t f
  let fi := q.fifo x.tid
  let en : QEntry := { slot := fi.next, bytes := reg.length, ready := true, req := id, va, len := data.length }
  let after := ((fi.entries.getLast?).map (·.req)).toList
  let t := (t.updQueue q.n fun q => q.setFifo { fi with next := (fi.next + 1) % max 1 q.depth, entries := fi.entries ++ [en] }).setSpad
    (slotAddr q x.tid fi.next) reg
  let r : Req := { id, path := .q, va, len := data.length, kind := .store data mask, scope := scopeOf f.scope.toNat
                   hint := f.hint.toNat, pack, after, segs, op := some id, queue := some q.n }
  issueReq (s.setTeam t) e x r

/-- QST and QSTP: `span` gives the access, `data` the region's image, the bytes and the mask. -/
def storeWord (f : LBody) (s : State) (reads : List Nat) (al : Nat) (span : Env → Thread → Span)
    (data : Env → Thread → List Byte × List Byte × List Byte) : Result :=
  let va (e : Env) (x : Thread) : Nat := (globalVa e f (memOffset s e x f) + (span e x).first) % 2 ^ 64
  memWord s f.toBody { reads := reads, long := true }
    (fun e x =>
      let sp := span e x
      firstTrap [queueCheck e f [3], globalCheck e f (memOffset s e x f) (sp.first + sp.len) al,
        trapOf (translateRange s e.t.core e.g.ctx (va e x) sp.len .write)])
    (fun e x => (queueNow e.t f).depth ≤ ((queueNow e.t f).fifo x.tid).entries.length)
    fun e s1 x id =>
      let d := data e x
      let segs := segsFor s e (va e x) (span e x).len .write
      let s2 := appendStore (cacheTranslation s1 e.t.core e.g.ctx (va e x)) e x f id (va e x) segs (span e x).pack d.1 d.2.1 d.2.2
      (s2, { th := x, wait := if storeAtOnce s2 e f.scope.toNat id then .ready else .req })

/-- R206. -/
def execQst (f : LBody) (s : State) : Result :=
  let n := accBytes f
  storeWord f s (regsOf f.a ++ regsOf f.b (spanOf n)) n (fun _ _ => plainSpan f) fun e x =>
    let v := dataOf s e x f f.b n
    (leBytes (max 8 n) v, leBytes n v, List.replicate n 0xFF)

/-- R206. -/
def execQstp (f : LBody) (s : State) : Result :=
  storeWord f s (regsOf f.a ++ regsOf f.b ++ regsOf f.c) 1 (fun e x => packedSpan (packedOf s e x f)) fun e x =>
    let d := packedData s e x f (packedOf s e x f)
    (leBytes 8 (readOp s e f.imm x f.c).toNat, d.1, d.2)

/-! ## Named queues (R207 to R211) -/

/-- A word that holds a reservation on a queue releases it (R208). -/
def releaseResv (s : State) (b q : Nat) (push : Bool) : State :=
  s.updBundle b fun b => { b with resv := b.resv.map fun r =>
    if r.1 == q then (if push then (q, r.2.1, r.2.2 - 1) else (q, r.2.1 - 1, r.2.2)) else r }

/-- Reservations of the bundles of a team on a queue: pops and pushes. -/
def reserved (s : State) (t : Team) (q : Nat) : Nat × Nat :=
  (s.bundles.filter fun b => b.grid == t.grid && b.team == t.index).foldl (fun a b =>
    b.resv.foldl (fun a r => if r.1 == q then (a.1 + r.2.1, a.2 + r.2.2) else a) a) (0, 0)

/-- Remove the oldest value of a named queue. -/
def popValue (t : Team) (q : Queue) : Team × W64 :=
  (t.putQueue { q with head := (q.head + 1) % max 1 q.depth, occ := q.occ - 1 },
   BitVec.ofNat 64 (leNat (t.spadBytes (q.base + 8 * q.head) 8)))

def pushValue (t : Team) (q : Queue) (v : W64) : Team :=
  (t.putQueue { q with occ := q.occ + 1, allow := q.allow - 1 }).setSpad (q.base + 8 * ((q.head + q.occ) % max 1 q.depth)) (leBytes 8 v.toNat)

/-- R208: a word whose queue was not NAMED, or was beyond the count, when its bundle formed holds no reservation and raises QUEUE. -/
def resvCheck (e : Env) (f : LBody) (push : Bool) : Option Trap :=
  if e.b.resv.any fun r => r.1 == f.qn.toNat && 0 < (if push then r.2.2 else r.2.1) then none else some (queueTrap 2)

/-- An action in every executing thread. -/
def eachThread (s : State) (l : List Thread) (f : State → Thread → State) : State := l.foldl f s

/-- R207, R211. -/
def execPush (f : LBody) (s : State) : Result :=
  onceWord s f.toBody { reads := regsOf f.b } (fun e s => releaseResv s e.b.id f.qn.toNat true) fun e s x =>
    match (queueCheck e f [4]).or (resvCheck e f true) with
    | some t => .error t
    | none =>
      let v := readOp s e f.imm x f.b
      let s := eachThread (releaseResv s e.b.id f.qn.toNat true) (e.exec f.grd) fun s y =>
        releaseThread s e.t.grid e.t.index y.tid true
      .ok (s.setTeam (pushValue (teamNow s e) (queueNow (teamNow s e) f) v), fun y => { th := y })

def acquireAll (s : State) (e : Env) (l : List Thread) : State :=
  eachThread s l fun s y => acquireThread s e.t.grid e.t.index y.tid e.t.core false

/-- R207, R211. -/
def execPop (f : LBody) (s : State) : Result :=
  onceWord s f.toBody { writes := regsOf f.d } (fun e s => releaseResv s e.b.id f.qn.toNat false) fun e s _ =>
    match (queueCheck e f [4]).or (resvCheck e f false) with
    | some t => .error t
    | none =>
      let s := acquireAll (releaseResv s e.b.id f.qn.toNat false) e (e.exec f.grd)
      let p := popValue (teamNow s e) (queueNow (teamNow s e) f)
      .ok (s.setTeam p.1, fun y => { th := y, vals := [p.2] })

/-- R210. -/
def execQtry (f : LBody) (s : State) : Result :=
  onceWord s f.toBody { writes := regsOf f.d } (fun _ s => s) fun e s _ =>
    match queueCheck e f [4] with
    | some t => .error t
    | none =>
      let q := queueNow (teamNow s e) f
      if (reserved s e.t q.n).1 < q.occ then
        let s := acquireAll s e (e.exec f.grd)
        let p := popValue (teamNow s e) q
        .ok (s.setTeam p.1, fun y => { th := { y with pred := pushPred y.pred true }, vals := [p.2] })
      else .ok (s, fun y => { th := { y with pred := pushPred y.pred false, yielded := true }, vals := [0] })

/-- R209. -/
def execQallow (f : LBody) (s : State) : Result :=
  onceWord s f.toBody { reads := regsOf f.b } (fun _ s => s) fun e s x =>
    match queueCheck e f [4] with
    | some t => .error t
    | none =>
      let q := queueNow (teamNow s e) f
      let n := (readOp s e f.imm x f.b).toNat
      if q.depth - q.occ < q.allow + n then .error (queueTrap 6)
      else .ok (s.setTeam ((teamNow s e).putQueue { q with allow := q.allow + n }), fun y => { th := y })

end Sys2Proof.Machine
end

