-- ==== Sys2Proof/Machine/WellOps.lean ====
section
/-! DEFINITION. Wells (07: R213 to R217). -/

namespace Sys2Proof.Machine

def wellTrap (d : Nat) : Trap := { code := fWell, detail := d }

/-- R214. -/
def execWellinit (f : LBody) (s : State) : Result :=
  memWord s f.toBody { reads := regsOf f.a ++ regsOf f.b, bank := true }
    (fun e x => firstTrap [spCheck e (memOffset s e x f) 32 32 0,
      if (readOp s e f.imm x f.b).toNat % 2 ^ 32 == 0 then some (wellTrap 2) else none])
    (fun _ _ => false)
    fun e s x _ =>
      let o := memOffset s e x f
      let w := (teamNow s e).well o
      let w : Well := { w with count := 0, target := (readOp s e f.imm x f.b).toNat % 2 ^ 32, armed := true, err := false
                               ebytes := 0, ecode := 0, eeng := 0 }
      (s.setTeam ((teamNow s e).setSpad o w.toBytes), { th := x })

/-- The checks of ARRIVE at the issuing team's own scratchpad (R213, R215). -/
def arriveOwn (e : Env) (o : Nat) : Option Trap :=
  let w := e.t.well o
  firstTrap [spCheck e o 32 32 0, spPoison e.t o 32,
    if !w.armed then some (wellTrap 1) else if w.target == 0 then some (wellTrap 2) else none]

/-- A thread as the state now holds it. -/
def threadNow (s : State) (e : Env) (x : Thread) : Thread := ((teamNow s e).thread? x.tid).getD x

/-- A well arrival of n units for a team on a core (KIND 7). -/
def sendArrival (s : State) (id : Nat) (e : Env) (dest : Nat × Nat) (cmd : Option Nat) (o n : Nat) : State :=
  sendPacket s { id, kind := 7, src := coreNode e.t.core, grid := e.t.grid, team := e.t.index, dests := [dest], arrive := some (o, n), cmd }

/-- R215: release, then the units are added at the own bank, or a well arrival leaves for the peer. -/
def execArrive (f : LBody) (s : State) : Result :=
  let isPeer := f.mod3.getLsbD 0
  memWord s f.toBody { reads := regsOf f.a ++ regsOf f.b ++ (if isPeer then regsOf f.c else []), bank := true }
    (fun e x =>
      let o := memOffset s e x f
      if isPeer then peerCheck e (rankOf s e x f.c) o 32 32 else arriveOwn e o)
    (fun _ _ => false)
    fun e s x id =>
      let o := memOffset s e x f
      let n := (readOp s e f.imm x f.b).toNat % 2 ^ 32
      let s := releaseThread s e.t.grid e.t.index x.tid (f.scope == 1)
      if isPeer then
        let peer := peerNow s e (rankOf s e x f.c)
        (sendArrival s id e (peer.core, peer.index) none o n, { th := threadNow s e x })
      else (s.setTeam ((teamNow s e).setWell o (((teamNow s e).well o).add n)), { th := threadNow s e x })

/-- D of WAITG: GEN and the flags byte (R216), whose reserved bits read as zero (R6). -/
def waitgValue (w : Well) : W64 :=
  BitVec.ofNat 64 (w.gen + ((if w.err then 1 else 0) + (if w.armed then 2 else 0)) * 2 ^ 32)

/-- R216: the wait has ended at the header; acquire and read. -/
def execWaitg (f : LBody) (s : State) : Result :=
  memWord s f.toBody { reads := regsOf f.a ++ regsOf f.b, writes := regsOf f.d, bank := true }
    (fun e x => let o := memOffset s e x f
                firstTrap [spCheck e o 32 32 0, spPoison e.t o 32])
    (fun _ _ => false)
    fun e s x _ =>
      let w := (teamNow s e).well (memOffset s e x f)
      let s := acquireThread s e.t.grid e.t.index x.tid e.t.core (f.scope != 1)
      (s, { th := threadNow s e x, vals := [waitgValue w] })

/-- R215, R213: an arrival at a well that is not armed leaves it unchanged. -/
def arriveAt (t : Team) (o n : Nat) : Team :=
  let w := t.well o
  if w.live then t.setWell o (w.add n) else t

end Sys2Proof.Machine
end

