-- ==== Sys2Proof/Machine/Matrix.lean ====
section
/-! DEFINITION. Row-group words and their instances (08: R232 to R251, 02: R67 to R74): MMA, MMAS, PWSET, GANG. -/

namespace Sys2Proof.Machine

/-! ## Reading memory at a word -/

/-- A read of global bytes by a thread on a path, performed now: what it is ordered after performs first (R269, R274). `read` takes the
bytes, from the L1 or from their homes; `p` is what its packets hold. -/
def threadReadBy (read : State → Nat → List (Nat × Nat × Nat) → State × List Byte) (s : State) (e : Env) (x : Thread) (path : Path)
    (va n : Nat) (p : Packet := {}) : Except Trap (State × List Byte) :=
  match translateRange s e.t.core e.g.ctx va n .read with
  | .error t => .error t
  | .ok l =>
    let segs := segsOf l
    let cls := segPoison s segs
    if cls != 0 then .error { poisonTrap cls with vaddr := va }
    else
      let r : Req := { id := s.nextId, path, agent := .thread e.t.grid e.t.index x.tid, ctx := e.g.ctx, core := e.t.core
                       va, len := n, kind := .load x.tid 0 0 }
      let s := drainReqs (cacheTranslation s e.t.core e.g.ctx va) (loadAfter s e.t.grid e.t.index x.tid e.t.core e.g.ctx path va n)
      let s := recallLines (homeFor s r) (segLines segs)
      let q := read s e.t.core segs
      .ok (sendFor (observe q.1 r (observed s e.t.core segs)) { p with src := coreNode e.t.core } false segs, q.2)

def threadRead (s : State) (e : Env) (x : Thread) (path : Path) (va n : Nat) (p : Packet := {}) : Except Trap (State × List Byte) :=
  threadReadBy readSegs s e x path va n p

/-- Bytes read at their homes. Words of them leave the core's L1, so that no later read returns older bytes (R269), and a posted host
write among them acts as an acquire (R291). -/
def readHome (s : State) (core : Nat) (segs : List (Nat × Nat × Nat)) : State × List Byte :=
  (meetPosted (dropL1 s core (segWords segs)) core segs, homeBytes s core segs)

/-- R413: a scale comes from its home, and so is no older than the lookup that misses. -/
def scaleRead (s : State) (e : Env) (x : Thread) (va : Nat) : Except Trap (State × List Byte) :=
  threadReadBy readHome s e x .m va 4

/-- Bytes of a scratchpad or global operand read at a word. -/
def operandRead (s : State) (e : Env) (x : Thread) (path : Path) (sp : Bool) (seg o first n : Nat) (p : Packet := {}) :
    Except Trap (State × List Byte) :=
  if sp then
    match firstTrap [limitCheck o (first + n) e.g.launch.spad 16 0, spPoison (teamNow s e) (o + first) n] with
    | some t => .error t
    | none =>
      let s := drainReqs s (((teamNow s e).thread? x.tid |>.map fun x => fencedIds s x path).getD [])
      .ok (s, (teamNow s e).spadBytes (o + first) n)
  else
    let va := ((e.g.seg seg).1.toNat + o + first) % 2 ^ 64
    match limitCheck o (first + n) (e.g.seg seg).2.toNat seg 0 with
    | some t => .error { t with vaddr := ((e.g.seg seg).1.toNat + o) % 2 ^ 64 }
    | none => threadRead s e x path va n p

/-! ## Windows and cells -/

def accTrap (d : Nat) : Trap := { code := fAccRange, detail := d }
def gangTrap (d : Nat) : Trap := { code := fGang, detail := d }

def Window.aw (w : Window) : Nat := 64 * w.lanes
def Window.cell (w : Window) (r c : Nat) : Cell := w.cells.get {} (128 * r + c)

/-- R70: clamp to AW bits. -/
def Window.clamp (w : Window) (q : Int) : Int × Bool :=
  let hi : Int := (2 ^ (w.aw - 1) : Nat) - 1
  let lo : Int := -(2 ^ (w.aw - 1) : Nat)
  if hi < q then (hi, true) else if q < lo then (lo, true) else (q, false)

def Window.put (w : Window) (r c : Nat) (x : Cell) (ovf : Bool) : Window :=
  { w with cells := w.cells.set {} (128 * r + c) x, ovf := w.ovf || ovf }

/-- R71: a mark met by another. -/
def markJoin (m n : Mark) : Mark :=
  match m, n with
  | .none, n => n
  | m, .none => m
  | .pinf, .pinf => .pinf
  | .ninf, .ninf => .ninf
  | _, _ => .nan

def markOf : Val → Mark
  | .nan _ => .nan
  | .inf s => if s then .ninf else .pinf
  | .num .. => .none

/-- A finite value as an integer multiple of 2^e0, exact when the window's check has passed (R244). -/
def toQ (e0 : Int) : Val → Int
  | .num s m e _ _ => if s then -(shiftNat m (e - e0) : Nat) else (shiftNat m (e - e0) : Nat)
  | _ => 0

/-- A cell's value (R67). -/
def Window.val (w : Window) (x : Cell) : Val :=
  match x.mark with
  | .none => .ofInt x.q w.e0
  | .pinf => .inf false
  | .ninf => .inf true
  | .nan => .nan false

/-! ## Semirings (Table 8-3) -/

/-- R71: the contribution of a list of products: their marks joined, or their exact sum. -/
def plusReduce (l : List Val) : Val :=
  match (l.map markOf).foldl markJoin .none with
  | .nan => .nan false
  | .pinf => .inf false
  | .ninf => .inf true
  | .none => let t := sumTerms l
             .ofInt t.1 t.2

/-- The smaller or larger of two values; NaN is sticky. -/
def pickVal (isMax : Bool) (a b : Val) : Val :=
  if a.isNan || b.isNan then .nan false
  else if (if isMax then valLt false a b else valLt false b a) then b else a

def addVal (a b : Val) : Val := exactSum {} [a, b]

def nonzero (v : Val) : Bool := !v.isZero

/-- The reduction over k of one row and column. -/
def semiReduce (semi : Nat) (a b : List Val) : Val :=
  let ps := (a.zip b)
  match semi with
  | 0 => plusReduce (ps.map fun p => p.1.prod p.2)
  | 1 => (ps.map fun p => addVal p.1 p.2).foldl (pickVal false) (.inf false)
  | 2 => (ps.map fun p => addVal p.1 p.2).foldl (pickVal true) (.inf true)
  | 3 => (ps.map fun p => p.1.prod p.2).foldl (pickVal true) (.inf true)
  | 4 => .ofInt (if ps.any fun p => nonzero p.1 && nonzero p.2 then 1 else 0) 0
  | _ => .ofInt ((ps.filter fun p => nonzero p.1 && nonzero p.2).length % 2 : Nat) 0

/-- One step of a cell (R70, R71, R245): the new cell and whether it clamped. A contribution that carries a mark leaves q as it is, and a
cell that a minimum or maximum leaves marked holds q = 0
(log 16). -/
def semiStep (w : Window) (semi : Nat) (x : Cell) (v : Val) : Cell × Bool :=
  match semi with
  | 0 =>
    let c := w.clamp (x.q + toQ w.e0 v)
    ({ x with q := c.1, mark := markJoin x.mark (markOf v) }, c.2)
  | 1 | 2 | 3 =>
    let y := pickVal (semi != 1) (w.val x) v
    let c := w.clamp (toQ w.e0 y)
    ({ x with q := c.1, mark := markOf y }, c.2)
  | 4 => ({ x with q := if x.q % 2 == 1 || nonzero v then 1 else 0 }, false)
  | _ => ({ x with q := if (x.q % 2 == 1) != nonzero v then 1 else 0 }, false)

/-! ## Checks of an instance -/

/-- R68. -/
def Fmt.lsb (f : Fmt) : Int := if f.int then 0 else 1 - f.bias - f.mw

/-- R68. A slot whose largest finite magnitude is 0 has no top: it is a free value (log 84). -/
def Fmt.top (f : Fmt) : Int :=
  if f.int then (if f.sgn then f.width - 1 else if 2 ≤ f.width then f.width else 0 : Nat)
  else
    let m := f.maxFinite
    if m.1 == 0 then Config.topOfZero f.bias
    else (bitLen m.1 : Nat) + m.2 - 1 + (if m.1 == 2 ^ (bitLen m.1 - 1) then 0 else 1)

/-- The width of a slot in bit-steps (R241). -/
def Fmt.steps (f : Fmt) : Nat := if f.int then f.width else f.mw + 1

/-- R74: what a scale descriptor adds to L and T. -/
def scaleTerms (d : W64) : Int × Int :=
  ((max (bitsOf d.toNat 0 8) 1 : Nat) - 150, (bitsOf d.toNat 8 8 : Nat) - 126)

/-- R68 and Table 8-3: whether a window can hold every single product. -/
def rangeOk (w : Window) (semi : Nat) (fa fb : Fmt) (scales : List W64) : Bool :=
  let st := scales.map scaleTerms
  let l := fa.lsb + fb.lsb + (st.map (·.1)).foldl (· + ·) 0
  let t := fa.top + fb.top + (st.map (·.2)).foldl (· + ·) 0
  match semi with
  | 0 | 3 => w.e0 ≤ l && t - w.e0 + 2 ≤ (w.aw : Int)
  | 1 | 2 => w.e0 ≤ min fa.lsb fb.lsb && max fa.top fb.top + 3 - w.e0 ≤ (w.aw : Int)
  | _ => true

/-- Fields of pwN (Table 8-2). -/
def pwWidth (x : Nat) : Nat := if x == 0 then 32 else x
def Pw.fa (p : Pw) : Nat := bitsOf p.toNat 0 4
def Pw.fb (p : Pw) : Nat := bitsOf p.toNat 4 4
def Pw.semi (p : Pw) : Nat := bitsOf p.toNat 8 3
def Pw.wa (p : Pw) : Nat := pwWidth (bitsOf p.toNat 16 5)
def Pw.wb (p : Pw) : Nat := pwWidth (bitsOf p.toNat 21 5)
def Pw.valid (p : Pw) : Bool := p.toNat.testBit 26

def pwMake (fa fb semi : Nat) (wa wb : Nat) : Pw :=
  BitVec.ofNat 64 (fa + fb * 2 ^ 4 + semi * 2 ^ 8 + wa % 32 * 2 ^ 16 + wb % 32 * 2 ^ 21 + 2 ^ 26)

/-! ## Instances of a team -/

/-- The place of a window and row group in `Thread.rg`. -/
def rgKey (win : Nat) (group : List Nat) : Nat := win + 16 * group.foldl (fun m w => m ||| 2 ^ w) 0

/-- ρ (R233) of a thread in a row group. -/
def rowOf? (group : List Nat) (x : Thread) : Nat := ((group.findIdx? (· == x.warp)).getD 0) * 32 + x.lane

/-- Whether every member of an instance has executed its word, been guarded off, or exited. -/
def instComplete (t : Team) (i : Inst) : Bool :=
  t.threads.all fun x => !i.group.contains x.warp || i.arrived.contains x.tid || x.place == .exited

/-- The precision register at the place of the next instance of a window: the last queued PWSET's, else the window's. -/
def pwAt (t : Team) (win : Nat) : Pw :=
  match (t.insts.filter fun i => i.win == win && i.queued && !i.applied && i.arg.op == 2).getLast? with
  | some i => i.pw
  | none => ((t.window? win).map (·.pw)).getD 0

/-- The binding at the place of the next instance. -/
def bindingOf (t : Team) (win : Nat) : Option (List Nat) := ((t.window? win).map (·.binding)).getD none

/-- R248: the cost of an instance. -/
def instCost (i : Inst) : Nat := if i.arg.op == 2 then 0 else max 1 (ceilOf (i.arg.k * Pw.wa i.pw * Pw.wb i.pw) 32)
where ceilOf (a b : Nat) : Nat := (a + b - 1) / b

/-- Contiguous runs of B elements as (first stream index, count): columns for LAY 0, rows of k for LAY 1. -/
def bRuns (lay : Bool) (ld k cols : Nat) : List (Nat × Nat) :=
  if lay then (List.range k).map fun i => (i * ld, cols) else (List.range cols).map fun c => (c * ld, k)

/-- Read the runs of B as codes of width w. -/
def readRuns (e : Env) (x : Thread) (sp : Bool) (seg o w : Nat) (p : Packet) : List (Nat × Nat) → State → Except Trap (State × List (List Nat))
  | [], s => .ok (s, [])
  | (i, n) :: r, s =>
    let first := w * i / 8
    let len := (w * (i + n) - 1) / 8 - first + 1
    match operandRead s e x .m sp seg o first len p with
    | .error t => .error t
    | .ok (s, bs) =>
      match readRuns e x sp seg o w p r s with
      | .error t => .error t
      | .ok (s, l) => .ok (s, ((List.range n).map fun j => streamElem bs (w * i % 8 + w * j) w) :: l)

def transpose (n : Nat) (l : List (List Nat)) : List (List Nat) := (List.range n).map fun j => l.map fun r => r.getD j 0

def operandTrap (field : Nat) (o : Operand) : Trap := { code := fIllegalOperand, detail := field + o.code * 2 ^ 16 }

/-- The tile of member 0 as an instance sees it: the columns of each of its threads as that thread left them at its word (R253), those of
threads that have exited as they stand. -/
def tileNow (t : Team) (i : Inst) (n : Nat) (col : Nat) : W128 :=
  if i.arrived.contains (32 * i.group.headD 0 + col / 4) then i.tile.get 0 col
  else SMap.get 0 (((t.warp? (i.group.headD 0)).map (·.tiles)).getD []) (128 * n + col)

/-- Whether a half of a column of that tile is poisoned. -/
def tileBadNow (t : Team) (i : Inst) (n col half : Nat) : Bool :=
  if i.arrived.contains (32 * i.group.headD 0 + col / 4) then i.tileBad.contains (2 * col + half)
  else (((t.warp? (i.group.headD 0)).map (·.tilePoison)).getD []).contains (2 * (128 * n + col) + half)

/-- The codes of B by column (R238, R239). With CMPB = 1 the fetch takes compressed blocks (R440). -/
def fetchB (s : State) (e : Env) (x : Thread) (i : Inst) (w : Window) (fb : Fmt) : Except Trap (State × List (List Nat)) :=
  let k := i.arg.k
  match i.arg.b with
  | .m n =>
    let eb := fb.elems
    if 2 * eb < k then .error (operandTrap 2 i.arg.b)
    else
      let t := teamNow s e
      if (List.range w.cols).any fun c => tileBadNow t i n.val c 0 || (eb < k && tileBadNow t i n.val c 1) then .error (poisonTrap 1)
      else .ok (s, (List.range w.cols).map fun c =>
        let col := tileNow t i n.val c
        (List.range k).map fun j => if j < eb then elemOf fb.width j (col.extractLsb' 0 64)
                                    else elemOf fb.width (j - eb) (col.extractLsb' 64 64))
  | _ =>
    let sp := i.arg.spec.toNat
    let seg := bitsOf sp 0 4
    let ld := bitsOf sp 8 20
    if sp.testBit 7 || bitsOf sp 28 36 != 0 || ld == 0 || (sp.testBit 4 && seg != 0) then .error (operandTrap 2 i.arg.b)
    else
      let lay := sp.testBit 5
      match readRuns e x (sp.testBit 4) seg i.arg.off.toNat fb.width { blocks := sp.testBit 6 } (bRuns lay ld k w.cols) s with
      | .error t => .error t
      | .ok (s, l) => .ok (s, if lay then transpose w.cols l else l)

/-! ## Scales (R73, R74, R412) -/

/-- Registration record fields (Table 15-4). -/
def regBase (r : List Byte) : Nat := leNat (r.take 8)
def regField (r : List Byte) (at' n : Nat) : Nat := leNat ((r.drop at').take n)

/-- The address of scale (i0, i1) of a handle. -/
def scaleVa (r : List Byte) (i0 i1 : Nat) : Nat :=
  (((regBase r : Int) + i0 * signedOf 32 (regField r 8 4) + i1 * signedOf 32 (regField r 12 4)) % (2 ^ 64 : Nat)).toNat

/-- R74: whether a descriptor refuses an FP32 code. -/
def scaleRefused (d : W64) (code : Nat) : Bool :=
  let ex := bitsOf code 23 8
  let zero := bitsOf code 0 31 == 0
  ex == 255 || (zero && !d.toNat.testBit 17) ||
  (!zero && (ex < bitsOf d.toNat 0 8 || bitsOf d.toNat 8 8 < ex || (code.testBit 31 && !d.toNat.testBit 16)))

/-- A scale that a handle's lines in the scale cache hold (R413). -/
def heldScale (h : Handle) (va : Nat) : Option (List Byte) :=
  (h.lines.find? (·.1 == va / 128)).map fun p => (p.2.drop (va % 128)).take 4

/-- The lines of a core's scale cache: grid, team, handle and line. -/
def scaleLines (s : State) (core : Nat) : List (Nat × Nat × Nat × Nat) :=
  (s.teams.filter (·.core == core)).flatMap fun t => t.handles.flatMap fun h => h.lines.map fun l => (t.grid, t.index, h.n, l.1)

def Team.updHandle (t : Team) (n : Nat) (f : Handle → Handle) : Team :=
  { t with handles := t.handles.map fun h => if h.n == n then f h else h }

/-- R413: the scale cache holds 128 lines; one of a full cache is replaced, which one is free (log 66). -/
def replaceLine (s : State) (core : Nat) : State :=
  let l := scaleLines s core
  match if l.length < 128 then none else l[Config.freeChoice s.free % max 1 l.length]? with
  | none => s
  | some (g, t, n, line) => s.updTeam g t fun x => x.updHandle n fun h => { h with lines := h.lines.filter (·.1 != line) }

/-- Fill the line of the scale cache that holds an address, from its home; a line with poisoned bytes is not held. -/
def fillScale (s : State) (e : Env) (handle va : Nat) : State :=
  match translateRange s e.t.core e.g.ctx (va / 128 * 128) 128 .read with
  | .error _ => s
  | .ok l =>
    if segPoison s (segsOf l) != 0 then s
    else
      let p := readHome s e.t.core (segsOf l)
      let bs := p.2
      (sendTraffic (replaceLine p.1 e.t.core) (coreNode e.t.core) 0 false (segsOf l)).updTeam e.t.grid e.t.index fun t =>
        t.updHandle handle fun h => { h with lines := h.lines.set [] (va / 128) bs }

/-- A scale as a lookup reads it: from the cache where it is held and has not been replaced, which is free; else from memory (R413). -/
def lookupScale (s : State) (e : Env) (x : Thread) (h : Handle) (va pick : Nat) : Except Trap (State × List Byte) :=
  match if (Config.freeChoice s.free).testBit pick then heldScale h va else none with
  | some b => .ok (s, b)
  | none => match scaleRead s e x va with
    | .error t => .error t
    | .ok (s, b) => .ok (fillScale s e h.n va, b)

/-- One scale through a handle of a kind. -/
def fetchScale (s : State) (e : Env) (x : Thread) (handle kind i0 i1 : Nat) : Except Trap (State × Nat) :=
  match (teamNow s e).handles.find? fun h => h.n == handle with
  | none => .error (accTrap 7)
  | some h =>
    if regField h.reg 24 1 != kind || regField h.reg 16 4 ≤ i0 || regField h.reg 20 4 ≤ i1 then .error (accTrap 7)
    else match lookupScale s e x h (scaleVa h.reg i0 i1) (2 * (65536 * i0 + i1) + kind) with
      | .error t => .error t
      | .ok (s, bs) => if scaleRefused h.desc (leNat bs) then .error (accTrap 7) else .ok (s, leNat bs)

/-- The A scales of the contributing rows. -/
def fetchScalesA (e : Env) (x : Thread) (handle rb blk : Nat) : List Nat → State → Except Trap (State × List (Nat × Nat))
  | [], s => .ok (s, [])
  | i :: r, s =>
    match fetchScale s e x handle 0 (rb + i) blk with
    | .error t => .error t
    | .ok (s, c) => match fetchScalesA e x handle rb blk r s with
      | .error t => .error t
      | .ok (s, l) => .ok (s, (i, c) :: l)

def handleDesc (t : Team) (n : Nat) : List W64 := ((t.handles.find? fun h => h.n == n).map (·.desc)).toList

/-- The rows of an instance's contributors. -/
def instRows (t : Team) (i : Inst) : List Nat := i.rows.filterMap fun r => (t.thread? r.tid).map (rowOf? i.group)

/-! ## Completion (R251) -/

/-- The slots of member 0's warp: as its contribution saw them, else as they stand. -/
def memberSlots (t : Team) (i : Inst) : List W64 :=
  match i.rows.find? fun r => r.tid / 32 == i.group.headD 0 with
  | some r => r.slots
  | none => ((t.warp? (i.group.headD 0)).map (·.fmt)).getD defaultFmt

/-- R243: whether a member's slots FA and FB differ from member 0's: as each contribution saw them, and as they stand in a warp that
contributed nothing. -/
def slotsDiffer (t : Team) (i : Inst) (fa fb : Nat) : Bool :=
  let slots := memberSlots t i
  let differ (l : List W64) : Bool := l.getD fa 0 != slots.getD fa 0 || l.getD fb 0 != slots.getD fb 0
  i.rows.any (fun r => differ r.slots) ||
  i.group.any fun w => !(i.rows.any fun r => r.tid / 32 == w) && differ (((t.warp? w).map (·.fmt)).getD defaultFmt)

/-- The checks at completion, in the order of R251: the state after its fetches and the instance with what they brought. Members whose
scale selectors differ disagree too (log 99). -/
def completeInst (s : State) (e : Env) (x : Thread) (i : Inst) : Except Trap (State × Inst) :=
  let t := teamNow s e
  let arg := (i.rows.headD {}).arg
  let i := { i with arg := arg }
  let slots := memberSlots t i
  match t.window? i.win with
  | none => .error (accTrap 1)
  | some w =>
    if arg.op == 2 then
      if i.rows.any fun r => r.arg != arg then .error (gangTrap 3)
      else if (bindingOf t i.win).any (· != i.group) then .error (gangTrap 5)
      else
        let fa := Fmt.of (slots.getD arg.fa 0)
        let fb := Fmt.of (slots.getD arg.fb 0)
        .ok (s, { i with pw := pwMake arg.fa arg.fb arg.semi fa.steps fb.steps })
    else
      let pw := pwAt t i.win
      let fa := slots.getD pw.fa 0
      let fb := slots.getD pw.fb 0
      let m := 32 * i.group.length
      let scales := if arg.op == 1 then handleDesc t (bitsOf arg.sel.toNat 0 6) ++ handleDesc t (bitsOf arg.sel.toNat 6 6) else []
      if i.rows.any (fun r => r.arg != arg) || slotsDiffer t i pw.fa pw.fb then .error (gangTrap 3)
      else if (bindingOf t i.win).any (· != i.group) then .error (gangTrap 5)
      else if !pw.valid || (arg.op == 1 && pw.semi != 0) then .error (accTrap 6)
      else if (Fmt.of fa).steps != pw.wa || (Fmt.of fb).steps != pw.wb then .error { code := fFormat }
      else if w.rows != m then .error (accTrap 5)
      else if !rangeOk w pw.semi (Fmt.of fa) (Fmt.of fb) scales then .error (accTrap 4)
      else
        let i := { i with pw := pw, fmtA := fa, fmtB := fb }
        match fetchB s e x i w (Fmt.of fb) with
        | .error t => .error t
        | .ok (s, cols) =>
          let i := { i with cols := cols }
          if arg.op != 1 then .ok (s, i)
          else
            let sel := arg.sel.toNat
            match fetchScalesA e x (bitsOf sel 0 6) (bitsOf sel 12 20) (bitsOf sel 32 16) (instRows t i) s with
            | .error t => .error t
            | .ok (s, sa) => match fetchScale s e x (bitsOf sel 6 6) 1 (bitsOf sel 32 16) (bitsOf sel 48 16) with
              | .error t => .error t
              | .ok (s, sb) => .ok (s, { i with sa := sa, sb := sb })

/-- R30, R232: the bands of 32 physical rows that a window occupies: three rows of eleven granules, of two bands each. The physical
granules behind a team's own are the part's choice (log 78). -/
def bandsOf (t : Team) (w : Window) : List Nat :=
  ((List.range w.lanes).flatMap fun l => (List.range ((w.row0 + w.rows - 1) / 32 + 1 - w.row0 / 32)).map fun i =>
    let h := w.row0 / 32 + i
    2 * (Config.granule (64 * t.placedAt + h / 2 * 11 + w.lane0 + l) % 33 / 11) + h % 2).eraseDups

/-- The bands of an instance; a PWSET occupies none. -/
def instBands (t : Team) (i : Inst) : List Nat := if i.arg.op == 2 then [] else ((t.window? i.win).map (bandsOf t)).getD []

/-- A completed instance enters the queue: it binds its window and is charged (R250, R365). An empty one only takes its place. -/
def queueInst (s : State) (e : Env) (i : Inst) : State :=
  let cost := instCost i
  let s := s.updTeam e.t.grid e.t.index fun t =>
    { (t.updWindow i.win fun w => { w with binding := some i.group }) with
      insts := (t.insts.filter (·.id != i.id)) ++ [{ i with queued := true, failed := false, queuedAt := s.cc, bands := instBands t i }], charge := t.charge + cost }
  s.updGrid e.g.num fun g => { g with matrixTime := g.matrixTime + cost }

/-- Complete a list of instances one after another; the first failure stops with its fault and instance. -/
def completeAll (e : Env) (x : Thread) : List Inst → State → Except (Inst × Trap) State
  | [], s => .ok s
  | i :: r, s =>
    if i.rows.isEmpty then completeAll e x r (s.updTeam e.t.grid e.t.index fun t => { t with insts := t.insts.filter (·.id != i.id) })
    else match completeInst s e x i with
      | .error t => .error (i, t)
      | .ok (s, i) => completeAll e x r (queueInst s e i)

/-- Instances of the core's matrix queue (R364). -/
def queuedOn (s : State) (core : Nat) : Nat :=
  (s.teams.map fun t => if t.core == core then (t.insts.filter (·.queued)).length else 0).foldl (· + ·) 0

/-! ## Running an instance (R246 to R248) -/

/-- FP32 value of a scale code. -/
def scaleVal (c : Nat) : Val := ((Fmt.of 0x0501FEF1).decode c).1

/-- A elements of a row (R237). -/
def rowA (f : Fmt) (k : Nat) (regs : List W64) : List Val :=
  (List.range k).map fun j => (f.decode (elemOf f.width (j % f.elems) (regs.getD (j / f.elems) 0))).1

/-- Apply an instance to its window. -/
def applyInst (t : Team) (i : Inst) : Team :=
  if i.arg.op == 2 then t.updWindow i.win fun w => { w with pw := i.pw }
  else
    let fb := Fmt.of i.fmtB
    let cols := i.cols.map fun l => l.map fun c => (fb.decode c).1
    t.updWindow i.win fun w =>
      i.rows.foldl (fun w r =>
        let row := rowOf? i.group ((t.thread? r.tid).getD { tid := r.tid })
        let a := rowA (Fmt.of i.fmtA) i.arg.k r.regs
        let sc := ((i.sa.find? fun p => p.1 == row).map (·.2)).getD 0
        ((List.range cols.length).zip cols).foldl (fun w cb =>
          let p := semiReduce (Pw.semi i.pw) a cb.2
          let v := if i.arg.op == 1 then ((scaleVal sc).prod (scaleVal i.sb)).prod p else p
          let y := semiStep w (Pw.semi i.pw) (w.cell row cb.1) v
          w.put row cb.1 y.1 y.2) w) w

/-- The step of a queued instance on its window, unless it has been taken. -/
def stepInst (t : Team) (i : Inst) : Team := if i.applied then t else applyInst t i

/-- A queued instance leaves the queue and runs: its cells step, its bands are taken until its cost has passed, and only then may its
contributors' operations complete (R236, R248). -/
def runInst (s : State) (g t : Nat) (i : Inst) : State :=
  let ends := s.cc + instCost i
  let s := s.updTeam g t fun tm =>
    { (stepInst tm i) with
      insts := (stepInst tm i).insts.filter (·.id != i.id)
      runs := tm.runs.filter (s.cc < ·.ends) ++ (if i.arg.op == 2 then [] else [{ group := i.group, bands := i.bands, ends }]) }
  { s with ops := s.ops.map fun o => if o.wait == .inst i.id then { o with wait := .ready, notBefore := max o.notBefore ends } else o }

/-- A core's matrix queue in the order of R248: by the cc of rendezvous, then by lowest warp slot. -/
def matrixQueue (s : State) (core : Nat) : List (Team × Inst) :=
  let slot (p : Team × Inst) : Nat := ((p.2.group.map fun w => p.1.order (32 * w) / 32).min?).getD 0
  sortBy (·.2.queuedAt) (sortBy slot ((s.teams.filter (·.core == core)).flatMap fun t => (t.insts.filter (·.queued)).map fun i => (t, i)))

/-- The instances that run on a core (R248). -/
def runsOn (s : State) (core : Nat) : List Run := (s.teams.filter (·.core == core)).flatMap fun t => t.runs.filter (s.cc < ·.ends)

/-- R364: an instance leaves the queue, from the cc after its rendezvous on (Table 8-13), when its bands are free and none queued before
it acts on its window or shares a band with it. -/
def instMayRun (s : State) (t : Team) (i : Inst) : Bool :=
  i.queued && i.queuedAt < s.cc && !(runsOn s t.core).any (fun r => r.bands.any i.bands.contains) &&
  ((matrixQueue s t.core).takeWhile fun p => p.2.id != i.id).all fun p =>
    !(p.1.grid == t.grid && p.1.index == t.index && p.2.win == i.win) && !p.2.bands.any i.bands.contains

/-- R258: the steps of the queued instances of a window are taken before a word that comes after them; each keeps its place in the queue,
and its time on the bands (log 27). -/
def settleWindow (s : State) (e : Env) (win : Nat) : State :=
  let mine := (((matrixQueue s e.t.core).filter fun p => p.1.grid == e.t.grid && p.1.index == e.t.index).map (·.2)).filter (·.win == win)
  if mine.isEmpty then s
  else s.updTeam e.t.grid e.t.index fun t =>
    { (mine.foldl stepInst t) with insts := t.insts.map fun i => if mine.any (·.id == i.id) then { i with applied := true } else i }

/-! ## Row-group words -/

/-- The row group of a thread for a word: the gang, or its own warp (R233). -/
def groupOf (e : Env) (g : Bool) (x : Thread) : List Nat := if g then e.t.gang else [x.warp]

/-- Whether a thread takes part in a row-group word. -/
def takesPart (e : Env) (g : Bool) (x : Thread) : Bool := (groupOf e g x).contains x.warp

/-- Registers of the A range of a thread (R237). -/
def aRange (e : Env) (win k : Nat) (a : Operand) (x : Thread) : List Nat :=
  let ea := (Fmt.of (e.slot (x.rgFa.get 0 win))).elems
  let n := (k + ea - 1) / ea
  regsOf a (n + n % 2)

/-- The columns of a tile B that a thread of member 0 owns, and their poisoned halves. -/
def ownColumns (t : Team) (x : Thread) (arg : RgArg) : List (Nat × W128) × List Nat :=
  match arg.b with
  | .m n =>
    let w := (t.warp? x.warp).getD {}
    let cols := (List.range 4).map (4 * x.lane + ·)
    (cols.map fun c => (c, SMap.get 0 w.tiles (128 * n.val + c)),
     cols.flatMap fun c => (List.range 2).filterMap fun h => if w.tilePoison.contains (2 * (128 * n.val + c) + h) then some (2 * c + h) else none)
  | _ => ([], [])

/-- One thread's part of a row-group word, executed or guarded off. -/
def contribute (e : Env) (g runs : Bool) (win : Nat) (arg : RgArg) (regs : List Nat) (id : Nat) (t : Team) (x : Thread) : Team :=
  let group := groupOf e g x
  let key := rgKey win group
  let n := x.rg.get 0 key
  let t := if t.insts.any fun i => i.win == win && i.group == group && i.seq == n then t
    else { t with insts := t.insts ++ [{ id, win, group, seq := n, arg }] }
  let row : ARow := { tid := x.tid, regs := regs.map fun r => x.v.get 0 r, arg, slots := e.b.fmt }
  let own := if x.warp == group.headD 0 then ownColumns t x arg else ([], [])
  { (t.updThread x.tid fun y => { y with rg := y.rg.set 0 key (n + 1), rgFa := if arg.op == 2 then y.rgFa.set 0 win arg.fa else y.rgFa }) with
    insts := t.insts.map fun i => if i.win == win && i.group == group && i.seq == n then
      { i with tile := own.1.foldl (fun m p => m.set 0 p.1 p.2) i.tile, tileBad := i.tileBad ++ own.2
               arrived := i.arrived ++ [x.tid], rows := if runs then i.rows ++ [row] else i.rows
               clause := if runs then e.b.addr else i.clause, widx := if runs then e.b.idx else i.widx } else i }

/-- The faults of a row-group word at the word, in each executing thread (R251). -/
def rgTrap (e : Env) (g : Bool) (win : Nat) (a : Operand) (range : List Nat) (x : Thread) : Option Trap :=
  if range.any fun r => e.g.launch.vregs ≤ r then some (operandTrap 1 a)
  else if g && !e.t.gang.contains x.warp then some (gangTrap 2)
  else if (e.t.window? win).isNone then some (accTrap 1)
  else none

def winOf : Operand → Nat
  | .a n => n.val
  | _ => 0

/-- An identifier for each bundle thread's possible new instance. -/
def contributeAll (e : Env) (g : Bool) (win : Nat) (grd : Guard) (arg : Thread → RgArg) (regs : Thread → List Nat) :
    Nat → List Thread → Team → Team
  | _, [], t => t
  | id, x :: r, t =>
    let t := if takesPart e g x then contribute e g (guardHolds grd x.pred) win (arg x) (regs x) id t x else t
    contributeAll e g win grd arg regs (id + 1) r t

/-- MMA, MMAS and PWSET. -/
def rgWord (s : State) (f : Body) (g long : Bool) (arg : State → Env → Thread → RgArg) (k : Nat) : Result :=
  match s.env? with
  | none => .refused (.notEnabled "issue")
  | some e =>
    let win := winOf f.d
    let ex := e.exec f.grd
    let range (x : Thread) : List Nat := if long then aRange e win k f.a x else []
    let hz := e.threads.filterMap fun x => (hazardOf { reads := range x, long } (e.flag f.fl) x).map fun t => (x.tid, t)
    let ps := ex.filterMap fun x => (firstTrap [rgTrap e g win f.a (range x) x, regPoison { reads := range x } x]).map fun t => (x.tid, t)
    match hz, ps with
    | t :: r, _ => .next (raiseWord s e (t :: r))
    | [], t :: r => .next (raiseWord s e (t :: r))
    | [], [] =>
      if flagFull { long } (e.flag f.fl) ex then .next (stallWord s)
      else
        let t := contributeAll e g win f.grd (arg s e) range s.nextId e.threads e.t
        let s1 := { s.setTeam t with nextId := s.nextId + e.threads.length }
        let done := t.insts.filter fun i => !i.queued && instComplete t i
        let grow := (done.filter fun i => !i.rows.isEmpty).length
        if grow != 0 && 16 < queuedOn s e.t.core + grow then .next (stallWord s)
        else match completeAll e (ex.headD {}) done s1 with
          | .error (i, t) =>
            let who := ex.filter fun x => i.group.contains x.warp
            .next (raiseAt s e e.b.idx { t with kind := 4 } (who.map fun x => (x.tid, { t with kind := 4 })))
          | .ok s2 =>
            let mine := t.insts.filter fun i => i.rows.any fun r => ex.any fun x => r.tid == x.tid && i.seq == x.rg.get 0 (rgKey win i.group)
            let instFor (x : Thread) : Option Nat := ((mine.filter fun i => i.win == win && i.group == groupOf e g x).head?).map (·.id)
            let s2 := s2.updBundle e.b.id fun b => { b with contrib := (b.contrib ++ mine.map (·.id)).eraseDups }
            if !long then .next (finishWord s2 e (teamNow s2 e) e.b.kw)
            else
              let outs := ((List.range ex.length).zip ex).map fun p =>
                (s2.nextId + p.1, ({ th := (teamNow s2 e).thread? p.2.tid |>.getD p.2
                                     wait := match instFor p.2 with
                                       | some i => .inst i
                                       | none => .ready } : Out))
              let s3 := commitActs { s2 with nextId := s2.nextId + ex.length } e f true 1 outs
              .next { s3 with ops := s3.ops.map fun o => match o.wait with
                | .inst i => { o with inst := some i }
                | _ => o }

/-- R246. -/
def execMma (f : MBody) (s : State) : Result :=
  rgWord s f.toBody (f.mod3.getLsbD 0) true (fun s e x =>
    { op := 0, k := f.kf.toNat, b := f.b, spec := readOp s e 0 x f.b
      off := match f.b with
        | .k n => kRead s e (n.val + 1)
        | _ => 0 }) f.kf.toNat

/-- R247. -/
def execMmas (f : MBody) (s : State) : Result :=
  rgWord s f.toBody (f.mod3.getLsbD 0) true (fun s e x =>
    { op := 1, k := f.kf.toNat, b := f.b, spec := readOp s e 0 x f.b, sel := readOp s e 0 x f.c
      off := match f.b with
        | .k n => kRead s e (n.val + 1)
        | _ => 0 }) f.kf.toNat

/-- R242. -/
def execPwset (f : MBody) (s : State) : Result :=
  rgWord s f.toBody (f.aux.getLsbD 4) false (fun _ _ _ =>
    { op := 2, fa := f.fs.toNat, fb := f.aux.toNat % 16, semi := f.mod3.toNat }) 0

/-- R249. -/
def execGang (f : MBody) (s : State) : Result :=
  onceWord s f.toBody { reads := regsOf f.a } (fun _ s => s) fun e s x =>
    let v := (readOp s e f.imm x f.a).toNat % 2 ^ 32
    let ws := (List.range 32).filter fun i => v.testBit i
    if !e.t.gang.isEmpty && (e.t.insts.any (fun i => i.group == e.t.gang) || e.t.runs.any fun r => r.group == e.t.gang && s.cc < r.ends) then
      .error (gangTrap 4)
    else if v != 0 && (ws.length < 2 || 6 < ws.length || ws.any fun w => e.g.launch.wpt ≤ w) then .error (gangTrap 1)
    else .ok (s.setTeam { teamNow s e with gang := ws }, fun y => { th := y })

/-! ## The exit terminal (R115, R235, R251) -/

/-- Completion of instances whose last members have exited: the first failure holds the team, with the record of R251. One that finds the
matrix queue full waits for an instance to leave it (R364). -/
def exitInsts (s : State) (g t : Nat) : State :=
  match s.team? g t, s.grid? g with
  | some tm, some gr =>
    (tm.insts.filter fun i => !i.queued && !i.failed && instComplete tm i).foldl (fun s i =>
      let e : Env := { t := (s.team? g t).getD tm, g := gr, c := s.ctx gr.ctx, b := { addr := i.clause, idx := i.widx, grid := g, team := t } }
      if i.rows.isEmpty then s.updTeam g t fun tm => { tm with insts := tm.insts.filter (·.id != i.id) }
      else if 16 ≤ queuedOn s tm.core then s
      else match completeInst s e (((i.rows.head?).bind fun r => tm.thread? r.tid).getD {}) i with
        | .ok (s, i) => queueInst s e i
        | .error tr =>
          let rec' : FaultRec := { grid := g, team := t, bytes := recordBytes s e (i.group.headD 0) i.widx { tr with kind := 4 } 0 0 true false }
          let s := s.updTeam g t fun tm => { tm with
            insts := tm.insts.map fun j => if j.id == i.id then { j with failed := true } else j
            phase := if tm.phase == .running then .holding else tm.phase }
          { (dissolve s g t).updGrid g fun g => { g with fault := some (g.fault.getD tr.code) } with
            faults := s.faults ++ [rec'], seq := (s.seq + 1) % 2 ^ 32 }) s
  | _, _ => s

/-- Instances that exits completed while the queue was full enter it as others leave (R364). -/
def enterExited (s : State) (core : Nat) : State :=
  (s.teams.filter fun t => t.core == core && t.phase == .running).foldl (fun s t => exitInsts s t.grid t.index) s

def execInstanceRun (n : Nat) (s : State) : Result :=
  match s.teams.find? fun t => t.insts.any fun i => i.id == n with
  | none => .refused (.notEnabled "INSTANCE_RUN")
  | some t => match t.insts.find? fun i => i.id == n with
    | none => .refused (.notEnabled "INSTANCE_RUN")
    | some i => if instMayRun s t i then .next { enterExited (runInst s t.grid t.index i) t.core with free := s.free + 1 }
                else .refused (.notEnabled "INSTANCE_RUN")

/-- R115: the thread ends and leaves its meeting; instances that waited only for it complete. -/
def execExit (_ : Header) (s : State) : Result :=
  match s.env? with
  | none => .refused (.notEnabled "issue")
  | some e =>
    let s1 := retireClause s e e.t (e.threads.map fun x =>
      { retireThread s.cc x with place := .exited, mrV := false, lbrk := false, newLevel := none, nap := none })
    .next (exitInsts s1 e.t.grid e.t.index)

end Sys2Proof.Machine
end

