-- ==== Sys2Proof/Machine/Acc.lean ====
section
/-! DEFINITION. Tile words (08: R252, R253) and accumulator-window words (R254 to R258). -/

namespace Sys2Proof.Machine

/-! ## Memory operands of group M (R252) -/

def MBody.inSpad (f : MBody) : Bool := f.aux.getLsbD 4
def MBody.segNo (f : MBody) : Nat := f.aux.toNat % 16

def tileOffset (s : State) (e : Env) (x : Thread) (f : MBody) : Nat := offsetOf (readOp s e f.imm x f.a) f.imm

def tileVa (e : Env) (f : MBody) (o : Nat) : Nat := ((e.g.seg (MBody.segNo f)).1.toNat + o) % 2 ^ 64

/-- Limit, alignment, translation and, for a read, poison of n bytes at offset o. -/
def tileCheck (s : State) (e : Env) (f : MBody) (o n al : Nat) (acc : Access) : Option Trap :=
  if MBody.inSpad f then
    firstTrap [spCheck e o n al 0, if acc == .read then spPoison e.t o n else none]
  else
    let va := tileVa e f o
    match firstTrap [limitCheck o n (e.g.seg (MBody.segNo f)).2.toNat (MBody.segNo f) 0, alignCheck va al] with
    | some t => some { t with vaddr := va }
    | none => match translateRange s e.t.core e.g.ctx va n acc with
      | .error t => some t
      | .ok l =>
        let cls := segPoison s (segsOf l)
        if acc == .read && cls != 0 then some { poisonTrap cls with vaddr := va } else none

/-- Read n bytes of a checked operand. -/
def tileLoad (s : State) (e : Env) (x : Thread) (f : MBody) (o n : Nat) (p : Packet := {}) : State × List Byte :=
  match operandRead s e x .m (MBody.inSpad f) (MBody.segNo f) o 0 n p with
  | .ok p => p
  | .error _ => (s, [])

/-- Store bytes of a checked operand under a mask. -/
def tileStore (s : State) (e : Env) (x : Thread) (f : MBody) (o id : Nat) (data mask : List Byte) : State :=
  if MBody.inSpad f then
    let s := drainReqs s (((teamNow s e).thread? x.tid |>.map fun x => fencedIds s x .m).getD [])
    s.setTeam ((teamNow s e).setSpadMask o data mask)
  else
    let va := tileVa e f o
    issueReq (cacheTranslation s e.t.core e.g.ctx va) e x
      { id, path := .m, va, len := data.length, kind := .store data mask, scope := .team,
        segs := segsFor s e va data.length .write, op := some id }

/-- The flag of TST and ACCST completes when the store has performed at team scope (R252, R257). -/
def tileWait (s : State) (e : Env) (f : MBody) (id : Nat) : OpWait := if MBody.inSpad f || storeAtOnce s e 1 id then .ready else .req

/-! ## Tiles -/

def tileOf : Operand → Nat
  | .m n => n.val
  | _ => 0

/-- Replace the four columns of a thread's lane. -/
def setColumns (t : Team) (x : Thread) (m : Nat) (cols : List W128) : Team :=
  t.updWarp x.warp fun w => { w with
    tilePoison := w.tilePoison.filter fun k => !(128 * m + 4 * x.lane ≤ k / 2 && k / 2 < 128 * m + 4 * x.lane + 4)
    tiles := ((List.range 4).zip cols).foldl (fun tl p => tl.set 0 (128 * m + 4 * x.lane + p.1) p.2) w.tiles }

/-- The four columns of a thread's lane. -/
def getColumns (t : Team) (x : Thread) (m : Nat) : List W128 :=
  let tl : SMap W128 := ((t.warp? x.warp).map (·.tiles)).getD []
  (List.range 4).map fun j => tl.get 0 (128 * m + 4 * x.lane + j)

/-- R337: a thread's columns of a tile hold a poisoned word. -/
def columnPoison (t : Team) (x : Thread) (m : Nat) : Option Trap :=
  let l := ((t.warp? x.warp).map (·.tilePoison)).getD []
  if l.any fun k => 128 * m + 4 * x.lane ≤ k / 2 && k / 2 < 128 * m + 4 * x.lane + 4 then some (poisonTrap 1) else none

/-- R252. The operation completes once the answers of its packets have come, and a poisoned one poisons the columns (R337, R422). -/
def execTld (f : MBody) (s : State) : Result :=
  memWord s f.toBody { reads := regsOf f.a, long := true }
    (fun e x => tileCheck s e f (tileOffset s e x f) 64 16 .read) (fun _ _ => false)
    fun e s x id =>
      let p := tileLoad s e x f (tileOffset s e x f) 64
        { op := some id, thread := some (e.t.grid, e.t.index, x.tid), tile := some (tileOf f.d) }
      let cols := (List.range 4).map fun j => BitVec.ofNat 128 (leNat ((p.2.drop (16 * j)).take 16))
      (p.1.setTeam (setColumns (teamNow p.1 e) x (tileOf f.d) cols), { th := x })

/-- R252. -/
def execTst (f : MBody) (s : State) : Result :=
  memWord s f.toBody { reads := regsOf f.a, long := true }
    (fun e x => firstTrap [tileCheck s e f (tileOffset s e x f) 64 16 .write, columnPoison e.t x (tileOf f.b)]) (fun _ _ => false)
    fun e s x id =>
      let data := (getColumns (teamNow s e) x (tileOf f.b)).flatMap fun c => leBytes 16 c.toNat
      let s := tileStore s e x f (tileOffset s e x f) id data (List.replicate 64 0xFF)
      (s, { th := x, wait := tileWait s e f id })

/-- R252. -/
def execTzero (f : MBody) (s : State) : Result :=
  groupWord s f.toBody {} false fun e ex =>
    .ok (ex.foldl (fun t x => setColumns t x (tileOf f.d) [0, 0, 0, 0]) e.t, ex.map fun x => { th := x })

/-! ## Allocation (R254) -/

/-- A window as its descriptor gives it (Table 8-6). -/
def windowOf (n : Nat) (d : W64) : Window :=
  let x := d.toNat
  { n, row0 := bitsOf x 0 8, rows := bitsOf x 8 8, col0 := bitsOf x 16 7, cols := bitsOf x 24 8, lane0 := bitsOf x 32 4,
    lanes := bitsOf x 36 4, e0 := signedOf 14 (bitsOf x 40 14) }

/-- R30: every lane-row of a region lies in the first `g` granules. -/
def granulesHeld (g : Nat) (w : Window) : Bool :=
  (List.range w.lanes).all fun l =>
    (List.range ((w.row0 + w.rows - 1) / 64 - w.row0 / 64 + 1)).all fun b => w.lane0 + l + 11 * (w.row0 / 64 + b) < g

/-- Detail 2 of R254. -/
def descriptorOk (g : Nat) (d : W64) (w : Window) : Bool :=
  !d.toNat.testBit 23 && bitsOf d.toNat 54 10 == 0 &&
  1 ≤ w.rows && w.row0 + w.rows ≤ 192 && 1 ≤ w.cols && w.col0 + w.cols ≤ 128 && 1 ≤ w.lanes && w.lane0 + w.lanes ≤ 11 &&
  granulesHeld g w

/-- Whether two regions share a lane of a cell. -/
def overlaps (a b : Window) : Bool :=
  a.row0 < b.row0 + b.rows && b.row0 < a.row0 + a.rows && a.col0 < b.col0 + b.cols && b.col0 < a.col0 + a.cols &&
  a.lane0 < b.lane0 + b.lanes && b.lane0 < a.lane0 + a.lanes

/-- R254. -/
def execAccalloc (f : MBody) (s : State) : Result :=
  onceWord s f.toBody { reads := regsOf f.a } (fun _ s => s) fun e s x =>
    let n := winOf f.d
    let d := readOp s e f.imm x f.a
    let w := windowOf n d
    let t := teamNow s e
    if !descriptorOk e.g.launch.accg d w then .error (accTrap 2)
    else if t.wins.any fun y => y.n == n || overlaps y w then .error (accTrap 3)
    else
      let fresh (y : Thread) : Thread := { y with rgFa := y.rgFa.set 0 n 0 }
      let t := { t with wins := t.wins ++ [w], threads := t.threads.map fresh }
      .ok (s.setTeam t, fun y => { th := fresh y })

/-! ## Order on a window (R258) -/

/-- Whether an instance of a window that one of some threads contributed to is still collecting. -/
def stillCollecting (t : Team) (win : Nat) (ex : List Thread) : Bool :=
  t.insts.any fun i => i.win == win && !i.queued && i.rows.any fun r => ex.any fun x => x.tid == r.tid

/-- An accumulator word comes after every instance its executing threads contributed to (R258): the steps of the
window's queued instances are taken first, and the word stalls while one collects. -/
def accWord (s : State) (grd : Guard) (win : Nat) (body : State → Result) : Result :=
  match s.env? with
  | none => body s
  | some e => if stillCollecting e.t win (e.exec grd) then .next (stallWord s) else body (settleWindow s e win)

/-! ## Words on a whole window (R255) -/

/-- Cells of a window all alike. -/
def fillCells (w : Window) (m : Mark) : SMap Cell :=
  if m == .none then [] else
    (List.range w.rows).flatMap fun r => (List.range w.cols).map fun c => (128 * r + c, { mark := m })

/-- A word that acts once on an allocated window. -/
def windowWord (s : State) (f : MBody) (reads : List Nat) (act : Env → State → Thread → Window → Except Trap Team) : Result :=
  onceWord s f.toBody { reads := reads, long := true } (fun _ s => s) fun e s x =>
    match (teamNow s e).window? (winOf f.d) with
    | none => .error (accTrap 1)
    | some w => match act e s x w with
      | .error t => .error t
      | .ok t => .ok (s.setTeam t, fun y => { th := y })

/-- R255. A thread of the word that contributed to an instance that still collects raises detail 8 too, and does not wait for it
(log 99). -/
def execAccfree (f : MBody) (s : State) : Result :=
  match s.env? with
  | none => .refused (.notEnabled "issue")
  | some e =>
    windowWord (settleWindow s e (winOf f.d)) f [] fun e s _ w =>
      let t := teamNow s e
      if t.insts.any fun i => i.win == w.n && !i.queued && !i.rows.isEmpty then .error (accTrap 8)
      else .ok { t with wins := t.wins.filter (·.n != w.n) }

/-- R255. -/
def execAcczero (f : MBody) (s : State) : Result :=
  let m : Mark := if f.mod3 == 1 then .pinf else if f.mod3 == 2 then .ninf else .none
  accWord s f.grd (winOf f.d) fun s => windowWord s f [] fun e s _ w =>
    .ok ((teamNow s e).updWindow w.n fun w => { w with cells := fillCells w m, ovf := false, binding := none })

/-- A cell under a new E0: exact and clamped when it falls, rounded to nearest even when it rises. -/
def rescale (w : Window) (e1 : Int) (x : Cell) : Cell × Bool :=
  if e1 ≤ w.e0 then
    let c := w.clamp (x.q * (2 ^ (w.e0 - e1).toNat : Nat))
    ({ x with q := c.1 }, c.2)
  else
    let m := (roundAt 0 0 0 (x.q < 0) x.q.natAbs 0 (e1 - w.e0) false).1
    ({ x with q := if x.q < 0 then -(m : Int) else m }, false)

/-- The cells of a window rescaled, and whether any clamped. -/
def rescaleAll (w : Window) (e1 : Int) : Window :=
  let l := w.cells.map fun p => (p.1, rescale w e1 p.2)
  { w with e0 := e1, cells := l.foldl (fun m p => m.set {} p.1 p.2.1) [], ovf := w.ovf || l.any (·.2.2) }

/-- R255. -/
def execAccalign (f : MBody) (s : State) : Result :=
  accWord s f.grd (winOf f.d) fun s => windowWord s f (regsOf f.a) fun e s x w =>
    let v := (readOp s e f.imm x f.a).toInt
    if v < -8192 || 8191 < v then .error (accTrap 2) else .ok ((teamNow s e).updWindow w.n fun w => rescaleAll w v)

/-! ## Words on cells (R256, R257) -/

/-- ρ of a thread on a window (R233). -/
def rowIn (w : Window) (x : Thread) : Nat :=
  match w.binding with
  | some g => if g.contains x.warp then rowOf? g x else x.lane
  | none => x.lane

/-- The row a word acts on. -/
def accRow (s : State) (e : Env) (f : MBody) (w : Window) (x : Thread) : Nat :=
  if f.mod3.getLsbD 1 then (readOp s e f.imm x f.c).toNat else rowIn w x

/-- Registers of the row operand, when the word has one. -/
def rowRegs (f : MBody) : List Nat := if f.mod3.getLsbD 1 then regsOf f.c else []

/-- Details 1 and 5: the window, the row, the column. -/
def cellCheck (s : State) (e : Env) (f : MBody) (win : Nat) (x : Thread) (col : Nat) : Option Trap :=
  match e.t.window? win with
  | none => some (accTrap 1)
  | some w => if w.rows ≤ accRow s e f w x || w.cols ≤ col then some (accTrap 5) else none

/-- Poisoned cells among columns of a row; a column outside the window has no cell (R256). -/
def cellPoison (w : Window) (r : Nat) (cols : List Nat) : Option Trap :=
  if cols.any fun c => c < w.cols && (w.cell r c).poison then some (poisonTrap 3) else none

/-- Column operand: a column, or the selector of a raw form: column, chunk. -/
def colOf (raw : Bool) (v : W64) : Nat := if raw then bitsOf v.toNat 0 7 else v.toNat
def chunkOf (v : W64) : Nat := bitsOf v.toNat 8 4

def chunkCheck (w : Option Window) (raw : Bool) (v : W64) : Option Trap :=
  match w with
  | none => none
  | some w => if raw && chunkOf v != 15 && (w.lanes + 1) / 2 ≤ chunkOf v then some (accTrap 5) else none

def Mark.code : Mark → Nat
  | .none => 0
  | .pinf => 1
  | .ninf => 2
  | .nan => 3

def Mark.ofCode (n : Nat) : Mark := if n == 0 then .none else if n == 1 then .pinf else if n == 2 then .ninf else .nan

/-- The read-out of cells c, c + 1, … of a row; a column outside the window reads zero (R72, R256). -/
def readOut (w : Window) (f : Fmt) (r c n : Nat) (g : Rng) : List Nat × Efl × Rng :=
  f.putAll g ((List.range n).map fun i => if c + i < w.cols then w.val (w.cell r (c + i)) else .zero false)

/-- A raw chunk of a cell. -/
def rawChunk (w : Window) (x : Cell) (n : Nat) : List W64 :=
  if n == 15 then [BitVec.ofNat 64 (x.mark.code + (if w.ovf then 4 else 0)), 0]
  else
    let b := BitVec.ofInt 128 (x.q / (2 ^ (128 * n) : Nat))
    [b.extractLsb' 0 64, b.extractLsb' 64 64]

/-- R256. -/
def execAccrd (f : MBody) (s : State) : Result :=
  let raw := f.mod3.getLsbD 0
  let win := winOf f.a
  accWord s f.grd win fun s =>
    memWord s f.toBody { reads := regsOf f.b ++ rowRegs f, writes := regsOf f.d (if raw then 2 else 1), long := true }
      (fun e x =>
        let v := readOp s e f.imm x f.b
        let n := if raw then 1 else (Fmt.of (e.slot f.fs.toNat)).elems
        firstTrap [cellCheck s e f win x (colOf raw v), chunkCheck (e.t.window? win) raw v,
          (e.t.window? win).bind fun w => cellPoison w (accRow s e f w x) ((List.range n).map (colOf raw v + ·))])
      (fun _ _ => false)
      fun e s x _ =>
        let w := ((teamNow s e).window? win).getD {}
        let v := readOp s e f.imm x f.b
        let r := accRow s e f w x
        if raw then (s, { th := x, vals := rawChunk w (w.cell r (colOf raw v)) (chunkOf v) })
        else
          let fm := Fmt.of (e.slot f.fs.toNat)
          let p := readOut w fm r (colOf raw v) fm.elems { s0 := x.s0, s1 := x.s1 }
          (s, { th := { x with s0 := p.2.2.s0, s1 := p.2.2.s1 }, vals := [packElems fm.width p.1], efl := p.2.1 })

/-- A value written to a cell: the cell, and whether it clamped. -/
def cellFrom (w : Window) (v : Val) : Cell × Bool :=
  match v with
  | .num s m e _ _ =>
    let k := (roundAt 0 0 0 s m e w.e0 false).1
    let c := w.clamp (if s then -(k : Int) else k)
    ({ q := c.1 }, c.2)
  | v => ({ mark := markOf v }, false)

/-- Write codes of a slot into cells c, c + 1, … of a row; columns outside the window are ignored. -/
def writeCells (fm : Fmt) (r c : Nat) (codes : List Nat) (w : Window) : Window :=
  ((List.range codes.length).zip codes).foldl (fun w p =>
    if c + p.1 < w.cols then
      let y := cellFrom w (fm.decode p.2).1
      w.put r (c + p.1) y.1 y.2
    else w) w

/-- The flags of decoding the codes that a row takes from column c on: FZ where an input is flushed (R54). -/
def decodeFlags (fm : Fmt) (w : Window) (c : Nat) (codes : List Nat) : Efl := (codes.take (w.cols - c)).foldl (fun a x => a ||| (fm.decode x).2) 0

/-- A raw chunk written to a cell. -/
def putChunk (w : Window) (r c n : Nat) (b : W128) : Window :=
  let x := w.cell r c
  if n == 15 then w.put r c { x with mark := .ofCode (bitsOf b.toNat 0 2) } (b.getLsbD 2)
  else
    let aw := w.aw
    let u := (x.q % (2 ^ aw : Nat)).toNat
    let lo := u % 2 ^ (128 * n)
    let hi := u / 2 ^ (128 * n + 128) * 2 ^ (128 * n + 128)
    w.put r c { x with q := signedOf aw ((lo + b.toNat * 2 ^ (128 * n) + hi) % 2 ^ aw) } false

/-- R256. -/
def execAccwr (f : MBody) (s : State) : Result :=
  let raw := f.mod3.getLsbD 0
  let win := winOf f.d
  accWord s f.grd win fun s =>
    memWord s f.toBody { reads := regsOf f.a ++ regsOf f.b (if raw then 2 else 1) ++ rowRegs f, long := true }
      (fun e x =>
        let v := readOp s e f.imm x f.a
        firstTrap [cellCheck s e f win x (colOf raw v), chunkCheck (e.t.window? win) raw v])
      (fun _ _ => false)
      fun e s x _ =>
        let v := readOp s e f.imm x f.a
        let fm := Fmt.of (e.slot f.fs.toNat)
        let codes := (List.range fm.elems).map fun i => elemOf fm.width i (readOp s e f.imm x f.b)
        let w0 := ((teamNow s e).window? win).getD {}
        let t := (teamNow s e).updWindow win fun w =>
          let r := accRow s e f w x
          if raw then putChunk w r (colOf raw v) (chunkOf v) (readPair x f.b) else writeCells fm r (colOf raw v) codes w
        (s.setTeam t, { th := x, efl := if raw then 0 else decodeFlags fm w0 (colOf raw v) codes })

/-- Bytes of a row's stream. -/
def rowBytes (e : Env) (f : MBody) (win : Nat) : Nat :=
  (((e.t.window? win).map (·.cols)).getD 1 * (Fmt.of (e.slot f.fs.toNat)).width + 7) / 8

/-- R257. -/
def execAccld (f : MBody) (s : State) : Result :=
  let win := winOf f.d
  accWord s f.grd win fun s =>
    memWord s f.toBody { reads := regsOf f.a ++ rowRegs f, long := true }
      (fun e x => firstTrap [cellCheck s e f win x 0, tileCheck s e f (tileOffset s e x f) (rowBytes e f win) 1 .read])
      (fun _ _ => false)
      fun e s x _ =>
        let p := tileLoad s e x f (tileOffset s e x f) (rowBytes e f win)
        let fm := Fmt.of (e.slot f.fs.toNat)
        let codes (w : Window) : List Nat := (List.range w.cols).map fun i => streamElem p.2 (fm.width * i) fm.width
        let w0 := ((teamNow p.1 e).window? win).getD {}
        let t := (teamNow p.1 e).updWindow win fun w => writeCells fm (accRow p.1 e f w x) 0 (codes w) w
        (p.1.setTeam t, { th := x, efl := decodeFlags fm w0 0 (codes w0) })

/-- R257. -/
def execAccst (f : MBody) (s : State) : Result :=
  let win := winOf f.b
  accWord s f.grd win fun s =>
    memWord s f.toBody { reads := regsOf f.a ++ rowRegs f, long := true }
      (fun e x => firstTrap [cellCheck s e f win x 0,
        (e.t.window? win).bind fun w => cellPoison w (accRow s e f w x) (List.range w.cols),
        tileCheck s e f (tileOffset s e x f) (rowBytes e f win) 1 .write])
      (fun _ _ => false)
      fun e s x id =>
        let w := ((teamNow s e).window? win).getD {}
        let fm := Fmt.of (e.slot f.fs.toNat)
        let p := readOut w fm (accRow s e f w x) 0 w.cols { s0 := x.s0, s1 := x.s1 }
        let d := packStream 0 fm.width p.1
        let s := tileStore s e x f (tileOffset s e x f) id d.1 d.2
        (s, { th := { x with s0 := p.2.2.s0, s1 := p.2.2.s1 }, efl := p.2.1, wait := tileWait s e f id })

end Sys2Proof.Machine
end

