-- ==== Sys2Proof/Machine/Atomic.lean ====
section
/-! DEFINITION. Global atomics and reductions (R218 to R223), fences (R224, R225), line locks and prefetch (R227, R228). -/

namespace Sys2Proof.Machine

/-! ## Checks -/

/-- Memory kind of a checked access. -/
def kindOf (segs : List (Nat × Nat × Nat)) : Nat := (segs.head?.map (·.1)).getD 0

/-- Table 7-6. -/
def atomicAccepted (kind op n : Nat) (isAtom isDred : Bool) : Bool :=
  match kind with
  | 0 => true
  | 1 => isAtom && (((op == 0 || op == 8) && (n == 4 || n == 8)) || (op == 9 && (n == 4 || n == 8 || n == 16)))
  | _ => !isDred && op ≤ 9 && (n == 4 || n == 8)

/-- The checks of a global atomic: limit, alignment, translation, memory kind, poison (R220, R223, R337). -/
def atomCheck (s : State) (e : Env) (f : LBody) (x : Thread) (isAtom isDred : Bool) : Option Trap :=
  let n := accBytes f
  let o := memOffset s e x f
  match globalCheck e f o n n with
  | some t => some t
  | none => match translateRange s e.t.core e.g.ctx (globalVa e f o) n .atomic with
    | .error t => some t
    | .ok l =>
      let segs := segsOf l
      if !atomicAccepted (kindOf segs) f.opx.toNat n isAtom isDred then
        some { code := fHostAtomic, detail := kindOf segs - 1, vaddr := globalVa e f o }
      else if isAtom && segPoison s segs != 0 then some { poisonTrap (segPoison s segs) with vaddr := globalVa e f o }
      else none

/-- The request of a global atomic of one thread. -/
def atomReq (s : State) (e : Env) (x : Thread) (f : LBody) (id : Nat) (kind : ReqKind) : Req :=
  let va := globalVa e f (memOffset s e x f)
  { id, path := .a, va, len := accBytes f, kind, hint := f.hint.toNat, segs := segsFor s e va (accBytes f) .atomic }

/-! ## ATOM, RED, DRED -/

/-- R220. -/
def execAtom (f : LBody) (s : State) : Result :=
  memWord s f.toBody (atomUse f) (fun e x => atomCheck s e f x true false) (fun _ _ => false)
    fun e s1 x id =>
      let a := atomArgs s e x f
      let r := atomReq s e x f id (.atom f.opx.toNat (accBytes f) a.1 a.2 (e.slot f.fs.toNat))
      (issueReq (cacheTranslation s1 e.t.core e.g.ctx r.va) e x { r with op := some id }, { th := x, wait := .req })

/-- The counter entries, by element and grid, that an update needs and that do not exist yet (R325). -/
def countersFor (s : State) (grid va op n : Nat) (fmt : W64) : List (Nat × Nat) :=
  ((List.range (drawCount op n fmt)).map fun i => (elemBit va (Fmt.of fmt).width i, grid)).filter fun p =>
    !(s.counters.any fun c => (c.bit, c.grid) == p)

/-- Those of a word in one thread. -/
def newCounters (s : State) (e : Env) (f : LBody) (x : Thread) : List (Nat × Nat) :=
  let fmt := e.slot f.fs.toNat
  let va := globalVa e f (memOffset s e x f)
  countersFor s e.g.num va f.opx.toNat (accBytes f) fmt

/-- Free pool bytes of a context (R324). -/
def poolFree (s : State) (ctx : Nat) : Nat := (s.ctx ctx).pplen.toNat - poolBytes s ctx

/-- What one contribution needs: its home press, its stack, a press entry or none, and counter entries. -/
structure Need where
  ctx : Nat := 0
  home : Nat := 0
  stack : Nat := 0
  entry : Bool := false
  counters : List (Nat × Nat) := []
deriving DecidableEq, Repr

/-- The home press and the stack of a device location; a location without a home yet counts for the requester's own. -/
def needAt (s : State) (pa core : Nat) : Need :=
  let rg := s.regions.get {} (regionOf pa)
  { home := if rg.st == 0 then 192 * (coreNode core / 192) + nearestSlice s (coreNode core / 192) (coreNode core % 192) else 192 * rg.die + rg.node
    stack := stackOf pa }

/-- The need of one thread's update (R324, R325). -/
def needOf (s : State) (e : Env) (f : LBody) (isDred : Bool) (x : Thread) : Need :=
  let pa := ((segsFor s e (globalVa e f (memOffset s e x f)) 1 .atomic).head?.map (·.2.1)).getD 0
  { needAt s pa e.t.core with ctx := e.g.ctx, entry := isDred, counters := newCounters s e f x }

/-- What contributions on their way have reserved (R324, R325). -/
def needsOut (s : State) : List Need :=
  s.reqs.filterMap fun r =>
    let need (entry : Bool) (op n : Nat) (fmt : W64) : Need :=
      { needAt s ((r.segs.head?.map (·.2.1)).getD 0) r.core with
        ctx := r.ctx, entry, counters := countersFor s (reqGrid r) r.va op n fmt }
    match r.kind with
    | .dred op n _ fmt .. => some (need true op n fmt)
    | .red op n _ fmt => some (need false op n fmt)
    | _ => none

/-- What of one pile of needs its own store cannot take, in units of that store. -/
def beyond (need room : Nat) : Nat := need - room

/-- R324, R325: whether every contribution of a word, beside those already on their way, finds room: a press entry of its home, 48
bytes of its stack's press area or of its context's pool; a counter entry of its stack's backing or 16 bytes of that pool. Contributions
of other contexts on their way take units, areas and backings first, and beyond those the pools of their own contexts. -/
def updateRoom (s : State) (e : Env) (f : LBody) (isDred : Bool) (ex : List Thread) : Bool :=
  let mine := ex.map (needOf s e f isDred)
  let l := needsOut s ++ mine
  let own (l : List Need) : List Need := l.filter (·.ctx == e.g.ctx)
  let overPress := ((l.map (·.home)).eraseDups.flatMap fun h =>
    (l.filter fun n => n.entry && n.home == h).drop (16 - (heldPress s h).length))
  let runs := ((l.map (·.stack)).eraseDups.map fun k =>
    let past := overPress.filter (·.stack == k)
    min (own past).length (beyond past.length ((3 * 2 ^ 20 - areaBytes s k) / 48))).foldl (· + ·) 0
  let counts := ((l.map (·.stack)).eraseDups.map fun k =>
    let at' := l.filter (·.stack == k)
    min ((own at').flatMap (·.counters)).eraseDups.length (beyond ((at'.flatMap (·.counters)).eraseDups).length
      (65536 - (s.counters.filter fun c => c.stack == k && !c.pool).length))).foldl (· + ·) 0
  (mine.all fun n => !n.entry && n.counters.isEmpty) || 48 * runs + 16 * counts ≤ poolFree s e.g.ctx

def exhausted : Trap := { code := fEngine, detail := 0x100 }

/-- A check of each thread, then one of the whole word that names every executing thread. -/
def wordCheck (e : Env) (g : Guard) (each : Thread → Option Trap) (room : List Thread → Bool) (x : Thread) : Option Trap :=
  let ex := e.exec g
  if ex.any fun y => (each y).isSome then each x else if room ex then none else some exhausted

/-- Lines held update-only whose home is a slice: its directory has 64 entries (R318). -/
def directoryRoom (s : State) (segs : List (Nat × Nat × Nat)) : Bool :=
  let lines := ((s.reqs.filter (·.gathered)).flatMap fun r => segLines r.segs).eraseDups
  let home (l : Nat) : Nat × Nat :=
    let r := s.regions.get {} (regionOf (l * 128))
    (r.die, r.node)
  (segLines segs).all fun l => lines.contains l || (lines.filter fun k => home k == home l).length < 64

/-- R221: whether this contribution may gather in the L1: never eadd; else as timing allows. -/
def gathers (s : State) (op : Nat) (segs : List (Nat × Nat × Nat)) : Bool :=
  op != 0x10 && isDevice segs && Config.freeChoice s.free % 2 == 0

/-- A contribution that would gather asks its line's home, which homes the line's region (R327); it gathers if the directory has room
(R318). -/
def gatherReq (s : State) (core op : Nat) (r : Req) : State × Req :=
  if gathers s op r.segs then
    let s := reachHomes s core (coreNode core) r.segs
    (s, { r with gathered := directoryRoom s r.segs })
  else (s, r)

/-- R221. -/
def execRed (f : LBody) (s : State) : Result :=
  let n := accBytes f
  memWord s f.toBody { reads := regsOf f.a ++ regsOf f.b }
    (fun e x => wordCheck e f.grd (fun y => atomCheck s e f y false false) (updateRoom s e f false) x) (fun _ _ => false)
    fun e s1 x id =>
      let r := atomReq s e x f id (.red f.opx.toNat n (dataOf s e x f f.b n) (e.slot f.fs.toNat))
      let p := gatherReq (cacheTranslation s1 e.t.core e.g.ctx r.va) e.t.core f.opx.toNat r
      (issueReq p.1 e x p.2, { th := x })

/-- R222, R452. -/
def execDred (f : LBody) (s : State) : Result :=
  let n := accBytes f
  memWord s f.toBody { reads := regsOf f.a ++ regsOf f.b }
    (fun e x => wordCheck e f.grd (fun y => atomCheck s e f y false true) (updateRoom s e f true) x)
    (fun _ _ => false)
    fun e s1 x id =>
      let r := atomReq s e x f id (.dred f.opx.toNat n (dataOf s e x f f.b n) (e.slot f.fs.toNat) (gridThread e.g e.t x.tid) x.dreds f.fs.toNat)
      (issueReq (cacheTranslation s1 e.t.core e.g.ctx r.va) e x r, { th := { x with dreds := x.dreds + 1 } })

/-! ## Fences -/

/-- R292: a release or full fence at system scope completes once the writes to peer memory that it orders, those of atomics among them,
are acknowledged. -/
def peerHeld (s : State) (e : Env) (x : Thread) (f : LBody) (groups : List (List Path)) : Bool :=
  let kind := FenceKind.of f.mod3
  f.scope == 5 && kind != .acq && s.reqs.any fun r => (r.segs.any fun g => g.1 == 2) && !isLoad r.kind &&
    groups.any fun ps => (r.agent == .thread e.t.grid e.t.index x.tid && fenceOwn kind ps r) || fenceSeen kind ps e.t.seen r

/-- The threads' fence, after which each keeps what later accesses wait for. -/
def fenceWord (f : LBody) (s : State) (groups : List (List Path)) : Result :=
  memWord s f.toBody {} (fun _ _ => none) (fun e x => peerHeld s e x f groups)
    fun e s x _ =>
      let s := fenceThread s e.t.grid e.t.index x.tid e.t.core (FenceKind.of f.mod3) f.scope.toNat groups
      (s, { th := ((((s.team? e.t.grid e.t.index).getD e.t).thread? x.tid).getD x) })

/-- R224. -/
def execFence (f : LBody) (s : State) : Result := fenceWord f s [[.q], [.a], [.m]]

/-- Table 3-9. -/
def maskPaths (m : BitVec 7) : List Path :=
  ([(Path.t, 0), (.q, 1), (.a, 2), (.c, 3), (.m, 4), (.f, 5), (.h, 6)].filter fun p => m.getLsbD p.2).map (·.1)

/-- R225. -/
def execFenceX (f : LBody) (s : State) : Result := fenceWord f s [maskPaths f.opx]

/-! ## Line locks and prefetch -/

/-- The check of CLOCK and CUNLOCK on the byte named. CLOCK is a consumer of poisoned data (R337). -/
def lockCheck (s : State) (e : Env) (f : LBody) (release : Bool) (x : Thread) : Option Trap :=
  let o := memOffset s e x f
  let va := globalVa e f o
  match globalCheck e f o 1 1 with
  | some t => some t
  | none => match translateRange s e.t.core e.g.ctx va 1 .read with
    | .error t => some t
    | .ok l =>
      let p := (segsOf l).headD (0, 0, 0)
      let cls := s.poisonOf p.1 (p.2.1 / 128 * 128) 128
      if !release && cls != 0 then some { poisonTrap cls with vaddr := va } else none

/-- CLOCK and CUNLOCK: status 4 off device memory, else a request to the line's home. -/
def lockWord (f : LBody) (s : State) (release : Bool) : Result :=
  memWord s f.toBody { reads := regsOf f.a, writes := regsOf f.d, long := true }
    (fun e x => lockCheck s e f release x) (fun _ _ => false)
    fun e s1 x id =>
      let va := globalVa e f (memOffset s e x f)
      let segs := segsFor s e va 1 .read
      if isDevice segs then
        (issueReq (cacheTranslation s1 e.t.core e.g.ctx va) e x
          { id, path := .a, va, len := 1, kind := .lock (f.mod3.getLsbD 0) release, segs, op := some id }, { th := x, wait := .req })
      else (s1, { th := x, vals := [4] })

/-- R227. -/
def execClock (f : LBody) (s : State) : Result := lockWord f s false
/-- R227. -/
def execCunlock (f : LBody) (s : State) : Result := lockWord f s true

/-- A prefetch brings the words of a line from its home into a core's L1: an access that homes the line's region (R327). -/
def prefetchL1 (s : State) (core line : Nat) : State :=
  let segs := [(0, 128 * line, 128)]
  bringL1 (recallLines (reachHomes (sendTraffic s (coreNode core) 0 false segs) core (coreNode core) segs) [line]) core ((List.range 8).map (line * 8 + ·))

/-- R228: a prefetch that would fault, or of a page that is not device DRAM, is dropped. -/
def execPref (f : LBody) (s : State) : Result :=
  memWord s f.toBody { reads := regsOf f.a, drops := true } (fun _ _ => none) (fun _ _ => false)
    fun e s x _ =>
      let o := memOffset s e x f
      let va := globalVa e f o
      let segs := segsFor s e va 1 .read
      let s' := if (regsOf f.a).any x.vpoison.contains || (globalCheck e f o 1 1).isSome || segs.isEmpty || !isDevice segs then s
        else
          let s := raiseHint (cacheTranslation s e.t.core e.g.ctx va) f.hint.toNat segs
          if f.mod3 == 0 then prefetchL1 s e.t.core ((segs.headD (0, 0, 0)).2.1 / 128) else s
      (s', { th := x })

end Sys2Proof.Machine
end

