-- ==== Sys2Proof/Machine/Schedule.lean ====
section
/-! DEFINITION. Choosing the bundle that issues (R361 to R363), fetching its next word for execution, and
the placing of a given word as the next to be fetched. -/

namespace Sys2Proof.Machine

/-- The limits that a bundle's words are decoded under (R24, R28, R29, R32). -/
def bundleLimits (s : State) (b : Bundle) : Limits :=
  match s.grid? b.grid with
  | none => {}
  | some g => { vpw := g.launch.vregs, kn := g.launch.kregs, tiles := g.launch.tiles, fmt := b.fmt }

/-- The next word of a bundle, decoded: a body word, or the terminal after the last. -/
def nextInstr (s : State) (b : Bundle) : Except DecodeFault Instr :=
  let len := (Header.of b.hdr).len.toNat
  if len < b.idx then decodeHeader b.hdr
  else decodeWord (bundleLimits s b) (b.idx == len && termOf b.hdr == 3) (b.words.getD (b.idx - 1) 0)

/-- Whether a bundle stands at its clause's terminal. -/
def atTerminal (b : Bundle) : Bool := b.decoded && (Header.of b.hdr).len.toNat < b.idx

/-- R361: the bundles of a quadrant that are ready, those that have not begun their clause included; on a fenced core, which issues no
further clause, those alone that have begun theirs, which they finish (R338, log 30). -/
def readyBundles (s : State) (core quad : Nat) : List Bundle :=
  s.bundles.filter fun b => b.core == core && b.quad == quad && !b.stalled && (!s.mgmt.fencedCores.contains core || b.decoded)

/-- The body words of a bundle's clause: those it fetched, or before it begins those in memory. -/
def clauseWords (s : State) (b : Bundle) : List W128 :=
  if b.decoded || b.startAt != 0 then b.words
  else match s.grid? b.grid with
    | none => []
    | some g => match fetchWord s b.core g.ctx (vaOf b.addr) with
      | .error _ => []
      | .ok h => (List.range (Header.of h).len.toNat).filterMap fun i =>
          (fetchWord s b.core g.ctx ((vaOf b.addr + 16 * (i + 1)) % 2 ^ 64)).toOption

/-- Whether a bundle at the start of a clause holds a word of a kind. -/
def clauseHolds (s : State) (b : Bundle) (p : Nat → Bool) : Bool :=
  b.startAt == 0 && (!b.decoded || b.idx ≤ 1) && (clauseWords s b).any fun w => p (opcOf w)

def isFabricOp (op : Nat) : Bool :=
  (0x150 ≤ op && op ≤ 0x154) || (0x1C0 ≤ op && op ≤ 0x1C2) || op == 0x1E0 || op == 0x1E1 || op == 0x240
def isMatrixOp (op : Nat) : Bool := op == 0x200 || op == 0x201

/-- Whether a core's matrix queue is not empty (R362, R364). -/
def matrixBusy (s : State) (core : Nat) : Bool :=
  s.teams.any fun t => t.core == core && t.insts.any (·.queued)

/-- The lowest warp slot of a bundle. -/
def bundleSlot (s : State) (b : Bundle) : Nat :=
  let t := (s.team? b.grid b.team).getD {}
  ((b.members.map (t.order · / 32)).min?).getD 0

/-- R362: the keys of a ready bundle before the matrix charge, smaller first. -/
def bundleKeys (s : State) (b : Bundle) : List Nat :=
  let g := (s.grid? b.grid).getD {}
  [ if b.overdue then 0 else 1,
    if b.overdue then b.since else 0,
    if b.overdue then bundleSlot s b else 0,
    if b.yielded then 8 else 7 - g.launch.prio,
    if fpressOf s b.core ≥ 224 && clauseHolds s b isFabricOp then 1 else 0 ]

/-- R362: the keys after it. -/
def ageKeys (s : State) (b : Bundle) : List Nat := [b.since, bundleSlot s b]

def lexLt : List Nat → List Nat → Bool
  | a :: r, b :: q => a < b || (a == b && lexLt r q)
  | _, _ => false

/-- The first of a list by keys, the earlier of two whose keys agree. -/
def firstBy {α : Type} (key : α → List Nat) (l : List α) : Option α :=
  l.foldl (fun best b =>
    match best with
    | none => some b
    | some x => if lexLt (key b) (key x) then some b else some x) none

/-- R362, matrix charge: of the bundles at the start of a matrix clause while the matrix queue is not empty, those of the lowest
charge; the key does not rank the others against them (log 27). -/
def leastCharged (s : State) (l : List Bundle) : List Bundle :=
  let matrix (b : Bundle) : Bool := matrixBusy s b.core && clauseHolds s b isMatrixOp
  let charge (b : Bundle) : Nat := ((s.team? b.grid b.team).getD {}).charge
  match ((l.filter matrix).map charge).min? with
  | none => l
  | some c => l.filter fun b => !matrix b || charge b == c

/-- R362: the bundle that ranks first in a quadrant. -/
def firstBundle (s : State) (core quad : Nat) : Option Bundle :=
  let l := readyBundles s core quad
  match firstBy (bundleKeys s) l with
  | none => none
  | some x => firstBy (ageKeys s) (leastCharged s (l.filter fun b => bundleKeys s b == bundleKeys s x))

/-- The named queue of a team that a bundle's next word pushes or pops. -/
def queueWordOf (b : Bundle) : Option (Nat × Nat × Nat) :=
  let w := b.words.getD (b.idx - 1) 0
  if b.decoded && !atTerminal b && (opcOf w == 0x158 || opcOf w == 0x159) then some (b.grid, b.team, (LBody.of w).qn.toNat) else none

/-- R208: whether a bundle's PUSH or POP comes after one of a lower warp slot that another quadrant of its core is to execute in the
same cc on the same queue. -/
def behindSlot (s : State) (b : Bundle) : Bool :=
  (queueWordOf b).isSome && (List.range 4).any fun q => q != b.quad && !s.quadIssued.contains (quadId b.core q) &&
    (match firstBundle s b.core q with
     | none => false
     | some x => queueWordOf x == queueWordOf b && bundleSlot s x < bundleSlot s b)

/-- R362: the bundle a quadrant issues from. -/
def chooseBundle (s : State) (core quad : Nat) : Option Bundle := (firstBundle s core quad).filter fun b => !behindSlot s b

/-- The state in which the chosen bundle's word executes. -/
def issueState (s : State) (core quad : Nat) (b : Bundle) : State :=
  { s with cur := some b.id, quadIssued := quadId core quad :: s.quadIssued }

/-! ## Placing a word to be fetched -/

/-- A context, grid, team, thread and decoded bundle on core 0, quadrant 0, whose next word is `w`; a header is placed as the
terminal of a finished one-word clause. -/
def placeWord (s : State) (w : W128) : State :=
  let term := opcOf w == 0x3FF
  let hdr : W128 := if term then w else Header.bits { len := 1, setA := 0, setB := 1, safe := true } 0
  let b : Bundle := { id := s.nextId, grid := 0, team := 0, core := 0, quad := 0, members := [0], decoded := true, hdr := hdr,
                      words := [w], idx := if term then (Header.of w).len.toNat + 1 else 1 }
  let g : Grid := { num := 0, ctx := 0, launch := { vregs := 320, kregs := 64, tiles := 8, accg := 33, queues := 32, spad := 4194304 } }
  let t : Team := { grid := 0, index := 0, core := 0, phase := .running, warps := [{ idx := 0, slot := 0 }],
                    threads := [{ tid := 0, place := .bundle s.nextId }] }
  { s with nextId := s.nextId + 1, ctxs := s.ctxs.set {} 0 { s.ctx 0 with en := true },
           grids := g :: s.grids.filter (·.num != 0),
           teams := t :: s.teams.filter (fun x => x.grid != 0 || x.index != 0),
           bundles := b :: s.bundles.filter fun x => (x.core != 0 || x.quad != 0) && (x.grid != 0 || x.team != 0),
           quadIssued := s.quadIssued.filter (· != 0), agenda := [.issue 0 0] }

end Sys2Proof.Machine
end

