-- ==== Sys2Proof/Machine/Image.lean ====
section
/-! DEFINITION. Context memory as the task processor reads and writes it, and the records of a save image (14: R385 to R387, R480,
Tables 14-11 and 14-12). -/

namespace Sys2Proof.Machine

/-! ## Context memory as the task processor sees it -/

/-- Bytes at a virtual address of a context; none where the read faults. -/
def readVa (s : State) (ctx va n : Nat) : Option (List Byte) :=
  match translateRange s noTlb ctx va n .read with
  | .error _ => none
  | .ok l => if segPoison s (segsOf l) != 0 then none else some (segBytes s (segsOf l))

/-- The task processor, on I/O die 0, reads these bytes: their regions are homed and gathered contributions come home (R318, R439). -/
def touchVa (s : State) (ctx va n : Nat) : State :=
  match translateRange s noTlb ctx va n .read with
  | .error _ => s
  | .ok l => ioReach s 0 false (segsOf l)

/-- The physical place of a context's address that may be written. -/
def writeSegs (s : State) (ctx va n : Nat) : Option (List (Nat × Nat × Nat)) :=
  match translateRange s noTlb ctx va n .write with
  | .error _ => none
  | .ok l => some (segsOf l)

/-- Write bytes of a save image into a context's pool; its pages are marked (Table 14-13). Nothing where the pages are not writable. -/
def writeImage (s : State) (ctx va : Nat) (bytes : List Byte) : State :=
  match writeSegs s ctx va (max 1 bytes.length) with
  | some segs => markDirty (setSegBytes (ioReach s 0 true segs) segs bytes) ctx va bytes.length
  | none => s

/-! ## Records (R386, R480) -/

/-- Table 14-12. -/
def recordHeader (type flags len : Nat) : List Byte := leBytes 2 0x5153 ++ leBytes 2 type ++ leBytes 2 1 ++ leBytes 2 flags ++ leBytes 8 len

/-- A team's resources, by which its records are bounded (R479). -/
def resources (l : Launch) : List Nat :=
  [l.wpt, l.vregs, l.kregs, l.tiles, l.accg, l.queues, l.spad, if l.access == 0xFFFFFFFF then 0 else 1]

/-- Bytes reserved for one record whose layout is the firmware's, its header included. -/
def recordCap (l : Launch) (type : Nat) : Nat := 16 + 16 * (Config.saveCap type (resources l)).toNat

/-- The body of a record whose layout is the firmware's (R480): what it holds, its shape, and the contents its bytes depend on. -/
def openBody (l : Launch) (type : Nat) (shape contents : List Nat) : List Byte :=
  (List.range (16 * min (Config.saveLen type shape).toNat (Config.saveCap type (resources l)).toNat)).map (Config.saveByte type contents)

def padBody (b : List Byte) : List Byte := b ++ List.replicate ((16 - b.length % 16) % 16) 0

/-- A record of an image: its type, the flags its type gives it, and its body. -/
structure Record where
  type : Nat := 0
  flags : Nat := 0
  body : List Byte := []
deriving DecidableEq, Repr

def Record.bytes (r : Record) (final : Bool) : List Byte :=
  recordHeader r.type (r.flags + if final then 2 else 0) (16 + r.body.length) ++ r.body

/-- The image, and where each record begins. -/
def buildImage : Nat → List Record → List Byte × List (Nat × Nat)
  | _, [] => ([], [])
  | off, r :: l =>
    let b := r.bytes l.isEmpty
    let rest := buildImage (off + b.length) l
    (b ++ rest.1, (off, r.type) :: rest.2)

/-! ## HOOP records (R387) -/


def maskOf (l : List Nat) : Nat := l.foldl (fun m i => m ||| 2 ^ i) 0

/-- Whether every flit of a parked packet has been received. -/
def Parked.full (r : Parked) : Bool := (List.range (flitCount r.pkt)).all r.hoop.got.contains

/-- R387: the destination offset, the length in flits, the flit bitmap and the received flits; PARKED until the bitmap is full. -/
def hoopRecord (l : Launch) (r : Parked) : Record :=
  let n := flitCount r.pkt
  { type := 0x0030, flags := if r.full then 0 else 4
    body := openBody l 0x0030 [n] ([r.pkt.offset, n, maskOf r.hoop.got, maskOf r.hoop.bad, r.hoop.applied] ++
      (List.range n).flatMap fun i => if r.hoop.got.contains i then ((r.pkt.data.drop (64 * i)).take 64).map BitVec.toNat else []) }

/-- The records of parked packets for a team, in the order of capture. -/
def State.parkedFor (s : State) (grid team : Nat) : List Parked := s.hoopRecs.filter fun r => r.grid == grid && r.team == team

/-- Write a HOOP record again in the image it stands in. -/
def rewriteHoop (s : State) (r : Parked) : State :=
  match s.saves.find? fun x => x.team.grid == r.grid && x.team.index == r.team, s.grid? r.grid with
  | some x, some g =>
    let place := ((x.records.filter fun p => p.2 == 0x0030).zip (s.parkedFor r.grid r.team)).find? fun p => p.2.hoop.id == r.hoop.id
    match place with
    | none => s
    | some p =>
      let b := (hoopRecord g.launch r).bytes false
      let img := x.image.take p.1.1 ++ b ++ x.image.drop (p.1.1 + b.length)
      { writeImage s x.ctx (x.addr + p.1.1) b with saves := s.saves.map fun y => if y == x then { y with image := img } else y }
  | _, _ => s

end Sys2Proof.Machine
end

