-- ==== Sys2Proof/Machine/Fabric.lean ====
section
/-! DEFINITION. The request and reply meshes (16: R420 to R440, R458, R477): routers, injection, hoops, what packets
leave where they arrive, acknowledgements, fabric pressure, and the links. A node is 192 × die + node; ports are 0 N, 1 E, 2 S, 3 W. -/

namespace Sys2Proof.Machine

/-! ## Ports -/

/-- R437: flits in the receive queue of a crossing, or on their way to it. -/
def crossingQueue (s : State) (x port : Nat) (reply : Bool) : List Flit :=
  s.flits.filter fun f => f.cross && f.at' == x && f.port == port && f.reply == reply

/-- Whether a port leads somewhere and, for a crossing port, holds a credit. -/
def portOpen (s : State) (x port : Nat) (reply : Bool) : Bool :=
  match portTo x port with
  | none => false
  | some (y, .die) => (crossingQueue s y (opposite port) reply).length < 512
  | some _ => true

/-! ## Packets -/

/-- The acknowledgement of a packet by one destination (R433). -/
def sendAck (s : State) (p : Packet) (by' : Nat × Nat) (missed : Bool) : State :=
  if p.kind == 3 then s
  else { sendPacket s { id := s.nextId, kind := 3, src := coreNode by'.1, grid := p.grid, team := by'.2, dests := [(nodeCore p.src, p.team)]
                        answers := p.id, by', missed } with nextId := s.nextId + 1 }

/-- Destinations of a packet on a core. -/
def Packet.teamsOn (p : Packet) (core : Nat) : List (Nat × Nat) := p.dests.filter (·.1 == core)

/-- The teams whose scratchpads a packet writes at an endpoint. -/
def Packet.teamsAt (p : Packet) (k : Nat) : List Nat := if p.dst.isSome then [p.team] else (p.teamsOn k).map (·.2)

/-! ## Deduplication (R414, R475) -/

/-- R414: a full block goes to the next slot. -/
def Dedup.put (d : Dedup) (b : List Byte) : Dedup := { fill := (d.fill + 1) % 4096, slots := d.slots.set [] d.fill b }

/-- The slot whose bytes equal a block. -/
def Dedup.slotOf (d : Dedup) (b : List Byte) : Option Nat := (d.slots.find? fun p => p.2 == b).map (·.1)

/-- R414: a 256-byte block crosses a link in a direction: as a reference where a lookup finds its slot, else in full and into both
tables. What the receiver takes from it is the second part. -/
def Link.carry (l : Link) (dir : Nat) (b : List Byte) (lookup : Bool) : Link × List Byte :=
  if !l.dedup then (l, b)
  else match if lookup then (l.sender.get {} dir).slotOf b else none with
    | some k => (l, (l.mirror.get {} dir).slots.get [] k)
    | none => ({ l with sender := l.sender.set {} dir ((l.sender.get {} dir).put b), mirror := l.mirror.set {} dir ((l.mirror.get {} dir).put b) }, b)

/-- Blocks cross a link, in the form they are sent in; what a hash lookup finds is free. -/
def carryBlocks (s : State) (link dir : Nat) (l : List (List Byte)) : State :=
  if l.isEmpty then s else updLink s link fun k => ((List.range l.length).zip l).foldl (fun k b => (k.carry dir b.2 (Config.freeChoice (s.free + b.1) % 2 == 1)).1) k

/-- The whole 256-byte blocks of bytes at an address, but for those with a byte that `mask` leaves out. -/
def wholeBlocks (addr : Nat) (bytes mask : List Byte) : List (List Byte) :=
  ((cutRun 256 addr bytes.length).filter fun c => c.2 == 256 && ((mask.drop (c.1 - addr)).take 256).all (· == 0xFF)).map fun c =>
    (bytes.drop (c.1 - addr)).take 256

/-- The blocks that a packet brings across a link: of a block form its bytes, of a payload its blocks, else those of the device bytes it is
of, but for poisoned ones. -/
def blocksIn (s : State) (p : Packet) : List (List Byte) :=
  if p.kind == 8 then [p.data]
  else if !p.data.isEmpty then wholeBlocks p.base p.data p.mask
  else match p.place with
    | some (0, a, n) => ((cutRun 256 a n).filter fun c => c.2 == 256 && s.poisonOf 0 c.1 256 == 0).map fun c => s.physBytes 0 c.1 256
    | _ => []

/-- The last flit of a data packet leaves the queue of a die boundary's port, with the packet's blocks (R414, R437). Poisoned blocks enter
no table. -/
def crossLink (s : State) (y port : Nat) (f : Flit) : State :=
  match s.packet? f.pkt with
  | none => s
  | some p => if !p.onReply || p.bad || p.tainted || f.poisoned || f.idx + 1 != flitCount p then s
      else carryBlocks s (boundaryOf y port) (if port == 3 || port == 0 then 0 else 1) (blocksIn s p)

/-- R414, R440: whole blocks cross a UALink port, out of the part (0) or into it (1), in block form where the port has the capability and
the sender takes it, which is free. -/
def peerBlocks (s : State) (port dir addr : Nat) (bytes mask : List Byte) : State :=
  let form (b : List Byte) : List Byte := if (linkOf s (10 + port)).cmp && Config.freeChoice (s.free + 1) % 2 == 1 then blockForm b else b
  carryBlocks s (10 + port) dir ((wholeBlocks addr bytes mask).map form)

/-! ## Arrival at an endpoint -/

/-- An I/O die sends a packet's payload on to a peer, or takes what a peer answers to a read, by the peer's port. -/
def passPeer (s : State) (p : Packet) : State :=
  match p.place with
  | some (2, a, n) =>
    if p.bad then s
    else if p.back == 0 then peerBlocks s (peerPort s a) 0 p.base p.data p.mask
    else peerBlocks s (peerPort s a) 1 a (s.physBytes 2 a n) (List.replicate n 0xFF)
  | _ => s

/-- A read of a scribe is answered where it arrives, with what its homes hold then (R422). -/
def serveRead (s : State) (p : Packet) : State :=
  let segs := p.place.toList
  let s := recallLines (reachHomes s (384 + nodeDie p.src) p.src segs) (segLines segs)
  sendAll (answer s p) (slicePackets s p)

/-- What came poisoned of an access that was performed as its packet left leaves its sectors poisoned (R337, log 22). -/
def spoil (s : State) (p : Packet) : State :=
  if p.bad && p.data.isEmpty && (p.kind == 1 || p.kind == 5) then poisonSegs s p.place.toList else s

/-- The packet has arrived whole at an endpoint: data for teams are acknowledged; a request that its home has yet to serve, arrivals
and answers await their own step; everything else is answered. -/
def arrived (s : State) (p : Packet) (k : Nat) : State :=
  if p.kind == 6 then (p.teamsOn k).foldl (fun s d => sendAck s p d false) s
  else
    let s := s.updPacket p.id fun q => { q with reached := q.reached ++ [k], data := if p.isAnswer then q.data else [] }
    if p.dst.isNone || p.isAnswer then s
    else match p.req.bind s.req? with
      | some r => if p.bad then s.updReq r.id fun q => { q with bad := true } else s
      | none => if p.chan.isSome && p.back != 0 then serveRead (passPeer s p) p else answer (spoil (passPeer s p) p) p

/-! ## Parked packets (R387) -/

/-- The record of a packet parked for a core. -/
def parkedAt (s : State) (pkt core : Nat) : Option Parked := s.hoopRecs.find? fun r => r.pkt.id == pkt && r.hoop.core == core

/-- Flits of a parked packet go into its record; when its bitmap becomes full PARKED clears and the packet is acknowledged (log 34). -/
def fillParked (s : State) (r : Parked) (got bad : List Nat) : State :=
  let q := { r with hoop := { r.hoop with got := r.hoop.got ++ got, bad := r.hoop.bad ++ bad } }
  let s := rewriteHoop { s with hoopRecs := s.hoopRecs.map fun x => if x.hoop.id == r.hoop.id then q else x } q
  if q.full && !r.full then arrived s r.pkt r.hoop.core else s

/-! ## Hoops (R431, R432) -/

def hoopsAt (s : State) (k : Nat) : List Hoop := s.hoops.filter (·.core == k)

/-- R432: whether an endpoint may apply a packet: it is no member of an ordered transfer, or the packet before it has been applied. -/
def inOrder (s : State) (p : Packet) (k : Nat) : Bool := !p.ord || p.oseq == s.oseqDone.get 0 (pairKey p k)

/-- The lowest free hoop of 0 to 62. -/
def freeHoop (hs : List Hoop) : Option Nat := (List.range 63).find? fun i => !(hs.any (·.slot == i))

/-- The hoop that an endpoint reserved for the answer to a packet (Table 16-3). -/
def reservedFor (hs : List Hoop) (p : Packet) : Option Hoop := hs.find? fun h => h.reserved && p.isAnswer && h.pkt == p.answers

/-- Table 16-3: the hoop that admits a flit: `some none` for a flit applied at once, `none` when it is refused. -/
def admission (s : State) (f : Flit) (p : Packet) (k : Nat) : Option (Option Nat) :=
  let hs := hoopsAt s k
  if (flitCount p ≤ 1 && inOrder s p k) || (parkedAt s f.pkt k).isSome then some none
  else match (hs.find? fun h => h.pkt == f.pkt && !h.reserved).or (reservedFor hs p) with
    | some h => some (some h.slot)
    | none =>
      if f.ripe == 1023 && !(hs.any (·.slot == 63)) then some (some 63)
      else if !inOrder s p k && 63 ≤ ((hs.map (·.slot)).filter (· < 63)).length + 16 then none
      else (freeHoop hs).map some

/-- Write the sectors of a hoop that have every lower one present. -/
def applyHoop (s : State) (p : Packet) (h : Hoop) : State × Hoop :=
  let n := ((List.range (flitCount p)).find? fun i => !h.got.contains i).getD (flitCount p)
  (landFlits s p (p.teamsAt h.core) h.applied n h.bad, { h with applied := n })

/-- A packet is applied at an endpoint: its order number is past (R432). Poison that came with a request or an answer stays with it. -/
def applied (s : State) (p : Packet) (k : Nat) (bad : Bool) : State :=
  let s := if p.ord then { s with oseqDone := s.oseqDone.set 0 (pairKey p k) ((p.oseq + 1) % 256) } else s
  let p := if bad && p.dst.isSome then { p with bad := true } else p
  arrived (s.updPacket p.id fun _ => p) p k

/-- Whole packets that were held for the one before them are applied in turn, 64 hoops at most (R432). -/
def applyHeld (k : Nat) : Nat → State → State
  | 0, s => s
  | n + 1, s =>
    match ((hoopsAt s k).filterMap fun h => (s.packet? h.pkt).map fun p => (h, p)).find? fun hp =>
        !hp.1.reserved && hp.2.ord && hp.1.applied == flitCount hp.2 && inOrder s hp.2 k with
    | none => s
    | some (h, p) => applyHeld k n (applied { s with hoops := s.hoops.filter (·.id != h.id) } p k (!h.bad.isEmpty))

/-- A hoop's packet is whole: it is applied, and those that waited for it, or it waits for the one before it. -/
def wholeHoop (s : State) (p : Packet) (h : Hoop) : State :=
  if inOrder s p h.core then applyHeld h.core 64 (applied s p h.core (!h.bad.isEmpty)) else { s with hoops := s.hoops ++ [h] }

/-- A flit ejects at an endpoint and is admitted. -/
def ejectFlit (s : State) (f : Flit) (k : Nat) : State :=
  match s.packet? f.pkt with
  | none => s
  | some p =>
    match admission s f p k, parkedAt s f.pkt k with
    | none, _ => s
    | some none, some r => fillParked s r [f.idx] (if f.poisoned then [f.idx] else [])
    | some none, none => applied (landFlits s p (p.teamsAt k) 0 1 (if f.poisoned then [0] else [])) p k f.poisoned |> applyHeld k 64
    | some (some slot), _ =>
      let h := (((hoopsAt s k).find? fun h => h.pkt == f.pkt && !h.reserved).or (reservedFor (hoopsAt s k) p)).getD
        { id := s.nextId, core := k, slot, since := s.fc }
      let q := applyHoop { s with nextId := s.nextId + 1 } p
        { h with pkt := f.pkt, reserved := false, got := h.got ++ [f.idx], bad := if f.poisoned then h.bad ++ [f.idx] else h.bad }
      let s := { q.1 with hoops := q.1.hoops.filter fun x => x.id != h.id }
      if q.2.applied == flitCount p then wholeHoop s p q.2 else { s with hoops := s.hoops ++ [q.2] }

/-! ## A router in one fc (R424, R434, R458) -/

/-- R424: rank, smaller first. -/
def flitKeys (f : Flit) : List Nat :=
  [1023 - f.ripe, f.src % 192, f.src / 192, f.sep, f.tag, f.idx, (f.mc.min?).getD 0, f.port]

def keysLt : List Nat → List Nat → Bool
  | a :: r, b :: q => a < b || (a == b && keysLt r q)
  | _, _ => false

def insertFlit (x : Flit) : List Flit → List Flit
  | [] => [x]
  | y :: r => if keysLt (flitKeys x) (flitKeys y) then x :: y :: r else y :: insertFlit x r

def rankFlits (l : List Flit) : List Flit := l.foldl (fun a f => insertFlit f a) []

/-- A router while it serves a fc: the state, the ports taken and whether the local eject is. -/
structure Router where
  s : State
  taken : List Nat := []
  ejected : Bool := false

def Router.free (r : Router) (x : Nat) (reply : Bool) (port : Nat) : Bool := !r.taken.contains port && portOpen r.s x port reply

/-- Send a flit out of a port: one fc to the next node, 32 to the receive queue of a crossing, or into the I/O die's endpoint. -/
def Router.send (r : Router) (x port : Nat) (f : Flit) : Router :=
  match portTo x port with
  | none => r
  | some (_, .io) => { r with taken := port :: r.taken, s := ejectFlit r.s f (endOf x (7 + port)) }
  | some (y, c) =>
    let die := c == .die
    { r with taken := port :: r.taken
             s := { r.s with flits := r.s.flits ++
               [{ f with at' := y, port := opposite port, cross := die, due := r.s.fc + (if die then 32 else 1), ripe := if die then 0 else f.ripe }] } }

/-- R425: a losing flit leaves by the first free port other than a crossing, and ripens. -/
def Router.deflect (r : Router) (x : Nat) (reply : Bool) (f : Flit) : Router :=
  match [0, 1, 2, 3].find? fun p => !isCrossing x p && r.free x reply p with
  | none => { r with s := { r.s with flits := r.s.flits ++ [{ f with due := r.s.fc + 1 }] } }
  | some p =>
    let q := r.send x p { f with ripe := min (f.ripe + 1) 1023 }
    { q with s := countTelemetry { q.s with deflects := q.s.deflects.set 0 x (q.s.deflects.get 0 x + 1) } 0x110 1 }

def Router.eject (r : Router) (f : Flit) (k : Nat) : Router := { r with s := ejectFlit r.s f k, ejected := true }

def Router.admits (r : Router) (f : Flit) (k : Nat) : Bool :=
  match r.s.packet? f.pkt with
  | none => true
  | some p => (admission r.s f p k).isSome

/-- The endpoint that a flit goes to at its node. -/
def Router.endAt (r : Router) (f : Flit) (x : Nat) : Nat :=
  match (r.s.packet? f.pkt).bind (·.dst) with
  | some (_, e) => endOf x e
  | none => nodeCore x

/-- The I/O port by which a flit leaves the part at its own node, where the endpoint it goes to stands behind that port. -/
def ioPort (k : Nat) : Option Nat := if 384 ≤ k && 7 ≤ (k - 384) % 16 then some ((k - 384) % 16 - 7) else none

/-- The free ports of a flit at a node that bring it nearer. -/
def Router.ways (r : Router) (x : Nat) (f : Flit) (dst : Nat) : List Nat :=
  if dst == x then ((ioPort (r.endAt f x)).toList.filter fun p => r.free x f.reply p && r.admits f (r.endAt f x))
  else (productive x dst).filter (r.free x f.reply)

/-- Serve a flit bound for one endpoint. -/
def Router.unicast (r : Router) (x : Nat) (f : Flit) (dst : Nat) : Router :=
  let k := r.endAt f x
  if dst == x && (ioPort k).isNone && !r.ejected && r.admits f k then r.eject f k
  else match (r.ways x f dst).head? with
    | some p => r.send x p f
    | none => r.deflect x f.reply f

/-- R434: the subsets of a multicast flit at a node, by directional port; cores at the node apart. -/
def subsetsOf (x : Nat) (mc : List Nat) : List (Nat × List Nat) :=
  let dir (c : Nat) : Nat :=
    let y := coreNode c
    if nodeCol x < nodeCol y then 1 else if nodeCol y < nodeCol x then 3 else if nodeRow y < nodeRow x then 0 else 2
  ([0, 1, 2, 3].map fun p => (p, mc.filter fun c => coreNode c != x && dir c == p)).filter fun q => !q.2.isEmpty

/-- The port of the largest subset, ties to the one that holds the lowest core. -/
def largestPort (l : List (Nat × List Nat)) : Option Nat :=
  (l.foldl (fun (best : Option (Nat × List Nat)) q =>
    match best with
    | none => some q
    | some b => if b.2.length < q.2.length || (b.2.length == q.2.length && (q.2.min?).getD 0 < (b.2.min?).getD 0) then some q else some b)
    none).map (·.1)

/-- Serve a multicast flit with `below` arriving flits still to be served after it. -/
def Router.multicast (r : Router) (x below : Nat) (f : Flit) : Router :=
  let here := f.mc.filter fun c => coreNode c == x
  let subs := subsetsOf x f.mc
  if subs.isEmpty then r.unicast x f x
  else
    let left := ([0, 1, 2, 3].filter fun p => r.free x f.reply p && !(subs.any (·.1 == p))).length
    if subs.all (fun q => r.free x f.reply q.1) && (here.isEmpty || (!r.ejected && r.admits f (here.headD 0))) && below ≤ left then
      let r := if here.isEmpty then r else r.eject f (here.headD 0)
      subs.foldl (fun r q => r.send x q.1 { f with mc := q.2 }) r
    else match largestPort subs with
      | some p => if r.free x f.reply p then r.send x p f else r.deflect x f.reply f
      | none => r

/-- Serve ranked flits in order. -/
def Router.serve (x : Nat) : List Flit → Router → Router
  | [], r => r
  | f :: l, r => Router.serve x l (if f.mc.isEmpty then r.unicast x f f.dst else r.multicast x l.length f)

/-- Flits that arrive at a router by its directional ports in this fc. -/
def arriving (s : State) (x : Nat) (reply : Bool) : List Flit :=
  s.flits.filter fun f => !f.cross && f.at' == x && f.reply == reply && f.due ≤ s.fc

/-- Flits that wait in a node's crossing receive queues. -/
def crossed (s : State) (x : Nat) (reply : Bool) : List Flit :=
  s.flits.filter fun f => f.cross && f.at' == x && f.reply == reply && f.due ≤ s.fc

/-- A node's own flits in flight: those that its endpoints injected into its die. -/
def ownFlits (s : State) (x : Nat) : Nat :=
  ((s.flits.filter fun f => f.inj == x && !f.cross && nodeDie f.at' == nodeDie x).map fun f => (f.pkt, f.idx)).eraseDups.length

/-- R428: whether n more flits of a node with d destinations each may enter its die. -/
def roomFor (s : State) (x n d : Nat) : Bool := inFlight s (nodeDie x) + n * d ≤ 4096 && ownFlits s x + n < 64

/-- R429: a node waited, or injected, in this fc. -/
def noteWait (s : State) (x : Nat) : State := { s with waited := (x :: s.waited).eraseDups }
def noteInjected (s : State) (x : Nat) : State := { s with injected := (x :: s.injected).eraseDups }

/-- A flit of a node enters the mesh by a free port that is productive for it, else the node waits. -/
def Router.inject (r : Router) (x : Nat) (f : Flit) (ports : List Nat) (rest : State) : Router × Bool :=
  match ports with
  | p :: _ => (({ r with s := noteInjected rest x } : Router).send x p { f with inj := x }, true)
  | [] => ({ r with s := noteWait r.s x }, false)

/-- Crossing injections: the oldest flit of each receive queue takes a free productive port, or the local eject (R424, R428). -/
def Router.injectCrossed (x : Nat) (reply : Bool) (r : Router) : Router :=
  [0, 1, 2, 3].foldl (fun r port =>
    match (crossed r.s x reply).find? (·.port == port) with
    | none => r
    | some f =>
      let without := crossLink { r.s with flits := r.s.flits.erase f } x port f
      if !roomFor r.s x 1 1 then { r with s := noteWait r.s x }
      else if f.dst == x && (ioPort (r.endAt f x)).isNone then
        if !r.ejected && r.admits f (r.endAt f x) then ({ r with s := noteInjected without x } : Router).eject f (r.endAt f x)
        else { r with s := noteWait r.s x }
      else (r.inject x { f with cross := false, ripe := 0 } (r.ways x f f.dst) without).1) r

/-- The packets whose flits a node is injecting on a mesh. -/
def injecting (s : State) (x : Nat) (reply : Bool) : List Packet :=
  s.packets.filter fun p => p.begun && p.src == x && p.onReply == reply && p.next < flitCount p && !p.away.isEmpty

/-- The flit a packet injects next. A multicast one carries its source's node as DNODE (Table 16-1). -/
def nextFlit (p : Packet) : Flit :=
  { pkt := p.id, idx := p.next, reply := p.onReply, src := p.src, sep := p.sep, tag := p.tag, ord := p.ord, oseq := p.oseq
    dst := if p.kind == 6 then p.src else endNode (p.away.headD 0), mc := if p.kind == 6 then p.away else [] }

/-- The free ports of a packet's flit at its own node (R458). -/
def Router.outPorts (r : Router) (x : Nat) (f : Flit) : List Nat :=
  if f.mc.isEmpty then r.ways x f f.dst else ((largestPort (subsetsOf x f.mc)).toList.filter (r.free x f.reply))

/-- Inject the next flit of a packet. -/
def Router.injectOne (x : Nat) (r : Router) (p : Packet) : Router × Bool :=
  let f := nextFlit p
  r.inject x f (r.outPorts x f) (r.s.updPacket p.id fun q => { q with next := q.next + 1 })

/-- The local injections: the I/O port's, one of the local port, and on the reply mesh a second one of the slice (R420). -/
def Router.injectLocal (x : Nat) (reply : Bool) (r : Router) : Router :=
  let io := (injecting r.s x reply).filter fun p => 7 ≤ p.sep
  let r := io.foldl (fun r p => (r.injectOne x p).1) r
  match (injecting r.s x reply).find? fun p => p.sep < 7 with
  | none => r
  | some p =>
    let q := r.injectOne x p
    if !reply then q.1
    else match (injecting q.1.s x reply).find? fun y => y.sep == 1 && (q.2 || y.id != p.id) with
      | none => q.1
      | some y => (q.1.injectOne x y).1

/-- One router, one mesh, one fc. -/
def routeFc (s : State) (x : Nat) (reply : Bool) : State :=
  let inc := rankFlits (arriving s x reply)
  let r : Router := { s := { s with flits := s.flits.filter fun f => !(!f.cross && f.at' == x && f.reply == reply && f.due ≤ s.fc) } }
  (Router.injectLocal x reply (Router.injectCrossed x reply (Router.serve x inc r))).s

def routerId (x : Nat) (reply : Bool) : Nat := 2 * x + (if reply then 1 else 0)

/-- Whether a router has anything to do in this fc. -/
def routerBusy (s : State) (x : Nat) (reply : Bool) : Bool :=
  !(arriving s x reply).isEmpty || !(crossed s x reply).isEmpty || !(injecting s x reply).isEmpty

/-- R424. -/
def execFlitArrival (die : Nat) (reply : Bool) (node : Nat) (s : State) : Host.Outcome State Fault Refusal :=
  let x := 192 * die + node
  if die < 8 && node < 192 && routerBusy s x reply && !s.routed.contains (routerId x reply) then
    .next { routeFc s x reply with routed := routerId x reply :: s.routed, free := s.free + 1 }
  else .refused (.notEnabled "FLIT_ARRIVAL")

/-! ## Injection and pressure (R428 to R430, R477) -/

/-- R426. -/
def draining (s : State) (die : Nat) : Bool := s.flits.any fun f => !f.cross && nodeDie f.at' == die && f.ripe == 1023

/-- The lowest tag unused among the outstanding packets of an endpoint (R422). -/
def freeTag (s : State) (p : Packet) : Option Nat :=
  (List.range 64).find? fun t => !(s.packets.any fun q => q.begun && q.src == p.src && q.sep == p.sep && !q.isAnswer && q.tag == t)

/-- R430: while a node's pressure is 224 or more, its endpoints begin one packet in 8 fc, in turn by SEP. -/
def throttled (s : State) (p : Packet) : Bool :=
  224 ≤ s.pressure.get 0 p.src &&
  (s.fc < s.lastBegin.get 0 p.src + 7 ||
    s.packets.any fun q => !q.begun && q.src == p.src && !q.away.isEmpty && q.sep < 7 &&
      (q.sep + 15 - s.lastSep.get 0 p.src) % 16 < (p.sep + 15 - s.lastSep.get 0 p.src) % 16)

/-- Table 16-3: whether an endpoint can reserve a hoop for the data that answer its request. -/
def hoopForReply (s : State) (p : Packet) : Bool :=
  let hs := hoopsAt s (endOf p.src p.sep)
  p.back == 0 || ((hs.filter (·.reserved)).length < 32 && (freeHoop hs).isSome)

/-- R432: a source has fewer than 128 packets of ordered transfers to the destination that are not acknowledged. -/
def orderRoom (s : State) (p : Packet) : Bool :=
  !p.ord || (s.packets.filter fun q => q.begun && q.ord && q.src == p.src && q.sep == p.sep && q.dst == p.dst).length < 128

/-- Table 16-6: fewer than 4,096 of the part's requests to the host wait for an answer. -/
def hostRoom (s : State) (p : Packet) : Bool :=
  let asks (q : Packet) : Bool := !q.isAnswer && q.back != 0 && (q.place.map (·.1)) == some 1
  !asks p || (s.packets.filter fun q => q.begun && asks q).length < 4096

/-- A scribe channel's packets leave in their order. -/
def inTurn (s : State) (p : Packet) : Bool := p.chan.isNone || p.isAnswer || s.packets.all fun q => q.begun || q.isAnswer || q.chan != p.chan || p.id ≤ q.id

/-- R428, R430: whether a packet may begin now. The I/O die's port tests the counts alone. -/
def mayBegin (s : State) (p : Packet) : Bool :=
  !p.begun && ((freeTag s p).isSome || p.isAnswer) && hostRoom s p && inTurn s p &&
  (p.away.isEmpty ||
    ((injecting s p.src p.onReply).all (·.sep != p.sep) && roomFor s p.src (flitCount p) p.away.length && hoopForReply s p && orderRoom s p &&
     (7 ≤ p.sep || (!draining s (nodeDie p.src) && !throttled s p))))

/-- The tag a packet carries: its own, or that of the packet it answers. -/
def tagOf (s : State) (p : Packet) : Nat :=
  if p.isAnswer then ((s.packet? p.answers).map (·.tag)).getD 0 else (freeTag s p).getD 0

/-- Reserve the hoop for the answer's data. -/
def reserveHoop (s : State) (p : Packet) : State :=
  if p.back == 0 then s
  else { s with nextId := s.nextId + 1
                hoops := s.hoops ++ [{ id := s.nextId, pkt := p.id, core := endOf p.src p.sep, reserved := true
                                       slot := (freeHoop (hoopsAt s (endOf p.src p.sep))).getD 0, since := s.fc }] }

/-- R428, R477: begin a packet. Destinations at its own node are served inside the node. -/
def beginPacket (s : State) (p : Packet) : State :=
  let p := { p with begun := true, tag := tagOf s p }
  let s := s.updPacket p.id fun _ => p
  let s := if p.away.isEmpty then s
    else reserveHoop { s with lastBegin := s.lastBegin.set 0 p.src (s.fc + 1), lastSep := s.lastSep.set 0 p.src p.sep } p
  (p.ends.filter fun k => endNode k == p.src).foldl (fun s k => arrived (landFlits s p (p.teamsAt k) 0 (flitCount p) []) p k) s

/-- R422: a request that waits for nothing leaves its core, as packets to the homes of what it touches; a load that its L1 serves whole
does not leave. -/
def sendable (s : State) (r : Req) : Bool :=
  !r.sent && !r.accepted && r.rehome.isNone && reqReady s r && (match reqSegs s r with
    | .error _ => false
    | .ok segs => r.gathered || !l1Serves s r segs)

/-- R422, R428: a packet begins, or a request makes its packets. -/
def execPacketInjection (n : Nat) (s : State) : Host.Outcome State Fault Refusal :=
  match s.packet? n with
  | some p => if mayBegin s p then .next { beginPacket s p with free := s.free + 1 } else .refused (.notEnabled "PACKET_INJECTION")
  | none => match s.req? n with
    | none => .refused (.notEnabled "PACKET_INJECTION")
    | some r => if sendable s r then .next { sendReq s r (placesOf s r) with free := s.free + 1 } else .refused (.notEnabled "PACKET_INJECTION")

/-- R429 for one node. -/
def pressureOf (s : State) (x : Nat) : Nat :=
  if draining s (nodeDie x) then 255
  else max (255 * inFlight s (nodeDie x) / 4096) (255 * ((s.waits.get [] x).filter fun c => c < s.fc && s.fc ≤ c + 64).length / 64)

/-- R429: once in each fc that is a multiple of 16. -/
def execFabricPressureUpdate (s : State) : Host.Outcome State Fault Refusal :=
  if s.fc % 16 != 0 || s.pressureAt == s.fc + 1 then .refused (.notEnabled "FABRIC_PRESSURE_UPDATE")
  else .next { s with pressure := (List.range 1536).foldl (fun m x => m.set 0 x (pressureOf s x)) [], pressureAt := s.fc + 1, free := s.free + 1 }

/-! ## Acknowledgements and arrivals (R215, R260, R433) -/

/-- The reply of an engine command is complete: its operations take the bits gathered. -/
def completeCmd (s : State) (cmd : Nat) : State :=
  { s with ops := s.ops.map fun o => if o.wait == .reply cmd then { o with wait := .ready, dst := dstOf o.dreg [BitVec.ofNat 64 o.acc] } else o }

/-- A destination's well was found not armed (R260). -/
def noteMiss (s : State) (cmd rank : Nat) : State :=
  { s with ops := s.ops.map fun o => if o.wait == .reply cmd then { o with acc := o.acc ||| 2 ^ (16 + rank) } else o }

/-- An acknowledgement reaches the source of the packet it answers. -/
def acknowledge (s : State) (a q : Packet) : State :=
  let s := { s with packets := (s.packets.filter (·.id != a.id)).map fun p => if p.id == q.id then { p with dests := p.dests.erase a.by' } else p }
  let s := match q.kind, q.arrive with
    | 6, some (o, n) =>
      { sendPacket s { id := s.nextId, kind := 7, src := q.src, grid := q.grid, team := q.team, dests := [a.by'], arrive := some (o, n), cmd := q.cmd }
        with nextId := s.nextId + 1 }
    | _, _ => s
  let s := match q.cmd with
    | some c => if a.missed then noteMiss s c (((s.team? q.grid a.by'.2).map (·.rank)).getD 0) else s
    | none => s
  let s := if (q.dests.erase a.by').isEmpty then { s with packets := s.packets.filter (·.id != q.id) } else s
  match q.cmd with
  | some c => if s.packets.any (·.cmd == some c) then s else completeCmd s c
  | none => s

/-- The columns of a thread's lane of a tile hold poison. -/
def poisonColumns (x m : Nat) (t : Team) : Team :=
  t.updWarp (x / 32) fun w => { w with tilePoison := (w.tilePoison ++ (List.range 8).map fun i => 2 * (128 * m + 4 * (x % 32)) + i).eraseDups }

/-- R337, R437: an answer that came poisoned poisons what waits for it: the columns of a tile, the operation, or the entry of the load. -/
def poisonAnswer (s : State) (q : Packet) : State :=
  match q.thread, q.tile with
  | some (g, t, x), some m => s.updTeam g t (poisonColumns x m)
  | _, _ =>
  let mine (o : Op) : Bool := q.op == some o.id || (q.req.isSome && q.req == o.via)
  { s with
    ops := s.ops.map fun o => if mine o && o.poison.isNone then { o with poison := some (poisonTrap 8) } else o
    teams := s.teams.map fun t => { t with queues := t.queues.map fun k => { k with fifos := k.fifos.map fun f =>
      { f with entries := f.entries.map fun e => if q.req == some e.req && e.poison.isNone then
          { e with poison := some { poisonTrap 8 with aux := entryAux k.n e.slot } } else e } } } }

/-- What a scribe's read has brought reaches its channel, by the offset in the source. -/
def fillScribe (s : State) (a q : Packet) : State :=
  match q.chan with
  | none => s
  | some ch => if q.back == 0 then s else
    { s with scribes := s.scribes.map fun c => if (c.die, c.ch) == ch then { c with buf := c.buf ++ [(q.from', answerData a q)] } else c }

/-- R422: an answer reaches its endpoint: the tag and the reserved hoop of the packet that it answers are free. -/
def takeAnswer (s : State) (a : Packet) : State :=
  let s := match s.packet? a.answers with
    | some q => fillScribe (if a.bad && q.back != 0 then poisonAnswer s q else s) a q
    | none => s
  { s with packets := s.packets.filter fun p => p.id != a.id && p.id != a.answers
           hoops := s.hoops.filter fun h => !(h.reserved && h.pkt == a.answers) }

/-- R433. -/
def execAcknowledgement (n : Nat) (s : State) : Host.Outcome State Fault Refusal :=
  match s.packet? n with
  | none => .refused (.notEnabled "ACKNOWLEDGEMENT")
  | some a =>
    if !a.isAnswer || a.reached.isEmpty then .refused (.notEnabled "ACKNOWLEDGEMENT")
    else if a.dst.isSome then .next { takeAnswer s a with free := s.free + 1 }
    else match s.packet? a.answers with
      | some q => .next { acknowledge s a q with free := s.free + 1 }
      | none => .next { s with packets := s.packets.filter (·.id != n), free := s.free + 1 }

/-- Whether a team stands on a core, and so answers its peers. -/
def resident (p : Phase) : Bool :=
  match p with
  | .running | .holding | .held | .saving .. | .ending => true
  | _ => false

/-- Whether a team is saved, so that packets for it are parked (R387). -/
def parked (p : Phase) : Bool :=
  match p with
  | .pending .. | .kept _ => true
  | _ => false

/-- R215: a well arrival is applied, or discarded when the well is not armed, and answered. -/
def execWellArrival (n : Nat) (s : State) : Host.Outcome State Fault Refusal :=
  match s.packet? n with
  | none => .refused (.notEnabled "WELL_ARRIVAL")
  | some p =>
    match p.arrive, p.reached, p.dests with
    | some (o, amt), _ :: _, d :: _ =>
      if p.kind != 7 then .refused (.notEnabled "WELL_ARRIVAL")
      else match s.team? p.grid d.2 with
        | none => .next { sendAck { s.updPacket n (fun q => { q with reached := [] }) with free := s.free + 1 } p d true with free := s.free + 1 }
        | some t =>
          if parked t.phase then .refused (.notEnabled "WELL_ARRIVAL")
          else
            let live := (t.well o).live
            let s := s.updPacket n fun q => { q with reached := [] }
            let s := if live then s.setTeam (arriveAt t o amt) else s
            .next { sendAck s p d (!live) with free := s.free + 1 }
    | _, _, _ => .refused (.notEnabled "WELL_ARRIVAL")

/-- R433: B_die + 1,024 fc. -/
def hoopLimit : Nat := 112664 + 1024

/-- R433: a parked packet completes within the same bound. -/
def parkedTimeout (n : Nat) (s : State) : Host.Outcome State Fault Refusal :=
  match s.hoopRecs.find? (·.hoop.id == n) with
  | none => .refused (.notEnabled "HOOP_TIMEOUT")
  | some r =>
    let missing := (List.range (flitCount r.pkt)).filter fun i => !r.hoop.got.contains i
    if s.fc < r.hoop.since + hoopLimit || missing.isEmpty then .refused (.notEnabled "HOOP_TIMEOUT")
    else .next { fillParked s r missing missing with free := s.free + 1 }

/-- R433. -/
def execHoopTimeout (n : Nat) (s : State) : Host.Outcome State Fault Refusal :=
  match s.hoops.find? (·.id == n) with
  | none => parkedTimeout n s
  | some h =>
    if h.reserved || s.fc < h.since + hoopLimit then .refused (.notEnabled "HOOP_TIMEOUT")
    else match s.packet? h.pkt with
      | none => .next { s with hoops := s.hoops.filter (·.id != n), free := s.free + 1 }
      | some p =>
        let missing := (List.range (flitCount p)).filter fun i => !h.got.contains i
        if missing.isEmpty then .refused (.notEnabled "HOOP_TIMEOUT")
        else
          let q := applyHoop s p { h with got := h.got ++ missing, bad := h.bad ++ missing }
          .next { wholeHoop { q.1 with hoops := q.1.hoops.filter (·.id != n) } p q.2 with free := s.free + 1 }

/-! ## Link events (R414, R437) -/

/-- R437: a frame fails its CRC and is replayed from the retry buffer. Whether the replay comes through, and the frame counts as corrected
(Table 19-6), is free. -/
def execLinkRetry (n : Nat) (s : State) : Host.Outcome State Fault Refusal :=
  if (linkOf s n).retries < 8 then
    let mended := Config.freeChoice s.free % 2 == 0
    let s1 := if mended then countTelemetry s 0x40 1 else s
    .next { updLink s1 n (fun l => { l with retries := if mended then 0 else l.retries + 1, replays := l.replays + 1 }) with free := s.free + 1 }
  else .refused (.notEnabled "LINK_RETRY")

/-- What a link samples at its training (Table 19-2): compressed blocks cross a UALink port when every peer advertises them. Its
tables are empty (R414). -/
def trainLink (nocmp nodedup : Bool) (peers : List Nat) (l : Link) : Link :=
  { l with up := true, peers := peers, retries := 0, sender := [], mirror := []
           cmp := !nocmp && (l.n < 10 || peers.all Config.peerHoldsBlocks), dedup := !nodedup }

/-- R437: after 8 failed retries the link retrains and delivers the frame's flits poisoned. Which flits of the link the frame
carries is free. -/
def execLinkRetrain (n : Nat) (s : State) : Host.Outcome State Fault Refusal :=
  if (linkOf s n).retries != 8 then .refused (.notEnabled "LINK_RETRAIN")
  else
    let hit (i : Nat) (f : Flit) : Bool :=
      f.cross && s.fc < f.due && boundaryOf f.at' f.port == n && (Config.freeChoice s.free >>> i) % 2 == 1
    let all := (List.range s.flits.length).zip s.flits
    let lost := (all.filter fun p => hit p.1 p.2).map fun p => p.2.pkt
    let s1 := updLink (countTelemetry s 0xC0 1) n fun l => { trainLink s.mgmt.nocmp s.mgmt.nodedup l.peers l with up := l.up, retrains := l.retrains + 1 }
    .next { s1 with flits := all.map (fun p => if hit p.1 p.2 then { p.2 with poisoned := true } else p.2)
                    packets := s1.packets.map fun p => if lost.contains p.id then { p with tainted := true } else p
                    free := s.free + 1 }

/-- R414, Table 16-4: a link trains: its tables are empty, and it samples its capabilities. -/
def execLinkTraining (n : Nat) (peers : List Nat) (s : State) : Host.Outcome State Fault Refusal :=
  .next { updLink s n (trainLink s.mgmt.nocmp s.mgmt.nodedup peers) with free := s.free + 1 }

end Sys2Proof.Machine
end

