-- ==== Sys2Proof/Machine/Migration.lean ====
section
/-! DEFINITION. Sweeping dirty bits (R391) and the migration engine (15: R415 to R419, R444). -/

namespace Sys2Proof.Machine

/-! ## Sweeps (R391) -/

/-- Read and clear the 64 dirty bits of the 256 KiB span that holds `va`. -/
def sweep64 (s : State) (ctx va : Nat) : State × Nat :=
  match dirtyLeaf s ctx va with
  | none => (s, 0)
  | some leaf =>
    let a := leaf + bitsOf va 18 3 * 8
    (s.setPhysBytes 0 a (leBytes 8 0), leNat (s.physBytes 0 a 8))

/-- Read and clear one page's dirty bit. -/
def sweepPage (s : State) (ctx va : Nat) : State × Bool :=
  match dirtyLeaf s ctx va with
  | none => (s, false)
  | some leaf =>
    let a := leaf + bitsOf va 12 9 / 8
    let m := 2 ^ (bitsOf va 12 9 % 8)
    let b := (s.physByte 0 a).toNat
    (s.setPhysByte 0 a (BitVec.ofNat 8 (if b / m % 2 == 1 then b - m else b)), b / m % 2 == 1)

/-- Sweep the pages of a range: the state after and the pages found dirty. -/
def sweepRange (s : State) (ctx va n : Nat) : State × List Nat :=
  (List.range n).foldl (fun acc i =>
    let p := sweepPage acc.1 ctx (va + 4096 * i)
    (p.1, if p.2 then acc.2 ++ [va + 4096 * i] else acc.2)) (s, [])

/-! ## The status block (Table 15-7) -/

def statusBytes (m : MigStream) (flags ecode : Nat) : List Byte :=
  leBytes 4 m.rounds ++ leBytes 1 flags ++ leBytes 1 ecode ++ leBytes 2 0 ++ leBytes 8 m.sent ++ leBytes 8 m.found ++
  leBytes 8 m.skip ++ leBytes 8 m.seq ++ leBytes 24 0

/-- The engine, on I/O die 1, writes the status block at its home (R419, R439). -/
def writeStatus (s : State) (m : MigStream) (flags ecode : Nat) : State :=
  (ioReach s 1 true [(0, m.status, 64)]).setPhysBytes 0 m.status (statusBytes m flags ecode)

/-- Put a stream in the place of itself as it stood before. -/
def putStream (s : State) (m : MigStream) : State := { s with streams := m :: s.streams.filter (·.id != m.id) }

def closeStream (s : State) (m : MigStream) : State := { s with streams := s.streams.filter (·.id != m.id) }

/-- The stream ends with ERR set (R418, R419, R444). -/
def failStream (s : State) (m : MigStream) (ecode : Nat) : State := closeStream (writeStatus s m 2 ecode) m

/-! ## Submission (R415 to R417) -/

/-- A descriptor's fields (Table 15-5). -/
def streamOf (d : List Byte) : MigStream :=
  let u (at' n : Nat) : Nat := leNat ((d.drop at').take n)
  { port := u 3 1, mode := u 2 1, slot := u 6 2, salt := u 8 4, ctx := u 4 2, maxr := u 12 4, thresh := u 16 8, va := u 24 8,
    len := u 32 8, peer := u 40 8, status := u 48 8 }

/-- Whether every field passes its check. -/
def descriptorValid (d : List Byte) (m : MigStream) : Bool :=
  leNat (d.take 2) == 1 && m.mode ≤ 2 && m.port ≤ 1 && m.ctx < 4096 && m.slot < 256 && 1 ≤ m.maxr && m.va % 4096 == 0 &&
  m.len % 4096 == 0 && 1 ≤ m.len && m.status % 64 == 0 && m.status < 2 ^ 40 && (d.drop 56).all (· == 0)

/-- The stream that a MODE 1 run continues; of several with its PORT and SALT, which stand under different key slots, the one under the
descriptor's, else the last that ran (log 24). -/
def waitingStream (s : State) (m : MigStream) : Option MigStream :=
  let l := s.streams.filter fun x => x.port == m.port && x.salt == m.salt && !x.running && x.mode == 0
  (l.find? (·.slot == m.slot)).or l.head?

/-- Whether a MODE 0 may use its SALT under its key slot (R417). -/
def saltFree (s : State) (m : MigStream) : Bool :=
  let l := s.salts.get [] m.slot
  !l.contains m.salt && l.length < 4096

/-- Submit the descriptor at a device address, for a team's `.ymigr` or for MIGCTL: the reply of Table 8-9. -/
def submitMigration (s : State) (a : Nat) (team : Option (Nat × Nat)) : State × Nat :=
  let s := ioReach s 1 false [(0, a, 64)]
  let d := s.physBytes 0 a 64
  let m := { streamOf d with team, id := s.nextId }
  if m.port ≤ 1 && s.streams.any fun x => x.port == m.port && x.running then (s, 1)
  else if !descriptorValid d m || (s.keySlots.get [] m.slot).isEmpty then (s, 2)
  else if m.mode == 0 then
    if saltFree s m then (putStream { bumpId s with salts := s.salts.set [] m.slot (s.salts.get [] m.slot ++ [m.salt]) } m, 0) else (s, 2)
  else if m.mode == 1 then
    match waitingStream s m with
    | none => (s, 2)
    | some x => (putStream s { m with id := x.id, slot := x.slot, peer := x.peer, seq := x.seq, rounds := x.rounds, sent := x.sent, skip := x.skip }, 0)
  else (putStream (bumpId s) m, 0)

/-! ## Pages as frames carry them -/

/-- A page as a frame carries it: raw, or in block form where that is shorter; which of the two is free (log 67). -/
def pagePayload (s : State) (page : List Byte) : List Byte :=
  let c := (List.range 16).flatMap fun i => blockForm ((page.drop (256 * i)).take 256)
  if c.length < 4096 && Config.freeChoice s.free % 2 == 1 then c else page

/-! ## Sending (R416, R417) -/

/-- A frame's header (Table 15-6). -/
def frameHeader (m : MigStream) (seq pva typ plen : Nat) : List Byte :=
  leBytes 4 0x464D5153 ++ leBytes 4 m.salt ++ leBytes 8 seq ++ leBytes 8 pva ++ leBytes 4 m.rounds ++ leBytes 2 typ ++
  leBytes 2 plen ++ leBytes 16 0

def nonceOf (m : MigStream) (seq : Nat) : List Byte := leBytes 4 m.salt ++ leBytes 8 seq

/-- Seal and send the next frame. -/
def sendFrame (s : State) (m : MigStream) (pva typ : Nat) (payload : List Byte) : State × MigStream :=
  let seq := m.seq + 1
  let h := frameHeader m seq pva typ payload.length
  ({ s with frames := (m.port, m.peer, h ++ Config.seal (s.keySlots.get [] m.slot) (nonceOf m seq) h payload) :: s.frames },
   { m with seq })

/-- The page of device memory that a page of the range is; none where it has no translation or is of another kind (R376, R416). -/
def devicePage (s : State) (ctx va : Nat) : Option Nat :=
  if !canonical va then none
  else match translationOf s noTlb ctx va with
    | .inl _ => none
    | .inr (leaf, level) => if (leafPA leaf level va).kind == 0 then some (leafPA leaf level va).addr else none

/-- Send the pages of a round that lie in device memory; others are skipped. `false` at a page that cannot be sent: SEQ would reach 2^32
(R417), or its data are poisoned (DESIGN CHOICE, log 94). What was sealed before it has been sent. -/
def sendPages (s : State) (m : MigStream) : List Nat → State × MigStream × Bool
  | [] => (s, m, true)
  | p :: r =>
    match devicePage s m.ctx p with
    | none => sendPages s { m with skip := m.skip + 1 } r
    | some a =>
      if 2 ^ 32 ≤ m.seq + 1 then (s, m, false)
      else
        let s := ioReach s 1 false [(0, a, 4096)]
        if s.poisonOf 0 a 4096 != 0 then (s, m, false)
        else
          let q := sendFrame s m p 1 (pagePayload s (s.physBytes 0 a 4096))
          sendPages q.1 { q.2 with sent := q.2.sent + 1 } r

def allPages (m : MigStream) : List Nat := (List.range (m.len / 4096)).map fun i => m.va + 4096 * i

/-- The end of a round: pre-copy goes on, waits for MODE 1, or the final round closes the stream with its end frame. -/
def endRound (s : State) (m : MigStream) : State :=
  if m.mode == 1 then
    if 2 ^ 32 ≤ m.seq + 1 then failStream s m fEngine
    else
      let q := sendFrame s m 0 2 []
      closeStream (writeStatus q.1 q.2 1 0) q.2
  else if m.found ≤ m.thresh || m.maxr ≤ m.runRounds then
    let m := { m with running := false }
    putStream (writeStatus s m 4 0) m
  else putStream (writeStatus s m 0 0) m

/-- R416. -/
def runRound (s : State) (m : MigStream) : State :=
  let p := sweepRange s m.ctx m.va (m.len / 4096)
  let every := (m.mode == 0 && m.runRounds == 0) || (s.ctx m.ctx).dovf
  let pages := if every then allPages m else p.2
  match sendPages p.1 { m with found := pages.length } pages with
  | (s, m, false) => failStream s m fEngine
  | (s, m, true) =>
    let m := { m with rounds := m.rounds + 1, runRounds := m.runRounds + 1 }
    endRound (writeStatus s m 0 0) m

def execMigrationRound (port : Nat) (s : State) : Host.Outcome State Fault Refusal :=
  match s.streams.find? fun m => m.port == port && m.running && m.mode < 2 with
  | none => .refused (.notEnabled "MIGRATION_ROUND")
  | some m => .next { runRound s m with free := s.free + 1 }

/-! ## Receiving (R418) -/

/-- The page of a received frame written on path H, marked as R390 states, or the code of its failure: 0x09 where it is unmapped, else
0x1B (Table 15-7). -/
def receivePage (s : State) (m : MigStream) (pva : Nat) (data : List Byte) : Except Nat State :=
  match translateRange s noTlb m.ctx pva 4096 .write with
  | .error t => .error (if t.code == fTranslation then fTranslation else fEngine)
  | .ok l =>
    let segs := segsOf l
    let s := setSegBytes (ioReach s 1 true segs) segs data
    .ok (if segs.any fun g => g.1 < 2 then markDirty s m.ctx pva 4096 else s)

/-- A frame's payload, when every check of R418 passes. -/
def openFrame (s : State) (m : MigStream) (frame : List Byte) : Option (List Byte) :=
  let u (at' n : Nat) : Nat := leNat ((frame.drop at').take n)
  let typ := u 28 2
  let pva := u 16 8
  let plen := u 30 2
  if u 0 4 != 0x464D5153 || u 4 4 != m.salt || u 8 8 != m.seq + 1 || (frame.drop 32).take 16 != List.replicate 16 0 then none
  else if !(typ == 2 && plen == 0 && pva == 0) &&
      !(typ == 1 && 0 < plen && plen ≤ 4096 && pva % 4096 == 0 && m.va ≤ pva && pva < m.va + m.len) then none
  else match Config.unseal (s.keySlots.get [] m.slot) (nonceOf m (m.seq + 1)) (frame.take 48) (frame.drop 48) with
    | none => none
    | some p => if p.length != plen then none
      else if typ == 1 && plen < 4096 then expandBlocks 16 p else some p

def receiveFrame (s : State) (m : MigStream) (frame : List Byte) : State :=
  match openFrame s m frame with
  | none => failStream s m fEngine
  | some p =>
    let round := leNat ((frame.drop 24).take 4)
    let s := if round == m.rounds then s else writeStatus s { m with rounds := round } 0 0
    let m := { m with seq := m.seq + 1, rounds := round }
    if leNat ((frame.drop 28).take 2) == 2 then closeStream (writeStatus s m 1 0) m
    else match receivePage s m (leNat ((frame.drop 16).take 8)) p with
      | .error c => failStream s m c
      | .ok s => putStream s { m with sent := m.sent + 1 }

def execMigrationFrameReceive (port : Nat) (frame : List Byte) (s : State) : Host.Outcome State Fault Refusal :=
  match s.streams.find? fun m => m.port == port && m.running && m.mode == 2 with
  | none => .refused (.notEnabled "MIGRATION_FRAME_RECEIVE")
  | some m => .next { receiveFrame s m frame with free := s.free + 1 }

/-- R444: the transport of one of a port's streams fails; which one is free. -/
def execMigrationTransportFailure (port : Nat) (s : State) : Host.Outcome State Fault Refusal :=
  let l := s.streams.filter fun m => m.port == port
  match l[Config.freeChoice s.free % max 1 l.length]? with
  | none => .refused (.notEnabled "MIGRATION_TRANSPORT_FAILURE")
  | some m => .next { failStream s m fEngine with free := s.free + 1 }

end Sys2Proof.Machine
end

