-- ==== Sys2Proof/Machine/Scribe.lean ====
section
/-! DEFINITION. The scribe (15: R392 to R402): transfer records, the elements of a transfer, the reads and
writes that carry them, arrivals, early ends, suspension. -/

namespace Sys2Proof.Machine

/-! ## Transfer records (Tables 15-1 and 15-2) -/

/-- An address word: space, address or offset, rank. -/
structure XPlace where
  space : Nat := 0
  addr : Nat := 0
  rank : Nat := 0
deriving DecidableEq, Repr

def xplaceOf (v : Nat) : XPlace :=
  let sp := bitsOf v 57 2
  if sp == 0 then { addr := if v.testBit 56 then v % 2 ^ 57 + (2 ^ 64 - 2 ^ 57) else v % 2 ^ 57 }
  else { space := sp, addr := bitsOf v 0 22, rank := if sp == 2 then bitsOf v 32 6 else 0 }

/-- A transfer as its record gives it. -/
structure Xfer where
  src : XPlace := {}
  dst : XPlace := {}
  sfs : Nat := 0
  dfs : Nat := 0
  conv : Bool := false
  esz : Nat := 0
  ndim : Nat := 1
  perm : List Nat := []
  cnt : List Nat := []
  str : List Int := []
deriving DecidableEq, Repr

def recField (r : List Byte) (at' n : Nat) : Nat := leNat ((r.drop at').take n)

def xferOf (r : List Byte) : Xfer :=
  let ctl := recField r 16 4
  let nd := bitsOf ctl 12 3
  { src := xplaceOf (recField r 0 8), dst := xplaceOf (recField r 8 8), sfs := bitsOf ctl 0 4, dfs := bitsOf ctl 4 4
    conv := ctl.testBit 8, esz := bitsOf ctl 9 3, ndim := nd
    perm := (List.range nd).map fun j => bitsOf (recField r 20 4) (3 * j) 3
    cnt := (List.range nd).map fun d => recField r (24 + 2 * d) 2
    str := (List.range nd).map fun d => if d == 0 then 1 else signedOf 32 (recField r (36 + 4 * d) 4) }

/-- Element width in bits at the source and at the destination (R393, R395). -/
def Xfer.srcBits (x : Xfer) (fs : W64) : Nat := if x.esz == 0 then (Fmt.of fs).width else 8 * 2 ^ (x.esz - 1)
def Xfer.dstBits (x : Xfer) (fs fd : W64) : Nat := if x.conv then (Fmt.of fd).width else x.srcBits fs

def Xfer.elems (x : Xfer) : Nat := x.cnt.foldl (· * ·) 1

def Xfer.total (x : Xfer) (fs fd : W64) : Nat := (x.elems * x.dstBits fs fd + 7) / 8

/-- The lowest and highest source index of a transfer. -/
def Xfer.srcRange (x : Xfer) : Int × Int :=
  (x.cnt.zip x.str).foldl (fun a p => (a.1 + min 0 (((p.1 : Int) - 1) * p.2), a.2 + max 0 (((p.1 : Int) - 1) * p.2))) (0, 0)

/-- Whether an address word is one R394 accepts. -/
def placeOk (v coh : Nat) : Bool :=
  let sp := bitsOf v 57 2
  bitsOf v 59 5 == 0 && sp != 3 &&
  (sp != 1 || bitsOf v 22 35 == 0) && (sp != 2 || (bitsOf v 22 10 == 0 && bitsOf v 38 19 == 0 && bitsOf v 32 6 < coh))

/-- Whether a place's extent, in bytes from its base, lies in a scratchpad of `sp` bytes. -/
def extentOk (p : XPlace) (sp : Nat) (lo hi : Int) : Bool := p.space == 0 || (0 ≤ (p.addr : Int) + lo && (p.addr : Int) + hi ≤ (sp : Int))

/-- R394, the record's own checks. -/
def recordOk (r : List Byte) (coh sp : Nat) (fs fd : W64) : Bool :=
  let x := xferOf r
  let ctl := recField r 16 4
  let beyond := (List.range 7).filter fun d => x.ndim ≤ d
  let w := x.srcBits fs
  let total := x.total fs fd
  let bytes := if x.esz == 0 then 1 else 2 ^ (x.esz - 1)
  bitsOf ctl 16 16 == 0 && bitsOf (recField r 20 4) 21 11 == 0 && recField r 38 2 == 0 &&
  x.ndim != 0 && x.cnt.all (· != 0) &&
  beyond.all (fun d => recField r (24 + 2 * d) 2 == 0 && bitsOf (recField r 20 4) (3 * d) 3 == 0 && recField r (36 + 4 * d) 4 == 0) &&
  (List.range x.ndim).all (fun d => x.perm.contains d) &&
  x.esz ≤ 5 && !(x.conv && x.esz != 0) && (x.conv || x.dfs == 0) &&
  placeOk (recField r 0 8) coh && placeOk (recField r 8 8) coh &&
  x.src.addr % bytes == 0 && x.dst.addr % bytes == 0 &&
  total != 0 && total < 2 ^ 32 &&
  extentOk x.src sp ((w : Int) * x.srcRange.1 / 8) (((w : Int) * (x.srcRange.2 + 1) + 7) / 8) && extentOk x.dst sp 0 total

/-! ## Elements (R395 to R397) -/

/-- The source index of destination element j. -/
def Xfer.source (x : Xfer) (j : Nat) : Int :=
  (x.perm.foldl (fun (a : Nat × Int) d =>
    let c := max 1 (x.cnt.getD d 1)
    (a.1 / c, a.2 + ((a.1 % c : Nat) : Int) * x.str.getD d 1)) (j, 0)).2

/-- The team whose scratchpad a place names. -/
def placeTeam (s : State) (g t : Nat) (p : XPlace) : Option Team :=
  match s.team? g t with
  | none => none
  | some tm => if p.space == 1 then some tm else s.team? g (tm.index - tm.rank + p.rank)

/-- The byte address of a global place. -/
def placeVa (p : XPlace) (off : Int) : Nat := (((p.addr : Int) + off) % (2 ^ 64 : Nat)).toNat

def Scribe.xfer (sc : Scribe) : Xfer := xferOf sc.record
def Scribe.total (sc : Scribe) : Nat := sc.xfer.total sc.fmtS sc.fmtD
def Scribe.team (sc : Scribe) : Nat × Nat := sc.holder.getD (0, 0)

/-- Width of a destination element. -/
def Scribe.wide (sc : Scribe) : Nat := sc.xfer.dstBits sc.fmtS sc.fmtD

/-- The end of the piece a transfer arrives with next (R398). -/
def Scribe.pieceEnd (sc : Scribe) : Nat := min sc.total (sc.done + 4096)

/-- How far the bytes reach that are written when n of them have arrived: a 32-byte sector is written whole (R267, R287). -/
def Scribe.front (sc : Scribe) (n : Nat) : Nat := if n == 0 then 0 else min sc.total ((sc.xfer.dst.addr + n + 31) / 32 * 32 - sc.xfer.dst.addr)

/-- The end of the piece of which the next bytes are sent (R402). -/
def Scribe.goal (sc : Scribe) : Nat :=
  let a := sc.front (min sc.total (sc.sent / 4096 * 4096))
  if sc.sent < a then a else sc.front (min sc.total (sc.sent / 4096 * 4096 + 4096))

/-- How far that piece is sent: to its end, or to where the transfer ends early. -/
def Scribe.limit (sc : Scribe) : Nat := min sc.goal ((sc.stop.map (·.1)).getD sc.goal)

/-- The elements that have bytes in [lo, hi) of the destination. -/
def Scribe.elemsIn (sc : Scribe) (lo hi : Nat) : List Nat :=
  let a := 8 * lo / sc.wide
  ((List.range ((8 * hi + sc.wide - 1) / sc.wide - a)).map (a + ·)).filter (· < sc.xfer.elems)

/-- Where a source element stands: its first byte from the place's base, the bit it begins with there, and how many bytes it touches. -/
def Scribe.span (sc : Scribe) (j : Nat) : Int × Nat × Nat :=
  let w := sc.xfer.srcBits sc.fmtS
  let b : Int := (w : Int) * sc.xfer.source j
  (b / 8, (b % 8).toNat, ((b % 8).toNat + w + 7) / 8)

/-- Why a channel may not access n bytes at an offset of a place: the ECODE of Table 15-3. -/
def placeFault (s : State) (sc : Scribe) (p : XPlace) (off : Int) (n : Nat) (acc : Access) : Option Nat :=
  if p.space == 0 then
    match translateRange s (384 + sc.die) sc.ctx (placeVa p off) n acc with
    | .error tr => some tr.code
    | .ok _ => none
  else
    let o := (p.addr : Int) + off
    let lim := ((s.grid? sc.team.1).map (·.launch.spad)).getD 0
    if (placeTeam s sc.team.1 sc.team.2 p).isNone || o < 0 || (lim : Int) < o + n then some fSegmentLimit else none

/-- Where a run of bytes of a global place lies. -/
def placeSegs (s : State) (sc : Scribe) (p : XPlace) (off : Int) (n : Nat) (acc : Access) : List (Nat × Nat × Nat) :=
  match translateRange s (384 + sc.die) sc.ctx (placeVa p off) n acc with
  | .error _ => []
  | .ok l => segsOf l

/-! ## Order and overlap (R286 to R288, R397) -/

/-- R286, R288: whether bytes [lo, hi) of a transfer leave its scribe's die: a destination sector whose home or bank lies elsewhere. -/
def crossesDie (s : State) (sc : Scribe) (lo hi : Nat) : Bool :=
  let d := sc.xfer.dst
  if d.space == 0 then
    (placeSegs s sc d lo (hi - lo) .write).any fun g => g.1 != 0 || (segWords [g]).any fun w =>
      let r := s.regions.get {} (w / 4096)
      r.st != 0 && r.die != sc.die
  else ((placeTeam s sc.team.1 sc.team.2 d).map fun t => t.core / 48 != sc.die).getD false

/-- Where a transfer that can write its bytes below `n` stops: within a die at the end of a whole sector (R267, R287). -/
def stopPoint (s : State) (sc : Scribe) (n : Nat) : Nat :=
  let m := if crossesDie s sc sc.sent sc.goal || n == sc.total then n else (sc.xfer.dst.addr + n) / 32 * 32 - sc.xfer.dst.addr
  max sc.sent (min sc.goal m)

/-- How far the source lies beyond the destination, where both are in one memory. -/
def apart (s : State) (sc : Scribe) : Option Int :=
  let x := sc.xfer
  let team (p : XPlace) : Option Nat := (placeTeam s sc.team.1 sc.team.2 p).map (·.index)
  if (x.src.space == 0) != (x.dst.space == 0) || (x.src.space != 0 && team x.src != team x.dst) then none
  else some ((x.src.addr : Int) - x.dst.addr)

/-- Whether a transfer reads bytes that it writes. -/
def readsOwn (s : State) (sc : Scribe) : Bool :=
  let x := sc.xfer
  let w : Int := x.srcBits sc.fmtS
  match apart s sc with
  | none => false
  | some d => d + w * x.srcRange.1 / 8 < sc.total && 0 < d + (w * (x.srcRange.2 + 1) + 7) / 8

/-- R397: a byte of the source as an element before has left it: one that reaches past the bytes sent counts as written whole, so that no
element is read of which a part is written. -/
def patchByte (s : State) (sc : Scribe) (off : Int) (b : Byte) : Byte :=
  match apart s sc, sc.carry with
  | some d, some (j, v) =>
    let at' := 8 * (d + off) - (sc.wide * j : Nat)
    (List.range 8).foldl (fun (b : Byte) (i : Nat) =>
      let k := at' + (i : Int)
      if 0 ≤ k && k < sc.wide then maskMerge b (BitVec.ofNat 8 ((v >>> k.toNat) % 2 * 2 ^ i)) (BitVec.ofNat 8 (2 ^ i)) else b) b
  | _, _ => b

/-! ## The elements of a piece (R395, R396) -/

/-- R395, R396: the code of a destination element. The seed is the one its grid was launched with (Table 8-10, .yseed). An element in
scratchpad draws with 8 × its offset as its bit address, whatever the rank (log 99). -/
def xferCode (s : State) (sc : Scribe) (x : Xfer) (j code : Nat) : Nat :=
  if !x.conv then code
  else
    let fs := Fmt.of sc.fmtS
    let fd := Fmt.of sc.fmtD
    let draw := drawBits fd.srb (hMix (((s.grid? (sc.holder.getD (0, 0)).1).map (·.seed)).getD 0) (elemBit x.dst.addr fd.width j) 0xFFFFFFFF)
    (fd.roundTo draw (fs.decode code).1).1

/-- A byte of the source as the channel's reads brought it; none where it is poisoned. -/
def Scribe.byteAt (sc : Scribe) (off : Int) : Option Byte :=
  match sc.buf.find? fun b => b.1 ≤ off && off < b.1 + b.2.1.length with
  | none => none
  | some b => if b.2.2.getD (off - b.1).toNat 0 == 0xFF then some (b.2.1.getD (off - b.1).toNat 0) else none

/-- The code that element j receives, of what its source held; none where that is poisoned. -/
def codeOf (s : State) (sc : Scribe) (j : Nat) : Option Nat :=
  let p := sc.span j
  match sc.carry.filter (·.1 == j) with
  | some c => some c.2
  | none => ((List.range p.2.2).mapM fun (i : Nat) => (sc.byteAt (p.1 + i)).map (patchByte s sc (p.1 + i))).map fun bs =>
      xferCode s sc sc.xfer j (streamElem bs p.2.1 (sc.xfer.srcBits sc.fmtS))

/-- Bytes [lo, hi) of the destination and the bits of them that elements fill. -/
def chunkBytes (s : State) (sc : Scribe) (lo hi : Nat) : List Byte × List Byte :=
  let l := sc.elemsIn lo hi
  let bit := sc.wide * l.headD 0
  let d := packStream (bit % 8) sc.wide (l.map fun j => (codeOf s sc j).getD 0)
  let part (b : List Byte) : List Byte := (b.drop (lo - bit / 8)).take (hi - lo)
  (part d.1, part d.2)

/-! ## Packets (R402, R422, R432) -/

/-- A packet of a channel, from its endpoint at node 87. -/
def Scribe.packet (sc : Scribe) : Packet :=
  { src := 192 * sc.die + 87, sep := 6, chan := some (sc.die, sc.ch), grid := sc.team.1, team := sc.team.2, ctx := sc.ctx }

/-- A packet of a channel for a team's scratchpad. -/
def Scribe.toTeam (sc : Scribe) (t : Team) : Packet := { sc.packet with dst := some (coreNode t.core, 0), team := t.index }

/-- Runs of at most 8 consecutive numbers. -/
def unitRuns (l : List Nat) : List (Nat × Nat) :=
  (l.foldl (fun acc u => match acc with
    | (a, n) :: r => if u == a + n && n < 8 && u / 8 == a / 8 then (a, n + 1) :: r else (u, 1) :: acc
    | [] => [(u, 1)]) []).reverse

/-- Reads of consecutive places, of which the first begins at an offset of the source. -/
def placeReads (s : State) (q : Packet) : Int → List (Nat × Nat × Nat) → List Packet
  | _, [] => []
  | off, g :: r => (cutRun 512 g.2.1 g.2.2).map (fun c =>
      { q with kind := 0, blocks := true, dst := some (placeEnd s q.src g), place := some (g.1, c), back := c.2, from' := off + ((c.1 - g.2.1 : Nat) : Int) }) ++
      placeReads s q (off + g.2.2) r

/-- The reads of n bytes at an offset of the source. -/
def readsAt (s : State) (sc : Scribe) (off : Int) (n : Nat) : List Packet :=
  let p := sc.xfer.src
  if p.space == 0 then placeReads s sc.packet off (placeSegs s sc p off n .read)
  else match placeTeam s sc.team.1 sc.team.2 p with
    | none => []
    | some t => (cutRun 512 ((p.addr : Int) + off).toNat n).map fun c =>
        { sc.toTeam t with kind := 0, back := c.2, offset := c.1, from' := (c.1 : Int) - p.addr }

/-- The 64-byte units of the source that elements touch, counted from the one that holds the place's base. -/
def sourceUnits (sc : Scribe) (els : List Nat) : List Int :=
  let x := sc.xfer
  let w : Int := x.srcBits sc.fmtS
  let a : Int := x.src.addr % 64
  (els.flatMap fun j => [(a + w * x.source j / 8) / 64, (a + (w * (x.source j + 1) - 1) / 8) / 64]).eraseDups

/-- The reads of what elements touch, unit by unit. -/
def readsOf (s : State) (sc : Scribe) (els : List Nat) : List Packet :=
  let u := sourceUnits sc els
  let base := u.foldl min 0
  (unitRuns (u.map fun i => (i - base).toNat)).flatMap fun r =>
    readsAt s sc ((base + (r.1 : Int)) * 64 - ((sc.xfer.src.addr % 64 : Nat) : Int)) (64 * r.2)

/-- Write packets of consecutive bytes, from address `base` on. A sector that two KIND 1 packets share goes with the later one, so that it is
written whole (R267, log 86); `done` is how far the packets before reach. -/
def payloads (q : Packet) (base : Nat) (d : List Byte × List Byte) : Nat → List (Nat × Nat × Nat) → List Packet
  | _, [] => []
  | done, (k, a, n) :: r =>
    let hi := if (r.head?.map (·.2.1)) == some (a + n) then (a + n) / 32 * 32 else a + n
    let part (l : List Byte) : List Byte := (l.drop (done - base)).take (hi - done)
    { q with kind := k, size := if k == 1 then wordSpan a n else n, place := q.place.map fun g => (g.1, a, n), offset := a, lead := a - done
             data := part d.1, mask := part d.2, va := q.va + (a - base), from' := q.from' + ((done - base : Nat) : Int) } :: payloads q base d hi r

/-- The packets that write bytes at offset `lo` of the destination, which do not cross a multiple of 512 there. -/
def writesAt (s : State) (sc : Scribe) (lo : Nat) (d : List Byte × List Byte) : List Packet :=
  let p := sc.xfer.dst
  let n := d.1.length
  let q : Packet := { sc.packet with from' := lo, va := placeVa p lo }
  if p.space == 0 then
    (placeSegs s sc p lo n .write).flatMap fun g =>
      payloads { q with dst := some (placeEnd s q.src g), place := some g } g.2.1 d g.2.1 (writeRuns g.2.1 n)
  else match placeTeam s sc.team.1 sc.team.2 p with
    | none => []
    | some t => payloads { sc.toTeam t with from' := lo } (p.addr + lo) d (p.addr + lo) (writeRuns (p.addr + lo) n)

/-! ## Channels -/

def State.scribe (s : State) (die ch : Nat) : Scribe := (s.scribes.find? fun c => c.die == die && c.ch == ch).getD { die, ch }

def State.setScribe (s : State) (c : Scribe) : State :=
  { s with scribes := c :: s.scribes.filter fun x => !(x.die == c.die && x.ch == c.ch) }

/-- The packets of a channel that have not been answered. -/
def Scribe.out (s : State) (c : Scribe) : List Packet := s.packets.filter fun p => p.chan == some (c.die, c.ch) && !p.isAnswer

/-- R402: the cc that n bytes of a transfer take, 512 bytes per cc, or half that rate under a permutation of dimension 0. -/
def pieceTime (c : Scribe) (n : Nat) : Nat := (n * (if c.xfer.perm.headD 0 == 0 then 1 else 2) + 511) / 512

/-- Whether a channel may begin a piece. One that stays in its die, or reads what it writes, has had the pieces before acknowledged, so that
no sector is seen before a lower one (R287) and no element is read half written (R397). -/
def mayBeginPiece (s : State) (c : Scribe) : Bool :=
  c.sent == c.front c.done || (!c.suspend && crossesDie s c c.sent c.goal && !readsOwn s c)

/-- Whether a running channel has bytes of a piece to send. Before a suspension it sends to the end of the piece it has begun; when all
it has sent has arrived, to its next boundary (R400, log 86). -/
def sending (s : State) (c : Scribe) : Bool := c.status == 1 && c.sent < c.limit && (c.reading || mayBeginPiece s c)

/-- R402: it is the channel's turn. -/
def hasTurn (s : State) (c : Scribe) : Bool :=
  let p := s.scribeTurn.get (0, 0) c.die
  let dist (ch : Nat) : Nat := (ch + 8 - p.2 % 8) % 8
  sending s c && s.scribes.all fun x => !(x.die == c.die && sending s x && dist x.ch < dist c.ch)

/-- A scribe begins to read a piece: everything its elements touch, up to one that it may not read (R399, R402). -/
def beginPiece (s : State) (c : Scribe) : State :=
  let els := (c.elemsIn c.sent c.goal).filter fun j => !c.carry.any (·.1 == j)
  let bad := els.findSome? fun j => (placeFault s c c.xfer.src (c.span j).1 (c.span j).2.2 .read).map (j, ·)
  let stop := match bad with
    | some (j, code) => some (stopPoint s c (c.wide * j / 8), code)
    | none => c.stop
  let l := readsOf s c (match bad with
    | some (j, _) => els.takeWhile (· < j)
    | none => els)
  (sendAll s (askRegions s c.packet (l.filterMap (·.place)) ++ l)).setScribe { c with reading := true, stop }

/-- The bytes that a channel sends next: to the next multiple of 512 of the destination, its limit, or an element whose source is poisoned. -/
def nextChunk (s : State) (c : Scribe) : Nat × Option (Nat × Nat) :=
  let a := c.xfer.dst.addr
  let hi := min c.limit (((a + c.sent) / 512 + 1) * 512 - a)
  match (c.elemsIn c.sent hi).find? fun j => (codeOf s c j).isNone with
  | none => match placeFault s c c.xfer.dst c.sent (hi - c.sent) .write with
    | some code => (c.sent, some (c.sent, code))
    | none => (hi, c.stop)
  | some j =>
    let n := min hi (stopPoint s c (c.wide * j / 8))
    (n, some (n, fPoison))

/-- Its packets. -/
def chunkPackets (s : State) (c : Scribe) : List Packet :=
  let hi := (nextChunk s c).1
  if hi ≤ c.sent then [] else writesAt s c c.sent (chunkBytes s c c.sent hi)

/-- Whether a channel may send them now: what it reads has come, the scribe has had the time to write what it sent before (R402), and within
a die no packet to another endpoint is out (R287). -/
def maySend (s : State) (c : Scribe) : Bool :=
  (c.out s).all (·.back == 0) && (s.scribeTurn.get (0, 0) c.die).1 ≤ s.cc &&
    (crossesDie s c c.sent c.goal || (chunkPackets s c).all fun q => (c.out s).all fun p => p.dst == q.dst)

/-- A scribe sends the next bytes of a piece; at its end it keeps the element that reaches past it, and goes on to the next channel. -/
def sendChunk (s : State) (c : Scribe) : State :=
  let q := nextChunk s c
  let l := chunkPackets s c
  let whole := q.1 == c.goal
  let last := (c.elemsIn c.sent q.1).getLast?.bind fun j => if 8 * q.1 < c.wide * (j + 1) then (codeOf s c j).map (j, ·) else none
  let after : Scribe := { c with sent := q.1, stop := q.2 }
  let s := l.foldl sendOrdered (sendAll s (askRegions s c.packet (l.filterMap (·.place))))
  let s := { s with scribeTurn := s.scribeTurn.set (0, 0) c.die
                      (s.cc + pieceTime c (q.1 - c.sent), if whole then (c.ch + 1) % 8 else (s.scribeTurn.get (0, 0) c.die).2) }
  s.setScribe (if whole then { after with reading := false, buf := [], carry := last } else after)

/-- Running or suspended (R392). -/
def Scribe.held (c : Scribe) : Bool := c.status == 1 || c.status == 2

/-- Replies of the commands that waited for a suspension (R400). -/
def replyAll (s : State) (cmds : List Nat) (v : Nat) : State :=
  { s with ops := s.ops.map fun o => match o.wait with
      | .reply c => if cmds.contains c then { o with wait := .ready, dst := dstOf o.dreg [BitVec.ofNat 64 v] } else o
      | _ => o }

def engineId (c : Scribe) : Nat := 0x1000 + 8 * c.die + c.ch

/-- The team and well of a transfer, when the well is armed. -/
def scribeWell (s : State) (c : Scribe) : Option (Team × Well) :=
  match s.team? c.team.1 c.team.2 with
  | none => none
  | some t => if (t.well c.well).live then some (t, t.well c.well) else none

/-- R398: arrive with n bytes; a well not armed is missed. -/
def arriveScribe (s : State) (c : Scribe) (n : Nat) : State × Scribe :=
  match scribeWell s c with
  | some (t, w) => (s.setTeam (t.setWell c.well (w.add n)), c)
  | none => (s, { c with miss := true })

/-- R217, R399: force the well with an error record. -/
def forceScribe (s : State) (c : Scribe) (ecode : Nat) : State × Scribe :=
  match scribeWell s c with
  | some (t, w) => (s.setTeam (t.setWell c.well (w.force c.done ecode (engineId c))), c)
  | none => (s, { c with miss := true })

/-- R398, R433: whether every byte of the next piece to arrive has been sent and acknowledged. -/
def mayArrive (s : State) (c : Scribe) : Bool :=
  c.status == 1 && c.front c.pieceEnd ≤ c.sent && (c.out s).all fun p => p.back != 0 || (c.front c.pieceEnd : Int) ≤ p.from'

/-- R399, R433: whether a transfer has sent all it can and nothing of it is out. -/
def mayEnd (s : State) (c : Scribe) : Bool :=
  c.status == 1 && !mayArrive s c && (c.stop.map (·.1)) == some c.sent && (c.out s).isEmpty

/-- A channel that has nothing left to send. -/
def Scribe.rest (c : Scribe) : Scribe := { c with suspend := false, cmds := [], byPreempt := false, reading := false, buf := [], carry := none, stop := none }

/-- A transfer ends before its last byte: `done` bytes were written. -/
def endEarly (s : State) (c : Scribe) (ecode : Nat) : State :=
  let p := forceScribe s c ecode
  replyAll (p.1.setScribe { p.2.rest with status := 3 }) c.cmds 0

/-- A piece has been written whole: arrive, and end, suspend or go on (R398, R400, R401). -/
def endPiece (s : State) (c : Scribe) : State :=
  let p := arriveScribe s { c with done := c.pieceEnd } (c.pieceEnd - c.done)
  if c.pieceEnd == c.total then
    replyAll (p.1.setScribe { p.2.rest with status := if p.2.miss then 3 else 0 }) c.cmds 0
  else if c.suspend && c.sent == c.front c.pieceEnd then
    replyAll (p.1.setScribe { p.2 with status := 2, suspend := false, cmds := [] }) c.cmds 0
  else p.1.setScribe p.2

/-- R398: the next piece arrives. A channel whose piece has not, on its turn, reads its source, or sends the next bytes of it (R402). -/
def execScribeArrival (die ch : Nat) (s : State) : Host.Outcome State Fault Refusal :=
  let c := s.scribe die ch
  if mayArrive s c then .next { endPiece s c with free := s.free + 1 }
  else if !hasTurn s c then .refused (.notEnabled "SCRIBE_ARRIVAL")
  else if !c.reading then .next { beginPiece s c with free := s.free + 1 }
  else if maySend s c then .next { sendChunk s c with free := s.free + 1 }
  else .refused (.notEnabled "SCRIBE_ARRIVAL")

/-- R399. -/
def execScribeEarlyEnd (die ch : Nat) (s : State) : Host.Outcome State Fault Refusal :=
  let c := s.scribe die ch
  match c.stop with
  | some (n, code) =>
    if mayEnd s c then .next { endEarly s { c with done := n } code with free := s.free + 1 } else .refused (.notEnabled "SCRIBE_EARLY_END")
  | none => .refused (.notEnabled "SCRIBE_EARLY_END")

/-! ## Aborts (R400) -/

/-- What an endpoint has applied of a packet: its first flits, and those that came poisoned. -/
def appliedOf (s : State) (p : Packet) : Nat × List Nat :=
  ((s.hoops.find? fun h => h.pkt == p.id && !h.reserved).map fun h => (h.applied, h.bad)).getD (0, [])

/-- Whether some of a packet's bytes are written. -/
def begunAt (s : State) (p : Packet) : Bool := p.base < p.upTo (appliedOf s p).1

/-- Of the writes in flight of a transfer, those that land: a packet of which a part is written lands whole; within a die the others land
in ascending order up to one that is free (R287), else any of them, which is free (R288). -/
def landing (s : State) (l : List Packet) : List Packet :=
  if l.all fun p => (p.dst.map fun d => nodeDie d.1) == some (nodeDie p.src) then
    let least := l.length - (l.reverse.takeWhile fun p => !begunAt s p).length
    l.take (least + Config.freeChoice s.free % (l.length - least + 1))
  else ((List.range l.length).zip l).filterMap fun p => if begunAt s p.2 || (Config.freeChoice s.free >>> p.1) % 2 == 1 then some p.2 else none

/-- R400: a transfer ends at once; EBYTES counts the prefix that landed. What is still on its way has no effect any more. -/
def abortTransfer (s : State) (c : Scribe) : State :=
  let l := (c.out s).filter (·.lands)
  let land := landing s l
  let s1 := land.foldl (fun s p => landNow s p (appliedOf s p).1 (appliedOf s p).2) s
  let n := ((l.filter fun p => !land.contains p).map fun p => p.from'.toNat).foldl min c.sent
  endEarly { s1 with packets := s1.packets.map fun p => if p.chan == some (c.die, c.ch) then { p with chan := none, data := [] } else p }
    { c with done := n } fEngine

/-- R401: a transfer of a resumed team continues once its channel is free. -/
def execScribeContinue (die ch : Nat) (s : State) : Host.Outcome State Fault Refusal :=
  match s.scribeWait.find? fun c => c.die == die && c.ch == ch && c.status != 3 with
  | none => .refused (.notEnabled "SCRIBE_CONTINUE")
  | some c =>
    if (s.scribe die ch).held then .refused (.notEnabled "SCRIBE_CONTINUE")
    else .next { s.setScribe { c with status := if c.byPreempt then 1 else 2, byPreempt := false } with
                 scribeWait := s.scribeWait.erase c, free := s.free + 1 }

end Sys2Proof.Machine
end

