-- ==== Sys2Proof/Machine/Engine.lean ====
section
/-! DEFINITION. Engine commands (08: R259 to R261, Table 8-10). -/

namespace Sys2Proof.Machine

/-! ## The shared form of a command -/

/-- What a command replies: a value now, or later under the command's number. -/
abbrev Reply := Option Nat

/-- XCMD: once for the bundle, with the arguments `args` that the function uses of the last executing thread. After its checks it releases on every path for
every executing thread (R259), acts, and each executing thread's operation takes the reply. A pending register in a field that the
function has no argument for raises no HAZARD (log 99). A command to an engine at an endpoint of its own goes there as a KIND 2 packet,
and its reply comes with the answer (R422, log 22). -/
def xcmdWord (s : State) (f : XBody) (args : List Operand) (chk : Env → W64 → W64 → W64 → Option Trap)
    (act : Env → State → Nat → W64 → W64 → W64 → State × Reply) (engine : Env → Option (Nat × Nat) := fun _ => none) : Result :=
  let tell (e : Env) (s : State) (cmd : Nat) : State := match engine e with
    | some d => sendNew s { kind := 2, src := coreNode e.t.core, dst := some d, size := 8 * args.length, req := some cmd }
    | none => s
  onceWord s f.toBody { reads := args.flatMap regsOf, writes := regsOf f.d, long := true } (fun _ s => s)
    fun e s x =>
      let a := readOp s e 0 x f.a
      let b := readOp s e 0 x f.b
      let c := readOp s e 0 x f.c
      match chk e a b c with
      | some t => .error t
      | none =>
        let s := (e.exec f.grd).foldl (fun s y => releaseThread s e.t.grid e.t.index y.tid false) s
        let p := act e { s with nextId := s.nextId + 1 } s.nextId a b c
        let via := (engine e).map fun _ => s.nextId
        .ok (tell e p.1 s.nextId, fun y => match p.2 with
          | some v => { th := y, vals := [BitVec.ofNat 64 v], via }
          | none => { th := y, wait := .reply s.nextId, via })

def noCheck : Env → W64 → W64 → W64 → Option Trap := fun _ _ _ _ => none

/-- R261: the scratchpad limit of an "sp" argument. -/
def spArg (e : Env) (o n : Nat) : Option Trap := firstTrap [limitCheck o n e.g.launch.spad 16 0, spPoison e.t o n]

/-- R261: a command for system grids only. -/
def systemOnly (func : Nat) (e : Env) (_ _ _ : W64) : Option Trap := if e.g.launch.sys then none else some (privilegeTrap func)

/-! ## Scribe commands (R392 to R401) -/

def dieOf (e : Env) : Nat := e.t.core / 48

/-- The scribe of a team's die: node 87, SEP 6 (R420, Table 16-1). -/
def toScribe (e : Env) : Option (Nat × Nat) := some (192 * dieOf e + 87, 6)

/-- What a resumed team has beside its channel: a transfer that waits for the channel (R401), or one of which `.sabort` made an end. -/
def besideChannel (s : State) (e : Env) (ch : Nat) : Option Scribe :=
  s.scribeWait.find? fun c => c.die == dieOf e && c.ch == ch && c.holder == some (e.t.grid, e.t.index)

/-- The transfer of a resumed team that waits for a channel (R401). -/
def waitingTransfer (s : State) (e : Env) (ch : Nat) : Option Scribe := (besideChannel s e ch).filter (·.status != 3)

/-- The team's transfer on a channel: one that waits for the channel after a resumption, or the channel it holds or held last. -/
def ownChannel (s : State) (e : Env) (ch : Nat) : Option Scribe :=
  let me := some (e.t.grid, e.t.index)
  match besideChannel s e ch with
  | some c => some { c with status := max 2 c.status }
  | none => let c := s.scribe (dieOf e) ch
            if c.holder == me then some c else none

/-- R392 to R394. -/
def startTransfer (s : State) (e : Env) (ch : Nat) (ro wo : Nat) : State × Reply :=
  let t := teamNow s e
  let r := t.spadBytes ro 64
  let x := xferOf r
  let fs := e.slot x.sfs
  let fd := e.slot x.dfs
  if ro % 64 != 0 || wo % 32 != 0 then (s, some 2)
  else if (s.scribe (dieOf e) ch).held then (s, some 1)
  else if !recordOk r e.g.launch.coh e.g.launch.spad fs fd then (s, some 2)
  else
    let c : Scribe := { die := dieOf e, ch, status := 1, holder := some (t.grid, t.index), ctx := e.g.ctx, record := r, fmtS := fs, fmtD := fd, well := wo }
    (({ s with scribeWait := s.scribeWait.filter fun x => some x != besideChannel s e ch || x.status != 3 } : State).setScribe c, some 0)

def execXcmdSgo (f : XBody) (s : State) : Result :=
  xcmdWord s f [f.a, f.b] (fun e a b _ => firstTrap [spArg e a.toNat 64, limitCheck b.toNat 32 e.g.launch.spad 16 0])
    (fun e s _ a b _ => startTransfer s e f.ch.toNat a.toNat b.toNat) toScribe

/-- Table 8-10, .sstat. -/
def channelStatus (c : Option Scribe) : Nat :=
  match c with
  | none => 0
  | some c => c.status + (if c.miss then 4 else 0) + c.done % 2 ^ 32 * 2 ^ 32

def execXcmdSstat (f : XBody) (s : State) : Result :=
  xcmdWord s f [] noCheck (fun e s _ _ _ _ => (s, some (channelStatus (ownChannel s e f.ch.toNat)))) toScribe

/-- Whether that transfer runs on when it has its channel. -/
def setWaiting (s : State) (c : Scribe) (goesOn : Bool) : State :=
  { s with scribeWait := s.scribeWait.map fun x => if x == c then { x with byPreempt := goesOn } else x }

/-- R400. A transfer that waits for its channel is suspended already, and then stays so. -/
def execXcmdSsusp (f : XBody) (s : State) : Result :=
  xcmdWord s f [] noCheck (engine := toScribe) fun e s cmd _ _ _ =>
    match waitingTransfer s e f.ch.toNat, ownChannel s e f.ch.toNat with
    | some c, _ => (setWaiting s c false, some 0)
    | none, none => (s, some 3)
    | none, some c =>
      if c.status == 2 then (s.setScribe { c with byPreempt := false }, some 0)
      else if c.status != 1 then (s, some 3)
      else (s.setScribe { c with suspend := true, byPreempt := false, cmds := c.cmds ++ [cmd] }, none)

/-- R400: the suspended channel that .sres continues; a transfer that waits for its channel goes on when it has it. -/
def execXcmdSres (f : XBody) (s : State) : Result :=
  xcmdWord s f [] noCheck (engine := toScribe) fun e s _ _ _ _ =>
    match waitingTransfer s e f.ch.toNat with
    | some c => (setWaiting s c true, some 0)
    | none =>
    let c := s.scribe (dieOf e) f.ch.toNat
    if c.holder == some (e.t.grid, e.t.index) && c.status == 2 then (s.setScribe { c with status := 1, suspend := false }, some 0)
    else (s, some 3)

def execXcmdSabort (f : XBody) (s : State) : Result :=
  xcmdWord s f [] noCheck (engine := toScribe) fun e s _ _ _ _ =>
    match waitingTransfer s e f.ch.toNat, ownChannel s e f.ch.toNat with
    | some c, _ =>
      let p := forceScribe s { c with done := c.sent } fEngine
      ({ p.1 with scribeWait := s.scribeWait.map fun x => if x == c then { p.2 with status := 3, byPreempt := false } else x }, some 0)
    | none, some c => if c.held then (abortTransfer s c, some 0) else (s, some 3)
    | none, none => (s, some 3)

/-! ## Scale handles (R410, R411) -/

def handleOf (t : Team) (n : Nat) : Option Handle := t.handles.find? (·.n == n)

/-- Table 15-4. -/
def registrationOk (r : List Byte) : Bool :=
  regBase' r % 4 == 0 && recField r 8 4 % 4 == 0 && recField r 12 4 % 4 == 0 &&
  1 ≤ recField r 16 4 && recField r 16 4 ≤ 2 ^ 20 && 1 ≤ recField r 20 4 && recField r 20 4 ≤ 65536 &&
  recField r 24 1 ≤ 1 && (r.drop 25).all (· == 0)
where regBase' (r : List Byte) : Nat := recField r 0 8

/-- Table 2-12 at reset. -/
def scaleReset : W64 := 0x2FE01

def execXcmdScreg (f : XBody) (s : State) : Result :=
  xcmdWord s f [f.a, f.b] (fun e _ b _ => spArg e b.toNat 64) fun e s _ a b _ =>
    let t := teamNow s e
    let r := t.spadBytes b.toNat 64
    if 63 < a.toNat || b.toNat % 64 != 0 then (s, some 2)
    else if (handleOf t a.toNat).isSome then (s, some 1)
    else if !registrationOk r then (s, some 2)
    else (s.setTeam { t with handles := t.handles ++ [{ n := a.toNat, reg := r, desc := scaleReset }] }, some 0)

def execXcmdScunreg (f : XBody) (s : State) : Result :=
  xcmdWord s f [f.a] noCheck fun e s _ a _ _ =>
    let t := teamNow s e
    if 63 < a.toNat then (s, some 2)
    else if (handleOf t a.toNat).isNone then (s, some 3)
    else (s.setTeam { t with handles := t.handles.filter (·.n != a.toNat) }, some 0)

/-- Whether a value is a scale descriptor (Table 2-12). -/
def scaleDescOk (d : Nat) : Bool := bitsOf d 18 46 == 0 && bitsOf d 0 8 ≤ bitsOf d 8 8 && bitsOf d 8 8 ≤ 254

def execXcmdScdesc (f : XBody) (s : State) : Result :=
  xcmdWord s f [f.a, f.b] noCheck fun e s _ a b _ =>
    let t := teamNow s e
    if 63 < a.toNat || !scaleDescOk b.toNat then (s, some 2)
    else if (handleOf t a.toNat).isNone then (s, some 3)
    else (s.setTeam { t with handles := t.handles.map fun h => if h.n == a.toNat then { h with desc := b } else h }, some 0)

/-- R411: the lines of n scales of a handle from linear index `from'` enter the scale cache. -/
def prefetchScales (s : State) (e : Env) (h : Handle) (from' n : Nat) : State :=
  let c1 := recField h.reg 20 4
  (List.range (min n (recField h.reg 16 4 * c1 - from'))).foldl (fun s i =>
    fillScale s e h.n (scaleVa h.reg ((from' + i) / c1) ((from' + i) % c1))) s

def execXcmdScpref (f : XBody) (s : State) : Result :=
  xcmdWord s f [f.a, f.b, f.c] noCheck fun e s _ a b c =>
    if 63 < a.toNat then (s, some 2)
    else match handleOf (teamNow s e) a.toNat with
      | none => (s, some 3)
      | some h => (prefetchScales s e h b.toNat c.toNat, some 0)

/-! ## Ruling engine (R403 to R409) -/

def execXcmdRparam (f : XBody) (s : State) : Result :=
  xcmdWord s f [f.a, f.b] noCheck fun e s _ a b _ =>
    let t := teamNow s e
    if 15 < a.toNat then (s, some 2) else (s.setTeam { t with params := t.params.set 0 a.toNat b }, some 0)

/-- A team without an access slice reads as one whose slice has ended (log 97). -/
def execXcmdRstat (f : XBody) (s : State) : Result :=
  xcmdWord s f [] noCheck fun e s _ _ _ _ =>
    let t := teamNow s e
    (s, some ((if t.accessEnded then 2 else 1) + t.supplied % 2 ^ 32 * 2 ^ 32))

/-- R409: the slice ends; a QPOP that waits on an empty FIFO of it finds it ended. -/
def endAccess (t : Team) : Team := { t with accessEnded := true, access := t.access.map fun a => { a with place := .exited } }

def execXcmdRhalt (f : XBody) (s : State) : Result :=
  xcmdWord s f [] noCheck fun e s _ _ _ _ => (s.setTeam (endAccess (teamNow s e)), some 0)

def execXcmdRrate (f : XBody) (s : State) : Result :=
  xcmdWord s f [f.a] noCheck fun e s _ a _ _ =>
    let t := teamNow s e
    if a == 0 || 64 < a.toNat then (s, some 2) else (s.setTeam { t with rateCap := a.toNat }, some a.toNat)

/-! ## Fabric commands -/

/-- Ranks of a mask below 64. -/
def maskRanks (m : W64) : List Nat := (List.range 64).filter fun r => m.getLsbD r

/-- A mask with a rank at or above the cohort size. -/
def maskCheck (e : Env) (m : W64) : Option Trap := ((maskRanks m).find? fun r => e.g.launch.coh ≤ r).map cohortTrap

/-- Core and team index of the cohort members of a mask. -/
def maskDests (s : State) (e : Env) (m : W64) : List (Nat × Nat) :=
  (maskRanks m).map fun r => ((peerNow s e r).core, peerIndex e r)

/-- Whether the bytes and the well lie in the scratchpad. -/
def castFits (e : Env) (off n w : Nat) : Bool := off + n ≤ e.g.launch.spad && (w == 0 || 32 * w + 32 ≤ e.g.launch.spad)

def castRefused (a : W64) (imm : BitVec 32) : Bool :=
  let n := imm.toNat % 2 ^ 16
  a.toNat % 16 != 0 || n % 16 != 0 || n < 16 || 512 < n

def execXcmdFmcast (f : XBody) (s : State) : Result :=
  let n := f.imm.toNat % 2 ^ 16
  let w := f.imm.toNat / 2 ^ 16
  xcmdWord s f [f.a, f.b, f.c] (fun e a b _ => firstTrap [maskCheck e b, if castRefused a f.imm then none else spArg e a.toNat n])
    fun e s cmd a b c =>
      let t := teamNow s e
      let dests := maskDests s e b
      if castRefused a f.imm || !castFits e c.toNat n w then (s, some 2)
      else if dests.isEmpty then (s, some 0)
      else
        let p : Packet := { id := s.nextId, kind := 6, src := coreNode t.core, grid := t.grid, team := t.index, dests, offset := c.toNat
                            data := t.spadBytes a.toNat n, mask := List.replicate n 0xFF, arrive := if w == 0 then none else some (32 * w, n), cmd := some cmd }
        (sendPacket { s with nextId := s.nextId + 1 } p, none)

/-- Well arrivals of n units for some teams. -/
def sendArrivals (s : State) (e : Env) (o n : Nat) : List (Nat × Nat) → State
  | [] => s
  | d :: r => sendArrivals { sendArrival s s.nextId e d none o n with nextId := s.nextId + 1 } e o n r

def wellArgOk (e : Env) (o : Nat) : Bool := o % 32 == 0 && o + 32 ≤ e.g.launch.spad

def execXcmdFwarr (f : XBody) (s : State) : Result :=
  xcmdWord s f [f.a, f.b, f.c] noCheck fun e s _ a b c =>
    match s.team? e.t.grid a.toNat with
    | none => (s, some 3)
    | some t =>
      if !resident t.phase then (s, some 3)
      else if !wellArgOk e b.toNat then (s, some 2)
      else (sendArrivals s e b.toNat (c.toNat % 2 ^ 32) [(t.core, t.index)], some 0)

def execXcmdFmwarr (f : XBody) (s : State) : Result :=
  xcmdWord s f [f.a, f.b, f.c] (fun e _ b _ => maskCheck e b) fun e s _ a b c =>
    if !wellArgOk e a.toNat then (s, some 2)
    else (sendArrivals s e a.toNat (c.toNat % 2 ^ 32) (maskDests s e b), some 0)

/-! ## Memory and system commands -/

/-- The virtual address of an offset in segment IMM[3:0], when the segment holds it. -/
def immVa (e : Env) (f : XBody) (o : Nat) : Option Nat :=
  let seg := e.g.seg (f.imm.toNat % 16)
  if o < seg.2.toNat then some ((seg.1.toNat + o) % 2 ^ 64) else none

/-- R330. -/
def execXcmdMrel (f : XBody) (s : State) : Result :=
  xcmdWord s f [f.a] noCheck fun e s _ a _ _ =>
    match immVa e f a.toNat with
    | none => (s, some 2)
    | some va => match translate s e.t.core e.g.ctx va .read with
      | .error _ => (s, some 2)
      | .ok pa =>
        if pa.kind != 0 || (s.regions.get {} (regionOf pa.addr)).st != 1 then (s, some 3)
        else (startMove (cacheTranslation s e.t.core e.g.ctx va) (regionOf pa.addr) true, some 0)

/-- R391. -/
def execXcmdMsweep (f : XBody) (s : State) : Result :=
  xcmdWord s f [f.a] noCheck fun e s _ a _ _ =>
    match immVa e f a.toNat with
    | none => (s, some 2)
    | some va => let p := sweep64 s e.g.ctx va
                 (p.1, some p.2)

/-- R322. -/
def execXcmdMquota (f : XBody) (s : State) : Result :=
  xcmdWord s f [f.a] noCheck fun e s _ a _ _ =>
    let q := min a.toNat (s.ctx e.g.ctx).qceil.toNat
    (s.updCtx e.g.ctx fun c => { c with quota := q }, some q)

def execXcmdMquotard (f : XBody) (s : State) : Result :=
  xcmdWord s f [] noCheck fun e s _ _ _ _ =>
    (s, some ((s.ctx e.g.ctx).quota % 2 ^ 32 + residency s e.g.ctx % 2 ^ 32 * 2 ^ 32))

def execXcmdYseed (f : XBody) (s : State) : Result :=
  xcmdWord s f [f.a] (systemOnly 0x60) fun e s _ a _ _ => (s.updCtx e.g.ctx fun c => { c with seed := a }, some 0)

/-- R473: clear LATCHED and MISSED; the missed count as it stood. -/
def rearm (s : State) : State := s.updMgmt fun m => { m with snapLatched := false, snapMissed := 0 }

def execXcmdYsnap (f : XBody) (s : State) : Result :=
  xcmdWord s f [] (systemOnly 0x61) fun _ s _ _ _ _ => (rearm s, some s.mgmt.snapMissed)

/-- R415: the descriptor's device address (log 24). -/
def execXcmdYmigr (f : XBody) (s : State) : Result :=
  xcmdWord s f [f.a] (systemOnly 0x62) (engine := fun e => some (ioEdge 1 (dieOf e) (nodeCol (coreNode e.t.core)), ioSep 1)) fun e s _ a _ _ =>
    let p := submitMigration s a.toNat (some (e.t.grid, e.t.index))
    (p.1, some p.2)

/-- R261. -/
def execXcmdUnassignedCode (f : XBody) (func : BitVec 7) (s : State) : Result :=
  xcmdWord s f [] (fun e a b c => firstTrap [if 0x60 ≤ func.toNat && func.toNat ≤ 0x6F then systemOnly func.toNat e a b c else none,
      some { code := fEngine, detail := func.toNat }]) fun _ s _ _ _ _ => (s, some 0)

/-- R97, R139. -/
def execHintWord (_ : BitVec 6) (_ : BitVec 118) (s : State) : Result :=
  match s.env? with
  | none => .refused (.notEnabled "issue")
  | some e => .next (finishWord s e e.t e.b.kw)

end Sys2Proof.Machine
end

