-- ==== Sys2Proof/Machine/Task.lean ====
section
/-! DEFINITION. The task processor's packets and grids (13: R339 to R351, R478): submission queues, the checks of launch and graph
packets, acceptance, graphs, retirement and completion. -/

namespace Sys2Proof.Machine

abbrev Event := Host.Outcome State Fault Refusal

def setTctl (s : State) (st : Nat) : State := s.updMgmt fun m => { m with tctlStatus := st }

/-- Signal a well of a context: advance it by `f`. None when it is not armed or cannot be written (R347). -/
def signalWell (s : State) (ctx va : Nat) (f : Well → Well) : Option State :=
  match writeSegs s ctx va 32 with
  | none => none
  | some segs =>
    let s := ioReach s 0 true segs
    let w := Well.ofBytes (segBytes s segs)
    if w.live then some { setSegBytes s segs (f w).toBytes with poison := s.poison } else none

/-- R217 as the task processor forces a well (R345). -/
def forcedBy (ebytes ecode : Nat) (w : Well) : Well := w.force ebytes ecode 0xF000

def setErr (s : State) (q : Nat) : State := s.updSq q fun x => { x with err := true }

/-! ## Submission queues (R339 to R342) -/

/-- Until DEVSTAT.STATE = 1 a write of BAR0 is ignored (R466). -/
def bar0Live (s : State) : Bool := s.mgmt.devstate == 1

/-- Packets submitted and not yet taken. -/
def Sq.submitted (x : Sq) : Nat := (x.tail - x.head).toNat

/-- R340. -/
def ringDoorbell (x : Sq) (tail : BitVec 16) : Sq :=
  if 2 ^ x.log2n < (tail - x.head).toNat then { x with err := true } else { x with tail }

def execSqdb (q : Nat) (tail : BitVec 16) (s : State) : Event :=
  if 64 ≤ q then .refused (.notEnabled "SQDB")
  else .next { (if bar0Live s then s.updSq q fun x => ringDoorbell x tail else s) with free := s.free + 1 }

/-- R339, Table 13-1. While EN = 1 a write changes only EN and PRIO: ERR is cleared while EN = 0 (log 28). -/
def writeSqctl (x : Sq) (v : Nat) : Sq :=
  if 13 ≤ bitsOf v 20 4 then { x with err := true }
  else
    let y := { x with en := v.testBit 0, prio := bitsOf v 1 3 }
    if x.en then y else { y with sysok := v.testBit 4, ctx := bitsOf v 8 12, log2n := bitsOf v 20 4, err := x.err && !v.testBit 24 }

def execSqctlWrite (q : Nat) (value : W64) (s : State) : Event :=
  if 64 ≤ q then .refused (.notEnabled "SQCTL_WRITE")
  else .next { (if bar0Live s then s.updSq q fun x => writeSqctl x value.toNat else s) with free := s.free + 1 }

/-! ## Launch packets (R343 to R345, R478) -/

def pkField (p : List Byte) (at' n : Nat) : Nat := leNat ((p.drop at').take n)

/-- R98, Table 3-20. -/
def preambleOk (b : List Byte) : Bool :=
  pkField b 0 4 == 0x43514B53 && pkField b 4 2 == 1 && pkField b 6 2 < 2 && pkField b 8 4 ≤ 4096 && pkField b 12 4 % 64 == 0 &&
  pkField b 16 4 % 16 == 0 && (b.drop 40).all (· == 0)

/-- R95: whether a body word holds an undefined opcode outside the hint space. -/
def wordUnknown (w : W128) : Bool :=
  let op := opcOf w
  !(0x380 ≤ op && op < 0x3C0) && (rowOf {} w).isNone

/-- R95: the offsets of the clause headers of a clause area, walked clause by clause; none where the loader refuses it. The walk ends
where the pages cannot be read. -/
def clauseHeads (s : State) (ctx code : Nat) : Nat → Nat → Nat → Option (List Nat)
  | 0, _, _ => none
  | fuel + 1, at', stop =>
    if stop ≤ at' then some []
    else match fetchWord s noTlb ctx ((code + at') % 2 ^ 64) with
      | .error _ => some []
      | .ok w =>
        let n := (Header.of w).len.toNat
        let next := at' + 16 * (n + 1)
        let bad (i : Nat) : Bool := match fetchWord s noTlb ctx ((code + at' + 16 * (i + 1)) % 2 ^ 64) with
          | .error _ => false
          | .ok b => wordUnknown b
        if opcOf w != 0x3FF || stop < next || (List.range n).any bad then none
        else (clauseHeads s ctx code fuel next stop).map (at' :: ·)

/-- The preamble at a code base. -/
def preambleAt (s : State) (ctx code : Nat) : Option (List Byte) :=
  match fetchWord s noTlb ctx code, fetchWord s noTlb ctx (code + 16), fetchWord s noTlb ctx (code + 32), fetchWord s noTlb ctx (code + 48) with
  | .ok a, .ok b, .ok c, .ok d => some ([a, b, c, d].flatMap fun w => leBytes 16 w.toNat)
  | _, _, _, _ => none

def launchOf (p pre : List Byte) : Launch :=
  let u := pkField p
  { code := BitVec.ofNat 57 (u 4 8), entry := u 12 4, access := u 16 4, gx := u 20 4, gy := u 24 4, gz := u 28 4, wpt := u 32 1
    coh := u 33 1, vregs := u 34 2, kregs := u 36 1, tiles := u 37 1, accg := u 38 1, queues := u 39 1, spad := u 40 4
    sys := (u 44 4).testBit 0, serial := (u 44 4).testBit 1
    fmt := (List.range 16).map fun i => if u (64 + 8 * i) 8 == 0 then defaultFmt.getD i 0 else BitVec.ofNat 64 (u (64 + 8 * i) 8)
    sg := (List.range 16).map fun i => (BitVec.ofNat 64 (u (192 + 16 * i) 8), BitVec.ofNat 64 (u (200 + 16 * i) 8))
    well := u 448 8, result := u 456 8, comb := u 464 1, prio := u 465 1
    spn := pkField pre 8 4, spoff := pkField pre 12 4, caoff := pkField pre 16 4, calen := pkField pre 20 4 }

/-- Offsets of nonzero bytes of a reserved range. -/
def nonzeroIn (p : List Byte) (lo hi : Nat) : List Nat := ((p.drop lo).take (hi - lo)).zipIdx.filterMap fun b =>
  if b.1 == 0 then none else some (lo + b.2)

def failIf (b : Bool) (off : Nat) : List Nat := if b then [off] else []

/-- Whether an address of a packet names memory other than the device's. -/
def elsewhere (s : State) (ctx va : Nat) : Bool :=
  match translationOf s noTlb ctx va with
  | .inl _ => false
  | .inr (leaf, level) => (leafPA leaf level va).kind != 0

/-- R7: the stepping of the part. -/
def stepping : Nat := 0x51390200

/-- The failing offsets of the code preamble and of what depends on it (R95, R98, R9). An image that the loader refuses under R95 is
refused at its launch, as a preamble that fails R98 is (log 81). -/
def codeFaults (s : State) (ctx : Nat) (p : List Byte) : List Nat :=
  let u := pkField p
  let code := u 4 8
  let life := u 484 1
  match if canonical code && code % 64 == 0 then preambleAt s ctx code else none with
  | none => [4]
  | some b =>
    let area := pkField b 16 4
    let heads := clauseHeads s ctx code (pkField b 20 4 / 16 + 2) area (area + pkField b 20 4)
    failIf (!preambleOk b || heads.isNone || pkField b 20 4 == 0) 4 ++ failIf (!(heads.getD []).contains (u 12 4)) 12 ++
    failIf (life % 2 == 1 && !(u 480 4 == stepping && (List.range 4).any fun i => pkField b (24 + 4 * i) 4 == stepping)) 480 ++
    failIf (life % 2 != pkField b 6 2 % 2) 484

/-- The failing offsets of the other fields (Tables 13-2 and 13-3, R46, R36). -/
def fieldFaults (s : State) (ctx : Nat) (p : List Byte) (sysok host : Bool) : List Nat :=
  let u := pkField p
  let teams := u 20 4 * u 24 4 * u 28 4
  let mins := (imageAt s ctx (u 4 8)).mins
  failIf (u 2 2 != 1) 2 ++
  failIf (u 20 4 == 0) 20 ++ failIf (u 24 4 == 0) 24 ++ failIf (u 28 4 == 0) 28 ++ failIf (2 ^ 32 ≤ teams) 20 ++
  failIf (u 32 1 == 0 || 32 < u 32 1) 32 ++ failIf (u 33 1 == 0 || 48 < u 33 1 || teams % u 33 1 != 0) 33 ++
  failIf (u 34 2 < 16 || 320 < u 34 2 || u 34 2 % 16 != 0) 34 ++ failIf (u 36 1 < 8 || 64 < u 36 1 || u 36 1 % 8 != 0) 36 ++
  failIf (8 < u 37 1) 37 ++ failIf (33 < u 38 1) 38 ++ failIf (32 < u 39 1) 39 ++
  failIf (u 40 4 % 4096 != 0 || 4194304 < u 40 4) 40 ++ failIf (4 ≤ u 44 4 || ((u 44 4).testBit 0 && !sysok)) 44 ++
  nonzeroIn p 48 64 ++
  (List.range 16).filterMap (fun i => if u (64 + 8 * i) 8 == 0 || fmtValid (BitVec.ofNat 64 (u (64 + 8 * i) 8)) then none else some (64 + 8 * i)) ++
  (List.range 16).filterMap (fun i => if canonical (u (192 + 16 * i) 8) then none else some (192 + 16 * i)) ++
  mins.filterMap (fun m => if u (200 + 16 * m.1) 8 < m.2 then some (200 + 16 * m.1) else none) ++
  failIf (u 448 8 % 32 != 0 || (u 448 8 != 0 && elsewhere s ctx (u 448 8))) 448 ++ failIf (u 456 8 % 8 != 0) 456 ++
  failIf (4 < u 464 1) 464 ++ failIf (7 < u 465 1) 465 ++ nonzeroIn p 466 472 ++ failIf (host && u 472 8 != 0) 472 ++
  failIf (2 ≤ u 484 1) 484 ++ nonzeroIn p 485 512

/-- R26: whether an empty core could hold one team. -/
def holdable (l : Launch) : Bool := (l.wpt + 3) / 4 * (l.vregs + 8 * l.tiles) ≤ 1024

/-- Live cores of a die. -/
def liveCores (s : State) (die : Nat) : List Nat :=
  ((List.range 48).map (48 * die + ·)).filter fun c => !s.mgmt.fencedCores.contains c

/-- R345: a launch packet's fields, or the status and failing offset of its refusal. -/
def checkLaunch (s : State) (ctx : Nat) (p : List Byte) (sysok host : Bool) : Except (Nat × Nat) Launch :=
  if p.length != 512 || pkField p 0 2 != 1 then .error (1, 0)
  else match (codeFaults s ctx p ++ fieldFaults s ctx p sysok host).min? with
    | some off => .error (1, off)
    | none =>
      let l := launchOf p ((preambleAt s ctx (pkField p 4 8)).getD [])
      if !holdable l || !((List.range 8).any fun d => l.coh ≤ (liveCores s d).length) then .error (2, 0) else .ok l

/-! ## Acceptance (R346) -/

/-- The lowest free live-grid number. -/
def freeNumber (s : State) : Option Nat := (List.range 4096).find? fun n => !(s.grids.any (·.num == n))

/-- An accepted grid. A number's matrix time is cleared when it is assigned (Table 19-6). -/
def acceptGrid (s : State) (l : Launch) (ctx q depth : Nat) (parent : Option (Nat × Nat)) (childIdx num : Nat) (node : Bool) : State :=
  let g : Grid := { num, ctx, launch := l, depth, parent, childIdx, queue := q, graphNode := node, seed := (s.ctx ctx).seed
                    order := s.acceptOrder, acceptedAt := s.cc }
  { s with grids := s.grids ++ [g], acceptOrder := s.acceptOrder + 1,
           mgmt := { s.mgmt with telemetry := s.mgmt.telemetry.set 0 (0x8000 + 8 * num) 0 } }

/-- Whether the previous grid of a queue has yet to retire. -/
def previousLive (s : State) (x : Sq) : Bool :=
  match x.last with
  | none => false
  | some n => s.grids.any fun g => g.order == n && !g.retired

/-- R346: a packet that passes its checks waits while no number is free, or behind the previous grid of its queue. -/
def mustWait (s : State) (x : Sq) (serial : Bool) : Bool := (freeNumber s).isNone || (serial && previousLive s x)

/-- The address of the packet at a queue's head. -/
def headVa (x : Sq) : Nat := (x.base.toNat / 4096 * 4096 + 512 * (x.head.toNat % 2 ^ x.log2n)) % 2 ^ 64

/-- The bytes of the packet at a queue's head; none when the read faults. -/
def headPacket (s : State) (x : Sq) : Option (List Byte) := readVa s x.ctx (headVa x) 512

/-- Whether a queue's head packet waits. -/
def headWaits (s : State) (x : Sq) : Bool :=
  match headPacket s x with
  | none => false
  | some p => match checkLaunch s x.ctx p x.sysok true with
    | .ok l => mustWait s x l.serial
    | .error _ => false

/-- Queues the task processor may serve (R341, R351). DESIGN CHOICE (log 87): EN of a queue's context decides nothing here: the context is
served through its CROOT whatever EN is. -/
def servable (s : State) : List Nat := (List.range 64).filter fun q =>
  let x := s.sq q
  x.en && x.submitted != 0 && x.packet.isNone && !(s.graphs.any (·.queue == q)) && !headWaits s x

/-- R341: the queue of highest priority, round robin from the one after the last served. -/
def nextQueue (s : State) : Option Nat :=
  let l := servable s
  let top := (l.map fun q => (s.sq q).prio).foldl max 0
  (l.filter fun q => (s.sq q).prio == top).foldl (fun best q =>
    match best with
    | none => some q
    | some b => if (q + 64 - s.rr.get 0 top) % 64 < (b + 64 - s.rr.get 0 top) % 64 then some q else some b) none

/-- R341: read the head packet of the chosen queue. A packet that cannot be read stands as no bytes. -/
def execPacketServe (s : State) : Event :=
  match nextQueue s with
  | none => .refused (.notEnabled "PACKET_SERVE")
  | some q =>
    let x := s.sq q
    let s1 := touchVa s x.ctx (headVa x) 512
    .next { s1.updSq q (fun x => { x with packet := some ((headPacket s1 x).getD []) }) with
            rr := s.rr.set 0 x.prio ((q + 1) % 64), free := s.free + 1 }

/-- The packet has been taken: HEAD advances. -/
def passPacket (s : State) (q : Nat) : State := s.updSq q fun x => { x with packet := none, head := x.head + 1 }

/-- R345: a launch from a queue is refused: its well is forced, or ERR and LASTERR are set. -/
def refuseLaunch (s : State) (q well status off : Nat) : State :=
  let x := s.sq q
  match if well == 0 || well % 32 != 0 then none else signalWell s x.ctx well (forcedBy (status + off % 2 ^ 16 * 2 ^ 16) 0x1B) with
  | some s => s
  | none => s.updSq q fun x => { x with err := true, lastErr := status + off / 4 % 256 * 256 }

/-- R345: refuse a host packet. -/
def refusePacket (s : State) (q well status off : Nat) : State := refuseLaunch (passPacket s q) q well status off

def serveLaunch (s : State) (q : Nat) (p : List Byte) : State :=
  let x := s.sq q
  match checkLaunch s x.ctx p x.sysok true with
  | .error (st, off) => refusePacket s q (pkField p 448 8) st off
  | .ok l =>
    match if mustWait s x l.serial then none else freeNumber s with
    | none => s.updSq q fun x => { x with packet := none }
    | some n =>
      passPacket ((acceptGrid s l x.ctx q 0 none 0 n false).updSq q fun x => { x with last := some s.acceptOrder }) q

/-- R342 to R346: a packet of any type but a graph's. -/
def execLaunchPacket (q : Nat) (s : State) : Event :=
  match (s.sq q).packet with
  | none => .refused (.notEnabled "LAUNCH_PACKET")
  | some p => if pkField p 0 2 == 2 then .refused (.notEnabled "LAUNCH_PACKET") else .next { serveLaunch s q p with free := s.free + 1 }

/-! ## Graphs (R348 to R351) -/

/-- Table 13-5. -/
def graphFaults (p : List Byte) : List Nat :=
  let u := pkField p
  failIf (u 2 2 != 1) 2 ++ nonzeroIn p 4 8 ++ failIf (u 8 8 % 128 != 0) 8 ++ failIf (u 16 2 == 0) 16 ++ failIf (u 16 2 ≤ u 18 2) 18 ++
  failIf (u 20 4 == 0) 20 ++ failIf (u 24 8 % 32 != 0) 24 ++ nonzeroIn p 32 512

def graphOf (q ctx : Nat) (p : List Byte) : Graph :=
  let u := pkField p
  { queue := q, ctx, nodes := u 8 8, nnodes := u 16 2, maxSteps := u 20 4, gwell := u 24 8, node := u 18 2 }

/-- R348. -/
def execGraphPacket (q : Nat) (s : State) : Event :=
  match (s.sq q).packet with
  | none => .refused (.notEnabled "GRAPH_PACKET")
  | some p =>
    if pkField p 0 2 != 2 then .refused (.notEnabled "GRAPH_PACKET")
    else match (graphFaults p).min? with
      | some off => .next { refusePacket s q (pkField p 24 8) 1 off with free := s.free + 1 }
      | none => .next { passPacket s q with graphs := s.graphs ++ [graphOf q (s.sq q).ctx p], free := s.free + 1 }

/-- The end of a graph: its well is signalled, or ERR is set (R351). -/
def endGraph (s : State) (g : Graph) (f : Well → Well) : State :=
  let s := { s with graphs := s.graphs.filter (·.queue != g.queue) }
  if g.gwell == 0 then s else (signalWell s g.ctx g.gwell f).getD (setErr s g.queue)

def failGraph (s : State) (g : Graph) : State := endGraph s g (forcedBy g.node 0x1B)

/-- Table 13-6. DESIGN CHOICE (log 72): a REL above 6 in an edge that NEDGE does not count is no error, and an NEDGE above 4 is one. -/
def nodeBad (n : List Byte) : Bool :=
  let reserved := nonzeroIn n 11 16 ++ (List.range 4).flatMap (fun e => nonzeroIn n (33 + 24 * e) (38 + 24 * e)) ++ nonzeroIn n 112 128
  !reserved.isEmpty || 4 < pkField n 10 1 || (List.range (pkField n 10 1)).any fun e => 6 < pkField n (32 + 24 * e) 1

def relHolds (rel a b : Nat) : Bool :=
  match rel with
  | 0 => a == b
  | 1 => a != b
  | 2 => a < b
  | 3 => a ≤ b
  | 4 => b < a
  | 5 => b ≤ a
  | _ => true

/-- The successor of a node for a result word. -/
def nextNode (n : List Byte) (r : W64) : Nat :=
  match (List.range (pkField n 10 1)).find? fun e =>
      relHolds (pkField n (32 + 24 * e) 1) (r.toNat &&& pkField n (16 + 24 * e) 8) (pkField n (24 + 24 * e) 8) with
  | some e => pkField n (38 + 24 * e) 2
  | none => pkField n 8 2

def nodeVa (g : Graph) : Nat := (g.nodes + 128 * g.node) % 2 ^ 64

def nodeBytes (s : State) (g : Graph) : Option (List Byte) := readVa s g.ctx (nodeVa g) 128

/-- Reading a node and the launch packet it names reaches their homes. -/
def touchNode (s : State) (g : Graph) : State :=
  let s := touchVa s g.ctx (nodeVa g) 128
  match nodeBytes s g with
  | none => s
  | some n => if pkField n 0 8 % 64 == 0 then touchVa s g.ctx (pkField n 0 8) 512 else s

def updGraph (s : State) (g : Graph) : State := { s with graphs := s.graphs.map fun x => if x.queue == g.queue then g else x }

/-- Launch the node a graph stands at, or end it; none while R346 makes the launch wait. A refused packet is refused as one from the
graph's queue is (R345). DESIGN CHOICE (log 72): a node that cannot be read, or a LAUNCH that is not 64-byte aligned, ends the graph with
error and sets neither ERR nor LASTERR. -/
def launchNode (s : State) (g : Graph) : Option State :=
  if g.node == 0xFFFF then some (endGraph s g (·.add 1))
  else if g.nnodes ≤ g.node then some (failGraph s g)
  else match nodeBytes s g with
    | none => some (failGraph s g)
    | some n =>
      if nodeBad n || g.steps == g.maxSteps then some (failGraph s g)
      else match if pkField n 0 8 % 64 == 0 then readVa s g.ctx (pkField n 0 8) 512 else none with
        | none => some (failGraph (if pkField n 0 8 % 64 == 0 then refuseLaunch s g.queue 0 1 0 else s) g)
        | some p => match checkLaunch s g.ctx p (s.sq g.queue).sysok true with
          | .error (st, off) => some (failGraph (refuseLaunch s g.queue (pkField p 448 8) st off) g)
          | .ok l =>
            match if mustWait s (s.sq g.queue) l.serial then none else freeNumber s with
            | none => none
            | some num => some (updGraph ((acceptGrid s l g.ctx g.queue 0 none 0 num true).updSq g.queue fun x =>
                { x with last := some s.acceptOrder }) { g with steps := g.steps + 1, bytes := n, grid := some num, result := none })

/-- The state after a node's grid has completed: the edges choose the next node, or the graph has ended. -/
def afterNode (s : State) (g : Graph) (r : Sum Nat W64) : State × Option Graph :=
  match r with
  | .inl code => (endGraph s g (forcedBy (Config.freeChoice s.free) code), none)
  | .inr v =>
    let g := { g with node := nextNode g.bytes v, grid := none, result := none }
    (updGraph s g, some g)

/-- R350, R351. A launch that must wait leaves the graph at its node. -/
def execGraphNodeAdvance (q : Nat) (s : State) : Event :=
  match s.graphs.find? (·.queue == q) with
  | none => .refused (.notEnabled "GRAPH_NODE_ADVANCE")
  | some g =>
    match g.grid, g.result with
    | some _, none => .refused (.notEnabled "GRAPH_NODE_ADVANCE")
    | _, some r => match afterNode s g r with
      | (s1, none) => .next { s1 with free := s.free + 1 }
      | (s1, some g) => .next { (launchNode (touchNode s1 g) g).getD s1 with free := s.free + 1 }
    | none, none => match launchNode (touchNode s g) g with
      | some s1 => .next { s1 with free := s.free + 1 }
      | none => .refused (.notEnabled "GRAPH_NODE_ADVANCE")

/-! ## Team release and retirement (R115, R132, R200) -/

def State.children (s : State) (g t : Nat) : List Grid := s.grids.filter fun c => c.parent == some (g, t) && !c.retired

/-- Whether a QPOP has taken an entry that stands ready behind another of its FIFO, a poisoned one at the head until the RESUME (R204, R205). -/
def popHeld (t : Team) (q : Nat) (o : Op) : Bool :=
  t.queues.any fun qq => qq.n == q && (qq.fifo o.tid).entries.any fun e => e.claimed == some o.id && e.ready

/-- Whether an operation of a team is one that a held instance keeps open (R251, R236), or a QPOP behind a poisoned entry (log 47). -/
def keptOpen (t : Team) (o : Op) : Bool :=
  match o.wait with
  | .inst i => t.insts.any fun x => x.id == i && !x.queued
  | .pop q => popHeld t q o
  | _ => false

/-- These, and operations that a contributing clause which a fault stopped keeps open, travel with the team (log 25). -/
def openInst (t : Team) (o : Op) : Bool :=
  keptOpen t o || (o.wait == .ready && t.threads.any fun x => o.inst.any x.contrib.contains)

def isReduction (k : ReqKind) : Bool :=
  match k with
  | .red .. => true
  | _ => false

/-- Whether every outstanding operation of a team has completed (R115, R369, R384). REDs in flight outlive their team. -/
def drainedBut (keep : Op → Bool) (s : State) (t : Team) : Bool :=
  s.bundles.all (fun b => b.grid != t.grid || b.team != t.index) &&
  s.ops.all (fun o => o.grid != t.grid || o.team != t.index || keep o) &&
  s.reqs.all (fun r => reqTeam r != (t.grid, t.index) || isReduction r.kind || (match r.agent with
    | .thread .. => false
    | _ => true)) &&
  s.packets.all (fun p => !p.mateStore || (p.thread.map fun i => (i.1, i.2.1)) != some (t.grid, t.index)) &&
  t.insts.all (!·.queued) && t.runs.all (·.ends ≤ s.cc)

def drained (s : State) (t : Team) : Bool := drainedBut (keptOpen t) s t

/-- What a team leaves when its resources are cleared (R40): what the task processor goes on using. -/
def clearedTeam (t : Team) (p : Phase) (keepSpad : Bool) : Team :=
  { grid := t.grid, index := t.index, core := t.core, rank := t.rank, phase := p, children := t.children, faulted := t.faulted
    seen := t.seen, placedAt := t.placedAt, waitingSince := t.waitingSince, forChild := t.forChild
    spad := if keepSpad then t.spad else [], spadPoison := if keepSpad then t.spadPoison else [] }

def isEnding (p : Phase) : Bool := p == .ending

def cohOf (s : State) (g : Nat) : Nat := ((s.grid? g).map (·.launch.coh)).getD 1

/-- R383: the transfers of an ended team end as under `.sabort`; one that only waits for its channel is discarded. -/
def dropTransfers (s : State) (grid team : Nat) : State :=
  let mine (c : Scribe) : Bool := c.holder == some (grid, team)
  let s := (s.scribes.filter fun c => mine c && c.held).foldl abortTransfer s
  { s with scribeWait := s.scribeWait.filter fun c => !mine c }

/-- R115; for a grid that is ended, once its team has stopped (R383). -/
def execTeamResourceRelease (grid team : Nat) (s : State) : Event :=
  match s.team? grid team with
  | none => .refused (.notEnabled "TEAM_RESOURCE_RELEASE")
  | some t =>
    let finished := isEnding t.phase || (t.phase == .running && t.threads.all fun x => x.place == .exited)
    let mine (c : Scribe) : Bool := c.holder == some (grid, team)
    let moving := !isEnding t.phase && ((s.scribeWait.any fun c => mine c && c.status != 3) || s.scribes.any fun c => mine c && c.status == 1)
    if !finished || moving || !drained s t then .refused (.notEnabled "TEAM_RESOURCE_RELEASE")
    else
      -- a transfer left suspended ends as under .sabort, and the team's channels forget it (R4, log 77)
      let s := dropTransfers s grid team
      let s := { s with scribes := s.scribes.filter fun c => !mine c
                        hoopRecs := s.hoopRecs.filter fun r => !(r.grid == grid && r.team == team) }
      let t := (s.team? grid team).getD t
      .next { s.setTeam (clearedTeam t .released (1 < cohOf s grid)) with
              ops := s.ops.filter fun o => o.grid != grid || o.team != team
              free := s.free + 1 }

/-- R132: the team retires; teams of a cohort leave together (R200). The stores of others that its threads have seen perform, before
its grid's retirement release (R289). -/
def retireTeam (s : State) (t : Team) : State :=
  let coh := cohOf s t.grid
  let s := drainReqs s (t.seen.map (·.2))
  let s := (s.updTeam t.grid t.index fun t => { t with phase := .retired }).updGrid t.grid fun g => { g with done := g.done + 1 }
  let mates := s.teams.filter fun x => x.grid == t.grid && x.index / coh == t.index / coh
  if mates.all fun x => x.phase == .retired then
    { s with teams := s.teams.filter fun x => !(x.grid == t.grid && x.index / coh == t.index / coh) }
  else s

def execTeamRetirement (grid team : Nat) (s : State) : Event :=
  match s.team? grid team with
  | none => .refused (.notEnabled "TEAM_RETIREMENT")
  | some t =>
    if t.phase == .released && (s.children grid team).isEmpty then .next { retireTeam s t with free := s.free + 1 }
    else .refused (.notEnabled "TEAM_RETIREMENT")

/-! ## Grid retirement and completion (R130, R347) -/

/-- Table 4-2: the word before any POST. -/
def combInit (comb : Nat) : W64 := if comb == 2 then BitVec.ofNat 64 (2 ^ 64 - 1) else 0

def resultWord (g : Grid) : W64 := g.post.getD (combInit g.launch.comb)

/-- Every request of a grid's threads performs (R289). -/
def releaseGrid (s : State) (grid : Nat) : State :=
  drainReqs s ((s.reqs.filter fun r => (reqTeam r).1 == grid && (match r.agent with
    | .thread .. => true
    | _ => false)).map (·.id))

/-- The result word of a completed grid. -/
def writeResult (s : State) (g : Grid) : State :=
  if g.launch.result == 0 then s
  else match writeSegs s g.ctx g.launch.result 8 with
    | some segs => setSegBytes (ioReach s 0 true segs) segs (leBytes 8 (resultWord g).toNat)
    | none => setErr s g.queue

/-- The completion well: an ARRIVE of 1, or the forcing of an ended grid, whose EBYTES is a free value (R347, R383, log 72). -/
def signalCompletion (s : State) (g : Grid) : State :=
  if g.launch.well == 0 then s
  else
    let f (w : Well) : Well := match g.ended with
      | some c => forcedBy (g.endBytes.getD (Config.freeChoice s.free)) c w
      | none => w.add 1
    (signalWell s g.ctx g.launch.well f).getD (setErr s g.queue)

/-- Whether every team a grid will ever have has retired. -/
def gridDone (g : Grid) : Bool := if g.ended.isSome then g.done == g.started else g.done == g.teamCount

/-- Tell the team that spawned the grid, or the graph whose node it is. -/
def reportEnd (s : State) (g : Grid) : State :=
  let s := match g.parent, g.ended with
    | some (pg, pt), some _ => if g.fault.isSome then s.updTeam pg pt fun t => { t with faulted := t.faulted + 1 } else s
    | _, _ => s
  if g.graphNode then
    { s with graphs := s.graphs.map fun x => if x.grid == some g.num && x.result.isNone then
        { x with result := some (match g.ended with
            | some c => .inl c
            | none => .inr (resultWord g)) } else x }
  else s

/-- The END that TCTL names is done once its grid has completed (Table 14-8). -/
def endDone (s : State) (g : Grid) : State :=
  if s.mgmt.tctlStatus == 1 && s.mgmt.tctlAct == 2 && s.mgmt.tctlGrid == g.num then setTctl s 0 else s

/-- R347: the retirement release, the DRED applications, the result word, the completion well. -/
def completeGrid (s : State) (g : Grid) : State :=
  let s := applyPress (releaseGrid s g.num) g.num
  let s := signalCompletion (writeResult s g) g
  endDone (reportEnd { s.updGrid g.num (fun g => { g with retired := true }) with rooms := s.rooms.filter (·.grid != g.num) } g) g

def execGridRetirement (grid : Nat) (s : State) : Event :=
  match s.grid? grid with
  | none => .refused (.notEnabled "GRID_RETIREMENT")
  | some g => if !g.retired && gridDone g then .next { bumpId (completeGrid s g) with free := s.free + 1 }
              else .refused (.notEnabled "GRID_RETIREMENT")

/-- A number that no live grid has: what a grid whose number is free has left behind carries it. -/
def noGrid : Nat := 4096

/-- R325, R346: counters and runs that carry the number are gone, then the number is free. Records that wait for the ring, and packets on
their way, stay and name no grid (R4). -/
def execLiveGridNumberFree (grid : Nat) (s : State) : Event :=
  match s.grid? grid with
  | none => .refused (.notEnabled "LIVE_GRID_NUMBER_FREE")
  | some g =>
    if !g.retired then .refused (.notEnabled "LIVE_GRID_NUMBER_FREE")
    else .next { s with
      grids := s.grids.filter (·.num != grid)
      graphs := s.graphs.map fun x => if x.grid == some grid then { x with grid := none } else x
      codeCopies := (s.codeCopies.map fun c => { c with holders := c.holders.filter (·.1 != grid) }).filter fun c => !c.holders.isEmpty
      counters := s.counters.filter (·.grid != grid)
      press := s.press.filter (·.grid != grid)
      scribes := s.scribes.filter fun c => (c.holder.map (·.1)) != some grid
      saves := s.saves.filter (·.team.grid != grid)
      faults := (s.faults.filter fun r => !(r.grid == grid && r.sent)).map fun r => if r.grid == grid then { r with grid := noGrid } else r
      packets := s.packets.map fun p => if p.grid == grid then { p with grid := noGrid } else p
      mgmt := { s.mgmt with telemetry := s.mgmt.telemetry.set 0 (0x8000 + 8 * grid) (BitVec.ofNat 64 g.matrixTime) }
      free := s.free + 1 }

end Sys2Proof.Machine
end

