-- ==== Sys2Proof/Machine/BundleEvents.lean ====
section
/-! DEFINITION. Bundles from a clause boundary to their first word, and the events that threads wait for: CLAUSE_DECODE,
BUNDLE_FORMATION, OVERDUE, FLAG_COMPLETION, NAP_END, MEETING_RELEASE, RENDEZVOUS_RELEASE, EPOCH_BOUNDARY. -/

namespace Sys2Proof.Machine

/-! ## A clause in memory -/

/-- The body words at a clause address that can be fetched. -/
def wordsAt (s : State) (unit ctx : Nat) (a : Addr) : List W128 :=
  match fetchWord s unit ctx (vaOf a) with
  | .error _ => []
  | .ok h => (List.range (Header.of h).len.toNat).filterMap fun i => (fetchWord s unit ctx ((vaOf a + 16 * (i + 1)) % 2 ^ 64)).toOption

/-- The header and body words at a clause address, when they can be fetched and the header carries its marker. -/
def clauseAt (s : State) (unit ctx : Nat) (a : Addr) : Option (W128 × List W128) :=
  match fetchWord s unit ctx (vaOf a) with
  | .error _ => none
  | .ok h =>
    if opcOf h != 0x3FF then none
    else
      let n := (Header.of h).len.toNat
      if (wordsAt s unit ctx a).length == n then some (h, wordsAt s unit ctx a) else none

/-- The header at a clause address, when it can be fetched and carries its marker. -/
def headAt (s : State) (unit ctx : Nat) (a : Addr) : Option W128 :=
  match fetchWord s unit ctx (vaOf a) with
  | .error _ => none
  | .ok h => if opcOf h == 0x3FF then some h else none

def isLaneOp (op : Nat) : Bool := (0x088 ≤ op && op ≤ 0x08b) || op == 0x0d3
def isRowGroupOp (op : Nat) : Bool := op == 0x200 || op == 0x201 || op == 0x220

/-- Whether a row-group word acts on the gang. -/
def onGang (w : W128) : Bool := if opcOf w == 0x220 then (MBody.of w).aux.getLsbD 4 else (MBody.of w).mod3.getLsbD 0

/-- The row groups of a thread that a clause's words name (R233, R234): a .g word's is the gang for every thread, one whose warp is not
listed too. -/
def rowGroups (t : Team) (ws : List W128) (x : Thread) : List (List Nat) :=
  (ws.filter fun w => isRowGroupOp (opcOf w)).map fun w => if onGang w then t.gang else [x.warp]

/-! ## What a thread at a boundary waits for -/

/-- R113: the thread waits at its meeting. -/
def atMeeting (x : Thread) : Bool := x.mrV && x.mrJ == x.pc

/-- Whether a deferred trap of a thread is due at a header (R188, R205). -/
def isDue (h : W128) (d : Deferred) : Bool :=
  (d.flag.toList ++ d.behind).any (fun n => (Header.of h).wait.getLsbD n) || (termOf h == 6 && d.trap.code != fPoison)

/-- R205: the flags, once for each operation, of QPOPs behind a queue entry whose POISON is due at a header: they stay until its RESUME
and do not keep it from being raised (log 47). -/
def poisonKeeps (h : W128) (x : Thread) : List Nat := (x.deferred.filter fun d => isDue h d && d.pop.isSome).flatMap (·.behind)

/-- R188: long words of a thread that will trap and have not completed hold it at an exit clause. -/
def trapPending (s : State) (c : Ctx) (t : Team) (x : Thread) : Bool :=
  s.ops.any fun o => o.grid == t.grid && o.team == t.index && o.tid == x.tid && o.efl &&& c.trapen.setWidth 32 &&& 0xFF != 0

/-- R129: a thread at a JOINC waits for the children its team had when it arrived. -/
def joinWaits (s : State) (t : Team) (w : W128) (x : Thread) : Bool :=
  guardHolds (Body.of w).grd x.pred && (s.children t.grid t.index).any fun c => c.childIdx < x.joinAt

/-- A k register of a team was committed in this cc, so that another commit may still replace it (R42). -/
def committing (s : State) (t : Team) (o : Operand) : Bool :=
  match o with
  | .k n => match t.k.find? fun p => p.1 == n.val with
    | some p => p.2.stamp == s.cc
    | none => false
  | _ => false

/-- R216: a thread at a WAITG waits while the well's GEN equals B; where the address faults, the word raises it. An operand that commits
in this cc is not read before the next (R42). -/
def wellWaits (s : State) (e : Env) (w : W128) (x : Thread) : Bool :=
  let f := LBody.of w
  let e := { e with b := { e.b with members := [x.tid] } }
  let o := memOffset s e x f
  guardHolds f.grd x.pred && (committing s e.t f.a || committing s e.t f.b || (firstTrap [spCheck e o 32 32 0, spPoison e.t o 32]).isNone &&
  (e.t.well o).gen == (readOp s e f.imm x f.b).toNat % 2 ^ 32)

/-- R17: the header at hand names a flag that is not ready in the thread: operations other than those it cannot wait for stand out. -/
def flagsHold (h : W128) (x : Thread) : Bool :=
  (List.range 12).any fun n => (Header.of h).wait.getLsbD n && (poisonKeeps h x).count n < x.cf.get 0 n

/-- Whether a thread at a header stays there, apart from named queues. The flags count wherever the header can be fetched, the words of
the clause only where they all can. -/
def headerHolds (s : State) (e : Env) (x : Thread) : Bool :=
  match headAt s e.t.core e.g.ctx x.pc with
  | none => false
  | some h =>
    let hd := Header.of h
    let ws := ((clauseAt s e.t.core e.g.ctx x.pc).map (·.2)).getD []
    flagsHold h x || (termOf h == 6 && trapPending s e.c e.t x) || (!(rowGroups e.t ws x).isEmpty && !x.released) ||
    (match ws with
     | [w] => (opcOf w == 0x009 && hd.safe && joinWaits s e.t w x) || (opcOf w == 0x162 && wellWaits s e w x)
     | _ => false)

/-- Whether a thread stands at a clause boundary, or at the word a resumption continues at, and its time has come. -/
def standsReady (s : State) (x : Thread) : Bool := x.place == .boundary && x.nap.isNone && x.notBefore ≤ s.cc

/-- R384: a thread is at a stop point of a pre-emption. A thread that its row group has released runs on (R234), unless a named queue
holds it back at its SAFE header (R208). -/
def atStop (s : State) (core : Nat) (g : Grid) (x : Thread) : Bool :=
  x.place == .held || x.place == .exited ||
  (x.place == .boundary && x.resumeAt == 0 && (!x.released || x.qheld != 0) &&
    ((atMeeting x && x.nap.isNone) || ((headAt s core g.ctx x.pc).map fun h => (Header.of h).safe).getD false))

/-- Whether a team's phase lets its threads form bundles: a faulted or ended team's threads stop at their boundaries (R369,
R383), those of a team being pre-empted at their stop points (R384). -/
def mayForm (s : State) (t : Team) (g : Grid) (x : Thread) : Bool :=
  match t.phase with
  | .running => true
  | .saving .. => !atStop s t.core g x && t.threads.all fun y => y.place != .held
  | _ => false

/-- R109: a thread may join a bundle. -/
def threadReady (s : State) (e : Env) (x : Thread) : Bool :=
  standsReady s x && mayForm s e.t e.g x && (x.resumeAt != 0 || (!atMeeting x && !headerHolds s e x))

/-! ## Named queues at a header (R208) -/

/-- How many words of a list pop and push each queue that is configured NAMED. -/
def queueNeeds (e : Env) (ws : List W128) : List (Nat × Nat × Nat) :=
  let l := ws.filter fun w => opcOf w == 0x158 || opcOf w == 0x159
  let named (q : Nat) : Bool := q < e.g.launch.queues && ((e.t.queue? q).map (·.kind)) == some 4
  (((l.map fun w => (LBody.of w).qn.toNat).eraseDups).filter named).map fun q =>
    (q, (l.filter fun w => opcOf w == 0x159 && (LBody.of w).qn.toNat == q).length,
        (l.filter fun w => opcOf w == 0x158 && (LBody.of w).qn.toNat == q).length)

/-- The needs of a thread's next words. -/
def threadNeeds (s : State) (e : Env) (x : Thread) : List (Nat × Nat × Nat) :=
  if x.resumeAt != 0 then queueNeeds e (x.resumeWords.drop (x.resumeAt - 1))
  else match clauseAt s e.t.core e.g.ctx x.pc with
  | none => []
  | some (_, ws) => queueNeeds e ws

/-- Whether each queue can serve the needs now. -/
def queuesServe (s : State) (e : Env) (needs : List (Nat × Nat × Nat)) : Bool :=
  needs.all fun n =>
    let q := (e.t.queue? n.1).getD {}
    let r := reserved s e.t n.1
    r.1 + n.2.1 ≤ q.occ && r.2 + n.2.2 ≤ q.allow

/-- The slots a warp holds. -/
def warpFmt (t : Team) (w : Nat) : List W64 := ((t.warp? w).map (·.fmt)).getD defaultFmt

/-- The slots that a thread's next words are decoded and run with. -/
def nextFmt (t : Team) (x : Thread) : List W64 := if x.resumeAt == 0 then warpFmt t x.warp else x.resumeFmt

/-- Whether two threads held at one clause would form one bundle (R359). -/
def sharesBundle (t : Team) (x y : Thread) : Bool :=
  y.pc == x.pc && y.resumeAt == x.resumeAt && y.resumeHdr == x.resumeHdr && y.resumeWords == x.resumeWords && y.lane != x.lane &&
  t.order x.tid / 32 % 4 == t.order y.tid / 32 % 4 && nextFmt t x == nextFmt t y

/-- Whether a thread of another bundle became held on one of the queues before this one. Bundles held to POP and bundles held to PUSH on
one queue are ordered apart: each waits only for its own kind (log 57). -/
def olderHeld (s : State) (e : Env) (x : Thread) (needs : List (Nat × Nat × Nat)) : Bool :=
  e.t.threads.any fun y =>
    y.qheld != 0 && (x.qheld == 0 || y.qheld < x.qheld) && !sharesBundle e.t x y &&
    (threadNeeds s e y).any fun n => needs.any fun m => m.1 == n.1 && ((m.2.1 != 0 && n.2.1 != 0) || (m.2.2 != 0 && n.2.2 != 0))

/-! ## What a thread meets at its header -/

/-- R381, R382: the BREAKPOINT of a thread at its header, if any. -/
def breakTrap (c : Ctx) (g : Grid) (t : Team) (x : Thread) : Option Trap :=
  let hit := if x.exempt then none else (List.range 32).find? fun n =>
    let v := (c.bp.get 0 n).toNat
    v.testBit 0 && v / 16 * 16 % 2 ^ 57 == x.pc.toNat
  let ss := c.sstep.toNat
  let step := !x.stepOk && ss.testBit 0 && (!ss.testBit 1 || (bitsOf ss 2 12 == g.num && bitsOf ss 32 32 == t.index))
  if hit.isNone && !step then none
  else some { code := fBreakpoint, kind := 0, detail := hit.getD 0 + if step then 256 else 0 }

/-- R375: SAFEPOINT_DISTANCE at a header. -/
def distanceTrap (safe : Bool) (x : Thread) : Option Trap :=
  if !safe && 1024 ≤ x.spd then some { code := fSafepointDistance, kind := 0, detail := x.lastSafe } else none

def dueTraps (h : W128) (x : Thread) : List Deferred := x.deferred.filter (isDue h)

/-- What entering a clause does to a thread (R18, R22, R123, R375). -/
def enterClause (h : W128) (x : Thread) : Thread :=
  let hd := Header.of h
  let waited (n : Nat) : Bool := match x.pend.get none n with
    | some f => hd.wait.getLsbD f
    | none => false
  let seen := (x.eflHeld.filter fun p => hd.wait.getLsbD p.1).foldl (fun m p => m ||| p.2) 0
  { x with pend := (x.pend.filter fun p => !waited p.1), efl := x.efl ||| seen, eflHeld := x.eflHeld.filter fun p => !hd.wait.getLsbD p.1
           deferred := x.deferred.filter fun d => !isDue h d, yielded := false
           spd := if hd.safe then 0 else x.spd + 1, lastSafe := if hd.safe then hd.spix.toNat else x.lastSafe }

/-! ## BUNDLE_FORMATION (R359) -/

/-- Whether the thread's next clause holds a lane instruction (R163), as far as its words can be read. -/
def laneClause (s : State) (e : Env) (x : Thread) : Bool :=
  (if x.resumeAt != 0 then x.resumeWords else wordsAt s e.t.core e.g.ctx x.pc).any fun w => isLaneOp (opcOf w)

/-- The slots of a formed bundle whose first word has not issued: those its first warp holds. -/
def bundleFmt (t : Team) (b : Bundle) : List W64 := if b.startAt != 0 then b.fmt else warpFmt t ((b.members.headD 0) / 32)

/-- R359: a bundle admits threads until its first word issues. -/
def stillOpen (b : Bundle) : Bool := !b.decoded || (b.idx == 1 && b.startAt == 0)

/-- A thread enters a decoded bundle as it stands: its slots are those the clause was decoded with, and its header raises nothing. -/
def joinsDecoded (e : Env) (b : Bundle) (x : Thread) : Bool :=
  b.fmt == nextFmt e.t x && (breakTrap e.c e.g e.t x).isNone && (distanceTrap (Header.of b.hdr).safe x).isNone && (dueTraps b.hdr x).isEmpty

/-- A bundle whose first word has not issued stands before the decode of its clause again, and its threads count the clause anew. -/
def reopen (s : State) (b : Bundle) : State :=
  (s.updBundle b.id fun b => { b with decoded := false, hdr := 0, words := [], idx := 0 }).updTeam b.grid b.team fun t =>
    { t with threads := t.threads.map fun x => if b.members.contains x.tid then { x with spd := x.spd - 1 } else x }

/-- The formed bundle that admits a thread. -/
def admitting (s : State) (e : Env) (core quad : Nat) (x : Thread) : Option Bundle :=
  let lane := laneClause s e x
  s.bundles.find? fun b =>
    stillOpen b && b.core == core && b.quad == quad && b.grid == e.t.grid && b.team == e.t.index && b.addr == x.pc &&
    b.startAt == x.resumeAt && (b.startAt == 0 || (b.hdr == x.resumeHdr && b.words == x.resumeWords)) && bundleFmt e.t b == nextFmt e.t x &&
    !(b.members.any fun m => m % 32 == x.lane) &&
    (!lane || b.members.all fun m => m / 32 == x.warp)

def enterBundle (b : Nat) (x : Thread) : Thread := { x with place := .bundle b, qheld := 0, contrib := [] }

/-- A thread enters a bundle; where its clause is decoded, it begins it. -/
def joinBundle (b : Bundle) (x : Thread) : Thread := enterBundle b.id (if b.decoded then enterClause b.hdr x else x)

/-- Place one ready thread: a bundle that has decoded its clause takes it as it stands or decodes it again with it (R163, R359). The
number counts what changed. -/
def placeThread (core quad : Nat) (acc : State × Nat) (p : Nat × Nat × Nat) : State × Nat :=
  let s := acc.1
  match s.envOf { grid := p.1, team := p.2.1 } with
  | none => acc
  | some e => match e.t.thread? p.2.2 with
    | none => acc
    | some x =>
      match admitting s e core quad x with
      | some b0 =>
        let s := if b0.decoded && !joinsDecoded e b0 x then reopen s b0 else s
        let b := (s.bundle? b0.id).getD b0
        ((s.updBundle b.id fun b => { b with members := sortBy e.t.order (x.tid :: b.members), yielded := b.yielded || x.yielded
                                             contrib := (b.contrib ++ x.contrib).eraseDups }).updTeam p.1 p.2.1
            fun t => t.updThread x.tid (joinBundle b), acc.2 + 1)
      | none =>
        let needs := threadNeeds s e x
        if queuesServe s e needs && !olderHeld s e x needs then
          let b : Bundle := { id := s.nextId, grid := p.1, team := p.2.1, core, quad, addr := x.pc, members := [x.tid], startAt := x.resumeAt
                              hdr := x.resumeHdr, words := x.resumeWords, blind := x.resumeAt == 0 && (clauseAt s e.t.core e.g.ctx x.pc).isNone
                              fmt := nextFmt e.t x, resv := needs, contrib := x.contrib, since := s.cc, yielded := x.yielded }
          (({ s with nextId := s.nextId + 1, bundles := s.bundles ++ [b] }).updTeam p.1 p.2.1 fun t => t.updThread x.tid (enterBundle b.id), acc.2 + 1)
        else if x.qheld == 0 then
          (({ s with nextId := s.nextId + 1 }).updTeam p.1 p.2.1 fun t => t.updThread x.tid fun x => { x with qheld := s.nextId + 1 }, acc.2 + 1)
        else acc

/-- The ready threads of a quadrant in ascending warp slot, then lane. -/
def readyThreads (s : State) (core quad : Nat) : List (Nat × Nat × Nat) :=
  let l := s.teams.flatMap fun t =>
    if t.core != core || t.threads.isEmpty then []
    else match s.envOf { grid := t.grid, team := t.index } with
      | none => []
      | some e => (t.threads.filter fun x => t.order x.tid / 32 % 4 == quad && threadReady s e x).map fun x => (t.order x.tid, t.grid, t.index, x.tid)
  (sortBy (·.1) l).map (·.2)

/-- The threads of a quadrant that are ready are placed; the number is 0 where nothing changes. -/
def formBundles (s : State) (core quad : Nat) : State × Nat := (readyThreads s core quad).foldl (placeThread core quad) (s, 0)

/-! ## CLAUSE_DECODE (R94) -/

/-- R100: whether a SAFE header's safe-point entry is wrong; the entry's read may fault. The header's offset is not cut to the 32 bits
of CLOFF. -/
def safeEntryBad (s : State) (unit : Nat) (g : Grid) (a : Addr) (spix : Nat) : Except Trap Bool :=
  if g.launch.spn ≤ spix then .ok true
  else match fetchWord s unit g.ctx ((vaOf g.launch.code + g.launch.spoff + 64 * spix + 32) % 2 ^ 64) with
    | .error t => .error t
    | .ok w => .ok ((w.toNat / 2 ^ 64 % 2 ^ 32) != (a - g.launch.code).toNat)

/-- The header's fault: its format, its safe-point entry, its reserved fields. -/
def headerTrap (s : State) (unit : Nat) (g : Grid) (a : Addr) (h : W128) : Option Trap :=
  match checkHeader h with
  | some (.clauseFormat d) => some (decodeTrap (.clauseFormat d))
  | r =>
    let hd := Header.of h
    match if hd.safe then safeEntryBad s unit g a hd.spix.toNat else .ok false with
    | .error t => some t
    | .ok true => some (decodeTrap (.clauseFormat 6))
    | .ok false => r.map decodeTrap

/-- Fetch and decode body words from index `i`: the words, or the index of the first that faults and its trap. A fetch fault names its
word's index and takes its place among the decode faults (log 80). -/
def fetchBody (s : State) (unit : Nat) (g : Grid) (fmt : List W64) (a : Addr) (h : W128) : Nat → Nat → List W128 → Except (Nat × Trap) (List W128)
  | 0, _, ws => .ok ws
  | n + 1, i, ws =>
    match fetchWord s unit g.ctx ((vaOf a + 16 * i) % 2 ^ 64) with
    | .error t => .error (i, t)
    | .ok w =>
      match decodeBody { vpw := g.launch.vregs, kn := g.launch.kregs, tiles := g.launch.tiles, fmt } h ws (n == 0) w with
      | .error f => .error (i, decodeTrap f)
      | .ok _ => fetchBody s unit g fmt a h n (i + 1) (ws ++ [w])

/-- R102: whether a clause address stands for a segment that does not exist, as the image's translator made it (log 26). -/
def segmentAbsent (s : State) (g : Grid) (a : Addr) : Bool :=
  (imageAt s g.ctx (vaOf g.launch.code)).absent.contains (a - g.launch.code).toNat

/-- Fetch and decode a whole clause. -/
def fetchClause (s : State) (unit : Nat) (g : Grid) (fmt : List W64) (a : Addr) : Except (Nat × Trap) (W128 × List W128) :=
  if segmentAbsent s g a then .error (0, decodeTrap (.clauseFormat 7))
  else match fetchWord s unit g.ctx (vaOf a) with
  | .error t => .error (0, t)
  | .ok h => match headerTrap s unit g a h with
    | some t => .error (0, t)
    | none => match fetchBody s unit g fmt a h (Header.of h).len.toNat 1 [] with
      | .error e => .error e
      | .ok ws => .ok (h, ws)

/-- The deferred FP_TRAPs that a thread raises at a header: none where its POISON on a queue entry comes first. -/
def fpRaised (h : W128) (x : Thread) : List Deferred :=
  if (dueTraps h x).any (·.pop.isSome) then [] else (dueTraps h x).filter (·.trap.code == fFpTrap)

/-- R188: the record of one warp's deferred FP_TRAP. Bits [15:8] gather the flags of every word that trapped in one of its threads
(log 60); a warp in which none trapped names the event's words. Bits [7:0] take sys.trapen as it stands at the header (log 60). -/
def fpDetail (e : Env) (h : W128) (w : Nat) : Nat :=
  let mine := e.threads.filter (·.warp == w)
  let fp := fpRaised h
  let named := if mine.all fun x => (fp x).isEmpty then e.threads else mine
  let src := (((named.find? fun x => !(fp x).isEmpty).bind fun x => (sortBy (·.id) (fp x)).head?).map (·.src)).getD 0
  let words := ((named.flatMap fp).map (·.issue)).eraseDups
  let en := e.c.trapen.setWidth 32 &&& 0xFF
  let low := (mine.flatMap fp).foldl (fun m d => m ||| (d.efl &&& en)) 0
  let all := e.t.longFlags.foldl (fun m p => if words.contains p.1 && mine.any (·.tid == p.2.1) then m ||| p.2.2 else m) 0
  low.toNat + (all &&& 0xFF).toNat * 2 ^ 8 + src % 2 ^ 36 * 2 ^ 16

/-- The kind 3 traps of a bundle at its header, a thread's POISON on a queue entry before its FP_TRAP. -/
def deferredTraps (e : Env) (h : W128) : List (Nat × Trap) :=
  e.threads.filterMap fun x => (((dueTraps h x).find? (·.pop.isSome)).or (dueTraps h x).head?).map fun d =>
    (x.tid, { d.trap with kind := 3, detail := if d.trap.code == fFpTrap then fpDetail e h x.warp else d.trap.detail })

/-- A thread that has raised its deferred FP_TRAP no longer keeps it, so that RESUME runs the clause; whether it is raised again while
sys.trapen still enables the bit is not said (log 60). A poisoned queue entry stays for the RESUME (R205). -/
def dropRaised (h : W128) (x : Thread) : Thread := { x with deferred := x.deferred.filter fun d => !(isDue h d && d.trap.code != fPoison) }

/-- The threads of a bundle whose slots changed since it formed (R33), or whose header turns out to name a flag that is not ready (R17),
stand at the boundary again; all of them do where the clause could not be read when the bundle formed and now can, so that it forms by
what its words need (R163, R208). -/
def splitFormats (s : State) (e : Env) : State × Env :=
  if e.b.startAt != 0 then (s, e)
  else
    let free (m : Nat) : Bool := match headAt s e.t.core e.g.ctx e.b.addr, e.t.thread? m with
      | some h, some x => !flagsHold h x
      | _, _ => true
    let fmt := warpFmt e.t (((e.b.members.filter free).headD 0) / 32)
    let late := e.b.blind && (clauseAt s e.t.core e.g.ctx e.b.addr).isSome
    let keep := e.b.members.filter fun m => !late && free m && warpFmt e.t (m / 32) == fmt
    let b := { e.b with fmt, members := keep }
    let t := { e.t with threads := e.t.threads.map fun x => if e.b.members.contains x.tid && !keep.contains x.tid then { x with place := .boundary } else x }
    ((s.setTeam t).updBundle b.id fun _ => b, { e with b, t })

/-- The address of a word of a bundle's clause. -/
def clauseVa (e : Env) (i : Nat) : Nat := (vaOf e.b.addr + 16 * i) % 2 ^ 64

/-- The translations of a clause's fetch up to word `n` are cached (R378). -/
def cacheFetch (s : State) (e : Env) (n : Nat) : State :=
  cacheTranslation (cacheTranslation s e.t.core e.g.ctx (clauseVa e 0)) e.t.core e.g.ctx (clauseVa e n)

/-- The threads of a bundle as the holders of a code copy. -/
def holdersOf (e : Env) : List (Nat × Nat × Nat) := e.b.members.map fun m => (e.t.grid, e.t.index, m)

/-- R373: a fault of kind 0 leaves the words of its clause for the retry of its threads, as fetched, until an invalidation discards
them. -/
def keepCode (s : State) (e : Env) : State :=
  let vas := (List.range 16).map (clauseVa e)
  let mine (c : CodeCopy) : Bool := c.ctx == e.g.ctx && vas.contains c.va
  let got := vas.filterMap fun va => ((fetchWord s e.t.core e.g.ctx va).toOption).map fun w =>
    ({ ctx := e.g.ctx, va, word := w, holders := (holdersOf e ++ (s.codeCopies.filter fun c => mine c && c.va == va).flatMap (·.holders)).eraseDups } : CodeCopy)
  { s with codeCopies := got ++ s.codeCopies.filter fun c => !mine c }

/-- Threads let go of the copies they hold; a copy that none holds goes. -/
def dropHolders (gone : Nat × Nat × Nat → Bool) (l : List CodeCopy) : List CodeCopy :=
  (l.map fun c => { c with holders := c.holders.filter fun p => !gone p }).filter fun c => !c.holders.isEmpty

/-- The clause begins: its words are the bundle's, the translations of its fetch are cached, and its threads hold no copy any more. A
clause that continues after a fault finishes from the words it fetched (R379). -/
def beginClause (s : State) (e : Env) (h : W128) (ws : List W128) : State :=
  let s := if e.b.startAt == 0 then cacheFetch s e ws.length else s
  let s := { s with codeCopies := dropHolders (holdersOf e).contains s.codeCopies }
  let ths := if e.b.startAt == 0 then e.threads.map (enterClause h) else e.threads
  (s.setTeam (e.t.putThreads ths)).updBundle e.b.id fun b =>
    { b with decoded := true, hdr := h, words := ws, idx := max 1 e.b.startAt, fmt := e.b.fmt }

/-- Raise a fault of kind 0 at a bundle's header or a word of its clause. -/
def raiseDecode (s : State) (e : Env) (i : Nat) (t : Trap) (raised : List (Nat × Trap)) : State := raiseAt (keepCode s e) e i t raised

/-- Decode a bundle's clause, or raise what its header raises: BREAKPOINT, decode faults, SAFEPOINT_DISTANCE, deferred traps. -/
def decodeClause (s : State) (e : Env) : State :=
  if e.b.startAt != 0 then beginClause s e e.b.hdr e.b.words else
  let all (t : Trap) : List (Nat × Trap) := e.threads.map fun x => (x.tid, t)
  match e.threads.filterMap fun x => (breakTrap e.c e.g e.t x).map fun t => (x.tid, t) with
  | t :: r => raiseDecode s e 0 t.2 (t :: r)
  | [] => match fetchClause s e.t.core e.g e.b.fmt e.b.addr with
    | .error (i, t) => raiseDecode s e i t (all t)
    | .ok (h, ws) =>
      match e.threads.filterMap fun x => (distanceTrap (Header.of h).safe x).map fun t => (x.tid, t) with
        | t :: r => raiseDecode s e 0 t.2 (t :: r)
        | [] => match deferredTraps e h with
          | t :: r =>
            let up := if t.2.code == fFpTrap then ((t :: r).filter fun p => p.2.code == t.2.code).map (·.1) else []
            let rest := (e.threads.filter fun x => !up.contains x.tid).map fun x => (x.tid, ({ code := 0, detail := fpDetail e h x.warp } : Trap))
            let tm := { e.t with threads := e.t.threads.map fun x => if up.contains x.tid then dropRaised h x else x }
            raiseAt (s.setTeam tm) { e with t := tm } 0 t.2 (if up.isEmpty then t :: r else (t :: r) ++ rest)
          | [] => beginClause s e h ws

/-- A bundle's clause is decoded when the arbiter takes its first word. -/
def execClauseDecode (b : Nat) (s : State) : Event :=
  match s.bundle? b with
  | none => .refused (.notEnabled "CLAUSE_DECODE")
  | some x =>
    if x.decoded || s.quadIssued.contains (quadId x.core x.quad) || ((chooseBundle s x.core x.quad).map (·.id)) != some b then
      .refused (.notEnabled "CLAUSE_DECODE")
    else match s.envOf x with
      | none => .refused (.notEnabled "CLAUSE_DECODE")
      | some e => let p := splitFormats s e
                  let t := if p.2.b.members.isEmpty then { p.1 with bundles := p.1.bundles.filter (·.id != b) } else decodeClause p.1 p.2
                  .next { t with free := s.free + 1 }

/-- R363. -/
def execOverdue (b : Nat) (s : State) : Event :=
  match s.bundle? b with
  | some x => if 48 ≤ x.missed && !x.overdue then .next { s.updBundle b (fun x => { x with overdue := true }) with free := s.free + 1 }
              else .refused (.notEnabled "OVERDUE")
  | none => .refused (.notEnabled "OVERDUE")

/-! ## FLAG_COMPLETION (R16, R18, R22, R188, R204, R236) -/

/-- Whether a contributing clause of an instance has yet to retire. -/
def contributing (s : State) (o : Op) : Bool :=
  match o.inst with
  | none => false
  | some i => s.bundles.any (fun b => b.contrib.contains i) || s.teams.any fun t => t.grid == o.grid && t.index == o.team &&
      t.threads.any fun x => x.contrib.contains i

/-- R270, R272: a store that its core's L1 has taken may complete its flag on its way home: the thread's later accesses of its path
follow it there, and those on other paths do not. -/
def storeOnWay (s : State) (o : Op) : Bool :=
  o.wait == .req && s.reqs.any fun r => r.op == some o.id && r.taken && isStore r.kind

/-- Whether an operation may complete: the answers of its packets have come (R422), and entries of one FIFO leave in order. -/
def mayComplete (s : State) (o : Op) : Bool :=
  ((o.wait == .ready && !replyOnWay s o) || storeOnWay s o) && o.notBefore ≤ s.cc && !contributing s o &&
  (match o.popq with
   | none => true
   | some (q, _) => !(s.ops.any fun p => p.id < o.id && p.grid == o.grid && p.team == o.team && p.tid == o.tid &&
       (p.popq.map (·.1)) == some q))

/-- The stores on their way whose flag completes: the thread's later accesses of their path come after them. -/
def waysOf (s : State) (o : Op) : List (Path × Nat) :=
  (s.reqs.filter fun r => r.op == some o.id && isStore r.kind).map fun r => (r.path, r.id)

/-- What the completion leaves in its thread. An exited thread takes nothing (R115). R22 does not say when FLAGRD sees the flags of a word
that attaches to no completion flag; the model merges them into EFL at its completion (log 95). Whether the word traps is decided by
sys.trapen as it stands at the completion (log 60). -/
def deliverOp (c : Ctx) (o : Op) (x : Thread) : Thread :=
  if x.place == .exited then x
  else
    let x := match o.flag with
      | some n => { x with cf := x.cf.set 0 n (x.cf.get 0 n - 1) }
      | none => x
    let en := c.trapen.setWidth 32 &&& 0xFF
    match o.poison with
    | some t => { x with deferred := x.deferred ++ [{ flag := o.flag, trap := t, src := o.src, id := o.id, issue := o.issue
                                                      pop := match o.popq with
                                                        | some (q, sl) => some (q, sl, o.dreg)
                                                        | none => none }] }
    | none =>
      let x := match o.flag with
        | some n => if o.efl == 0 then x else { x with eflHeld := x.eflHeld.set 0 n (x.eflHeld.get 0 n ||| o.efl) }
        | none => { x with efl := x.efl ||| o.efl }
      if o.efl &&& en != 0 then
        { x with deferred := x.deferred ++ [{ flag := o.flag, trap := { code := fFpTrap }, efl := o.efl, src := o.src, id := o.id, issue := o.issue }] }
      else o.dst.foldl (fun x p => x.putRegs p.1 [p.2]) x

/-- The flags of QPOPs of a thread that wait behind the entry of a poisoned one. -/
def flagsBehind (s : State) (o : Op) : List Nat :=
  match o.popq with
  | none => []
  | some (q, _) => (s.ops.filter fun p => o.id < p.id && p.grid == o.grid && p.team == o.team && p.tid == o.tid && p.wait == .pop q).filterMap (·.flag)

/-- A completion in its thread, with the stores that are on their way. -/
def completeIn (s : State) (o : Op) (x : Thread) : Thread :=
  let c := s.ctx (((s.grid? o.grid).map (·.ctx)).getD 0)
  let behind := if o.poison.isSome then flagsBehind s o else []
  let y := deliverOp c o x
  let y := { y with deferred := y.deferred.map fun d => if d.id == o.id && d.pop.isSome then { d with behind } else d }
  if x.place == .exited then x else (waysOf s o).foldl (fun x p => addFence x p.1 [p.2]) y

/-- R188: a team keeps what a long word raised in each thread while another may still trap on the word: one whose operation of it is out,
or whose FP_TRAP is deferred. -/
def keepFlags (ops : List Op) (o : Op) (t : Team) : Team :=
  let live (i : Nat) : Bool := ops.any (fun p => p.grid == t.grid && p.team == t.index && p.issue == i) ||
    t.threads.any fun x => x.deferred.any fun d => d.issue == i && d.trap.code == fFpTrap
  { t with longFlags := ((o.issue, o.tid, o.efl) :: t.longFlags).filter fun p => p.2.2 != 0 && live p.1 }

def execFlagCompletion (op : Nat) (s : State) : Event :=
  match s.op? op with
  | none => .refused (.notEnabled "FLAG_COMPLETION")
  | some o =>
    if !mayComplete s o then .refused (.notEnabled "FLAG_COMPLETION")
    else .next { s.updTeam o.grid o.team (fun t => keepFlags (s.ops.filter (·.id != op)) o (t.updThread o.tid (completeIn s o))) with
                 ops := s.ops.filter (·.id != op), free := s.free + 1 }

/-! ## Naps, meetings and rendezvous -/

/-- R124. -/
def execNapEnd (grid team tid : Nat) (s : State) : Event :=
  match s.threadOf grid team tid with
  | none => .refused (.notEnabled "NAP_END")
  | some x => match x.nap with
    | none => .refused (.notEnabled "NAP_END")
    | some n => if n ≤ s.cc then .next { s.updTeam grid team (fun t => t.updThread tid fun x => { x with nap := none }) with free := s.free + 1 }
                else .refused (.notEnabled "NAP_END")

/-- R113: a thread waits at a meeting. -/
def waitsAt (m : Nat) (x : Thread) : Bool := x.place == .boundary && x.nap.isNone && x.resumeAt == 0 && atMeeting x && x.mrRef == m

/-- R113: a member is done with a meeting. -/
def doneWith (m : Meeting) (x : Thread) : Bool :=
  x.place == .exited || !x.mrV || x.mrRef != m.id || (x.place == .boundary && x.nap.isNone && x.resumeAt == 0 && x.pc == m.addr)

/-- R43: the earliest cc of threads released together: 2 cc after the last of them came. -/
def releaseCc (l : List Thread) : Nat := (l.map (·.notBefore)).foldl max 0 + 2

def execMeetingRelease (grid team meeting : Nat) (s : State) : Event :=
  match s.team? grid team with
  | none => .refused (.notEnabled "MEETING_RELEASE")
  | some t => match t.meetings.find? (·.id == meeting) with
    | none => .refused (.notEnabled "MEETING_RELEASE")
    | some m =>
      let mem := m.members.filterMap t.thread?
      let waiting := mem.filter (waitsAt meeting)
      if waiting.isEmpty || !mem.all (doneWith m) then .refused (.notEnabled "MEETING_RELEASE")
      else .next { s.setTeam (t.putThreads (waiting.map fun x => { x with mrV := false, notBefore := releaseCc mem })) with free := s.free + 1 }

/-- A thread stands at a row-group header (R234). -/
def standsAt (a : Addr) (x : Thread) : Bool :=
  x.place == .boundary && x.pc == a && x.resumeAt == 0 && x.nap.isNone && !atMeeting x

/-- The threads at a header whose row groups all stand there. -/
def rendezvous (t : Team) (ws : List W128) (a : Addr) : List Thread :=
  t.threads.filter fun x => standsAt a x && !x.released && !(rowGroups t ws x).isEmpty &&
    (rowGroups t ws x).all fun g => t.threads.all fun y => !g.contains y.warp || y.place == .exited || standsAt a y

def execRendezvousRelease (grid team : Nat) (addr : Addr) (s : State) : Event :=
  match s.envOf { grid, team } with
  | none => .refused (.notEnabled "RENDEZVOUS_RELEASE")
  | some e => match clauseAt s e.t.core e.g.ctx addr, e.t.phase with
    | some (_, ws), .running =>
      match rendezvous e.t ws addr with
      | [] => .refused (.notEnabled "RENDEZVOUS_RELEASE")
      | l =>
        -- R43: every member of their row groups, the exited ones too
        let mem := e.t.threads.filter fun y => l.any fun x => (rowGroups e.t ws x).any fun g => g.contains y.warp
        .next { s.setTeam (e.t.putThreads (l.map fun x => { x with released := true, notBefore := releaseCc (l ++ mem) })) with free := s.free + 1 }
    | _, _ => .refused (.notEnabled "RENDEZVOUS_RELEASE")

/-- R365: every charge resets, a saved team's too. -/
def execEpochBoundary (s : State) : Event :=
  if s.cc % 65536 != 0 || s.epochAt == s.cc + 1 then .refused (.notEnabled "EPOCH_BOUNDARY")
  else .next { s with epochAt := s.cc + 1
                      teams := s.teams.map (fun t => { t with charge := 0 })
                      saves := s.saves.map (fun x => { x with team := { x.team with charge := 0 } }), free := s.free + 1 }

end Sys2Proof.Machine
end

