-- ==== Sys2Proof/Machine/Predicate.lean ====
section
/-! DEFINITION. Predicate shift register words (05: R161, Table 5-3). -/

namespace Sys2Proof.Machine

def depthA (f : VBody) : Nat := f.sel.toNat % 8
def depthB (f : VBody) : Nat := f.sel.toNat / 8

/-- A predicate word that pushes a function of the register's entries. -/
def pushWord (s : State) (f : VBody) (g : Thread → Bool) : Result :=
  regWord s f.toBody {} false (simple fun x => { x with pred := pushPred x.pred (g x) })

def execPpop (f : VBody) (s : State) : Result :=
  regWord s f.toBody {} false (simple fun x => { x with pred := x.pred.tail })
def execPdup (f : VBody) (s : State) : Result := pushWord s f fun x => predAt x (depthA f)
def execPnot (f : VBody) (s : State) : Result := pushWord s f fun x => !predAt x (depthA f)
def execPand (f : VBody) (s : State) : Result := pushWord s f fun x => predAt x (depthA f) && predAt x (depthB f)
def execPor (f : VBody) (s : State) : Result := pushWord s f fun x => predAt x (depthA f) || predAt x (depthB f)
def execPxor (f : VBody) (s : State) : Result := pushWord s f fun x => predAt x (depthA f) != predAt x (depthB f)

/-- Exchange two depths: a depth at or beyond the count stays beyond it, the other receives false. -/
def swapPred (p : List Bool) (a b : Nat) : List Bool :=
  let va := p.getD a false
  let vb := p.getD b false
  (p.set a vb).set b va

def execPswap (f : VBody) (s : State) : Result :=
  regWord s f.toBody {} false (simple fun x => { x with pred := swapPred x.pred (depthA f) (depthB f) })

/-- PSET: the count in [11:8], at most 8, and the entries below it. -/
def predOfWord (v : W64) : List Bool := (List.range (min (v.toNat / 256 % 16) 8)).map v.getLsbD

def execPset (f : VBody) (s : State) : Result :=
  regWord s f.toBody { reads := regsOf f.a } false fun e x =>
    .ok { th := { x with pred := predOfWord (readOp s e f.imm x f.a) } }

def execPtov (f : VBody) (s : State) : Result := aluWord s f.toBody [] fun x _ _ _ => predWord x.pred

def execVtop (f : VBody) (s : State) : Result :=
  regWord s f.toBody { reads := regsOf f.a } false fun e x =>
    .ok { th := { x with pred := pushPred x.pred ((readOp s e f.imm x f.a).getLsbD f.sel.toNat) } }

end Sys2Proof.Machine
end

