-- ==== Sys2Proof/Machine/Lane.lean ====
section
/-! DEFINITION. Cross-lane words (05: R162 to R167). -/

namespace Sys2Proof.Machine

/-- R162: the participants of a lane word that belong to a thread's warp. -/
def peersOf (ex : List Thread) (x : Thread) : List Thread := ex.filter (·.warp == x.warp)

def atLane (ps : List Thread) (l : Nat) : Option Thread := ps.find? (·.lane == l)

/-- A lane word with a result per participant. -/
def laneGroup (s : State) (f : VBody) (srcs : List Operand) (hasD : Bool) (eff : Env → List Thread → Thread → Out) : Result :=
  groupWord s f.toBody { reads := srcs.flatMap regsOf, writes := if hasD then regsOf f.d else [] } false fun e ex =>
    .ok (e.t, ex.map fun x => eff e (peersOf ex x) x)

/-- R164: the source index of destination index j, when it lies in the warp. -/
def shflSource (mode j sub b : Nat) : Option Nat :=
  match mode with
  | 0 => some (b + sub)
  | 1 => some (j ^^^ b)
  | 2 => if b ≤ j then some (j - b) else none
  | _ => some (j + b)

def shflResult (w mode : Nat) (zf : Bool) (ps : List Thread) (val : Thread → W64) (b : Nat) (x : Thread) : W64 :=
  let n := 64 / w
  packElems w ((List.range n).map fun sub =>
    let own := if zf then 0 else elemOf w sub (val x)
    match shflSource mode (x.lane * n + sub) sub b with
    | none => own
    | some i => if i < 32 * n then
        match atLane ps (i / n) with
        | some y => elemOf w (i % n) (val y)
        | none => own
      else own)

/-- The element width of a lane word: a width selector, or the storage width of a slot (R164). -/
def laneElemWidth (e : Env) (f : VBody) : Nat :=
  if f.mod3.getLsbD 1 then fmtWidth (e.slot f.fs.toNat) else laneWidth f.fs

def execShfl (f : VBody) (s : State) : Result :=
  laneGroup s f [f.a, f.b] true fun e ps x =>
    { th := x, vals := [shflResult (laneElemWidth e f) f.subop.toNat (f.mod3.getLsbD 2) ps
        (fun y => readOp s e f.imm y f.a) (readOp s e f.imm x f.b).toNat x] }

/-- R165. -/
def execBcast (f : VBody) (s : State) : Result :=
  laneGroup s f [f.a, f.b] true fun e ps x =>
    let b := (readOp s e f.imm x f.b).toNat
    let own := if f.mod3.getLsbD 2 then 0 else readOp s e f.imm x f.a
    { th := x, vals := [if b < 32 then ((atLane ps b).map fun y => readOp s e f.imm y f.a).getD own else own] }

/-- R166. -/
def execVote (f : VBody) (s : State) : Result :=
  laneGroup s f [] (f.subop == 2) fun _ ps x =>
    let d := f.sel.toNat % 8
    if f.subop == 2 then
      { th := x, vals := [BitVec.ofNat 64 (laneMask ((ps.filter fun y => predAt y d).map (·.lane)))] }
    else
      let r := if f.subop == 0 then ps.all fun y => predAt y d else ps.any fun y => predAt y d
      { th := { x with pred := pushPred x.pred r } }

/-! ## WRED (R167) -/

/-- One level of the tree: neighbours combine, an empty node passes its neighbour. The fold carries the generator and flags. -/
def treeLevel (comb : Rng → Nat → Nat → Nat × Efl × Rng) : Rng → Efl → List (Option Nat) → List (Option Nat) × Efl × Rng
  | r, fl, [] => ([], fl, r)
  | r, fl, [x] => ([x], fl, r)
  | r, fl, x :: y :: l =>
    let p : Option Nat × Efl × Rng :=
      match x, y with
      | some a, some b =>
        let c := comb r a b
        (some c.1, c.2.1, c.2.2)
      | some a, none => (some a, 0, r)
      | none, z => (z, 0, r)
    let q := treeLevel comb p.2.2 (fl ||| p.2.1) l
    (p.1 :: q.1, q.2)

/-- Reduce a list by levels until one node is left. -/
def treeReduce (comb : Rng → Nat → Nat → Nat × Efl × Rng) : Nat → Rng → Efl → List (Option Nat) → Option Nat × Efl × Rng
  | 0, r, fl, l => (l.headD none, fl, r)
  | n + 1, r, fl, l =>
    let q := treeLevel comb r fl l
    treeReduce comb n q.2.2 q.2.1 q.1

/-- Table 5-4. -/
def wredCombine (op w : Nat) (signed : Bool) (fm : Fmt) (r : Rng) (x y : Nat) : Nat × Efl × Rng :=
  match op with
  | 0 => ((x + y) % 2 ^ w, 0, r)
  | 1 => (laneMin w signed false x y 0, 0, r)
  | 2 => (laneMax w signed false x y 0, 0, r)
  | 3 => (x &&& y, 0, r)
  | 4 => (x ||| y, 0, r)
  | 5 => (x ^^^ y, 0, r)
  | 8 =>
    let (a, fa) := fm.decode x
    let (b, fb) := fm.decode y
    let (c, fl, r) := fm.put r (exactSum fm [a, b])
    (c, fa ||| fb ||| fl, r)
  | n =>
    let (c, fl) := fm.minmax (n == 10) x y
    (c, fl, r)

/-- The reduction over a warp's participants: value, flags and the drawing generator's new state. -/
def wredResult (op w : Nat) (signed : Bool) (fm : Fmt) (ps : List Thread) (val : Thread → W64) : Nat × Efl × Rng :=
  let n := 64 / w
  let nodes := (List.range (32 * n)).map fun j => (atLane ps (j / n)).map fun y => elemOf w (j % n) (val y)
  let rng : Rng := ((ps.head?).map fun y => ({ s0 := y.s0, s1 := y.s1 } : Rng)).getD {}
  let r := treeReduce (wredCombine op w signed fm) (bitLen (32 * n - 1)) rng 0 nodes
  (r.1.getD 0, r.2)

def execWred (f : VBody) (s : State) : Result :=
  laneGroup s f [f.a] true fun e ps x =>
    let w := laneElemWidth e f
    let fm := Fmt.of (if f.mod3.getLsbD 1 then e.slot f.fs.toNat else 0)
    let r := wredResult f.subop.toNat w (f.mod3.getLsbD 0) fm ps fun y => readOp s e f.imm y f.a
    let lowest := ((ps.head?).map (·.tid)) == some x.tid
    { th := if lowest then { x with s0 := r.2.2.s0, s1 := r.2.2.s1 } else x
      vals := [packElems w (List.replicate (64 / w) r.1)], efl := r.2.1 }

end Sys2Proof.Machine
end

