-- ==== Sys2Proof/Machine/Element.lean ====
section
/-! DEFINITION. Element arithmetic, comparison, conversion and exact sums (06: R170 to R184, R188). -/

namespace Sys2Proof.Machine

/-! ## Sources and results -/

/-- R147: the operands that leave a group V word uniform as sources. -/
def uniformSrc : Operand → Bool
  | .k _ => true
  | .imm => true
  | .zero => true
  | .team => true
  | .core => true
  | _ => false

def uniformDst : Operand → Bool
  | .k _ => true
  | .zero => true
  | _ => false

/-- R171: the code of element i of a source under width w: every element of an immediate is IMM[W−1:0]. -/
def srcElem (s : State) (e : Env) (f : VBody) (x : Thread) (o : Operand) (w i : Nat) : Nat :=
  if o == .imm then f.imm.toNat % 2 ^ w else elemOf w i (readOp s e f.imm x o)

/-- The thread whose generator a word draws from: its own, or under a uniform word the lowest executing one (R172). -/
def drawer (uniform : Bool) (ex : List Thread) (x : Thread) : Thread := if uniform then ex.headD x else x

def Thread.rng (x : Thread) : Rng := { s0 := x.s0, s1 := x.s1 }

/-- An element word: `gen` gives the codes of D, the flags and the advanced generator from a thread and its drawing generator;
`dw` is the width D is packed at, `push` a predicate to push instead of writing D. -/
def elemWord (s : State) (f : VBody) (srcs : List Operand) (readsD : Bool) (long : Bool) (hasD : Bool)
    (gen : Env → List Thread → Thread → Rng → List W64 × Efl × Rng × Option Bool) : Result :=
  let u : Use := { reads := srcs.flatMap regsOf ++ (if readsD then regsOf f.d else []), writes := if hasD then regsOf f.d else [], long }
  let uni := !long && (uniformDst f.d || !hasD) && srcs.all uniformSrc
  groupWord s f.toBody u uni fun e ex =>
    .ok (e.t, ex.map fun x =>
      let who := drawer uni ex x
      let r := gen e ex x who.rng
      let y := if who.tid == x.tid then { x with s0 := r.2.2.1.s0, s1 := r.2.2.1.s1 } else x
      let y := match r.2.2.2 with
        | some b => { y with pred := pushPred y.pred b }
        | none => y
      { th := y, vals := r.1, efl := r.2.1 })

/-- Decode a list of codes: values and flags. -/
def Fmt.decodeAll (fm : Fmt) (l : List Nat) : List Val × Efl :=
  let d := l.map fm.decode
  (d.map (·.1), d.foldl (fun a p => a ||| p.2) 0)

/-- An element word whose elements are exact values delivered by `round_to` (R51, R172). -/
def roundWord (s : State) (f : VBody) (srcs : List Operand) (op : Fmt → Val → Val → Val → Val) : Result :=
  elemWord s f srcs false false true fun e _ x r =>
    let fm := Fmt.of (e.slot f.fs.toNat)
    let w := fm.width
    let vs := (List.range fm.elems).map fun i =>
      let d (o : Operand) : Val × Efl := if srcs.contains o then fm.decode (srcElem s e f x o w i) else (.zero false, 0)
      let a := d f.a
      let b := if 2 ≤ srcs.length then fm.decode (srcElem s e f x f.b w i) else (.zero false, 0)
      let c := if 3 ≤ srcs.length then fm.decode (srcElem s e f x f.c w i) else (.zero false, 0)
      (op fm a.1 b.1 c.1, a.2 ||| b.2 ||| c.2)
    let (codes, fl, r1) := fm.putAll r (vs.map (·.1))
    ([packElems w codes], vs.foldl (fun a p => a ||| p.2) fl, r1, none)

/-- An element word that chooses or builds codes and never rounds (R58). -/
def codeWord (s : State) (f : VBody) (srcs : List Operand) (op : Fmt → Nat → Nat → Nat → Nat × Efl) : Result :=
  elemWord s f srcs false false true fun e _ x r =>
    let fm := Fmt.of (e.slot f.fs.toNat)
    let w := fm.width
    let vs := (List.range fm.elems).map fun i =>
      op fm (srcElem s e f x f.a w i) (if 2 ≤ srcs.length then srcElem s e f x f.b w i else 0)
        (if 3 ≤ srcs.length then srcElem s e f x f.c w i else 0)
    ([packElems w (vs.map (·.1))], vs.foldl (fun a p => a ||| p.2) 0, r, none)

/-! ## Arithmetic (R174) -/

def execEadd (f : VBody) (s : State) : Result := roundWord s f [f.a, f.b] fun fm a b _ => exactSum fm [a, b]
def execEsub (f : VBody) (s : State) : Result := roundWord s f [f.a, f.b] fun fm a b _ => exactSum fm [a, b.neg]
def execEmul (f : VBody) (s : State) : Result := roundWord s f [f.a, f.b] fun _ a b _ => a.prod b
def execEfma (f : VBody) (s : State) : Result := roundWord s f [f.a, f.b, f.c] fun fm a b c => exactSum fm [a.prod b, c]
def execEmulz (f : VBody) (s : State) : Result := roundWord s f [f.a, f.b] fun _ a b _ => a.prodz b
def execEfmaz (f : VBody) (s : State) : Result := roundWord s f [f.a, f.b, f.c] fun fm a b c => exactSum fm [a.prodz b, c]

/-! ## Minimum, maximum and sign (R175, R176) -/

def execEmin (f : VBody) (s : State) : Result := codeWord s f [f.a, f.b] fun fm a b _ => fm.minmax false a b
def execEmax (f : VBody) (s : State) : Result := codeWord s f [f.a, f.b] fun fm a b _ => fm.minmax true a b

/-- The sign operations: 0 EABS, 1 ENEG, 2 ECPYS. -/
def signCode (fm : Fmt) (op a b : Nat) : Nat :=
  let top := 2 ^ (fm.width - 1)
  let mag := a % top
  let s := a.testBit (fm.width - 1)
  let pass := fm.nan == 3 && (a % 2 ^ fm.width == 0 || fm.special a == some (.nan false))
  if pass then a % 2 ^ fm.width
  else match op with
    | 0 => mag
    | 1 => mag + (if s then 0 else top)
    | _ => mag + (if b.testBit (fm.width - 1) then top else 0)

def signVal (op : Nat) (a b : Val) : Val :=
  match op with
  | 0 => a.abs
  | 1 => a.neg
  | _ => a.withSign b.sign

/-- R176: on the sign bit of a signed floating slot, else through round_to. -/
def signWord (s : State) (f : VBody) (srcs : List Operand) (op : Nat) : Result :=
  elemWord s f srcs false false true fun e _ x r =>
    let fm := Fmt.of (e.slot f.fs.toNat)
    let w := fm.width
    let codes := (List.range fm.elems).map fun i =>
      (srcElem s e f x f.a w i, if op == 2 then srcElem s e f x f.b w i else 0)
    if !fm.int && fm.sgn then ([packElems w (codes.map fun p => signCode fm op p.1 p.2)], 0, r, none)
    else
      let vs := codes.map fun p =>
        let a := fm.decode p.1
        let b := if op == 2 then fm.decode p.2 else (.zero false, 0)
        (signVal op a.1 b.1, a.2 ||| b.2)
      let (out, fl, r1) := fm.putAll r (vs.map (·.1))
      ([packElems w out], vs.foldl (fun a p => a ||| p.2) fl, r1, none)

def execEabs (f : VBody) (s : State) : Result := signWord s f [f.a] 0
def execEneg (f : VBody) (s : State) : Result := signWord s f [f.a] 1
def execEcpys (f : VBody) (s : State) : Result := signWord s f [f.a, f.b] 2

/-! ## Classification, comparison and selection (R179 to R181) -/

/-- Table 6-2: the class bit of a code. -/
def classOf (fm : Fmt) (code : Nat) : Nat :=
  let c := code % 2 ^ fm.width
  if fm.int then
    match fm.decode c with
    | (.num true _ _ _ _, _) => 1
    | (.num false m _ _ _, _) => if m == 0 then 4 else 6
    | _ => 4
  else match fm.special c with
    | some (.nan nv) => if nv then 8 else 9
    | some (.inf neg) => if neg then 0 else 7
    | _ =>
      let s := fm.sgn && c.testBit (fm.width - 1)
      let mag := c % 2 ^ (fm.ew + fm.mw)
      if mag == 0 then (if s then 3 else 4)
      else if mag / 2 ^ fm.mw == 0 then (if s then 2 else 5)
      else if s then 1 else 6

def ones (w : Nat) : Nat := 2 ^ w - 1

def execEclass (f : VBody) (s : State) : Result :=
  elemWord s f [f.a] false false (f.mod3.getLsbD 0) fun e _ x r =>
    let fm := Fmt.of (e.slot f.fs.toNat)
    let w := fm.width
    let hit (i : Nat) : Bool := f.imm.getLsbD (classOf fm (elemOf w i (readOp s e f.imm x f.a)))
    if f.mod3.getLsbD 0 then
      ([packElems w ((List.range fm.elems).map fun i => if hit i then ones w else 0)], 0, r, none)
    else ([], 0, r, some (hit f.sel.toNat))

/-- Table 6-1: outcome and flags of one comparison. -/
def elemCompare (fm : Fmt) (cc ca cb : Nat) : Bool × Efl :=
  let (a, fa) := fm.decode ca
  let (b, fb) := fm.decode cb
  let un := a.isNan || b.isNan
  let sig := a == .nan true || b == .nan true
  let lt := valLt false a b
  let gt := valLt false b a
  let nv := if un then flagIf (sig || (2 ≤ cc && cc ≤ 5)) fNV else 0
  let r := match cc with
    | 0 => !un && !lt && !gt
    | 1 => un || lt || gt
    | 2 => !un && lt
    | 3 => !un && !gt
    | 4 => !un && gt
    | 5 => !un && !lt
    | _ => un
  (r, fa ||| fb ||| nv)

def execEcmp (f : VBody) (s : State) : Result :=
  elemWord s f [f.a, f.b] false false false fun e _ x r =>
    let fm := Fmt.of (e.slot f.fs.toNat)
    let i := f.sel.toNat
    let c := elemCompare fm f.subop.toNat (srcElem s e f x f.a fm.width i) (srcElem s e f x f.b fm.width i)
    ([], c.2, r, some c.1)

def execEcmpm (f : VBody) (s : State) : Result :=
  codeWord s f [f.a, f.b] fun fm a b _ =>
    let c := elemCompare fm f.subop.toNat a b
    (if c.1 then ones fm.width else 0, c.2)

def execEblend (f : VBody) (s : State) : Result :=
  codeWord s f [f.a, f.b, f.c] fun fm a b c => (if c.testBit (fm.width - 1) then a else b, 0)

/-! ## Scaling and rounding (R177, R178) -/

def Val.scale (n : Int) : Val → Val
  | .nan q => .nan q
  | .inf s => .inf s
  | .num s m e st ix => .num s m (e + n) st ix

/-- R177: B is a signed 64-bit count; beyond ±2^14 every finite result has overflowed or underflowed alike in every slot. -/
def execEscale (f : VBody) (s : State) : Result :=
  elemWord s f [f.a, f.b] false false true fun e _ x r =>
    let fm := Fmt.of (e.slot f.fs.toNat)
    let w := fm.width
    let n := max (-16384) (min 16384 (readOp s e f.imm x f.b).toInt)
    let vs := (List.range fm.elems).map fun i => fm.decode (srcElem s e f x f.a w i)
    let (codes, fl, r1) := fm.putAll r (vs.map fun p => p.1.scale n)
    ([packElems w codes], vs.foldl (fun a p => a ||| p.2) fl, r1, none)

/-- The rounding mode of EROUND (R178). -/
def eroundMode (fm : Fmt) (mod3 : Nat) : Nat :=
  match mod3 with
  | 0 => fm.rnd
  | 1 => 0
  | 2 => 1
  | 3 => 2
  | 4 => 3
  | _ => 4

/-- One element of EROUND: the integral value and NX. A zero keeps the sign of a. -/
def eroundVal (fm : Fmt) (mod3 draw : Nat) (v : Val) : Val × Efl :=
  match v with
  | .num s m e st _ =>
    let (n, nx) := roundAt (eroundMode fm mod3) fm.srb draw s m e 0 st
    (.exact s n 0, flagIf nx fNX)
  | v => (v, 0)

def eroundAll (fm : Fmt) (mod3 : Nat) : Rng → List Val → List Nat × Efl × Rng
  | r, [] => ([], 0, r)
  | r, v :: l =>
    let d := xsNext r.s0 r.s1
    let draw := if fm.stochastic then drawBits fm.srb d.1 else 0
    let r1 : Rng := if fm.stochastic then { s0 := d.2.1, s1 := d.2.2 } else r
    let (y, nx) := eroundVal fm mod3 draw v
    let (c, fl) := fm.roundTo draw y
    let (cs, fls, r2) := eroundAll fm mod3 r1 l
    (c :: cs, nx ||| fl ||| fls, r2)

def execEround (f : VBody) (s : State) : Result :=
  elemWord s f [f.a] false false true fun e _ x r =>
    let fm := Fmt.of (e.slot f.fs.toNat)
    let w := fm.width
    let codes := (List.range fm.elems).map fun i => srcElem s e f x f.a w i
    if fm.int then ([packElems w codes], 0, r, none)
    else
      let (vs, fl) := fm.decodeAll codes
      let (out, fl2, r1) := eroundAll fm f.mod3.toNat r vs
      ([packElems w out], fl ||| fl2, r1, none)

/-! ## Conversion (R182) -/

/-- How a conversion lays out D: each written element with its source element, if it has one. -/
def cvtPlan (ed es j : Nat) : List (Nat × Option Nat) :=
  if ed == es then (List.range ed).map fun i => (i, some i)
  else if ed < es then (List.range ed).map fun i => (i, if j * ed + i < es then some (j * ed + i) else none)
  else ((List.range es).filter fun k => j * es + k < ed).map fun k => (j * es + k, some k)

/-- Deliver the planned elements: a source value through `conv`, or the all-zero code with its draw. -/
def cvtAll (fd : Fmt) (conv : Nat → Val × Efl) : Rng → List (Nat × Option Nat) → List (Nat × Nat) × Efl × Rng
  | r, [] => ([], 0, r)
  | r, (i, k) :: l =>
    let p : Nat × Efl × Rng := match k with
      | some k =>
        let v := conv k
        let q := fd.put r v.1
        (q.1, v.2 ||| q.2.1, q.2.2)
      | none => (0, 0, (fd.put r (.zero false)).2.2)
    let q := cvtAll fd conv p.2.2 l
    ((i, p.1) :: q.1, p.2.1 ||| q.2.1, q.2.2)

/-- D of a conversion: written elements over the old ones of a narrowing, zero elsewhere. -/
def cvtMerge (w ed : Nat) (merge : Bool) (old : W64) (l : List (Nat × Nat)) : W64 :=
  packElems w ((List.range ed).map fun i =>
    match l.find? fun p => p.1 == i with
    | some p => p.2
    | none => if merge then elemOf w i old else 0)

/-- Whether a conversion narrows under the slots of its clause, and so reads D (R182, R185). -/
def narrows (s : State) (f : VBody) : Bool :=
  match s.env? with
  | none => false
  | some e => (Fmt.of (e.slot f.fs2.toNat)).elems < (Fmt.of (e.slot f.fs.toNat)).elems

/-- Conversion from the slot FS2 into the slot FS through `fn`: the value and the flags of each source value (R182, R185). -/
def cvtWord (s : State) (f : VBody) (long : Bool) (fn : Fmt → Val → Val × Efl) : Result :=
  elemWord s f [f.a] (narrows s f) long true fun e _ x r =>
    let fd := Fmt.of (e.slot f.fs.toNat)
    let fs := Fmt.of (e.slot f.fs2.toNat)
    let conv (k : Nat) : Val × Efl :=
      let d := fs.decode (srcElem s e f x f.a fs.width k)
      let y := fn fd d.1
      (y.1, d.2 ||| y.2)
    let (l, fl, r1) := cvtAll fd conv r (cvtPlan fd.elems fs.elems f.sel.toNat)
    ([cvtMerge fd.width fd.elems (fs.elems < fd.elems) (readOp s e f.imm x f.d) l], fl, r1, none)

def execEcvt (f : VBody) (s : State) : Result := cvtWord s f false fun _ v => (v, 0)

/-! ## Exact sums (R183, R184) -/

/-- The register r places after a vector operand. -/
def regAt (x : Thread) (o : Operand) (r : Nat) : W64 :=
  match o with
  | .v n => x.v.get 0 (n.val + r)
  | _ => 0

def execEdot (f : VBody) (s : State) : Result :=
  let n := f.imm.toNat % 16
  let u : Use := { reads := regsOf f.a n ++ regsOf f.b n ++ (if f.mod3.getLsbD 0 then regsOf f.c else []),
                   writes := regsOf f.d, long := true }
  groupWord s f.toBody u false fun e ex =>
    .ok (e.t, ex.map fun x =>
      let fd := Fmt.of (e.slot f.fs.toNat)
      let fs := Fmt.of (e.slot f.fs2.toNat)
      let terms := (List.range n).flatMap fun r => (List.range fs.elems).map fun i =>
        let a := fs.decode (elemOf fs.width i (regAt x f.a r))
        let b := fs.decode (elemOf fs.width i (regAt x f.b r))
        (a.1.prod b.1, a.2 ||| b.2)
      let terms := if f.mod3.getLsbD 0 then terms ++ [fd.decode (elemOf fd.width 0 (readOp s e f.imm x f.c))] else terms
      let p := fd.put x.rng (exactSum fd (terms.map (·.1)))
      { th := { x with s0 := p.2.2.s0, s1 := p.2.2.s1 }, vals := [BitVec.ofNat 64 p.1]
        efl := terms.foldl (fun a t => a ||| t.2) p.2.1 })

def execEsumw (f : VBody) (s : State) : Result :=
  groupWord s f.toBody { reads := regsOf f.a, writes := regsOf f.d, long := true } false fun e ex =>
    .ok (e.t, ex.map fun x =>
      let ps := peersOf ex x
      let fd := Fmt.of (e.slot f.fs.toNat)
      let fs := Fmt.of (e.slot f.fs2.toNat)
      let terms := ps.flatMap fun y => (List.range fs.elems).map fun i => fs.decode (elemOf fs.width i (readOp s e f.imm y f.a))
      let low := ps.headD x
      let p := fd.put low.rng (exactSum fd (terms.map (·.1)))
      { th := if low.tid == x.tid then { x with s0 := p.2.2.s0, s1 := p.2.2.s1 } else x
        vals := [BitVec.ofNat 64 p.1], efl := terms.foldl (fun a t => a ||| t.2) p.2.1 })

end Sys2Proof.Machine
end

