-- ==== Sys2Proof/Machine/Home.lean ====
section
/-! DEFINITION. Requests at L2 slices and their homes (12: R320 to R330), and failing units: SOFT_ERROR (R336, R337) and UNIT_FENCE
(R338, R474). -/

namespace Sys2Proof.Machine

/-! ## Requests at slices -/

/-- The sectors of a store's bytes, by kind and number. -/
def byteSectors (segs : List (Nat × Nat × Nat)) : List (Nat × Nat) :=
  segs.flatMap fun g => (List.range g.2.2).map fun i => (g.1, (g.2.1 + i) / 32)

/-- Whether a store of a core leaves its die (R286). -/
def storeCrosses (s : State) (r : Req) : Bool :=
  r.segs.any fun g => g.1 != 0 || (s.regions.get {} (regionOf g.2.1)).die != r.core / 48

/-- The sectors of a row of a tile or of cells that land before the rest (R286 to R288, log 86): within a die a prefix in ascending order, else
any of them; which is free. -/
def landsFirst (s : State) (r : Req) (mask : List Byte) : List (Nat × Nat) :=
  let left := (((byteSectors r.segs).zip mask).filter (·.2 != 0)).map (·.1) |>.eraseDups
  if storeCrosses s r then ((List.range left.length).zip left).filterMap fun p => if (Config.freeChoice s.free >>> p.1) % 2 == 1 then some p.2 else none
  else left.take (Config.freeChoice s.free % max 1 left.length)

/-- Those sectors of a store land, and the rest of it waits. -/
def landFirst (s : State) (r : Req) (data mask : List Byte) (l : List (Nat × Nat)) : State :=
  let part (keep : Bool) : List Byte := ((byteSectors r.segs).zip mask).map fun p => if l.contains p.1 == keep then p.2 else 0
  let s := recallLines (homeFor s r) (segLines r.segs)
  let s := maskSegBytes s r.segs data (part true)
  let s := unpost (if r.taken then s else storeL1 s r.core r.segs data (part true)) r.segs (part true)
  (markWrite s r).updReq r.id fun q => { q with kind := .store data (part false) }

/-- What the home does on arrival: memory-side operations are accepted and performed by a later event, the rest perform, a store of more
than one sector also in parts. -/
def serveReq (s : State) (r : Req) : State :=
  match r.kind with
  | .atom .. | .red .. | .dred .. => s.updReq r.id fun q => { q with accepted := true }
  | .store data mask => match if r.len ≤ 32 || r.bad then [] else landsFirst s r mask with
    | [] => performReq s r
    | l => landFirst s r data mask l
  | _ => performReq s r

def serveAt (s : State) (r : Req) (segs : List (Nat × Nat × Nat)) : State :=
  match arriveAll s r ((segWords segs).map fun w => w / 4096).eraseDups with
  | (s, .served) => serveReq s r
  | (s, .answered) => answerMoved s r.id

/-- A request reaches a slice (R315, R320, R327, R329), whose packets have come (R422). One that the L1 serves whole, or
whose translation fails, ends at once. -/
def execL2Access (req : Nat) (s : State) : Event :=
  match s.req? req with
  | none => .refused (.notEnabled "L2_ACCESS")
  | some r =>
    if r.accepted || r.gathered || r.rehome.isSome || !reqReady s r then .refused (.notEnabled "L2_ACCESS")
    else match reqSegs s r with
      | .error _ => .next { performReq s r with free := s.free + 1 }
      | .ok segs =>
        if !r.sent && l1Serves s r segs then .next { performReq s r with free := s.free + 1 }
        else if !carried s r then .refused (.notEnabled "L2_ACCESS")
        else .next { serveAt s r segs with free := s.free + 1 }

/-- Answers to a request's packets that are still on their way. -/
def answersOut (s : State) (req : Nat) : Bool := s.packets.any fun p => p.req == some req

/-- R329: a REHOME that names a home, once it has come. -/
def execRehome (req : Nat) (s : State) : Event :=
  match s.req? req with
  | none => .refused (.notEnabled "REHOME")
  | some r => match r.rehome with
    | some (some h) => if answersOut s req then .refused (.notEnabled "REHOME")
      else .next { cacheRegion (s.updReq req fun q => { q with rehome := none, sent := false }) r.core r.rehomeReg h with free := s.free + 1 }
    | _ => .refused (.notEnabled "REHOME")

/-- R329: 64 fc after a REHOME without a home. -/
def execRehomeRetry (req : Nat) (s : State) : Event :=
  match s.req? req with
  | none => .refused (.notEnabled "REHOME_RETRY")
  | some r => match r.rehome with
    | some none => if r.rehomeAt + 64 ≤ s.fc && !answersOut s req then
        .next { s.updReq req (fun q => { q with rehome := none, sent := false }) with free := s.free + 1 }
                   else .refused (.notEnabled "REHOME_RETRY")
    | _ => .refused (.notEnabled "REHOME_RETRY")

/-- R280. -/
def execAtomicAtHome (req : Nat) (s : State) : Event :=
  match s.req? req with
  | none => .refused (.notEnabled "ATOMIC_AT_HOME")
  | some r => match r.accepted, r.kind with
    | true, .atom .. => .next { performReq s r with free := s.free + 1 }
    | _, _ => .refused (.notEnabled "ATOMIC_AT_HOME")

/-- R221: a contribution accepted by its home, or one that an L1 holds update-only and sends home (R318). -/
def execRedApplication (req : Nat) (s : State) : Event :=
  match s.req? req with
  | none => .refused (.notEnabled "RED_APPLICATION")
  | some r => match r.accepted || (r.gathered && reqReady s r && carried s r), r.kind with
    | true, .red .. => .next { performReq s r with free := s.free + 1 }
    | _, _ => .refused (.notEnabled "RED_APPLICATION")

/-- R323. -/
def execPressContribution (req : Nat) (s : State) : Event :=
  match s.req? req with
  | none => .refused (.notEnabled "PRESS_CONTRIBUTION")
  | some r => match r.accepted, r.kind with
    | true, .dred .. => .next { performReq s r with free := s.free + 1 }
    | _, _ => .refused (.notEnabled "PRESS_CONTRIBUTION")

/-! ## SOFT_ERROR (Table 12-6) -/

/-- The storage class of a place (R337). -/
def spotClass : Spot → Nat
  | .reg .. => 1
  | .tile .. => 1
  | .pad .. => 2
  | .cell .. => 3
  | .l1 .. => 4
  | .l2 _ | .tag _ => 5
  | .msc _ | .run _ | .counter _ | .table _ => 6
  | .dram _ => 7
  | .link _ | .flit _ => 8
  | .control .. => 0

/-- A partition of a stack, where the spec does not say which of the 384 holds a place of the reserved region: a free one (log 100). -/
def reservedPart (s : State) (stack : Nat) : UnitKind × Nat := (.mscPartition, stack * 384 + Config.freeChoice s.free % 384)

/-- The unit that records an error (R474): the core of a team's storage and of an L1, the slice of an L2 sector or tag, the partition and
the pseudo-channel of a block. An entry that a press or a counter cache keeps in the pool is a place of the MSC. -/
def spotUnit (s : State) : Spot → Option (UnitKind × Nat)
  | .reg g t .. | .tile g t .. | .pad g t _ | .cell g t .. => (s.team? g t).map fun x => (.core, x.core)
  | .l1 core _ => some (.core, core)
  | .l2 n => some (.slice, homeSlice s (32 * n))
  | .tag n => some (.slice, n)
  | .msc n => some (.mscPartition, (mscSet (n / 4)).1)
  | .run i => (s.press[i]?).map fun p => match if p.pool then unitSegs s p.ctx p.units else [] with
    | [] => reservedPart s p.stack
    | g :: _ => (.mscPartition, (mscSet (g.2.1 / 128)).1)
  | .counter i => (s.counters[i]?).map fun c => match if c.pool then unitSegs s (ctxOf s c.grid) [c.unit] else [] with
    | [] => reservedPart s c.stack
    | g :: _ => (.mscPartition, (mscSet (g.2.1 / 128)).1)
  | .table n => some (reservedPart s (n % 16))
  | .dram n => some (.pseudoChannel, (mscSet (n / 4)).1)
  | .link _ | .flit _ => none
  | .control u n => some (u, n)

def fencedUnits (s : State) : UnitKind → List Nat
  | .core => s.mgmt.fencedCores
  | .slice => s.mgmt.fencedSlices
  | .pseudoChannel => s.mgmt.fencedPcs
  | .mscPartition => s.mgmt.fencedMscs

def unitCount : UnitKind → Nat
  | .core => 384
  | .slice => 1536
  | .pseudoChannel => 6144
  | .mscPartition => 6144

/-- Whether the place holds data: a resident team's storage, a held L1 word, a device sector. -/
def spotExists (s : State) : Spot → Bool
  | .reg g t tid n => (s.threadOf g t tid).isSome && n < ((s.grid? g).getD {}).launch.vregs
  | .tile g t w n => (((s.team? g t).bind fun tm => tm.warp? w).isSome) && n < 256 * ((s.grid? g).getD {}).launch.tiles
  | .pad g t w => (s.team? g t).isSome && 8 * w < ((s.grid? g).getD {}).launch.spad
  | .cell g t w c => match (s.team? g t).bind fun tm => tm.window? w with
    | some x => c < 128 * x.rows
    | none => false
  | .l1 core w => (s.l1Word? core w).isSome || s.reqs.any fun r => r.gathered && r.core == core && (segWords r.segs).contains w
  | .l2 n => n < 2 ^ 35
  | .msc n => n < 2 ^ 35
  | .tag n => n < 1536 && !s.mgmt.fencedSlices.contains n
  | .run i => ((s.press[i]?).bind (·.run)).isSome
  | .counter i => i < s.counters.length
  | .table n => n < 2 ^ 24 && (s.regions.get {} n).st != 0
  | .dram n => n < 2 ^ 35
  | .link n => n < 2 ^ 35
  | .flit i => i < s.flits.length
  | .control u n => n < unitCount u && !(fencedUnits s u).contains n

def addOnce (l : List Nat) (n : Nat) : List Nat := if l.contains n then l else l ++ [n]

def poisonSector (s : State) (n cls : Nat) : State := { s with poison := s.poison.set 0 n cls }

/-- The home sectors of update-only contributions in a word that a core's L1 lost are poisoned; the contributions are lost. -/
def loseGathered (s : State) (core w : Nat) : State :=
  (s.reqs.filter fun r => r.gathered && r.core == core && (segWords r.segs).contains w).foldl
    (fun s r => dropReq (poisonSector s (w / 2) 4) r) s

/-- Data beyond correction becomes poisoned (Table 12-6). -/
def poisonSpot (s : State) : Spot → State
  | .reg g t tid n => s.updTeam g t fun tm => tm.updThread tid fun x => { x with vpoison := addOnce x.vpoison n }
  | .tile g t w n => s.updTeam g t fun tm => tm.updWarp w fun x => { x with tilePoison := addOnce x.tilePoison n }
  | .pad g t w => s.updTeam g t fun tm => { tm with spadPoison := addOnce tm.spadPoison w }
  | .cell g t w c => s.updTeam g t fun tm => tm.updWindow w fun x => { x with cells := x.cells.set {} c { x.cells.get {} c with poison := true } }
  | .l1 core w => loseGathered { s with l1 := s.l1.filter fun x => !(x.core == core && x.word == w) } core w
  | .l2 n => poisonSector s n 5
  | .msc n => poisonSector s n 6
  | .tag _ | .control .. => s
  | .run i => match s.press[i]? with
    | none => s
    | some p => poisonSector { s with press := s.press.eraseIdx i } (p.pa / 32) 6
  | .counter i => { s with counters := s.counters.modify i fun c => { c with count := Config.freeChoice s.free % 2 ^ 32 } }
  | .table n => { s with regions := s.regions.set {} n {} }
  | .dram n => poisonSector s n 7
  | .link n => poisonSector s n 8
  | .flit i => { s with flits := s.flits.modify i fun f => { f with poisoned := true } }

/-! ## UNIT_FENCE (R338, R474) -/

/-- The kind of the POISON at a point where threads stand (Table 14-3): 1 at a word; 3 at a header, and where a resumption stands at its
terminal (log 75). -/
def stopKind (e : Env) : Nat :=
  if e.b.startAt == 0 || (Header.of e.b.hdr).len.toNat < e.b.startAt then 3 else 1

/-- Threads of a team at one boundary, headers first, as a bundle to raise a fault from. -/
def boundaryBundle (t : Team) : Option Bundle :=
  match ((t.threads.find? fun x => x.place == .boundary && x.resumeAt == 0).or (t.threads.find? fun x => x.place == .boundary)) with
  | none => none
  | some x => some { grid := t.grid, team := t.index, core := t.core, addr := x.pc, startAt := x.resumeAt, idx := x.resumeAt
                     hdr := x.resumeHdr, words := x.resumeWords, fmt := nextFmt t x, contrib := x.contrib
                     members := (t.threads.filter fun y => y.place == .boundary && y.pc == x.pc && y.resumeAt == x.resumeAt &&
                       y.resumeHdr == x.resumeHdr && y.resumeWords == x.resumeWords && nextFmt t y == nextFmt t x).map (·.tid) }

/-- Raise the POISON of a fenced core in a bundle, of storage class 1, 2 or 3, in all its threads. -/
def raisePoison (s : State) (b : Bundle) (kind : Env → Nat) : State :=
  match s.envOf b with
  | none => s
  | some e =>
    let tr : Trap := { poisonTrap (1 + Config.freeChoice s.free % 3) with kind := kind e }
    raiseAt s e (if tr.kind == 1 then b.idx else 0) tr (b.members.map fun m => (m, tr))

/-- A team that runs stops with the POISON: at a boundary where threads stand, else at a word that a bundle has yet to execute. One all
of whose bundles stand at their terminals raises it at the next boundary. -/
def stopTeam (s : State) (t : Team) : State :=
  let s := dissolve s t.grid t.index
  match boundaryBundle ((s.team? t.grid t.index).getD t) with
  | some b => raisePoison s b stopKind
  | none => match s.bundles.find? fun b => b.grid == t.grid && b.team == t.index && b.idx ≤ (Header.of b.hdr).len.toNat with
    | some b => raisePoison s b fun _ => 1
    | none => s

/-- A team that a fault already stops has a POISON record beside the first (R369). -/
def addPoison (s : State) (t : Team) : State :=
  match t.threads.find? fun x => x.place == .held with
  | none => s
  | some x =>
    let b : Bundle := { grid := t.grid, team := t.index, core := t.core, addr := x.pc
                        members := (t.threads.filter fun y => y.place == .held && y.pc == x.pc && y.resumeAt == x.resumeAt).map (·.tid) }
    match s.envOf b with
    | none => s
    | some e =>
      let tr : Trap := { poisonTrap (1 + Config.freeChoice s.free % 3) with kind := if x.heldKind == 1 || x.heldKind == 4 then x.heldKind else 3 }
      { s with faults := s.faults ++ faultRecords s e (if tr.kind == 3 then 0 else x.resumeAt) tr (b.members.map fun m => (m, tr)) false
               seq := (s.seq + 1) % 2 ^ 32 }

def stopOn (s : State) (t : Team) : State :=
  match t.phase with
  | .running | .saving .. => stopTeam s t
  | .holding | .held => addPoison s t
  | _ => s

/-- R338: a core issues no further clause; the teams resident on it end with a POISON record. -/
def fenceCore (s : State) (n : Nat) : State :=
  let s := { s with mgmt := { s.mgmt with fencedCores := s.mgmt.fencedCores ++ [n] } }
  (s.teams.filter fun t => t.core == n).foldl stopOn s

/-- R338: a team of a fenced core that has come to a boundary, or was resumed there, raises the POISON. -/
def fencedStop (s : State) (core : Nat) : Option State :=
  (s.teams.find? fun t => t.core == core && t.phase == .running && (boundaryBundle t).isSome).map (stopTeam s)

/-- R359; a fenced core forms no bundle. -/
def execBundleFormation (core quad : Nat) (s : State) : Event :=
  if s.mgmt.fencedCores.contains core then
    match fencedStop s core with
    | none => .refused (.notEnabled "BUNDLE_FORMATION")
    | some s1 => .next { s1 with free := s.free + 1 }
  else
    let p := formBundles s core quad
    if p.2 == 0 then .refused (.notEnabled "BUNDLE_FORMATION") else .next { p.1 with free := s.free + 1 }

/-- A slice is retired: each region that it homes moves (R330). -/
def fenceSlice (s : State) (n : Nat) : State :=
  let s := { s with mgmt := { s.mgmt with fencedSlices := s.mgmt.fencedSlices ++ [n] } }
  (s.regions.filter fun p => p.2.st == 1 && 192 * p.2.die + p.2.node == n).foldl (fun s p => startMove s p.1 false) s

/-- A partition is bypassed: its pins are dropped, and lines that were modified and cannot be read are poisoned in DRAM; which
ones is open. -/
def fenceMsc (s : State) (n : Nat) : State :=
  let lines := ((s.mem.map (·.1 / 128)).eraseDups).filter fun l => (mscSet l).1 == n
  let s := { s with mgmt := { s.mgmt with fencedMscs := s.mgmt.fencedMscs ++ [n] }
                    locks := s.locks.filter fun l => !(l.msc && (mscSet l.line).1 == n) }
  ((List.range lines.length).zip lines).foldl (fun s p =>
    if (Config.freeChoice s.free >>> p.1) % 2 == 1 then (List.range 4).foldl (fun s i => poisonSector s (4 * p.2 + i) 7) s else s) s

def fenceUnit (s : State) (u : UnitKind) (n : Nat) : State :=
  match u with
  | .core => fenceCore s n
  | .slice => fenceSlice s n
  | .pseudoChannel => { s with mgmt := { s.mgmt with fencedPcs := s.mgmt.fencedPcs ++ [n] } }
  | .mscPartition => fenceMsc s n

/-- Iagar's flash record of fenced units. -/
def recordFence (i : Iagar) (u : UnitKind) (n : Nat) : Iagar :=
  match u with
  | .core => { i with recCores := addOnce i.recCores n }
  | .slice => { i with recSlices := addOnce i.recSlices n }
  | .pseudoChannel => { i with recPcs := addOnce i.recPcs n }
  | .mscPartition => { i with recMscs := addOnce i.recMscs n }

/-- A unit is fenced, Iagar records it and the host is told (R338, R474). -/
def fenceAndTell (s : State) (unit : UnitKind) (n : Nat) : State :=
  let s1 := fenceUnit s unit n
  { s1 with mgmt := { s1.mgmt with newfence := true }, msix := s1.mgmt.hvec :: s1.msix, iagar := recordFence s1.iagar unit n
            failing := s1.failing.filter (· != (unit, n)) }

/-- R474: a unit that has passed one of its error thresholds is fenced. -/
def execUnitFence (unit : UnitKind) (n : Nat) (s : State) : Event :=
  if unitCount unit ≤ n || (fencedUnits s unit).contains n || !s.failing.contains (unit, n) then .refused (.notEnabled "UNIT_FENCE")
  else .next { fenceAndTell s unit n with free := s.free + 1 }

/-- Fabric clocks in a second and in 24 hours (R2: 2,400 MHz). -/
def secondFc : Nat := 2400000000
def dayFc : Nat := 86400 * secondFc

/-- R474: a unit records an error; 64 corrected ones within a second, or 4 beyond correction within 24 hours, are its thresholds. -/
def recordError (s : State) (hard : Bool) (u : UnitKind × Nat) : State :=
  let kept := s.errors.filter fun e => s.fc < e.fc + if e.hard then dayFc else secondFc
  let mine := kept.filter fun e => (e.unit, e.n) == u && e.hard == hard
  { s with errors := { unit := u.1, n := u.2, hard, fc := s.fc } :: kept
           failing := if (if hard then 4 else 64) ≤ mine.length + 1 && !s.failing.contains u then s.failing ++ [u] else s.failing }

/-- An error is counted by its storage class (Table 19-6), and its unit records it. Control state has no class (log 100). -/
def noteError (s : State) (spot : Spot) (hard : Bool) : State :=
  let s1 := if spotClass spot == 0 then s else countTelemetry s ((if hard then 0x80 else 0) + 8 * spotClass spot) 1
  match spotUnit s spot with
  | some u => recordError s1 hard u
  | none => s1

/-- R336: a corrected error is only counted. One beyond correction poisons its data; in a tag it retires the slice (Table 12-6), in a
unit's control state it fences the unit (R474). -/
def execSoftError (spot : Spot) (uncorrectable : Bool) (s : State) : Event :=
  if !spotExists s spot then .refused (.notEnabled "SOFT_ERROR")
  else
    let s1 := noteError s spot uncorrectable
    let s2 := match uncorrectable, spot with
      | true, .tag n => fenceAndTell s1 .slice n
      | true, .control u n => fenceAndTell s1 u n
      | true, _ => poisonSpot s1 spot
      | false, _ => s1
    .next { s2 with free := s.free + 1 }

end Sys2Proof.Machine
end

