-- ==== Sys2Proof/Machine/Placement.lean ====
section
/-! DEFINITION. Placement (13: R352 to R356): what a core has free, the pending order, the choice of cores, and the start of a team. -/

namespace Sys2Proof.Machine

/-! ## Capacity (Table 13-7) -/

/-- Whether a team holds its core's resources; one of a cohort keeps its scratchpad until the whole cohort has retired (R200). -/
def holdsCore (p : Phase) : Bool := resident p
def holdsSpad (s : State) (t : Team) : Bool :=
  holdsCore t.phase || ((t.phase == .released || t.phase == .retired) && 1 < cohOf s t.grid)

def launchOfTeam (s : State) (t : Team) : Launch := ((s.grid? t.grid).map (·.launch)).getD {}

/-- The teams whose resources a core still holds. -/
def teamsOn (s : State) (core : Nat) : List Team := s.teams.filter fun t => t.core == core && holdsCore t.phase

def sumBy {α : Type} (f : α → Nat) (l : List α) : Nat := (l.map f).foldl (· + ·) 0

/-- Warps that a team of `wpt` warps has in a quadrant (R356). -/
def warpsIn (wpt quad : Nat) : Nat := (wpt + 3 - quad) / 4

/-- R25: register charge of a warp. -/
def warpCharge (l : Launch) : Nat := l.vregs + 8 * l.tiles

/-- Slots taken on a core. -/
def usedSlots (s : State) (core : Nat) : List Nat := (teamsOn s core).flatMap fun t => t.warps.map (·.slot)

/-- Whether a warp has released its registers: its threads have exited and their operations have completed (R115). -/
def warpFreed (s : State) (t : Team) (w : Nat) : Bool :=
  !t.threads.isEmpty && t.threads.all (fun x => x.warp != w || x.place == .exited) &&
  s.ops.all (fun o => o.grid != t.grid || o.team != t.index || o.tid / 32 != w) &&
  s.reqs.all fun r => match r.agent with
    | .thread g i tid => g != t.grid || i != t.index || tid / 32 != w
    | _ => true

/-- The register charge of a team in a quadrant (R25, R115). -/
def chargeIn (s : State) (quad : Nat) (t : Team) : Nat :=
  let l := launchOfTeam s t
  ((List.range l.wpt).filter fun i => i % 4 == quad && !warpFreed s t i).length * warpCharge l

/-- R352, R26: a team of w warps needs ceil(w ÷ 4) slots with free budget in every quadrant. -/
def fitsCore (s : State) (core : Nat) (l : Launch) : Bool :=
  let on := teamsOn s core
  !s.mgmt.fencedCores.contains core && on.length < 16 &&
  (List.range 4).all (fun q =>
    sumBy (fun t => warpsIn (launchOfTeam s t).wpt q) on + (l.wpt + 3) / 4 ≤ 12 &&
    sumBy (chargeIn s q) on + (l.wpt + 3) / 4 * warpCharge l ≤ 1024) &&
  sumBy (fun t => (launchOfTeam s t).spad) (s.teams.filter fun t => t.core == core && holdsSpad s t) + l.spad ≤ 4194304 &&
  sumBy (fun t => (launchOfTeam s t).accg) on + l.accg ≤ 33

/-- R354: smaller is better. -/
def coreKeys (s : State) (core : Nat) : List Nat := [if fpressOf s core < 192 then 0 else 1, (usedSlots s core).length, core]

/-- Cores of a list in the order of R354. -/
def rankCores (s : State) (l : List Nat) : List Nat :=
  let ins (c : Nat) (r : List Nat) : List Nat := (r.takeWhile fun d => lexLt (coreKeys s d) (coreKeys s c)) ++ c :: r.dropWhile fun d => lexLt (coreKeys s d) (coreKeys s c)
  l.foldl (fun r c => ins c r) []

/-- The cores for the teams of a cohort, or the core of a single team; dies in ascending order (R354, R355). -/
def coresFor (s : State) (l : Launch) : Option (List Nat) :=
  if l.coh ≤ 1 then ((rankCores s ((List.range 384).filter fun c => fitsCore s c l)).head?).map fun c => [c]
  else
    let die (d : Nat) : List Nat := rankCores s (((List.range 48).map (48 * d + ·)).filter fun c => fitsCore s c l)
    ((List.range 8).find? fun d => l.coh ≤ (die d).length).map fun d => (die d).take l.coh

/-! ## The pending order (R353) -/

/-- A team or cohort that waits to be placed, named by its lowest team. -/
structure Wait where
  grid : Nat := 0
  team : Nat := 0
  saved : Bool := false
  prio : Nat := 0
  depth : Nat := 0
  order : Nat := 0
  since : Nat := 0
deriving DecidableEq, Repr

def isPending (p : Phase) : Bool :=
  match p with
  | .pending .. => true
  | _ => false

/-- Teams of a grid that wait: the next to be placed first, and those saved. -/
def freshWait (g : Grid) : Option Wait :=
  if g.ended.isSome || g.retired || g.teamCount ≤ g.started then none
  else some { grid := g.num, team := g.started, prio := g.launch.prio, depth := g.depth, order := g.order, since := g.acceptedAt }

/-- Whether a child of a team has a team pending. -/
def childPending (s : State) (g t : Nat) : Bool :=
  (s.children g t).any fun c => (freshWait c).isSome || s.teams.any fun x => x.grid == c.num && isPending x.phase

def savedWaits (s : State) : List Wait :=
  s.teams.filterMap fun t =>
    match s.grid? t.grid with
    | none => none
    | some g =>
      let coh := g.launch.coh
      let mates := s.teams.filter fun x => x.grid == t.grid && x.index / coh == t.index / coh && isPending x.phase
      -- resumption waits until no record of an image is PARKED (R388)
      if mates.any (fun x => (s.parkedFor x.grid x.index).any fun r => !r.full) || !isPending t.phase ||
          (mates.any fun x => x.index < t.index) || (mates.any fun x => x.forChild && childPending s x.grid x.index) then none
      else some { grid := t.grid, team := t.index, saved := true, prio := g.launch.prio, depth := g.depth, order := g.order, since := t.waitingSince }

def waitKeys (w : Wait) : List Nat := [7 - w.prio, 4096 - w.depth, w.order, w.team]

/-- All that wait, in the pending order. -/
def pendingOrder (s : State) : List Wait :=
  let ins (w : Wait) (r : List Wait) : List Wait := (r.takeWhile fun x => lexLt (waitKeys x) (waitKeys w)) ++ w :: r.dropWhile fun x => lexLt (waitKeys x) (waitKeys w)
  (s.grids.filterMap freshWait ++ savedWaits s).foldl (fun r w => ins w r) []

def waitId (w : Wait) : Nat := w.order * 2 ^ 32 + w.team

/-- R353: the wait after which nothing of equal or lower priority is placed first. -/
def waitLimit : Nat := 1200000

/-- The team that holds others back, and its priority: one noted by PLACEMENT_WAIT_LIMIT and still pending, or the first once its
time has passed. -/
def heldBack (s : State) : Option (Nat × Nat) :=
  let l := pendingOrder s
  match s.placeHold.filter fun h => l.any fun w => waitId w == h.1 with
  | some h => some h
  | none => match l with
    | w :: _ => if w.since + waitLimit ≤ s.cc then some (waitId w, w.prio) else none
    | [] => none

def mayPlace (s : State) (w : Wait) : Bool :=
  match heldBack s with
  | none => true
  | some h => waitId w == h.1 || h.2 < w.prio

def launchOfWait (s : State) (w : Wait) : Launch := ((s.grid? w.grid).map (·.launch)).getD {}

/-- The members of a saved cohort that are not saved with it: they have released all but their scratchpads (R200), on cores of their
own. -/
def stayed (s : State) (w : Wait) : List Team :=
  let coh := cohOf s w.grid
  if !w.saved || coh ≤ 1 then []
  else s.teams.filter fun t => t.grid == w.grid && t.index / coh == w.team / coh && !isPending t.phase

/-- The cores for a wait. A cohort part of which has released its resources resumes on the die of that part, on other cores (R355). -/
def coresForWait (s : State) (w : Wait) : Option (List Nat) :=
  let l := launchOfWait s w
  match stayed s w with
  | [] => coresFor s l
  | t :: r =>
    let taken := (t :: r).map (·.core)
    let n := l.coh - taken.length
    let c := rankCores s (((List.range 48).map (t.core / 48 * 48 + ·)).filter fun c => !taken.contains c && fitsCore s c l)
    if n ≤ c.length then some (c.take n) else none

/-- The first pending team that fits, and its cores. -/
def placeable (s : State) : Option (Wait × List Nat) :=
  ((pendingOrder s).filter (mayPlace s)).findSome? fun w => (coresForWait s w).map fun c => (w, c)

/-! ## The start of a team (R23, R32, R39, R40, R47, R356, R403) -/

/-- R356: slots for the warps of a team in turn. -/
def slotsFor (used : List Nat) (wpt : Nat) : List Nat :=
  (List.range wpt).foldl (fun l i =>
    l ++ [((List.range 12).map (4 * · + i % 4)).find? (fun n => !(used ++ l).contains n) |>.getD (i % 4)]) []

/-- A thread at its first clause. -/
def freshThread (g : Grid) (team cc tid : Nat) : Thread :=
  let n := team * g.launch.wpt * 32 + tid
  seeded { tid, pc := g.launch.code + BitVec.ofNat 57 g.launch.entry, notBefore := cc }
    (hMix g.seed n 0) (hMix g.seed n 1)

/-- The access threads of a team whose grid has an access slice (R403). -/
def accessThreads (g : Grid) : List Thread :=
  if g.launch.access == 0xFFFFFFFF then []
  else (List.range (32 * g.launch.wpt)).map fun tid => { tid, pc := g.launch.code + BitVec.ofNat 57 g.launch.access }

/-- A team at its start on a core. -/
def freshTeam (s : State) (g : Grid) (index core : Nat) : Team :=
  let slots := slotsFor (usedSlots s core) g.launch.wpt
  { grid := g.num, index, core, rank := index % g.launch.coh
    warps := (List.range g.launch.wpt).map fun i => { idx := i, slot := slots.getD i 0, fmt := g.launch.fmt }
    threads := (List.range (32 * g.launch.wpt)).map (freshThread g index s.cc)
    access := accessThreads g, accessEnded := g.launch.access == 0xFFFFFFFF, placedAt := s.nextId }

/-- Place the first cohort, or team, of a grid that has not started; its L1 acquire comes first (R289). -/
def startTeams (s : State) (g : Grid) (cores : List Nat) : State :=
  let s1 := ((List.range cores.length).zip cores).foldl (fun s p =>
    { markStale s p.2 with teams := s.teams ++ [freshTeam s g (g.started + p.1) p.2] }) s
  s1.updGrid g.num fun g => { g with started := g.started + cores.length }

/-- A team that held others back no longer does once it is placed. -/
def dropHold (s : State) (w : Wait) : State :=
  if (s.placeHold.map (·.1)) == some (waitId w) then { s with placeHold := none } else s

/-- TEAM_PLACEMENT. -/
def execTeamPlacement (s : State) : Event :=
  match placeable s with
  | none => .refused (.notEnabled "TEAM_PLACEMENT")
  | some (w, cores) =>
    if w.saved then .refused (.notEnabled "TEAM_PLACEMENT")
    else match s.grid? w.grid with
      | none => .refused (.notEnabled "TEAM_PLACEMENT")
      | some g => .next { bumpId (startTeams (dropHold s w) g cores) with free := s.free + 1 }

/-- R353: the first team has waited 1 ms. -/
def execPlacementWaitLimit (s : State) : Event :=
  match pendingOrder s with
  | w :: _ =>
    if w.since + waitLimit ≤ s.cc && (s.placeHold.map (·.1)) != some (waitId w) then
      .next { s with placeHold := some (waitId w, w.prio), free := s.free + 1 }
    else .refused (.notEnabled "PLACEMENT_WAIT_LIMIT")
  | [] => .refused (.notEnabled "PLACEMENT_WAIT_LIMIT")

end Sys2Proof.Machine
end

