-- ==== Sys2Proof/Machine/FaultEvents.lean ====
section
/-! DEFINITION. What follows a fault (14: R369 to R373, R383): TEAM_HELD, the fault ring, and the owner's RESUME and END. -/

namespace Sys2Proof.Machine

/-! ## TEAM_HELD (R369) -/

def execTeamHeld (grid team : Nat) (s : State) : Event :=
  match s.team? grid team with
  | none => .refused (.notEnabled "TEAM_HELD")
  | some t =>
    if t.phase == .holding && drainedBut (openInst t) s t then .next { s.setTeam { t with phase := .held } with free := s.free + 1 }
    else .refused (.notEnabled "TEAM_HELD")

/-! ## The fault ring (R371) -/

/-- Whether the records of a team may be written: once it is held, saved, ended or gone; those that were due wait for the ring although
their team has been resumed (R371). -/
def recordsDue (s : State) (r : FaultRec) : Bool :=
  if r.due then true else match s.team? r.grid r.team with
  | none => true
  | some t => match t.phase with
    | .running | .holding | .saving .. => false
    | _ => true

/-- The next record to write: the oldest of those due. -/
def nextRecord (s : State) : Option FaultRec := s.faults.find? fun r => !r.sent && recordsDue s r

def ringFull (m : Mgmt) : Bool := (m.frTail - m.frHead).toNat == 2 ^ m.frLog2n

/-- Mark the first unsent copy of a record as sent; records of teams that are no longer held need no answer and leave. -/
def markSent (s : State) (r : FaultRec) : List FaultRec → List FaultRec
  | [] => []
  | x :: l =>
    if x == r then
      match s.team? r.grid r.team with
      | some t => if t.phase == .ending || t.phase == .released || t.phase == .retired then l else { x with sent := true } :: l
      | none => l
    else x :: markSent s r l

/-- A record goes into the ring. -/
def putRecord (s : State) (r : FaultRec) : State :=
  let m := s.mgmt
  let a := (m.frbase.toNat + 64 * (m.frTail.toNat % 2 ^ m.frLog2n)) % 2 ^ 40
  let s := ioReach s 0 true [(0, a, 64)]
  let s := { s.setPhysBytes 0 a r.bytes with
             faults := markSent s r s.faults
             msix := if m.frHead == m.frTail then m.frIvec :: s.msix else s.msix
             mgmt := { s.mgmt with frTail := m.frTail + 1 } }
  if m.snapFlt then s.snapTrigger 2 0 0xFFFF else s

/-- R371: write a record, or note that it waits for space. -/
def execFaultRecordWrite (s : State) : Event :=
  match nextRecord s with
  | none => .refused (.notEnabled "FAULT_RECORD_WRITE")
  | some r =>
    if !s.mgmt.frEn || (ringFull s.mgmt && s.mgmt.frFull) then .refused (.notEnabled "FAULT_RECORD_WRITE")
    else if ringFull s.mgmt then .next { s with mgmt := { s.mgmt with frFull := true }, free := s.free + 1 }
    else .next { putRecord s r with free := s.free + 1 }

def execFrhead (value : BitVec 16) (s : State) : Event :=
  .next { (if bar0Live s then s.updMgmt fun m => { m with frHead := value } else s) with free := s.free + 1 }

/-! ## RESUME (R383, R205, R284) -/

/-- The load of an entry, as the part reissues it. -/
def reissueReq (s : State) (t : Team) (ctx tid q : Nat) (en : QEntry) : Req :=
  { id := s.nextId, path := .q, agent := .thread t.grid t.index tid, ctx, core := t.core, va := en.va, len := en.len
    kind := .load tid q en.slot, sx := en.sx, pack := en.pack, queue := some q }

/-- Whether an entry is poisoned for an offset beyond its segment or a misaligned address, which no reissue mends (R405). -/
def poisonedFor (en : QEntry) : Option Trap :=
  en.poison.filter fun p => p.detail / 256 == fSegmentLimit || p.detail / 256 == fAlignment

/-- Reissue one entry's load: its data, or its poison. -/
def reissueLoad (s : State) (t : Team) (ctx tid q : Nat) (en : QEntry) : State × Except Trap (List Byte) :=
  let r := reissueReq s t ctx tid q en
  if let some p := poisonedFor en then (s, .error p) else
  match loadSegs s r with
  | .error tr => (s, .error (loadPoison q en.slot tr))
  | .ok segs =>
    let s := recallLines (homeFor (cacheTranslation s t.core ctx en.va) r) (segLines segs)
    let cls := segPoison s segs
    if cls != 0 then (s, .error { poisonTrap cls with aux := entryAux q en.slot })
    else
      let p := readSegs s t.core segs
      (sendTraffic (observe p.1 r (observed s t.core segs)) (coreNode t.core) 0 false segs, .ok (loadData r p.2))

/-- Whether two entries' loads share a byte (R269, R284). -/
def entriesMeet (s : State) (t : Team) (ctx tid q : Nat) (a b : QEntry) : Bool :=
  entriesOverlap a b || segsMeet (placesOf s (reissueReq s t ctx tid q a)) (placesOf s (reissueReq s t ctx tid q b))

/-- Reissue a poisoned entry and every later entry of its FIFO whose bytes overlap it (R284). -/
def reissueEntry (s : State) (grid team ctx tid q slot : Nat) : State :=
  match s.team? grid team with
  | none => s
  | some t => match t.queue? q with
    | none => s
    | some qq =>
      let l := (qq.fifo tid).entries.dropWhile fun en => en.slot != slot
      match l with
      | [] => s
      | en :: later =>
        ((en :: later.filter (entriesMeet s t ctx tid q en)).filter (·.ready)).foldl (fun s x =>
          let p := reissueLoad s t ctx tid q x
          fillEntry p.1 grid team tid q x.slot x.req p.2) s

/-- The poisoned entries whose POISON a held thread raised: at the QPOP word, or deferred to the header it is held at. -/
def raisedEntries (s : State) (g : Grid) (t : Team) (x : Thread) : List (Nat × Nat) :=
  if x.place != .held || !x.tookPoison then []
  else if x.heldKind == 1 then
    let w := x.resumeWords.getD (x.resumeAt - 1) 0
    if opcOf w != 0x154 then []
    else match (t.queue? (LBody.of w).qn.toNat).bind fun q => (unclaimed (q.fifo x.tid)).head?.map fun en => (q.n, en) with
      | some (q, en) => if en.poison.isSome then [(q, en.slot)] else []
      | none => []
  else if x.heldKind == 3 then
    match fetchWord s t.core g.ctx (vaOf x.pc) with
    | .error _ => []
    | .ok h => (x.deferred.filter fun d => isDue h d && d.trap.code == fPoison).filterMap fun d => d.pop.map fun p => (p.1, p.2.1)
  else []

/-- The deferred POISONs of a thread whose entries now hold data: D is written and the entry leaves (R205). -/
def settlePops (t : Team) (x : Thread) : Team × Thread :=
  x.deferred.foldl (fun (acc : Team × Thread) d =>
    match d.pop with
    | none => acc
    | some (q, slot, dreg) =>
      match (acc.1.queue? q).bind fun qq => ((qq.fifo x.tid).entries.find? fun en => en.slot == slot).map fun en => (qq, en) with
      | none => acc
      | some (qq, en) =>
        if en.poison.isSome || !en.ready then
          (acc.1, { acc.2 with deferred := acc.2.deferred.map fun y =>
            if y == d then { y with trap := (en.poison.map fun p => { p with kind := d.trap.kind }).getD y.trap } else y })
        else
          (acc.1.updQueue q fun qq => qq.setFifo { qq.fifo x.tid with entries := (qq.fifo x.tid).entries.filter (·.req != en.req) },
           { (dstOf dreg (regVals (slotData acc.1 qq x.tid en))).foldl (fun x p => x.putRegs p.1 [p.2]) acc.2 with
             deferred := acc.2.deferred.filter (· != d) })) (t, x)

/-- The entries behind those that the POISONs of a thread named leave in their turn. -/
def settleBehind (s : State) (grid team : Nat) (x : Thread) : State :=
  if x.place != .held then s
  else (x.deferred.filterMap (·.pop)).foldl (fun s p => settleFifo grid team x.tid p.1 32 s) s

/-- Release a held team (Table 14-3): the loads behind its POISONs are reissued, instances that failed are checked again. -/
def resumeTeam (s : State) (grid team : Nat) : State :=
  match s.envOf { grid, team } with
  | none => s
  | some e =>
    let s := e.t.threads.foldl (fun s x => (raisedEntries s e.g e.t x).foldl (fun s p => reissueEntry s grid team e.g.ctx x.tid p.1 p.2) s) s
    let t := (s.team? grid team).getD e.t
    let t := t.threads.foldl (fun t x =>
      if x.place == .held then
        let p := settlePops t x
        p.1.putThreads [p.2]
      else t) t
    let s := e.t.threads.foldl (fun s x => settleBehind s grid team x) (s.setTeam t)
    let t := (s.team? grid team).getD t
    let t := { t with insts := t.insts.map fun i => { i with failed := false } }
    let s := releaseTeam s t
    exitInsts { s with faults := (s.faults.filter fun r => !(r.sent && r.grid == grid && r.team == team)).map fun r =>
      if r.grid == grid && r.team == team then { r with due := true } else r } grid team

/-- The action that TCTL names now. -/
def nameTctl (s : State) (grid team act : Nat) : State :=
  s.updMgmt fun m => { m with tctlGrid := grid, tctlTeam := team, tctlAct := act }

/-- The saved members of a team's cohort wait to be placed again; `release` says that this team is to run on. -/
def requeue (s : State) (grid team : Nat) (release : Bool) : State :=
  let coh := cohOf s grid
  { s with teams := s.teams.map fun t =>
      if t.grid == grid && t.index / coh == team / coh then
        match t.phase with
        | .kept h => { t with phase := .pending true (h && !(release && t.index == team)), waitingSince := s.cc }
        | .pending true h => { t with phase := .pending true (h && !(release && t.index == team)) }
        | _ => t
      else t }

/-- Whether a team whose pre-emption is under way stands held by a fault (R369): no bundle of it runs and its operations have completed,
as TEAM_HELD asks. -/
def heldStill (s : State) (grid team : Nat) (was : Bool) : Bool :=
  match s.team? grid team with
  | none => false
  | some t => (was || t.anyHeld) && drainedBut (openInst t) s t

/-- Whether an action that TCTL named and that is in progress is about a team of this one's cohort. -/
def tctlAbout (s : State) (grid team act : Nat) : Bool :=
  s.mgmt.tctlStatus == 1 && s.mgmt.tctlAct == act && s.mgmt.tctlGrid == grid && s.mgmt.tctlTeam / cohOf s grid == team / cohOf s grid

/-- TCTL RESUME (Table 14-8). -/
def tctlResume (s : State) (grid team : Nat) : State :=
  let s := nameTctl s grid team 1
  match (s.team? grid team).map Team.phase with
  | some Phase.held => setTctl (resumeTeam s grid team) 0
  | some (Phase.saving was _) => if heldStill s grid team was then setTctl (resumeTeam s grid team) 0 else setTctl s 2
  | some (Phase.kept _) => setTctl (requeue s grid team true) 1
  | some (Phase.pending true true) => setTctl (requeue s grid team true) 1
  | _ => setTctl s 2

def execResume (grid team : Nat) (s : State) : Event :=
  .next { bumpId (if bar0Live s then tctlResume s grid team else s) with free := s.free + 1 }

/-! ## END (R383) -/

/-- A team of an ended grid: it stops, or, saved or not yet on a core, its resources are gone at once. -/
def endTeam (s : State) (t : Team) : State :=
  match t.phase with
  | .running | .holding | .held | .saving .. => dissolve (s.setTeam { t with phase := .ending }) t.grid t.index
  | .pending .. | .kept _ =>
    { s.setTeam (clearedTeam t .released false) with
      saves := s.saves.filter fun x => !(x.team.grid == t.grid && x.team.index == t.index)
      rooms := s.rooms.filter fun x => !(x.grid == t.grid && x.team == t.index)
      hoopRecs := s.hoopRecs.filter fun x => !(x.grid == t.grid && x.team == t.index)
      ops := s.ops.filter fun o => o.grid != t.grid || o.team != t.index }
  | _ => s

/-- End one grid: the code it ends with, and its teams. -/
def endOne (s : State) (grid : Nat) (code endBytes : Option Nat) : State :=
  match s.grid? grid with
  | none => s
  | some g =>
    if g.ended.isSome || g.retired then s
    else
      let s := s.updGrid grid fun g => { g with ended := some (code.getD (g.fault.getD 0x1B)), endBytes }
      (s.teams.filter (·.grid == grid)).foldl endTeam s

/-- A grid and all that descend from its teams. -/
def family (s : State) : Nat → List Nat → List Nat
  | 0, l => l
  | n + 1, l =>
    let more := (s.grids.filter fun g => match g.parent with
      | some p => l.contains p.1 && !l.contains g.num
      | none => false).map (·.num)
    if more.isEmpty then l else family s n (l ++ more)

/-- END: the grid and its children (R383). -/
def endFamily (s : State) (grid : Nat) (code endBytes : Option Nat) : State :=
  (family s s.grids.length [grid]).foldl (fun s n => if n == grid then endOne s n code endBytes else endOne s n none none) s

/-- Whether TCTL names a team of a live grid. -/
def teamNamed (s : State) (grid team : Nat) : Bool :=
  match s.grid? grid with
  | some g => !g.retired && team < g.teamCount
  | none => false

/-- TCTL END (Table 14-8): in progress until the grid has completed. -/
def tctlEnd (s : State) (grid team : Nat) : State :=
  let s := nameTctl s grid team 2
  if teamNamed s grid team then setTctl (endFamily s grid none none) 1 else setTctl s 2

def execEndGrid (grid team : Nat) (s : State) : Event :=
  .next { (if bar0Live s then tctlEnd s grid team else s) with free := s.free + 1 }

end Sys2Proof.Machine
end

