-- ==== Sys2Proof/Machine/Preempt.lean ====
section
/-! DEFINITION. Pre-emption and resumption (13: R357, R358; 14: R384 to R388, R479, R480): the choice of teams, room in the save pool, save
images, and TCTL SAVE. -/

namespace Sys2Proof.Machine

/-! ## Room in the save pool (R479) -/

/-- Bytes reserved for a team's whole image and its control block, from its resources: a record of Table 14-11 for each warp, tile set, queue, hoop of its
core (64) and channel of its die (8), a window for each granule, and fault records beside those it has for every thread, access thread and instance. -/
def imageRoom (l : Launch) (faults : Nat) : Nat :=
  let cap := recordCap l
  cap 0x0001 + cap 0x0002 + l.wpt * (cap 0x0003 + (16 + 48 + 272 * l.vregs) + (16 + 2048) + cap 0x0012 + if l.tiles == 0 then 0 else cap 0x0021) +
  cap 0x0020 + l.accg * cap 0x0022 + l.queues * cap 0x0023 + (16 + l.spad) + 64 * cap 0x0030 + 8 * cap 0x0031 + cap 0x0032 +
  (faults + 128 * l.wpt + 64) * 80 + cap 0x0050 + cap 0

/-- The lowest offset of a pool at which a room fits. -/
def roomOffset (s : State) (ctx size : Nat) : Option Nat :=
  let mine := s.rooms.filter (·.ctx == ctx)
  ((0 :: mine.map fun r => r.off + r.size).filter fun o =>
    o + size ≤ (s.ctx ctx).splen.toNat && mine.all fun r => o + size ≤ r.off || r.off + r.size ≤ o).min?

/-- The pool's address of an offset. -/
def poolVa (s : State) (ctx off : Nat) : Nat := ((s.ctx ctx).spool.toNat + off) % 2 ^ 64

/-- Reserve room for one team; none where the pool cannot supply it, or its pages cannot be written. -/
def reserveRoom (s : State) (g : Grid) (team : Nat) : Option State :=
  let size := imageRoom g.launch (s.faults.filter fun r => r.grid == g.num && r.team == team).length
  match roomOffset s g.ctx size with
  | none => none
  | some off =>
    if (writeSegs s g.ctx (poolVa s g.ctx off) (max 1 size)).isNone then none
    else some { s with rooms := s.rooms ++ [{ ctx := g.ctx, off, size, grid := g.num, team }] }

/-- Reserve room for every member of a cohort. -/
def reserveAll (g : Grid) : List Nat → State → Option State
  | [], s => some s
  | t :: r, s => (reserveRoom s g t).bind (reserveAll g r)

/-! ## The members of a cohort -/

/-- The resident teams of a team's cohort, the team itself for a grid without cohorts. -/
def members (s : State) (grid team : Nat) : List Team :=
  sortBy (·.index) (s.teams.filter fun t => t.grid == grid && t.index / cohOf s grid == team / cohOf s grid)

def isSaving (p : Phase) : Bool :=
  match p with
  | .saving .. => true
  | _ => false

/-- Phases from which a team may be pre-empted. -/
def savable (p : Phase) : Bool :=
  match p with
  | .running | .holding | .held => true
  | _ => false

/-- Members that a pre-emption takes: those that still run or are held. -/
def takes (s : State) (grid team : Nat) : List Team := (members s grid team).filter fun t => savable t.phase

/-- Begin step 1 of a pre-emption (Table 14-9), once room has been reserved. -/
def beginSave (s : State) (grid team : Nat) (bySave : Bool) : Option State :=
  match s.grid? grid, takes s grid team with
  | some g, t :: r =>
    (reserveAll g ((t :: r).map (·.index)) s).map fun s =>
      (t :: r).foldl (fun s t =>
        dissolve (s.setTeam { t with phase := .saving (t.phase != .running) bySave, savingSince := s.cc }) grid t.index) s
  | _, _ => none

/-! ## Which team to take (R357, R358) -/

/-- What the cores would have free without some teams. -/
def without (s : State) (gone : List (Nat × Nat)) : State :=
  { s with teams := s.teams.filter fun t => !gone.contains (t.grid, t.index) }

/-- Teams that a pre-emption under way, or an END, will take from their cores. -/
def leaving (s : State) : List (Nat × Nat) :=
  (s.teams.filter fun t => isSaving t.phase || t.phase == .ending).map fun t => (t.grid, t.index)

def prioOf (s : State) (g : Nat) : Nat := ((s.grid? g).map (·.launch.prio)).getD 0

def cohortIds (s : State) (t : Team) : List (Nat × Nat) := (takes s t.grid t.index).map fun x => (x.grid, x.index)

/-- Whether room can be had for a team's cohort. -/
def hasRoom (s : State) (t : Team) : Bool := (beginSave s t.grid t.index false).isSome

/-- R357: teams below a priority, the lowest first, the most recently placed first. -/
def victims (s : State) (prio : Nat) : List Team :=
  let l := s.teams.filter fun t => savable t.phase && prioOf s t.grid < prio && hasRoom s t
  sortBy (fun t => prioOf s t.grid) (sortBy (fun t => t.placedAt) l).reverse

/-- R357: the next team to take for the first pending team, until it fits. -/
def priorityTarget (s : State) : Option (Nat × Nat) :=
  match pendingOrder s with
  | [] => none
  | w :: _ =>
    if (coresForWait (without s (leaving s)) w).isSome then none else (victims s w.prio).head?.map fun t => (t.grid, t.index)

/-- Whether a team has a thread that waits at a JOINC (R129). -/
def waitsJoin (s : State) (t : Team) : Bool :=
  match s.envOf { grid := t.grid, team := t.index } with
  | none => false
  | some e => t.threads.any fun x => x.place == .boundary && x.resumeAt == 0 &&
      (match clauseAt s e.t.core e.g.ctx x.pc with
       | some (h, [w]) => opcOf w == 0x009 && (Header.of h).safe && joinWaits s t w x
       | _ => false)

/-- R358: a team that waits at a JOINC while the first pending team of one of its children fits no core. -/
def starved (s : State) (t : Team) : Bool :=
  match (pendingOrder s).find? fun w => (s.children t.grid t.index).any fun c => c.num == w.grid with
  | none => false
  | some w => waitsJoin s t && (coresForWait (without s (leaving s)) w).isNone

/-- R358: the team to take for a child: the parent or another team of its grid that waits, of the deepest grid. -/
def childTarget (s : State) : Option (Nat × Nat) :=
  let depth (g : Nat) : Nat := ((s.grid? g).map (·.depth)).getD 0
  let hungry := sortBy (fun t => 4096 - depth t.grid) (s.teams.filter fun t => resident t.phase && starved s t)
  hungry.findSome? fun t =>
    ((if savable t.phase && hasRoom s t then [t] else []) ++
      s.teams.filter fun x => x.grid == t.grid && savable x.phase && waitsJoin s x && hasRoom s x).head?.map fun x => (x.grid, x.index)

/-- R384: the task processor begins a pre-emption. -/
def execPreemption (grid team : Nat) (s : State) : Event :=
  let child := priorityTarget s != some (grid, team)
  if child && childTarget s != some (grid, team) then .refused (.notEnabled "PREEMPTION")
  else match beginSave s grid team false with
    | none => .refused (.notEnabled "PREEMPTION")
    | some s1 =>
      let coh := cohOf s grid
      .next { s1 with teams := s1.teams.map (fun t => if t.grid == grid && t.index / coh == team / coh then { t with forChild := child } else t)
                      free := s.free + 1 }

/-! ## Step 1 and the drain (R384, Table 14-9) -/

/-- Step 1 has ended for a team: every thread has stopped; once one is held, at any boundary (R369) where it does not nap (R125). Each
access thread stands at a clause boundary (R409), or is held. -/
def allStopped (s : State) (g : Grid) (t : Team) (wasHeld : Bool) : Bool :=
  let anyHeld := wasHeld || t.anyHeld
  s.bundles.all (fun b => b.grid != t.grid || b.team != t.index) &&
  t.threads.all (fun x => atStop s t.core g x || (anyHeld && x.place == .boundary && x.nap.isNone)) &&
  t.access.all fun x => x.place != .boundary || x.resumeAt == 0

/-- Hoops that hold packets for a team on its core (step 5). -/
def hoopsFor (s : State) (t : Team) : List Hoop :=
  s.hoops.filter fun h => h.core == t.core &&
    ((s.packet? h.pkt).map fun p => p.grid == t.grid && p.dests.any fun d => d == (t.core, t.index)).getD false

/-- Step 5: the endpoint releases the hoops that hold packets for a team and parks the packets (R387). -/
def captureHoops (s : State) (t : Team) : State :=
  let l := hoopsFor s t
  { s with hoops := s.hoops.filter (!l.contains ·)
           hoopRecs := s.hoopRecs ++ l.filterMap fun h => (s.packet? h.pkt).map fun pkt => { grid := t.grid, team := t.index, pkt, hoop := h } }

/-- Steps 2, 3 and 5 have ended for a team: every packet for it has been written or parked. -/
def saveDrained (s : State) (t : Team) : Bool :=
  drainedBut (openInst t) s t &&
  s.packets.all fun p => !(p.grid == t.grid && p.kind == 6 && p.dests.any fun d => d.2 == t.index) ||
    (s.parkedFor t.grid t.index).any fun r => r.pkt.id == p.id

def savingMembers (s : State) (grid team : Nat) : List Team := (members s grid team).filter fun t => isSaving t.phase

def wasHeldOf (t : Team) : Bool :=
  match t.phase with
  | .saving h _ => h
  | _ => false

def bySaveOf (t : Team) : Bool :=
  match t.phase with
  | .saving _ b => b
  | _ => false

/-- Channels of a team that still run (step 4). -/
def runningChannels (s : State) (t : Team) : List Scribe := s.scribes.filter fun c => c.holder == some (t.grid, t.index) && c.status == 1

/-! ## The save image (R385, R386, Tables 14-10 to 14-12) -/

/-- The LIVE mask of a SAFE header (Table 3-21). -/
def liveMask (s : State) (unit : Nat) (g : Grid) (a : Addr) : Option Nat :=
  match headAt s unit g.ctx a with
  | none => none
  | some h =>
    if !(Header.of h).safe then none
    else
      let e := vaOf g.launch.code + g.launch.spoff + 64 * (Header.of h).spix.toNat
      match fetchWord s unit g.ctx (e % 2 ^ 64), fetchWord s unit g.ctx ((e + 16) % 2 ^ 64), fetchWord s unit g.ctx ((e + 32) % 2 ^ 64) with
      | .ok a, .ok b, .ok c => some (a.toNat + b.toNat * 2 ^ 128 + c.toNat % 2 ^ 64 * 2 ^ 256)
      | _, _, _ => none

/-- R44, R385: the vector registers of a thread that are saved, by the count per warp: those of the live mask at a safe point, all of them
in a meeting wait, which a thread that naps is not yet in. -/
def saveMask (s : State) (unit : Nat) (g : Grid) (x : Thread) : Nat :=
  if x.place == .exited then 0
  else ((if x.place == .boundary && x.resumeAt == 0 && !(atMeeting x && x.nap.isNone) then liveMask s unit g x.pc else none).getD (2 ^ 320 - 1)) % 2 ^ g.launch.vregs

/-- R385, R125: what of a thread is saved. At a SAFE header, which it is about to execute, its count is 0 (R375). -/
def savedThread (s : State) (unit : Nat) (g : Grid) (x : Thread) : Thread :=
  let m := saveMask s unit g x
  let safe := x.place == .boundary && x.resumeAt == 0 && ((headAt s unit g.ctx x.pc).map fun h => (Header.of h).safe).getD false
  { x with spd := if safe then 0 else x.spd, nap := none, napNext := none, yielded := false
           v := x.v.filter fun p => m.testBit p.1, vpoison := x.vpoison.filter fun n => m.testBit n }

/-- Whether a thread waits at the rendezvous of its header (R234). -/
def atRendezvous (s : State) (g : Grid) (t : Team) (x : Thread) : Bool :=
  standsAt x.pc x && !x.released && ((clauseAt s t.core g.ctx x.pc).map fun c => !(rowGroups t c.2 x).isEmpty).getD false

/-- The word index at which a thread continues; 0 for a header and for a terminal, which is in the header's word (log 21). -/
def resumeWord (x : Thread) : Nat := if x.resumeAt ≤ (Header.of x.resumeHdr).len.toNat then x.resumeAt else 0

/-- Table 14-10. -/
def threadEntry (s : State) (g : Grid) (t : Team) (x : Thread) : List Byte :=
  let st := (if x.place == .exited then 1 else 0) + (if atMeeting x then 2 else 0) + (if atRendezvous s g t x then 4 else 0) +
    (if x.place == .held then 8 else 0) + (if x.yielded then 16 else 0) + (if x.lbrk then 32 else 0)
  leBytes 8 (vaOf x.pc + resumeWord x) ++ leBytes 2 ((predWord x.pred).toNat % 2 ^ 12) ++ leBytes 2 st ++
  leBytes 4 (x.eflHeld.foldl (fun m p => m ||| p.2) x.efl).toNat ++ leBytes 8 x.s0.toNat ++ leBytes 8 x.s1.toNat ++ leBytes 2 x.spd ++ leBytes 30 0

/-- R385: the tag of a register. That of a pending register to which no flag is attached is not stated (log 21). -/
def regTag (x : Thread) (n : Nat) : Nat :=
  match x.pend.find? (·.1 == n) with
  | none => 15
  | some (_, some f) => f
  | some (_, none) => (Config.saveByte 0x0010 [x.tid, n] 0).toNat % 16

/-- R385: the vector-register record of a warp's threads: the mask of the registers that any of them saves, then each lane's registers,
of which one that the lane does not save reads 0, then each lane's tags. -/
def vregBody (s : State) (unit : Nat) (g : Grid) (l : List Thread) : List Byte :=
  let mask := l.foldl (fun m x => m ||| saveMask s unit g x) 0
  let regs := (List.range g.launch.vregs).filter mask.testBit
  padBody (leBytes 40 mask ++ (l.flatMap fun x => regs.flatMap fun r => leBytes 8 (x.v.get 0 r).toNat) ++
    l.flatMap fun x => leBytes (g.launch.vregs / 2) ((List.range g.launch.vregs).foldl (fun m r => m + regTag x r * 16 ^ r) 0))

/-! ## What the firmware's records hold (Table 14-11) -/

def natsOf (l : List Byte) : List Nat := l.map BitVec.toNat

def launchNats (l : Launch) : List Nat :=
  [l.code.toNat, l.entry, l.access, l.gx, l.gy, l.gz, l.wpt, l.coh, l.vregs, l.kregs, l.tiles, l.accg, l.queues, l.spad, l.sys.toNat, l.serial.toNat,
   l.well, l.result, l.comb, l.prio] ++ l.fmt.map BitVec.toNat ++ l.sg.flatMap fun p => [p.1.toNat, p.2.toNat]

def levelNats (l : Level) : List Nat := [l.ctr, l.start.toNat, l.last.toNat]

def threadNats (x : Thread) : List Nat :=
  [x.tid, x.mrV.toNat, x.mrJ.toNat, x.mrRef, x.calls.length, x.levels.length] ++ x.calls.flatMap (fun c => [c.1.toNat, c.2]) ++
  x.levels.flatMap levelNats ++ [x.lc.get 0 0, x.lc.get 0 1, x.lc.get 0 2].map BitVec.toNat

/-- R385: each meeting once, as J, S and the done set of its members. -/
def meetingNats (t : Team) (m : Meeting) : List Nat :=
  let done := m.members.filter fun n => ((t.thread? n).map (doneWith m)).getD true
  [m.id, m.addr.toNat, maskOf m.members, maskOf done]

def markNat (m : Mark) : Nat :=
  match m with
  | .none => 0
  | .pinf => 1
  | .ninf => 2
  | .nan => 3

def winNats (t : Team) (w : Window) : List Nat :=
  [w.n, w.row0, w.rows, w.col0, w.cols, w.lane0, w.lanes, (w.e0 + 2 ^ 32).toNat, w.ovf.toNat, w.pw.toNat, (w.binding.map fun b => 1 + maskOf b).getD 0] ++
  w.cells.flatMap (fun c => [c.1, c.2.q.natAbs, (c.2.q < 0 : Bool).toNat, markNat c.2.mark, c.2.poison.toNat]) ++
  (t.insts.filter (·.win == w.n)).flatMap fun i => [i.id, i.seq, maskOf i.group, maskOf i.arrived, i.queued.toNat, i.failed.toNat] ++
    i.rows.flatMap fun r => r.tid :: r.regs.map BitVec.toNat

def queueNats (t : Team) (q : Queue) : List Nat :=
  [q.n, q.kind, q.depth, q.base, q.occ, q.head, q.allow] ++ q.fifos.flatMap fun f => [f.tid, f.next] ++ f.entries.flatMap fun e =>
    [e.slot, e.bytes, e.ready.toNat, (e.poison.map (·.code)).getD 0] ++ natsOf (slotData t q f.tid e)

/-- The SCRIBE record of a channel: its boundary is the element index j (R480, R401). -/
def scribeNats (c : Scribe) : List Nat :=
  [c.die, c.ch, 8 * c.done / max 1 c.wide, c.status, c.miss.toNat, c.suspend.toNat, c.byPreempt.toNat, c.well, c.fmtS.toNat, c.fmtD.toNat] ++
    (c.carry.map fun p => [p.1, p.2]).getD [] ++ natsOf c.record

/-- R409: the ACCESS record: the slice's parameters, its cap and counts, and each access thread with its exited bit. -/
def accessNats (t : Team) : List Nat :=
  (List.range 16).map (fun n => (t.params.get 0 n).toNat) ++ [t.rateCap, t.accessEnded.toNat, t.supplied] ++ t.access.flatMap fun x =>
    [(x.place == .exited).toNat, vaOf x.pc + resumeWord x, (predWord x.pred).toNat] ++ threadNats x ++ x.v.flatMap fun p => [p.1, p.2.toNat]

/-- R411, R452: what the team control block holds beside the image: the handle table and each thread's count of DRED words; also the
words of a clause that a thread has begun (R379, log 21). -/
def controlNats (t : Team) : List Nat :=
  t.handles.flatMap (fun h => [h.n, h.desc.toNat] ++ natsOf h.reg) ++ t.threads.map (·.dreds) ++
  (t.threads ++ t.access).flatMap fun x => x.resumeWords.map BitVec.toNat

/-- The records of a team's image in the order of Table 14-11. A team without tiles owns no TILE record (R454). -/
def imageRecords (s : State) (g : Grid) (t : Team) (scribes : List Scribe) : List Record :=
  let l := g.launch
  let own (type : Nat) (shape contents : List Nat) : Record := { type, flags := if type == 0x0050 then 1 else 0, body := openBody l type shape contents }
  let lanes (w : Warp) : List Thread := t.threads.filter fun x => x.warp == w.idx
  let perWarp (b : Warp → Record) : List Record := t.warps.map b
  [own 0x0001 [] [g.ctx, g.num, t.index, t.rank, if bySaveOf t then 2 else 1, stepping, 1],
   own 0x0002 [t.gang.length] (launchNats l ++ t.gang ++ [t.accessEnded.toNat, t.rateCap])] ++
  perWarp (fun w => own 0x0003 [] (w.fmt.map BitVec.toNat)) ++
  perWarp (fun w => { type := 0x0010, body := vregBody s t.core g (lanes w) }) ++
  perWarp (fun w => { type := 0x0011, body := (lanes w).flatMap (threadEntry s g t) }) ++
  perWarp (fun w => own 0x0012 ((lanes w).flatMap fun x => [x.calls.length, x.levels.length])
    ((lanes w).flatMap threadNats ++ t.meetings.flatMap (meetingNats t))) ++
  [own 0x0020 [l.kregs] ((List.range l.kregs).map fun n => (t.k.get {} n).val.toNat)] ++
  (if l.tiles == 0 then [] else perWarp fun w => own 0x0021 [l.tiles] (w.tilePoison.length :: w.tilePoison ++ w.tiles.flatMap fun p => [p.1, p.2.toNat])) ++
  t.wins.map (fun w => own 0x0022 [w.rows, w.cols] (winNats t w)) ++
  t.queues.map (fun q => own 0x0023 [q.kind, q.depth] (queueNats t q)) ++
  [{ type := 0x0024, body := (List.range l.spad).map (t.spad.get 0) }] ++
  (s.parkedFor t.grid t.index).map (hoopRecord l) ++
  scribes.map (fun c => own 0x0031 [] (scribeNats c)) ++
  (if t.access.isEmpty then [] else [own 0x0032 [t.access.length] (accessNats t)]) ++
  (s.faults.filter fun r => r.grid == t.grid && r.team == t.index).map (fun r => { type := 0x0040, body := r.bytes }) ++
  [own 0x0050 [] (t.charge :: t.threads.map (·.notBefore))]

/-- The room of a team. -/
def roomOf (s : State) (grid team : Nat) : Room := (s.rooms.find? fun r => r.grid == grid && r.team == team).getD {}

/-- Save one team: its full event, its image in the pool, its pages marked, its resources cleared (R40, R290, R389). -/
def saveTeam (s : State) (g : Grid) (t : Team) : State :=
  let s := t.threads.foldl (fun s x => releaseThread s t.grid t.index x.tid false) s
  let s := markStale s t.core
  let t := (s.team? t.grid t.index).getD t
  let mine := s.scribes.filter fun c => c.holder == some (t.grid, t.index) && c.held
  let beside := s.scribeWait.filter fun c => c.holder == some (t.grid, t.index)
  let t' := { t with threads := t.threads.map (savedThread s t.core g), handles := t.handles.map fun h => { h with lines := [] } }
  let img := buildImage 0 (imageRecords s g t' (mine ++ beside.filter (·.status != 3)))
  let va := poolVa s g.ctx (roomOf s t.grid t.index).off
  let control := openBody g.launch 0 [] (controlNats t')
  let s := writeImage (writeImage s g.ctx va img.1) g.ctx (va + img.1.length) control
  let phase : Phase := if bySaveOf t then .kept (wasHeldOf t || t.anyHeld)
    else .pending true (wasHeldOf t || t.anyHeld)
  { s.setTeam { clearedTeam t phase false with waitingSince := s.cc } with
    nextId := s.nextId + 1
    scribes := s.scribes.map fun c => if mine.contains c then { c with status := 0, holder := none } else c
    scribeWait := s.scribeWait.filter fun c => !beside.contains c
    saves := s.saves ++ [{ team := t', scribes := mine ++ beside, ctx := g.ctx, addr := va, image := img.1, records := img.2, control }] }

/-- Channels of which step 4 asks for the suspension: those of members that have a stopped thread. -/
def toSuspend (s : State) (g : Grid) (l : List Team) : List Scribe :=
  ((l.filter fun t => t.threads.any (atStop s t.core g)).flatMap (runningChannels s)).filter fun c => !c.suspend

/-- Steps 4 to 7: channels suspend once threads have stopped; once all have, hoops are captured, and then every member is saved. -/
def execPreemptionSave (grid team : Nat) (s : State) : Event :=
  match s.grid? grid, savingMembers s grid team with
  | some g, t :: r =>
    if t.index != team then .refused (.notEnabled "PREEMPTION_SAVE")
    else if !(toSuspend s g (t :: r)).isEmpty then
      .next { s with scribes := s.scribes.map (fun c => if (toSuspend s g (t :: r)).contains c then { c with suspend := true, byPreempt := true } else c)
                     free := s.free + 1 }
    else if !((t :: r).all fun t => allStopped s g t (wasHeldOf t)) then .refused (.notEnabled "PREEMPTION_SAVE")
    else if (t :: r).any (fun t => !(hoopsFor s t).isEmpty) && (t :: r).all (fun t => (s.parkedFor t.grid t.index).isEmpty) then
      .next { (t :: r).foldl captureHoops s with free := s.free + 1 }
    else if (t :: r).any (fun t => !(runningChannels s t).isEmpty) || !((t :: r).all (saveDrained s)) then .refused (.notEnabled "PREEMPTION_SAVE")
    else
      -- R290: a full event at package scope in every thread
      let s0 := drainReqs s ((t :: r).flatMap fun t => t.seen.map (·.2))
      let s1 := (t :: r).foldl (fun s t => saveTeam s g t) s0
      .next { (if bySaveOf t && tctlAbout s grid team 3 then setTctl s1 0 else s1) with free := s.free + 1 }
  | _, _ => .refused (.notEnabled "PREEMPTION_SAVE")

/-- A member goes on after an abandoned pre-emption. -/
def carryOn (s : State) (t : Team) : State :=
  let p : Phase := if wasHeldOf t || t.anyHeld then .holding else .running
  { s.setTeam { t with phase := p, forChild := false } with
    rooms := s.rooms.filter fun r => !(r.grid == t.grid && r.team == t.index)
    scribes := s.scribes.map fun c => if c.holder == some (t.grid, t.index) && c.byPreempt then
      { c with suspend := false, byPreempt := false, status := if c.status == 2 then 1 else c.status } else c }

/-- Step 1 has not ended within PLIM. -/
def execPreemptionLimit (grid team : Nat) (s : State) : Event :=
  match s.grid? grid, savingMembers s grid team with
  | some g, t :: r =>
    if t.index != team || s.cc < t.savingSince + s.mgmt.plim.toNat || (t :: r).all (fun t => allStopped s g t (wasHeldOf t)) ||
        (t :: r).any (fun t => !(s.parkedFor t.grid t.index).isEmpty) then .refused (.notEnabled "PREEMPTION_LIMIT")
    else
      let s1 := (t :: r).foldl carryOn s
      .next { (if bySaveOf t && tctlAbout s grid team 3 then setTctl s1 3 else s1) with free := s.free + 1 }
  | _, _ => .refused (.notEnabled "PREEMPTION_LIMIT")

/-! ## RESUMPTION (R388) -/

/-- The record types of Table 14-11. -/
def knownType (ty : Nat) : Bool :=
  [0x0001, 0x0002, 0x0003, 0x0010, 0x0011, 0x0012, 0x0020, 0x0021, 0x0022, 0x0023, 0x0024, 0x0030, 0x0031, 0x0032, 0x0040, 0x0050].contains ty

/-- A record's bytes without its FINAL flag, which depends on its place. -/
def unfinal (b : List Byte) : List Byte := b.set 6 (b.getD 6 0 &&& 0xFD)

/-- Read records from an offset on, in order, against those that were written (R388): those not found, or the offset of the first that
fails. An optional record of an unknown type or version is skipped. -/
def readRecords (bs : List Byte) : Nat → Nat → List (List Byte) → Except Nat (List (List Byte))
  | 0, off, _ => .error off
  | n + 1, off, want =>
    let now := bs.drop off
    let len := pkField now 8 8
    let fl := pkField now 6 2
    if pkField now 0 2 != 0x5153 || len < 16 || bs.length < off + len then .error off
    else
      let foreign := !knownType (pkField now 2 2) || 1 < pkField now 4 2
      let left := if foreign && fl.testBit 0 then some want else match want with
        | [] => none
        | r :: l => if unfinal (now.take len) == unfinal r then some l else none
      match left with
      | none => .error off
      | some l => if fl.testBit 1 then .ok l else readRecords bs n (off + len) l

/-- The records of an image as it was written. -/
def Saved.recordBytes (x : Saved) : List (List Byte) :=
  (x.records.zip ((x.records.map (·.1)).drop 1 ++ [x.image.length])).map fun p => (x.image.drop p.1.1).take (p.2 - p.1.1)

/-- R388, R411, R480: the offset at which an image fails, or whether its optional SCHED record is missing. A record whose bytes were
changed is refused, and so is a changed control block, which is read back behind the image. -/
def checkImage (s : State) (x : Saved) : Except Nat Bool :=
  match readVa s x.ctx x.addr (max 1 (x.image.length + x.control.length)) with
  | none => .error 0
  | some bs => match if x.records.isEmpty then .ok [] else readRecords (bs.take x.image.length) (x.image.length / 16 + 1) 0 x.recordBytes with
    | .error n => .error n
    | .ok l =>
      if (bs.drop x.image.length).take x.control.length != x.control then .error x.image.length
      else if l.isEmpty then .ok false
      else if l.all fun r => pkField r 2 2 == 0x0050 then .ok true
      else .error x.image.length

/-- The records of parked packets for a team are applied to its scratchpad, each from the first sector not yet written (R287, R387). -/
def applyParked (s : State) (grid team : Nat) : State :=
  let s1 := (s.parkedFor grid team).foldl (fun s r => (applyHoop s r.pkt r.hoop).1) s
  { s1 with hoopRecs := s1.hoopRecs.filter fun r => !(r.grid == grid && r.team == team) }

/-- The poisoned entries of a resumed team are reissued, but for one whose POISON is still to be raised (Table 7-9). -/
def reissuePoisoned (s : State) (t : Team) (ctx : Nat) : State :=
  t.queues.foldl (fun s q => q.fifos.foldl (fun s f => (f.entries.filter fun en => en.poison.isSome && q.kind != 3 &&
      !(((t.thread? f.tid).map (·.deferred)).getD []).any fun d => (d.pop.map fun p => (p.1, p.2.1)) == some (q.n, en.slot)).foldl
    (fun s en => reissueEntry s t.grid t.index ctx f.tid q.n en.slot) s) s) s

/-- A saved team on its new core. -/
def restoreTeam (s : State) (x : Saved) (g : Grid) (core : Nat) (held skip : Bool) : State :=
  let slots := slotsFor (usedSlots s core) g.launch.wpt
  let old := (s.team? x.team.grid x.team.index).getD {}
  let t := { x.team with
    core
    phase := .held
    warps := x.team.warps.map fun w => { w with slot := slots.getD w.idx 0 }
    threads := x.team.threads.map fun y => { y with notBefore := s.cc + 5 }
    access := x.team.access.map fun y => { y with notBefore := s.cc + 5 }
    charge := if skip then 0 else x.team.charge
    children := old.children, faulted := old.faulted, seen := [], placedAt := s.nextId, forChild := false }
  let s := applyParked { markStale (s.setTeam t) core with
    nextId := s.nextId + 1
    saves := s.saves.filter (· != x)
    rooms := s.rooms.filter fun r => !(r.grid == t.grid && r.team == t.index)
    scribeWait := s.scribeWait ++ x.scribes.map fun c => { c with die := core / 48 } } t.grid t.index
  let s := reissuePoisoned s t g.ctx
  let t := (s.team? t.grid t.index).getD t
  if held then s else if t.anyHeld || t.insts.any (·.failed) then resumeTeam s t.grid t.index else s.updTeam t.grid t.index fun t => { t with phase := .running }

def heldPending (t : Team) : Bool :=
  match t.phase with
  | .pending _ h => h
  | _ => false

/-- The saved teams that a wait stands for, in ascending index. -/
def savedOf (s : State) (w : Wait) : List Saved :=
  let coh := cohOf s w.grid
  sortBy (·.team.index) (s.saves.filter fun x => x.team.grid == w.grid && x.team.index / coh == w.team / coh)

/-- Resume the saved teams on their cores, or end the grid at the first image that is refused. -/
def resumeSaved (s : State) (g : Grid) (l : List (Saved × Nat)) : State :=
  match l.findSome? fun p => match checkImage s p.1 with
    | .error n => some n
    | .ok _ => none with
  | some off => endFamily s g.num (some 0x1B) (some off)
  | none =>
    l.foldl (fun s p => restoreTeam s p.1 g p.2 (((s.team? g.num p.1.team.index).map heldPending).getD false)
      (match checkImage s p.1 with
       | .ok b => b
       | .error _ => false)) s

def execResumption (grid team : Nat) (s : State) : Event :=
  match placeable s, s.grid? grid with
  | some (w, cores), some g =>
    if !w.saved || w.grid != grid || w.team != team then .refused (.notEnabled "RESUMPTION")
    else
      let s0 := (savedOf s w).foldl (fun s x => touchVa s x.ctx x.addr (max 1 (x.image.length + x.control.length))) s
      let s1 := resumeSaved (dropHold s0 w) g ((savedOf s w).zip cores)
      .next { (if tctlAbout s grid team 1 then setTctl s1 0 else s1) with free := s.free + 1 }
  | _, _ => .refused (.notEnabled "RESUMPTION")

/-! ## TCTL SAVE -/

def tctlSave (s : State) (grid team : Nat) : State :=
  let s := nameTctl s grid team 3
  match (s.team? grid team).map (fun t => savable t.phase) with
  | some true => match beginSave s grid team true with
    | some s => setTctl s 1
    | none => setTctl s 2
  | _ => setTctl s 2

def execSave (grid team : Nat) (s : State) : Event :=
  .next { (if bar0Live s then tctlSave s grid team else s) with free := s.free + 1 }

end Sys2Proof.Machine
end

