-- ==== Sys2Proof/Machine/Ruling.lean ====
section
/-! DEFINITION. The ruling engine (15: R403 to R409): an access thread executes a clause, feeding the FIFOs of its thread. -/

namespace Sys2Proof.Machine

/-! ## The words of an access slice (R404) -/

/-- The meaning of an access-slice word other than a load; none for a word that the slice may not hold. -/
def accessWord (i : Instr) (s : State) : Option Result :=
  match i with
  | .nop f => some (execNop f s)
  | .loop f => some (execLoop f s)
  | .lbrk f => some (execLbrk f s)
  | .iadd f => some (execIadd f s)
  | .isub f => some (execIsub f s)
  | .imul f => some (execImul f s)
  | .imulh f => some (execImulh f s)
  | .imad f => some (execImad f s)
  | .iabs f => some (execIabs f s)
  | .ineg f => some (execIneg f s)
  | .imin f => some (execImin f s)
  | .imax f => some (execImax f s)
  | .iaddw f => some (execIaddw f s)
  | .isubw f => some (execIsubw f s)
  | .shl f => some (execShl f s)
  | .shr f => some (execShr f s)
  | .sar f => some (execSar f s)
  | .rot f => some (execRot f s)
  | .fshf f => some (execFshf f s)
  | .and f => some (execAnd f s)
  | .or f => some (execOr f s)
  | .xor f => some (execXor f s)
  | .andn f => some (execAndn f s)
  | .lop3 f => some (execLop3 f s)
  | .popc f => some (execPopc f s)
  | .clz f => some (execClz f s)
  | .ctz f => some (execCtz f s)
  | .brev f => some (execBrev f s)
  | .bfx f => some (execBfx f s)
  | .bfi f => some (execBfi f s)
  | .mov f => some (execMov f s)
  | .movi f => some (execMovi f s)
  | .movh f => some (execMovh f s)
  | .sel f => some (execSel f s)
  | .icmp f => some (execIcmp f s)
  | .ppop f => some (execPpop f s)
  | .pdup f => some (execPdup f s)
  | .pnot f => some (execPnot f s)
  | .pand f => some (execPand f s)
  | .por f => some (execPor f s)
  | .pxor f => some (execPxor f s)
  | .pswap f => some (execPswap f s)
  | .pset f => some (execPset f s)
  | .ptov f => some (execPtov f s)
  | .vtop f => some (execVtop f s)
  | _ => none

def accessOpcode (op : Nat) : Bool :=
  op == 0x000 || op == 0x003 || op == 0x004 || (0x040 ≤ op && op ≤ 0x081) || op == 0x150 || op == 0x151

/-- The bit of FL (R93). -/
def flBit : Nat := ((List.range 128).find? fun n => (Body.of (BitVec.twoPow 128 n)).fl).getD 0

/-- The decode fault of an access-slice word. A k register may be read by a brx terminal (R92) and never written (R404). -/
def accessDecode (h : W128) (fmt : List W64) (before : List W128) (last : Bool) (w : W128) : Except Trap Instr :=
  if opcOf w == 0x3FF then .error (decodeTrap (.clauseFormat 3))
  else if !accessOpcode (opcOf w) then .error (decodeTrap (.illegalOpcode (opcOf w)))
  else match decodeBody { vpw := 16, kn := 16, tiles := 0, fmt } h before last w with
    | .error f => .error (decodeTrap f)
    | .ok i =>
      if (Body.of w).fl then .error (decodeTrap (.reservedField flBit))
      else match (Body.of w).d with
        | .k n => if (rowOf { vpw := 16, kn := 16, tiles := 0, fmt } w).all fun r => r.d == .none then .ok i
                  else .error (decodeTrap (.illegalOperand 0 (320 + n.val)))
        | _ => .ok i

/-- The decode fault of an access-slice header: WAIT = 0, SETA = SETB = 15; SAFE and SPIX are ignored. -/
def accessHeader (h : W128) : Option Trap :=
  let plain := h &&& ~~~ bitsMask 13 78
  match checkHeader plain with
  | some (.clauseFormat d) => some (decodeTrap (.clauseFormat d))
  | r =>
    let hd := Header.of h
    let low := match r with
      | some (.reservedField n) => [n]
      | _ => []
    let bad := low ++ (((List.range 12).find? fun n => hd.wait.getLsbD n).map (102 + ·)).toList ++
      (if hd.setA == 15 then [] else [98]) ++ (if hd.setB == 15 then [] else [94])
    bad.min?.map fun n => decodeTrap (.reservedField n)

/-- Fetch and decode the clause at an address: its header and words, or the index and trap of the first fault. -/
def accessClauseAt (s : State) (unit : Nat) (g : Grid) (fmt : List W64) (a : Addr) : Except (Nat × Trap) (W128 × List W128) :=
  if segmentAbsent s g a then .error (0, decodeTrap (.clauseFormat 7))
  else match fetchWord s unit g.ctx (vaOf a) with
  | .error t => .error (0, t)
  | .ok h => match accessHeader h with
    | some t => .error (0, t)
    | none =>
      let n := (Header.of h).len.toNat
      (List.range n).foldl (fun r i =>
        match r with
        | .error e => .error e
        | .ok (h, ws) => match fetchWord s unit g.ctx ((vaOf a + 16 * (i + 1)) % 2 ^ 64) with
          | .error t => .error (i + 1, t)
          | .ok w => match accessDecode h fmt ws (i + 1 == n) w with
            | .error t => .error (i + 1, t)
            | .ok _ => .ok (h, ws ++ [w])) (.ok (h, []))

/-! ## A team as one access thread sees it -/

/-- The slice parameters as team-uniform registers (R407). -/
def paramRegs (t : Team) : SMap KReg := (List.range 16).foldl (fun m n =>
  m.set {} n { val := t.params.get 0 n, old := t.params.get 0 n }) []

/-- The bundle of one access thread at word `idx` of its clause. -/
def accessBundle (s : State) (t : Team) (x : Thread) (h : W128) (ws : List W128) (idx : Nat) : Bundle :=
  { id := s.nextId, grid := t.grid, team := t.index, core := t.core, addr := x.pc, members := [x.tid], decoded := true
    hdr := h, words := ws, idx, startAt := x.resumeAt, fmt := nextFmt t x }

/-- The state in which a word of an access thread executes: the thread stands for its team's threads. -/
def enterAccess (s : State) (t : Team) (x : Thread) (b : Bundle) : State :=
  { s.setTeam { t with threads := [{ x with place := .bundle b.id }], k := paramRegs t } with
    bundles := s.bundles ++ [b], cur := some b.id, nextId := s.nextId + 1 }

/-- Back to the team's own threads; the access thread's state is kept, and whether a fault now holds the team. -/
def leaveAccess (s : State) (t : Team) (s1 : State) (x : Thread) (b : Bundle) : State × Thread :=
  match s1.team? t.grid t.index with
  | none => (s, x)
  | some u =>
    let y := u.threads.headD x
    let y := match y.place with
      | .bundle _ => { y with place := .boundary, mrV := false }
      | _ => { y with mrV := false }
    ({ s1 with issued := s.issued, cur := none, bundles := s1.bundles.filter (·.id != b.id), ops := s.ops
               teams := s1.teams.map fun z => if z.grid == t.grid && z.index == t.index then
                 { z with threads := t.threads, k := t.k, meetings := t.meetings, insts := t.insts
                          access := t.access.map fun a => if a.tid == y.tid then y else a } else z }, y)

/-! ## Loads (R405, R406) -/

/-- Addresses that the team may still form in its 16 cc. -/
def rateLeft (s : State) (t : Team) : Nat := if t.rateFrom + 16 ≤ s.cc then t.rateCap else t.rateCap - t.rateUsed

def countRate (s : State) (t : Team) : Team :=
  if t.rateFrom + 16 ≤ s.cc then { t with rateFrom := s.cc, rateUsed := 1, supplied := t.supplied + 1 }
  else { t with rateUsed := t.rateUsed + 1, supplied := t.supplied + 1 }

/-! ## The order of the engine (R366) -/

/-- The place of an access thread in the round: by team, then by thread index. -/
def turnOf (grid team tid : Nat) : Nat := (grid * 2 ^ 32 + team) * 1024 + tid

/-- How far a place stands behind the turn that is next: threads that were skipped keep their turns, oldest first (R366, R406). -/
def turnRank (s : State) (core k : Nat) : Nat :=
  let u := s.ruling.get {} core
  if u.owed.contains k then u.owed.idxOf k else 2 ^ 56 + (k + 2 ^ 56 - u.next % 2 ^ 56) % 2 ^ 56

/-- Whether a team's phase lets an access thread run: one in mid-clause goes on to its clause boundary (R384, R409). After a resumption it
waits as the team's threads do, so that its %clk does not fall (R38). -/
def accessRuns (s : State) (t : Team) (x : Thread) : Bool :=
  x.place == .boundary && !t.accessEnded && x.notBefore ≤ s.cc &&
  (match t.phase with
   | .running => true
   | .holding | .saving .. => x.resumeAt != 0
   | _ => false)

/-- Whether a load of an access thread cannot be formed now: its FIFO is full, its queue is not configured, or its team stands behind
its cap. -/
def loadWaits (s : State) (t : Team) (tid : Nat) (f : LBody) : Bool :=
  let q := queueNow t f
  q.kind == 0 || (q.kind == 2 && (q.depth ≤ fifoHeld (q.fifo tid) || rateLeft s t == 0))

/-- The load that a word is to a thread whose guard holds, when its queue exists. -/
def loadOf (g : Grid) (x : Thread) (w : W128) : Option LBody :=
  let f := LBody.of w
  if (opcOf w == 0x150 || opcOf w == 0x151) && guardHolds f.grd x.pred && f.qn.toNat < g.launch.queues then some f else none

/-- Whether the engine skips an access thread: it stands at a load that cannot be formed now. -/
def accessSkipped (s : State) (g : Grid) (t : Team) (x : Thread) : Bool :=
  match if x.resumeAt != 0 then .ok (x.resumeWords.getD (x.resumeAt - 1) 0) else fetchWord s t.core g.ctx ((vaOf x.pc + 16) % 2 ^ 64) with
  | .error _ => false
  | .ok w => (loadOf g x w).any (loadWaits s t x.tid)

/-- R366: whether it is an access thread's turn to form an address: the engine has formed fewer than 4 in this cc, and every thread
before it in the round is skipped. -/
def engineTurn (s : State) (core grid team tid : Nat) : Bool :=
  let used := (s.ruling.get {} core)
  (used.cc != s.cc || used.used < 4) &&
  s.teams.all fun t => t.core != core || (match s.grid? t.grid with
    | none => true
    | some g => t.access.all fun y => !accessRuns s t y || accessSkipped s g t y ||
        turnRank s core (turnOf grid team tid) ≤ turnRank s core (turnOf t.grid t.index y.tid))

/-- The access threads of a core that the engine passes over as it serves a turn. -/
def passedOver (s : State) (core k : Nat) : List Nat :=
  sortBy (turnRank s core) ((s.teams.filter (·.core == core)).flatMap fun t => match s.grid? t.grid with
    | none => []
    | some g => (t.access.filter fun y => accessRuns s t y && accessSkipped s g t y).map (fun y => turnOf t.grid t.index y.tid)
        |>.filter fun j => turnRank s core j < turnRank s core k)

/-- The engine has served a turn: its own is spent, and those it passed over keep theirs. -/
def takeTurn (s : State) (core grid team tid : Nat) : State :=
  let u := s.ruling.get {} core
  let k := turnOf grid team tid
  let v : Turn := { cc := s.cc, used := if u.cc == s.cc then u.used + 1 else 1, next := if u.owed.contains k then u.next else k + 1
                    owed := ((u.owed ++ passedOver s core k).eraseDups).filter (· != k) }
  { s with ruling := s.ruling.set {} core v }

/-- Append one entry to the fed thread's FIFO and put its load in flight; an address fault poisons it. -/
def feed (s : State) (e : Env) (x : Thread) (f : LBody) (sp : Span) (size al : Nat) : State :=
  let t := teamNow s e
  let q := queueNow t f
  let fi := q.fifo x.tid
  let id := s.nextId
  let o := memOffset s e x f
  let va := (globalVa e f o + sp.first) % 2 ^ 64
  let sx := sp.pack.isNone && f.mod3.getLsbD 0
  let en : QEntry := { slot := fi.next, bytes := size, req := id, va, len := sp.len, sx, pack := sp.pack }
  let t := countRate s (t.updQueue q.n fun q => q.setFifo { fi with next := (fi.next + 1) % max 1 q.depth, entries := fi.entries ++ [en] })
  let s := { s.setTeam t with nextId := s.nextId + 1 }
  match globalCheck e f o (sp.first + sp.len) al with
  | some tr => fillEntry s t.grid t.index x.tid q.n fi.next id (.error (loadPoison q.n fi.next tr))
  | none =>
    let agent := 1024 + x.tid
    let r : Req := { id, path := .q, agent := .thread t.grid t.index agent, ctx := e.g.ctx, core := t.core, va, len := sp.len
                     kind := .load x.tid q.n fi.next, hint := f.hint.toNat, sx, pack := sp.pack, queue := some q.n
                     after := loadAfter s t.grid t.index agent t.core e.g.ctx .q va sp.len }
    { s with reqs := s.reqs ++ [r] }

/-- What became of a word. -/
inductive WordEnd where
  | done
  | stall
  | trap (t : Trap)
deriving DecidableEq, Repr

/-- A load word of an access thread, when it is its turn. -/
def accessLoad (s : State) (e : Env) (x : Thread) (turn : Bool) (f : LBody) (sp : Span) (size al : Nat) : State × WordEnd :=
  if !guardHolds f.grd x.pred then (s, .done)
  else if e.g.launch.queues ≤ f.qn.toNat then (s, .trap (queueTrap 1))
  else
    let q := queueNow e.t f
    if q.kind != 0 && q.kind != 2 then (s, .trap (queueTrap 2))
    else if loadWaits s e.t x.tid f || !turn then (s, .stall)
    else (feed (takeTurn s e.t.core e.t.grid e.t.index x.tid) e x f sp size al, .done)

/-! ## ACCESS_CLAUSE -/

/-- Raise a fault of an access thread (R408). -/
def accessFault (s : State) (t : Team) (x : Thread) (h : W128) (ws : List W128) (idx : Nat) (tr : Trap) : State × Thread :=
  let s := dissolve s t.grid t.index
  let t := (s.team? t.grid t.index).getD t
  let b := accessBundle s t x h ws idx
  let s1 := enterAccess s t x b
  match s1.envOf b with
  | none => (s, x)
  | some e => leaveAccess s t (raiseAt s1 e idx tr [(x.tid, tr)]) x b

/-- One word of an access thread: the state, the thread, and how it ended. -/
def accessStep (s : State) (t : Team) (x : Thread) (h : W128) (ws : List W128) (idx : Nat) (i : Instr) : State × Thread × WordEnd :=
  let b := accessBundle s t x h ws idx
  let s1 := enterAccess s t x b
  match s1.envOf b with
  | none => (s, x, .stall)
  | some e =>
    let load (f : LBody) (sp : Span) (size al : Nat) : State × Thread × WordEnd :=
      let p := accessLoad s1 e ((e.threads).headD x) (engineTurn s t.core t.grid t.index x.tid) f sp size al
      match p.2 with
      | .trap tr => let q := accessFault s t x h ws idx tr
                    (q.1, q.2, .trap tr)
      | w => let q := leaveAccess { s with ops := p.1.ops } t p.1 x b
             (q.1, q.2, w)
    match i with
    | .qld f => load f (plainSpan f) (accBytes f) (accBytes f)
    | .qldp f => load f (packedSpan (packedOf s1 e x f)) 8 1
    | i => match accessWord i s1 with
      | some (.next s2) =>
        match (s2.team? t.grid t.index).map Team.phase == some t.phase, s2.faults.length == s1.faults.length with
        | true, true => let q := leaveAccess s t s2 x b
                        (q.1, q.2, .done)
        | _, _ =>
          -- the word faulted: its bundles that have not begun dissolve first (R369)
          let s := dissolve s t.grid t.index
          let t := (s.team? t.grid t.index).getD t
          let b := accessBundle s t x h ws idx
          match accessWord i (enterAccess s t x b) with
          | some (.next s2) => let q := leaveAccess s t s2 x b
                               (q.1, q.2, .trap { code := 0 })
          | _ => (s, x, .stall)
      | _ => (s, x, .stall)

/-- The terminal of an access clause: every terminal of R108; an exit ends the access thread, and the last one the slice. -/
def accessTerm (s : State) (t : Team) (x : Thread) (h : W128) (ws : List W128) : State × Thread :=
  let hd := Header.of h
  if termOf h == 6 then
    let y := { x with place := .exited, resumeAt := 0, resumeHdr := 0, resumeWords := [] }
    let acc := t.access.map fun a => if a.tid == x.tid then y else a
    ({ s.setTeam { t with access := acc, accessEnded := acc.all fun a => a.place == .exited } with nextId := s.nextId + 1 }, y)
  else
    let b := accessBundle s t x h ws (hd.len.toNat + 1)
    let run (s : State) (t : Team) : Option State :=
      match (match termOf h with
        | 0 => execFall hd (enterAccess s t x b)
        | 1 => execJmp hd (enterAccess s t x b)
        | 2 => execBrp hd (enterAccess s t x b)
        | 3 => execBrx hd (enterAccess s t x b)
        | 4 => execCall hd (enterAccess s t x b)
        | 5 => execRet hd (enterAccess s t x b)
        | _ => execEndl hd (enterAccess s t x b)) with
      | .next s => some s
      | _ => none
    match run s t with
    | none => (s, x)
    | some s1 =>
      if s1.faults.length == s.faults.length then leaveAccess s t s1 x b
      else
        let s := dissolve s t.grid t.index
        let t := (s.team? t.grid t.index).getD t
        match run s t with
        | some s1 => leaveAccess s t s1 x b
        | none => (s, x)

/-- Run a clause from word `idx`. A word that stalls leaves the thread at it. -/
def accessRun (g : Grid) (grid team : Nat) (h : W128) (ws : List W128) : Nat → State → Thread → Nat → State
  | 0, s, _, _ => s
  | fuel + 1, s, x, idx =>
    match s.team? grid team with
    | none => s
    | some t =>
      let stay (s : State) (x : Thread) : State := s.updTeam grid team fun t => { t with access := t.access.map fun a => if a.tid == x.tid then
        { x with resumeAt := idx, resumeFmt := nextFmt t x, resumeHdr := h, resumeWords := ws } else a }
      if ws.length < idx then (accessTerm s t x h ws).1
      else
        match accessDecode h (nextFmt t x) (ws.take (idx - 1)) (idx == ws.length) (ws.getD (idx - 1) 0) with
        | .error tr => (accessFault s t x h ws idx { tr with kind := 0 }).1
        | .ok i => match accessStep s t x h ws idx i with
          | (s1, y, .done) => accessRun g grid team h ws fuel s1 y (idx + 1)
          | (_, _, .stall) => stay s x
          | (s1, _, .trap _) => s1

/-- The clause of an access thread: one that it has begun as it fetched it (R379), else the one at its boundary. -/
def clauseOf (s : State) (g : Grid) (t : Team) (x : Thread) : Except (Nat × Trap) (W128 × List W128) :=
  if x.resumeAt != 0 then .ok (x.resumeHdr, x.resumeWords) else accessClauseAt s t.core g (nextFmt t x) x.pc

/-- The state after an access thread has run its clause as far as it can. -/
def accessClause (s : State) (g : Grid) (t : Team) (x : Thread) : State :=
  match clauseOf s g t x with
  | .error (i, tr) => (accessFault s t x 0 [] i tr).1
  | .ok (h, ws) => accessRun g t.grid t.index h ws (ws.length + 1) s x (max 1 x.resumeAt)

/-- Whether an access thread cannot go on now: it stands at a load that waits, or whose turn has not come (R366). -/
def accessBlocked (s : State) (g : Grid) (t : Team) (x : Thread) : Bool :=
  match clauseOf s g t x with
  | .error _ => false
  | .ok (_, ws) => ((ws.drop (x.resumeAt - 1)).head?.bind (loadOf g x)).any fun f =>
      loadWaits s t x.tid f || ((queueNow t f).kind == 2 && !engineTurn s t.core t.grid t.index x.tid)

def execAccessClause (grid team tid : Nat) (s : State) : Event :=
  match s.team? grid team, s.grid? grid with
  | some t, some g => match t.access.find? (·.tid == tid) with
    | none => .refused (.notEnabled "ACCESS_CLAUSE")
    | some x =>
      if !accessRuns s t x || s.mgmt.fencedCores.contains t.core || accessBlocked s g t x then .refused (.notEnabled "ACCESS_CLAUSE")
      else .next { accessClause s g t x with free := s.free + 1, cur := none }
  | _, _ => .refused (.notEnabled "ACCESS_CLAUSE")

end Sys2Proof.Machine
end

