-- ==== Sys2Proof/Machine/Window.lean ====
section
/-! DEFINITION. Requests of the host and of UALink peers through the aperture windows (16: R439, R441 to R443). -/

namespace Sys2Proof.Machine

/-- The answer to a window request: 0 completed; 1 refused aperture (Unsupported Request); 2 failed translation (Completer Abort);
3 completed with poisoned data (Tables 16-6 and 16-7). -/
abbrev WinAnswer := Nat × List Byte

/-- The fields of an aperture register (Table 16-5). -/
structure Aperture where
  mode : Nat := 0
  wen : Bool := false
  aen : Bool := false
  ctx : Nat := 0
  base : Nat := 0
deriving DecidableEq, Repr

def apertureOf (v : W64) : Aperture :=
  let x := v.toNat
  { mode := bitsOf x 0 2, wen := x.testBit 2, aen := x.testBit 3, ctx := bitsOf x 4 12, base := bitsOf x 16 23 }

/-- Where a request lands, or its refusal. -/
inductive Target where
  | refused (status : Nat)
  /-- Physical places, and the context and virtual address that translated them. -/
  | at' (segs : List (Nat × Nat × Nat)) (via : Option (Nat × Nat))
deriving DecidableEq, Repr

/-- R441. -/
def resolveWindow (s : State) (off len : Nat) (acc : Access) : Target :=
  let a := apertureOf (s.mgmt.aps.get 0 (off / 2 ^ 34))
  let addr := a.base * 2 ^ 34 + off % 2 ^ 34
  if (acc == .write && !a.wen) || (acc == .atomic && !a.aen) then .refused 1
  else match a.mode with
    | 1 => if a.base < 64 && addr + len ≤ 2 ^ 40 then .at' [(0, addr, len)] none else .refused 1
    | 2 => match if (s.ctx a.ctx).en then translateRange s noTlb a.ctx ((BitVec.ofNat 57 addr).signExtend 64).toNat len acc else .error { code := fTranslation } with
      | .error _ => .refused 2
      | .ok l => .at' (segsOf l) (some (a.ctx, ((BitVec.ofNat 57 addr).signExtend 64).toNat))
    | _ => .refused 1

/-- R291: the words of a posted host write; a read of the part that returns one acts as an acquire. -/
def postWords (s : State) (segs : List (Nat × Nat × Nat)) : State :=
  { s with posted := (s.posted ++ segWords segs).eraseDups }

def markVia (s : State) (segs : List (Nat × Nat × Nat)) (via : Option (Nat × Nat)) (n : Nat) : State :=
  match via with
  | some (ctx, va) => if segs.any fun g => g.1 < 2 then markDirty s ctx va n else s
  | none => s

/-- The memory-side operation of a window atomic: its code, size and operands. -/
def windowAtomic : WindowOp → Option (Nat × Nat × Nat × Nat)
  | .fetchAdd n x => some (0, n, x, 0)
  | .swap n x => some (8, n, x, 0)
  | .cas n cmp x => some (9, n, x, cmp)
  | .atom code n x => some (code, n, x, 0)
  | .red code n x => some (code, n, x, 0)
  | _ => none

def isRedOp : WindowOp → Bool
  | .red .. => true
  | _ => false

/-- Atomics that the window completes: those of R223 for the host and for a peer (Tables 16-6 and 16-7). -/
def windowAtomicOk (host : Bool) (op : WindowOp) (code n : Nat) : Bool :=
  atomicAccepted (if host then 1 else 2) code n (!isRedOp op) false && (!isRedOp op || code < 8)

/-- The I/O die that a request comes by: the host's is I/O die 0, a peer's that of its port (Table 16-7, log 93). -/
def windowDie (s : State) (host : Bool) (off : Nat) : Nat := if host || portOf s (fun _ => true) (off / 4096) < 12 then 0 else 1

/-- R414: a whole 256-byte block that crosses a peer's link, entering the part (1) or leaving it (0). -/
def peerBlock (s : State) (off dir : Nat) (bytes : List Byte) : State :=
  peerBlocks s (portOf s (fun _ => true) (off / 4096)) dir off bytes (bytes.map fun _ => 0xFF)

/-- A write of the window. -/
def windowWrite (s : State) (off : Nat) (bytes : List Byte) (poisoned host : Bool) : State × WinAnswer :=
  let io := windowDie s host off
  match resolveWindow s off bytes.length .write with
  | .refused n => (s, (n, []))
  | .at' segs via =>
    let s := markVia (setSegBytes (ioReach s io true segs) segs bytes) segs via bytes.length
    let s := if host then postWords s segs else if poisoned then s else peerBlock s off 1 bytes
    (if poisoned then poisonSegs s segs else s, (0, []))

/-- Serve a request: the state after and the answer. -/
def windowServe (s : State) (off : Nat) (op : WindowOp) (host : Bool) : State × WinAnswer :=
  let io := windowDie s host off
  match op with
  | .read len => match resolveWindow s off len .read with
    | .refused n => (s, (n, []))
    | .at' segs _ =>
      let s := ioReach s io false segs
      let bad := segPoison s segs != 0
      (if host || bad then s else peerBlock s off 0 (segBytes s segs), (if bad then 3 else 0, segBytes s segs))
  | .write bytes => windowWrite s off bytes false host
  | .writePoisoned bytes => windowWrite s off bytes true host
  | op => match windowAtomic op with
    | none => (s, (1, []))
    | some (code, n, x, cmp) =>
      if !windowAtomicOk host op code n then (s, (1, []))
      else match resolveWindow s off n .atomic with
        | .refused st => (s, (st, []))
        | .at' segs via =>
          let s := ioReach s io true segs
          if !isDevice segs then (s, (1, []))
          else if segPoison s segs != 0 then (s, if isRedOp op then (0, []) else (3, segBytes s segs))
          else
            let p := applyAtomic s 0 off segs code n x cmp 0
            (markVia p.1 segs via n, (0, if isRedOp op then [] else leBytes n p.2))

def windowLen : WindowOp → Nat
  | .read len => len
  | .write bytes | .writePoisoned bytes => bytes.length
  | .fetchAdd n _ => n
  | .swap n _ => n
  | .cas n _ _ => n
  | .atom _ n _ => n
  | .red _ n _ => n

def isAtomicOp (op : WindowOp) : Bool := (windowAtomic op).isSome

/-- Requests that the link carries: within an aperture, atomics aligned to their size. -/
def windowFormed (off : Nat) (op : WindowOp) : Bool :=
  0 < windowLen op && off % 2 ^ 34 + windowLen op ≤ 2 ^ 34 && (!isAtomicOp op || off % windowLen op == 0)

/-- The apertures that BAR2 exposes at the size it has (Table 16-6). -/
def bar2Exposes (off : Nat) : Bool := off < 2 ^ 34 || off < 2 ^ min 40 Config.bar2Bits

/-- Table 16-6: payloads to 512 bytes, reads to 4,096; FetchAdd, Swap and CAS are the host's atomics. -/
def hostFormed (off : Nat) (op : WindowOp) : Bool :=
  bar2Exposes off && windowFormed off op && (match op with
    | .read len => len ≤ 4096
    | .write bytes | .writePoisoned bytes => bytes.length ≤ 512
    | .atom .. | .red .. => false
    | _ => true)

/-- Table 16-7: 1 to 256 bytes that do not cross a 256-byte boundary. -/
def peerFormed (off : Nat) (op : WindowOp) : Bool := windowFormed off op && off % 256 + windowLen op ≤ 256

/-- R442: what Advanced Error Reporting notes of a host request: a poisoned TLP received, a Completer Abort or an Unsupported Request
sent (log 101). -/
def aerBits (op : WindowOp) (st : Nat) : Nat :=
  (match op with
    | .writePoisoned _ => 2 ^ 12
    | _ => 0) ||| (if st == 2 then 2 ^ 15 else if st == 1 then 2 ^ 20 else 0)

/-- R442. The window answers once the part is ready (R466). -/
def execHostWindowRequest (off : BitVec 40) (op : WindowOp) (s : State) : Event :=
  if !bar0Live s || !hostFormed off.toNat op then .refused (.notEnabled "HOST_WINDOW_REQUEST")
  else
    let p := windowServe s off.toNat op true
    .next { p.1.updMgmt (fun m => { m with aer := m.aer ||| aerBits op p.2.1 }) with winReply := some p.2, free := s.free + 1 }

/-- R443. -/
def execPeerWindowRequest (off : BitVec 40) (op : WindowOp) (s : State) : Event :=
  if !bar0Live s || !peerFormed off.toNat op then .refused (.notEnabled "PEER_WINDOW_REQUEST")
  else
    let p := windowServe s off.toNat op false
    .next { p.1 with winReply := some p.2, free := s.free + 1 }

end Sys2Proof.Machine
end

