-- ==== Sys2Proof/Machine/Iagar.lean ====
section
/-! DEFINITION. Iagar (19: R466 to R471): the full reset and boot, loss of power, power and temperature, and the mailbox. -/

namespace Sys2Proof.Machine

/-! ## Reset and boot (R466 to R468, R474) -/

def popCount (v : W64) : Nat := ((List.range 64).filter v.getLsbD).length

/-- R468: whether Iagar runs an image. -/
def imageRuns (i : Iagar) (img : List Byte) : Bool := Config.imageSigned i.rootDigest img && popCount i.antiRollback ≤ Config.imageVersion img

/-- The image staged by command 2, from its pieces. -/
def stagedImage (i : Iagar) : Option (List Byte) :=
  if i.stagedLen == 0 then none else some ((List.range i.stagedLen).map fun n => i.staged.get 0 n)

/-- The images in the order tried at boot: a staged one first, then the two of the flash. -/
def bootOrder (i : Iagar) : List (List Byte) := (stagedImage i).toList ++ [i.images.getD 0 [], i.images.getD 1 []]

/-- A verified image of a higher version sets fuse bits up to that version. -/
def raiseFuse (i : Iagar) (img : List Byte) : Iagar :=
  if popCount i.antiRollback < Config.imageVersion img then { i with antiRollback := BitVec.ofNat 64 (2 ^ (min 64 (Config.imageVersion img)) - 1) } else i

/-- The fence record as it stands after the boot. -/
def bootRecord (i : Iagar) : Iagar :=
  if i.clearFences then { i with recCores := [], recSlices := [], recPcs := [], recMscs := [], clearFences := false } else i

/-- What the outside keeps over a reset of the part: host and peer memory, what it has been sent, and the model's own fields. -/
def poweredDown (s : State) (iagar : Iagar) (m : Mgmt) : State :=
  { State.reset with agenda := s.agenda, free := s.free + 1, nextId := s.nextId, hostMem := s.hostMem, peerMem := s.peerMem
                     msix := s.msix, frames := s.frames, images := s.images, iagar, mgmt := m, links := [] }

/-- Table 19-5: the boot trains the die boundaries' links and the UALink ports, with the peers that each port reaches. -/
def trainedLinks (s : State) : List Link :=
  (List.range 34).map fun n => trainLink false false ((linkOf s n).peers) { n }

/-- R466, Table 19-5: everything but the fuses and the flash is discarded, then the part boots. -/
def fullReset (s : State) : State :=
  let i := bootRecord s.iagar
  let fences : Mgmt := { fencedCores := i.recCores, fencedSlices := i.recSlices, fencedPcs := i.recPcs, fencedMscs := i.recMscs }
  match (bootOrder i).find? (imageRuns i) with
  | some img =>
    { poweredDown s (raiseFuse i img) { fences with devstate := 1, fwver := BitVec.ofNat 32 (Config.imageVersion img), running := img } with
      links := trainedLinks s }
  | none => poweredDown s i { fences with devstate := 2 }

def execFullReset (s : State) : Event := .next (fullReset s)

/-- R467. -/
def execSupplyLoss (s : State) : Event := .next (poweredDown s s.iagar { devstate := 0, d3hot := true })

/-- R467: every grid ends as at a full reset, and nothing moves until the return to D0. -/
def execD3hotEntry (s : State) : Event :=
  if s.mgmt.d3hot then .refused (.notEnabled "D3HOT_ENTRY")
  else .next (poweredDown s s.iagar { s.mgmt with d3hot := true, devstate := 0 })

/-! ## Power and temperature (R470, R471) -/

/-- Temperatures are in units of 1/16 °C. -/
def degrees (n : Nat) : Nat := 16 * n

/-- R470: the core clock after a comparison. -/
def nextClock (mhz cap watts : Nat) (dies hbm : List Nat) : Nat :=
  if cap < watts || dies.any (degrees 100 < ·) || hbm.any (degrees 95 < ·) then max 600 (mhz - 75)
  else if 100 * watts ≤ 95 * cap && dies.all (· ≤ degrees 97) && hbm.all (· ≤ degrees 92) then min 1200 (mhz + 75)
  else mhz

/-- R470: every 100 µs Iagar measures; board energy counts (Table 19-6). -/
def execPowerCheck (watts : Nat) (dieTemps stackTemps : List Nat) (s : State) : Event :=
  if s.mgmt.d3hot || s.fc % 240000 != 0 || dieTemps.length != 8 || stackTemps.length != 16 then .refused (.notEnabled "POWER_CHECK")
  else
    let e := s.mgmt.energy + watts
    .next { s with
      mhz := nextClock s.mhz s.mgmt.pwrcap watts dieTemps stackTemps
      mgmt := { s.mgmt with watts, dieTemps, stackTemps, energy := e, telemetry := s.mgmt.telemetry.set 0 0x100 (BitVec.ofNat 64 (e / 10)) }
      free := s.free + 1 }

/-- R466, R471: a compute die at 115 °C or a stack at 105 °C. The trip discards what a full reset discards; the boot awaits the full reset
that leaves the halted state, and the firmware that runs in Iagar stays (log 98). -/
def execThermalTrip (stack : Bool) (sensor temp : Nat) (s : State) : Event :=
  if s.mgmt.d3hot || s.mgmt.devstate == 3 || (if stack then 16 ≤ sensor || temp < degrees 105 else 8 ≤ sensor || temp < degrees 115) then
    .refused (.notEnabled "THERMAL_TRIP")
  else .next (poweredDown { s with msix := s.mgmt.hvec :: s.msix } s.iagar { devstate := 3, fwver := s.mgmt.fwver, running := s.mgmt.running })

/-! ## The mailbox (R469) -/

def mailboxBytes (s : State) (at' n : Nat) : List Byte := (List.range n).map fun i => s.mgmt.mbuf.get 0 (at' + i)

def setMailbox (m : Mgmt) (bs : List Byte) : Mgmt :=
  { m with mbuf := ((List.range bs.length).zip bs).foldl (fun b p => b.set 0 p.1 p.2) m.mbuf }

/-- The answer to a command: 0 done, 2 refused. -/
def answerMailbox (s : State) (cmd status : Nat) : State :=
  s.updMgmt fun m => { m with mbcmd := if m.mbstat == 1 then m.mbcmd else BitVec.ofNat 64 cmd, mbstat := status }

/-- In recovery the mailbox accepts an image (R468) and attests, with FLAGS[0] set (Table 19-6a, log 98); with the supply lost or in D3hot
nothing answers. -/
def mailboxOpen (s : State) (cmd : Nat) : Bool := !s.mgmt.d3hot && (s.mgmt.devstate != 2 || cmd == 1 || cmd == 2)

/-- The registers of a map of unit bits. -/
def mapWord (l : List Nat) (n : Nat) : W64 := BitVec.ofNat 64 (((List.range 64).filter fun i => l.contains (64 * n + i)).foldl (fun m i => m + 2 ^ i) 0)

/-- R474: the fence maps, 6 + 24 + 96 + 96 registers. -/
def fenceMap (m : Mgmt) (n : Nat) : W64 :=
  if n < 6 then mapWord m.fencedCores n
  else if n < 30 then mapWord m.fencedSlices (n - 6)
  else if n < 126 then mapWord m.fencedPcs (n - 30)
  else mapWord m.fencedMscs (n - 126)

def replaceRequested (m : Mgmt) : Bool := !(m.fencedCores.isEmpty && m.fencedSlices.isEmpty && m.fencedPcs.isEmpty && m.fencedMscs.isEmpty)

def devctlValue (m : Mgmt) : Nat := (if m.nocmp then 2 else 0) + if m.nodedup then 4 else 0

def padTo (n : Nat) (l : List Byte) : List Byte := l.take n ++ List.replicate (n - l.length) 0

/-- Bytes 0 to 231 of Table 19-6a. -/
def reportBody (s : State) : List Byte :=
  let m := s.mgmt
  let maps := (List.range 222).flatMap fun n => leBytes 8 (fenceMap m n).toNat
  leBytes 4 0x52415153 ++ leBytes 2 1 ++ leBytes 2 ((if m.devstate == 2 then 1 else 0) + if replaceRequested m then 2 else 0) ++
  leBytes 4 stepping ++ leBytes 4 m.fwver.toNat ++ padTo 16 s.iagar.serial ++ padTo 64 (Config.hash m.running) ++
  padTo 64 (Config.hash (maps ++ leBytes 8 s.iagar.antiRollback.toNat ++ leBytes 8 (devctlValue m))) ++ mailboxBytes s 0 64 ++
  leBytes 8 (s.fc / 2400000)

def attestReport (s : State) : List Byte :=
  let b := reportBody s
  let sig := Config.sign (Config.hash b)
  b ++ padTo 66 sig ++ padTo 66 (sig.drop 66) ++ leBytes 4 0

/-- Run one mailbox command. -/
def mailboxRun (s : State) (cmd piece : Nat) : State :=
  if !mailboxOpen s cmd then (if s.mgmt.d3hot then s else answerMailbox s cmd 2)
  else match cmd with
    | 1 => answerMailbox { s with mgmt := setMailbox s.mgmt (attestReport s) } 1 0
    | 2 =>
      let img := ((List.range 4096).zip (mailboxBytes s 0 4096)).foldl (fun m p => m.set 0 (4096 * piece + p.1) p.2) s.iagar.staged
      answerMailbox { s with iagar := { s.iagar with staged := img, stagedLen := max s.iagar.stagedLen (4096 * (piece + 1)) } } 2 0
    | 3 => match Config.unwrapKey s.iagar.secret (mailboxBytes s 0 4096) with
      | some k =>
        let slot := (s.mgmt.mbuf.get 0 0).toNat
        answerMailbox { s with keySlots := s.keySlots.set [] slot k, salts := s.salts.set [] slot [] } 3 0
      | none => answerMailbox s 3 2
    | 4 => answerMailbox { s with mgmt := setMailbox s.mgmt (padTo 4096 s.iagar.identity) } 4 0
    | 5 => answerMailbox { s with iagar := { s.iagar with clearFences := true } } 5 0
    | n => answerMailbox s n 2

/-- The command that runs, with its piece. -/
def runningCommand (m : Mgmt) : Option (Nat × Nat) :=
  if m.mbstat == 1 then some (bitsOf m.mbcmd.toNat 0 8, bitsOf m.mbcmd.toNat 16 16) else none

/-- R469: the mailbox takes one command at a time: the one that runs ends, or the owner gives one and it runs to its end. -/
def mailboxEvent (name : String) (cmd piece : Nat) (s : State) : Event :=
  if s.mgmt.d3hot || (runningCommand s.mgmt).any (· != (cmd, if cmd == 2 then piece else bitsOf s.mgmt.mbcmd.toNat 16 16)) then .refused (.notEnabled name)
  else .next { mailboxRun s cmd piece with free := s.free + 1 }

def execAttest (s : State) : Event := mailboxEvent "ATTEST" 1 0 s
def execStageFirmware (piece : BitVec 16) (s : State) : Event := mailboxEvent "STAGE_FIRMWARE" 2 piece.toNat s
def execLoadKeySlot (s : State) : Event := mailboxEvent "LOAD_KEY_SLOT" 3 0 s
def execIdentityCertificate (s : State) : Event := mailboxEvent "IDENTITY_CERTIFICATE" 4 0 s
def execClearFenceRecord (s : State) : Event := mailboxEvent "CLEAR_FENCE_RECORD" 5 0 s

end Sys2Proof.Machine
end

