-- ==== Sys2Proof/Machine/Mgmt.lean ====
section
/-! DEFINITION. The management space (19: R464, R465, R472, R473; Tables 19-1 to 19-7): what writes of its registers do, and what they
read. -/

namespace Sys2Proof.Machine

/-! ## Contexts (Table 19-3) -/

/-- A write of EN = 0 is ignored while the context has a live grid or a held or saved team. -/
def ctxBusy (s : State) (c : Nat) : Bool := (s.grids.any fun g => g.ctx == c && !g.retired) || s.saves.any fun x => x.ctx == c

/-- The register at 0x00 of a context block. EN creates or ends the context: its quota starts at the ceiling (R322), its locks end
with it (R332), and its cached translations and kept code words go whenever EN changes. -/
def writeContextEn (s : State) (c : Nat) (v : W64) : State :=
  let x := s.ctx c
  let en := v.getLsbD 0 || (x.en && ctxBusy s c)
  let s1 := s.updCtx c fun x => { x with en, dten := v.getLsbD 1, snapen := v.getLsbD 2, dovf := x.dovf && !v.getLsbD 3
                                         quota := if en && !x.en then x.qceil.toNat else x.quota }
  if en == x.en then s1
  else { s1 with tlb := s1.tlb.filter (·.ctx != c), codeCopies := s1.codeCopies.filter (·.ctx != c)
                 locks := if en then s1.locks else s1.locks.filter (·.ctx != c) }

def execContextEn (ctx : Nat) (value : W64) (s : State) : Event :=
  if 4096 ≤ ctx then .refused (.notEnabled "CONTEXT_EN")
  else .next { (if bar0Live s then writeContextEn s ctx value else s) with free := s.free + 1 }

def lowBits (v : W64) (lo n : Nat) : W64 := BitVec.ofNat 64 (bitsOf v.toNat lo n * 2 ^ lo)

/-- A register of a context block by its offset. -/
def writeContext (s : State) (c off : Nat) (v : W64) : State :=
  match off with
  | 0x00 => writeContextEn s c v
  | 0x08 => s.updCtx c fun x => { x with root := lowBits v 12 28 }
  | 0x10 => s.updCtx c fun x => { x with seed := v }
  | 0x18 => s.updCtx c fun x => { x with trapen := lowBits v 0 8 }
  | 0x20 => s.updCtx c fun x => { x with dtbase := lowBits v 6 34 }
  | 0x28 => s.updCtx c fun x => { x with qceil := lowBits v 0 32 }
  | 0x30 => s.updCtx c fun x => { x with spool := v }
  | 0x38 => s.updCtx c fun x => { x with splen := v }
  | 0x40 => s.updCtx c fun x => { x with ppool := v }
  | 0x48 => s.updCtx c fun x => { x with pplen := v }
  | 0x50 => s.updCtx c fun x => sysWriteCtx x 0x120 v
  | _ => if 0x100 ≤ off && off < 0x200 && off % 8 == 0 then s.updCtx c fun x => sysWriteCtx x (0x100 + (off - 0x100) / 8) v else s

def readContext (s : State) (c off : Nat) : W64 :=
  let x := s.ctx c
  match off with
  | 0x00 => BitVec.ofNat 64 ((if x.en then 1 else 0) + (if x.dten then 2 else 0) + (if x.snapen then 4 else 0) + if x.dovf then 8 else 0)
  | 0x08 => x.root
  | 0x10 => x.seed
  | 0x18 => x.trapen
  | 0x20 => x.dtbase
  | 0x28 => x.qceil
  | 0x30 => x.spool
  | 0x38 => x.splen
  | 0x40 => x.ppool
  | 0x48 => x.pplen
  | 0x50 => x.sstep
  | _ => if 0x100 ≤ off && off < 0x200 && off % 8 == 0 then x.bp.get 0 ((off - 0x100) / 8) else 0

/-! ## Invalidation (R379, R465) -/

/-- A GO write while BUSY = 1 is ignored. -/
def writeInvctl (s : State) (v : W64) : State :=
  let x := v.toNat
  if s.mgmt.invBusy && x.testBit 32 then s
  else s.updMgmt fun m =>
    let m := { m with invCtx := bitsOf x 0 12, invPages := bitsOf x 12 20 }
    if x.testBit 32 then { m with invBusy := true, invRunCtx := m.invCtx, invRunFirst := bitsOf m.invva.toNat 12 45, invRunPages := m.invPages } else m

def execInvctlGo (value : W64) (s : State) : Event :=
  .next { (if bar0Live s then writeInvctl s value else s) with free := s.free + 1 }

/-- Whether a page of the context lies in the range of the invalidation under way. -/
def inRange (m : Mgmt) (page : Nat) : Bool :=
  m.invRunPages == 0 || (m.invRunFirst ≤ page && page < m.invRunFirst + m.invRunPages)

/-- Whether a cached entry covers a page of that range. -/
def entryInRange (m : Mgmt) (t : TlbEntry) : Bool :=
  let span := 2 ^ (9 * (t.level - 1))
  m.invRunPages == 0 || (t.tag * span < m.invRunFirst + m.invRunPages && m.invRunFirst < (t.tag + 1) * span) ||
  (t.level == 1 && t.entry.getLsbD 7 && t.tag / 16 * 16 < m.invRunFirst + m.invRunPages && m.invRunFirst < (t.tag / 16 + 1) * 16)

/-- Accesses that may have used an old translation of the range and have not performed. -/
def oldAccess (s : State) (r : Req) : Bool :=
  r.ctx == s.mgmt.invRunCtx && !r.segs.isEmpty &&
  (List.range ((r.va + r.len - 1) / 4096 - r.va / 4096 + 1)).any fun i => inRange s.mgmt ((r.va / 4096 + i) % 2 ^ 45)

/-- R379: cached translations and kept code words of the range are gone and every access that used one has performed. Clauses that have not begun are
fetched afresh. -/
def execInvalidationComplete (s : State) : Event :=
  if !s.mgmt.invBusy || s.reqs.any (oldAccess s) then .refused (.notEnabled "INVALIDATION_COMPLETE")
  else .next { s with
    tlb := s.tlb.filter fun t => !(t.ctx == s.mgmt.invRunCtx && entryInRange s.mgmt t)
    codeCopies := s.codeCopies.filter fun c => !(c.ctx == s.mgmt.invRunCtx && inRange s.mgmt (bitsOf c.va 12 45))
    mgmt := { s.mgmt with invBusy := false }
    free := s.free + 1 }

/-! ## Migration and snapshots -/

/-- Table 19-1a: GO submits the descriptor; the reply is valid at once. -/
def writeMigctl (s : State) (v : W64) : State :=
  if v.getLsbD 0 then
    let p := submitMigration s s.mgmt.migdesc.toNat none
    p.1.updMgmt fun m => { m with migReply := p.2 }
  else s

def execMigctlGo (s : State) : Event :=
  .next { (if bar0Live s then writeMigctl s 1 else s) with free := s.free + 1 }

/-- Table 19-7: ARM re-arms, then TRIG asserts the trigger; FLTTRIG is written. -/
def writeSnapctl (s : State) (v : W64) : State :=
  let s := s.updMgmt fun m => { m with snapFlt := v.getLsbD 3 }
  let s := if v.getLsbD 1 then rearm s else s
  if v.getLsbD 2 then s.snapTrigger 1 0 0xFFFF else s

def execSnapctlArm (s : State) : Event := .next { (if bar0Live s then rearm s else s) with free := s.free + 1 }
def execSnapctlTrig (s : State) : Event := .next { (if bar0Live s then s.snapTrigger 1 0 0xFFFF else s) with free := s.free + 1 }

/-! ## Device, faults and teams -/

/-- Table 19-2. -/
def writeDevctl (s : State) (v : W64) : State :=
  if v.getLsbD 0 then fullReset s else s.updMgmt fun m => { m with nocmp := v.getLsbD 1, nodedup := v.getLsbD 2 }

def execDevctlRst (s : State) : Event :=
  if bar0Live s then .next (writeDevctl s 1) else .next { s with free := s.free + 1 }

/-- Table 14-3a. -/
def writeFrctl (m : Mgmt) (v : W64) : Mgmt :=
  let x := v.toNat
  { m with frEn := x.testBit 0, frLog2n := bitsOf x 1 4, frFull := m.frFull && !x.testBit 5, frIvec := bitsOf x 16 11 }

/-- Table 14-8. -/
def writeTctl (s : State) (v : W64) : State :=
  let x := v.toNat
  let grid := bitsOf x 0 12
  let team := bitsOf x 12 32
  let act := bitsOf x 44 3
  if !x.testBit 47 then nameTctl s grid team act
  else match act with
    | 1 => tctlResume s grid team
    | 2 => tctlEnd s grid team
    | 3 => tctlSave s grid team
    | _ => setTctl (nameTctl s grid team act) 2

/-- R470: other values are clamped. -/
def writePwrcap (v : W64) : Nat := max 1000 (min 3600 (bitsOf v.toNat 0 12))

/-! ## The whole space (Table 19-1) -/

/-- Writes of registers below the submission queues. -/
def writeDevice (s : State) (off : Nat) (v : W64) : State :=
  match off with
  | 0x10 => writeDevctl s v
  | 0x18 => s.updMgmt fun m => { m with newfence := m.newfence && !v.getLsbD 2 }
  | 0x20 => s.updMgmt fun m => { m with hvec := bitsOf v.toNat 0 11 }
  | 0x20000 => s.updMgmt fun m => { m with pwrcap := writePwrcap v }
  | 0x40000 => writeSnapctl s v
  | _ => s

def writeQueueReg (s : State) (q reg : Nat) (v : W64) : State :=
  match reg with
  | 0 => s.updSq q fun x => { x with base := lowBits v 12 52 }
  | 8 => s.updSq q fun x => writeSqctl x v.toNat
  | 16 => s.updSq q fun x => ringDoorbell x (v.setWidth 16)
  | _ => s

def writeTeams (s : State) (reg : Nat) (v : W64) : State :=
  match reg with
  | 0x00 => s.updMgmt fun m => { m with frbase := lowBits v 12 52 }
  | 0x08 => s.updMgmt fun m => writeFrctl m v
  | 0x10 => s.updMgmt fun m => { m with frHead := v.setWidth 16 }
  | 0x18 => writeTctl s v
  | 0x20 => s.updMgmt fun m => { m with plim := v }
  | 0x28 => s.updMgmt fun m => { m with invva := lowBits v 12 45 }
  | 0x30 => writeInvctl s v
  | _ => s

/-- The mailbox answers before the part is ready: MBCMD, which starts a command when none runs and refuses an unknown one, and the
buffer. MBCMD keeps and returns all 64 bits written (log 99). -/
def writeMailbox (s : State) (reg : Nat) (v : W64) : State :=
  if reg == 0 then
    if s.mgmt.mbstat == 1 then s
    else s.updMgmt fun m => { m with mbcmd := v, mbstat := if 1 ≤ bitsOf v.toNat 0 8 && bitsOf v.toNat 0 8 ≤ 5 then 1 else 2 }
  else if 0x1000 ≤ reg && reg < 0x2000 then
    s.updMgmt fun m => { m with mbuf := (List.range 8).foldl (fun b i => b.set 0 (reg - 0x1000 + i) (BitVec.ofNat 8 (v.toNat / 256 ^ i))) m.mbuf }
  else s

/-- R464: a write of one register. Offsets without a register ignore it. -/
def bar0Write (s : State) (off : Nat) (v : W64) : State :=
  if off % 8 != 0 || s.mgmt.d3hot then s
  else if 0x10000 ≤ off && off < 0x20000 then writeMailbox s (off - 0x10000) v
  else if !bar0Live s then s
  else if off < 0x100000 then writeDevice s off v
  else if off < 0x110000 then (if off < 0x100800 then writeQueueReg s ((off - 0x100000) / 32) (off % 32) v else s)
  else if off < 0x120000 then writeTeams s (off - 0x110000) v
  else if off < 0x130000 then
    (if off < 0x120200 then s.updMgmt fun m => { m with aps := m.aps.set 0 ((off - 0x120000) / 8) (lowBits v 0 39) } else s)
  else if off < 0x200000 then
    (if off == 0x130000 then s.updMgmt fun m => { m with migdesc := lowBits v 6 34 } else if off == 0x130008 then writeMigctl s v else s)
  else if off < 0x400000 then writeContext s ((off - 0x200000) / 512) (off % 512) v
  else s

/-- R464: a write access of n bytes to a register, and its answer: registers are accessed whole, and one of 4 bytes or fewer completes
with Unsupported Request. -/
def bar0Access (s : State) (off n : Nat) (v : W64) : State × WinAnswer := if n ≤ 4 then (s, (1, [])) else (bar0Write s off v, (0, []))

def execRegisterWrite (off : BitVec 28) (value : W64) (s : State) : Event :=
  .next { (bar0Access s off.toNat 8 value).1 with free := s.free + 1 }

/-! ## Reads -/

def ofFields (l : List (Nat × Nat)) : W64 := BitVec.ofNat 64 (l.foldl (fun a p => a + p.1 * 2 ^ p.2) 0)

def bit (b : Bool) : Nat := if b then 1 else 0

def readHealth (s : State) : W64 :=
  let m := s.mgmt
  ofFields [(bit (replaceRequested m), 0), (bit (decide (s.mhz < 1200)), 1), (bit m.newfence, 2), (m.fencedCores.length, 16),
            (m.fencedSlices.length, 25), (m.fencedPcs.length, 36), (m.fencedMscs.length, 49)]

def readDevice (s : State) (off : Nat) : W64 :=
  let m := s.mgmt
  if 0x100 ≤ off && off < 0x100 + 8 * 222 then fenceMap m ((off - 0x100) / 8)
  else if 0x20100 ≤ off && off < 0x20100 + 8 * 24 then
    BitVec.ofNat 64 ((m.dieTemps ++ m.stackTemps).getD ((off - 0x20100) / 8) 0)
  else if 0x30000 ≤ off && off < 0x40000 then m.telemetry.get 0 (off - 0x30000)
  else if 0x50000 ≤ off && off < 0x100000 then m.snapData.get 0 ((off - 0x50000) / 8)
  else match off with
    | 0x00 => BitVec.ofNat 64 stepping
    | 0x10 => BitVec.ofNat 64 (devctlValue m)
    | 0x18 => readHealth s
    | 0x20 => BitVec.ofNat 64 m.hvec
    | 0x20000 => BitVec.ofNat 64 m.pwrcap
    | 0x20008 => ofFields [(s.mhz % 4096, 0), (m.watts % 4096, 16)]
    | 0x40000 => ofFields [(bit m.snapLatched, 0), (bit m.snapFlt, 3), (m.snapSrc, 4), (m.snapTag, 16), (m.snapMissed, 32), (m.snapCore, 48)]
    | _ => 0

/-- Matrix time of a live grid reads through the telemetry (Table 19-6). -/
def readTelemetry (s : State) (off : Nat) : Option W64 :=
  if 0x38000 ≤ off && off < 0x40000 then (s.grid? ((off - 0x38000) / 8)).map fun g => BitVec.ofNat 64 g.matrixTime else none

def readQueueReg (s : State) (q reg : Nat) : W64 :=
  let x := s.sq q
  match reg with
  | 0 => x.base
  | 8 => ofFields [(bit x.en, 0), (x.prio, 1), (bit x.sysok, 4), (x.ctx, 8), (x.log2n, 20), (bit x.err, 24), (x.head.toNat, 32), (x.lastErr, 48)]
  | _ => 0

def readTeams (s : State) (reg : Nat) : W64 :=
  let m := s.mgmt
  match reg with
  | 0x00 => m.frbase
  | 0x08 => ofFields [(bit m.frEn, 0), (m.frLog2n, 1), (bit m.frFull, 5), (m.frIvec, 16), (m.frTail.toNat, 32)]
  | 0x10 => BitVec.ofNat 64 m.frHead.toNat
  | 0x18 => ofFields [(m.tctlGrid, 0), (m.tctlTeam, 12), (m.tctlAct, 44), (m.tctlStatus, 48)]
  | 0x20 => m.plim
  | 0x28 => m.invva
  | 0x30 => ofFields [(m.invCtx, 0), (m.invPages, 12), (bit m.invBusy, 33)]
  | _ => 0

/-- R464: the 8 bytes a register reads. -/
def bar0Read (s : State) (off : Nat) : W64 :=
  let m := s.mgmt
  if off % 8 != 0 || m.d3hot then 0
  else if off == 0x08 then ofFields [(m.devstate, 0), (m.fwver.toNat, 32)]
  else if 0x10000 ≤ off && off < 0x20000 then
    (match off - 0x10000 with
     | 0x00 => m.mbcmd
     | 0x08 => BitVec.ofNat 64 m.mbstat
     | r => if 0x1000 ≤ r && r < 0x2000 then BitVec.ofNat 64 (leNat (mailboxBytes s (r - 0x1000) 8)) else 0)
  else if !bar0Live s then 0
  else if off < 0x100000 then (readTelemetry s off).getD (readDevice s off)
  else if off < 0x110000 then (if off < 0x100800 then readQueueReg s ((off - 0x100000) / 32) (off % 32) else 0)
  else if off < 0x120000 then readTeams s (off - 0x110000)
  else if off < 0x130000 then (if off < 0x120200 then m.aps.get 0 ((off - 0x120000) / 8) else 0)
  else if off < 0x200000 then
    (if off == 0x130000 then m.migdesc else if off == 0x130008 then ofFields [(m.migReply, 2)] else 0)
  else if off < 0x400000 then readContext s ((off - 0x200000) / 512) (off % 512)
  else 0

/-- R464: a read access of n bytes. -/
def bar0Answer (s : State) (off n : Nat) : WinAnswer := if n ≤ 4 then (1, []) else (0, leBytes 8 (bar0Read s off).toNat)

end Sys2Proof.Machine
end

