-- ==== Sys2Proof/Machine/Nesting.lean ====
section
/-! DEFINITION. Nesting words (04: R127 to R131): SPAWN, JOINC, POST. -/

namespace Sys2Proof.Machine

def nestingTrap (d : Nat) : Trap := { code := fNesting, detail := d }

/-- The faults of SPAWN (R127, R128): depth before thread, then, behind the fence of step 1, the packet's address. A packet in poisoned
memory raises POISON (log 99). -/
def spawnCheck (s : State) (e : Env) (va : Nat) (x : Thread) : Option Trap :=
  if 10 ≤ e.g.depth then some (nestingTrap 0)
  else if x.tid != 0 then some (nestingTrap 1)
  else if va % 64 != 0 then some { code := fAlignment, detail := va, vaddr := va }
  else
    let s := releaseThread s e.t.grid e.t.index x.tid false
    match translateRange s e.t.core e.g.ctx va 512 .read with
    | .error t => some t
    | .ok l => let cls := segPoison s (segsOf l)
               if cls != 0 then some { poisonTrap cls with vaddr := va } else none

/-- Table 13-3: SPAWN writes PARENT into the packet it was given, where the page may be written (log 79). -/
def writeParent (s : State) (e : Env) (va : Nat) : State :=
  match writeSegs s e.g.ctx ((va + 472) % 2 ^ 64) 8 with
  | none => s
  | some segs => setSegBytes (ioReach s 0 true segs) segs (leBytes 8 (e.t.grid % 2 ^ 12 + e.t.index % 2 ^ 32 * 2 ^ 12 + 2 ^ 63))

/-- R128 steps 3 and 4: the parent link is written, and the packet is accepted or refused with the status of Table 4-1. -/
def submitChild (s : State) (e : Env) (va : Nat) : State × Nat :=
  let s := touchVa (writeParent s e va) e.g.ctx va 512
  match checkLaunch s e.g.ctx ((readVa s e.g.ctx va 512).getD []) e.g.launch.sys false with
  | .error (st, _) => (s, st)
  | .ok l => match freeNumber s with
    | none => (s, 3)
    | some n =>
      let k := (teamNow s e).children
      ((acceptGrid s l e.g.ctx e.g.queue (e.g.depth + 1) (some (e.t.grid, e.t.index)) k n false).updTeam e.t.grid e.t.index fun t =>
        { t with children := k + 1 }, 0)

/-- R128. -/
def execSpawn (f : SBody) (s : State) : Result :=
  memWord s f.toBody { reads := regsOf f.a, writes := regsOf f.d, long := true }
    (fun e x => spawnCheck s e (readOp s e f.imm x f.a).toNat x) (fun _ _ => false)
    fun e s x _ =>
      let va := (readOp s e f.imm x f.a).toNat
      let s := acquireThread (releaseThread s e.t.grid e.t.index x.tid false) e.t.grid e.t.index x.tid e.t.core true
      let p := submitChild s e va
      (p.1, { th := threadNow p.1 e x, vals := [BitVec.ofNat 64 p.2] })

/-- R129: the wait has ended at the header. Every thread that executes the word reads the same count. -/
def execJoinc (f : SBody) (s : State) : Result :=
  memWord s f.toBody { writes := regsOf f.d } (fun _ _ => none) (fun _ _ => false)
    fun e s x _ =>
      let s := acquireThread s e.t.grid e.t.index x.tid e.t.core true
      let s := s.updTeam e.t.grid e.t.index fun t => { t with faulted := 0 }
      (s, { th := threadNow s e x, vals := [BitVec.ofNat 64 e.t.faulted] })

/-- Table 4-2. -/
def combine (comb : Nat) (a b : W64) : W64 :=
  match comb with
  | 0 => a ||| b
  | 1 => if a.toNat < b.toNat then b else a
  | 2 => if b.toNat < a.toNat then b else a
  | _ => if 2 ^ 64 ≤ a.toNat + b.toNat then BitVec.ofNat 64 (2 ^ 64 - 1) else a + b

/-- One contribution to a grid's result word (R130). -/
def postTo (g : Grid) (team tid : Nat) (v : W64) : Grid :=
  if g.launch.comb == 4 then
    if team == 0 && (g.post.isNone || g.postBy ≤ tid) then { g with post := some v, postBy := tid } else g
  else { g with post := some (combine g.launch.comb (resultWord g) v) }

/-- R130, R131. -/
def execPost (f : SBody) (s : State) : Result :=
  memWord s f.toBody { reads := regsOf f.a } (fun _ _ => none) (fun _ _ => false)
    fun e s x _ => (s.updGrid e.g.num fun g => postTo g e.t.index x.tid (readOp s e f.imm x f.a), { th := x })

end Sys2Proof.Machine
end

