-- ==== Sys2Proof/Machine/Sfu.lean ====
section
/-! DEFINITION. The special-function unit (R75, R185 to R187): the three algebraic functions exactly, the five transcendental
ones from integer enclosures of the exact value, refined until their 34-bit truncation is decided (log 13). -/

namespace Sys2Proof.Machine

/-! ## Algebraic functions -/

/-- Floor of the square root of n, deciding bits k-1 to 0. -/
def isqrtFrom (n : Nat) : Nat → Nat → Nat
  | 0, r => r
  | k + 1, r => isqrtFrom n k (if (r + 2 ^ k) * (r + 2 ^ k) ≤ n then r + 2 ^ k else r)

def isqrt (n : Nat) : Nat := isqrtFrom n (bitLen n / 2 + 1) 0

/-- 1 / (m × 2^e) for m > 0, below 2^-64 of a unit exact or sticky. -/
def rcpVal (neg : Bool) (m : Nat) (e : Int) : Val :=
  let k := max (bitLen m + 64) (64 - e).toNat
  .num neg (2 ^ k / m) (-(k : Int) - e) (2 ^ k % m != 0) false

/-- √(m × 2^e). -/
def sqrtVal (m : Nat) (e : Int) : Val :=
  let j := 64 + (-e).toNat
  let n := shiftNat m (e + 2 * j)
  let r := isqrt n
  .num false r (-(j : Int)) (r * r != n) false

/-- 1 / √(m × 2^e) for m > 0. -/
def rsqVal (m : Nat) (e : Int) : Val :=
  let j := 64 + e.toNat + bitLen m
  let t := 2 ^ (2 * (j : Int) - e).toNat
  let q := t / m
  let r := isqrt q
  .num false r (-(j : Int)) (r * r != q || t % m != 0) false

/-! ## Enclosures of a positive value, scaled by 2^p -/

/-- A lower and an upper bound, and the sign of the value. -/
structure Enc where
  lo : Nat := 0
  hi : Nat := 0
  neg : Bool := false
deriving DecidableEq, Repr

def ceilDiv (a b : Nat) : Nat := (a + b - 1) / b

/-- Significand and exponent of a number truncated to 34 significant bits (R75). -/
def trunc34 (n : Nat) : Nat × Nat := (n / 2 ^ (bitLen n - 34), bitLen n - 34)

/-- Double the precision until both bounds truncate alike. -/
def refine (enc : Nat → Enc) : Nat → Nat → Val
  | 0, p => let r := enc p
            let t := trunc34 r.lo
            .num r.neg t.1 ((t.2 : Int) - p) false true
  | fuel + 1, p =>
    let r := enc p
    let t := trunc34 r.lo
    if 34 ≤ bitLen r.lo && t == trunc34 r.hi then .num r.neg t.1 ((t.2 : Int) - p) false true
    else refine enc fuel (2 * p)

def decided (enc : Nat → Enc) : Val := refine enc 64 128

/-- Sum of floor(2^p / (k × 2^k)) for k = 1 to n: ln 2 from below by less than n + 1 units when n = p. -/
def ln2Sum (p : Nat) : Nat → Nat
  | 0 => 0
  | k + 1 => ln2Sum p k + 2 ^ p / ((k + 1) * 2 ^ (k + 1))

def ln2Enc (p : Nat) : Enc := { lo := ln2Sum p p, hi := ln2Sum p p + p + 1 }

/-- Lower sum of the exponential series from term k, which is t. -/
def expLow (p z : Nat) : Nat → Nat → Nat → Nat
  | 0, _, _ => 0
  | n + 1, k, t => t + expLow p z n (k + 1) (t * z / (2 ^ p * (k + 1)))

/-- Upper sum; the tail is below the last term. -/
def expHigh (p z : Nat) : Nat → Nat → Nat → Nat
  | 0, _, t => t + t
  | n + 1, k, t => t + expHigh p z n (k + 1) (t * z / (2 ^ p * (k + 1)) + 1)

/-- e^z for an enclosed z in [0, 1). -/
def expEnc (p : Nat) (z : Enc) : Enc :=
  { lo := expLow p z.lo (p / 2 + 8) 0 (2 ^ p), hi := expHigh p z.hi (p / 2 + 8) 0 (2 ^ p) }

/-- 2^f for f = m / 2^d in [0, 1). -/
def exp2Enc (m d p : Nat) : Enc :=
  let l := ln2Enc p
  expEnc p { lo := m * l.lo / 2 ^ d, hi := ceilDiv (m * l.hi) (2 ^ d) }

/-- Lower (or upper) sum of u^(2j+1)/(2j+1), u = num/den, with `pw` the current power. -/
def atanhSum (num den up : Nat) : Nat → Nat → Nat → Nat
  | 0, _, _ => 2 * up
  | n + 1, j, pw => (pw / (2 * j + 1) + up) + atanhSum num den up n (j + 1) (pw * num * num / (den * den) + up)

/-- log2 f for f = m / 2^(L-1) in [1, 2). -/
def log2Frac (m p : Nat) : Enc :=
  let top := 2 ^ (bitLen m - 1)
  let num := m - top
  let den := m + top
  let n := p / 3 + 4
  let lo := 2 * atanhSum num den 0 n 0 (2 ^ p * num / den)
  let hi := 2 * atanhSum num den 1 n 0 (ceilDiv (2 ^ p * num) den)
  let l := ln2Enc p
  { lo := lo * 2 ^ p / l.hi, hi := ceilDiv (hi * 2 ^ p) l.lo }

/-- |log2 x| for x = m × 2^e, not a power of two. -/
def log2Enc (m : Nat) (e : Int) (p : Nat) : Enc :=
  let k : Int := e + (bitLen m : Nat) - 1
  let f := log2Frac m p
  if 0 ≤ k then { lo := k.toNat * 2 ^ p + f.lo, hi := k.toNat * 2 ^ p + f.hi }
  else { lo := (-k).toNat * 2 ^ p - f.hi, hi := (-k).toNat * 2 ^ p - f.lo, neg := true }

/-- Square an enclosure k times. -/
def squareEnc (p : Nat) : Nat → Enc → Enc
  | 0, x => x
  | k + 1, x => squareEnc p k { lo := x.lo * x.lo / 2 ^ p, hi := ceilDiv (x.hi * x.hi) (2 ^ p) }

/-- tanh x for 2^-20 ≤ x < 32: (E - 1)/(E + 1) with E = e^(2x), from e^(2x/128). -/
def tanhEnc (m : Nat) (e : Int) (p : Nat) : Enc :=
  let z := shiftNat m (e + p - 6)
  let x := squareEnc p 7 (expEnc p { lo := z, hi := z + 1 })
  let one := 2 ^ p
  { lo := (x.lo - one) * one / (x.lo + one), hi := ceilDiv ((x.hi - one) * one) (x.hi + one) }

/-- Sum of (-1)^j floor(2^p / ((2j+1) k^(2j+1))), n terms from j. -/
def atanSum (k : Nat) : Nat → Nat → Nat → Int
  | 0, _, _ => 0
  | n + 1, j, pw => (if j % 2 == 0 then (pw / (2 * j + 1) : Nat) else -(pw / (2 * j + 1) : Nat) : Int) +
      atanSum k n (j + 1) (pw / (k * k))

/-- π/2 = 8 atan(1/5) - 2 atan(1/239); each sum is off by fewer than 3n units. -/
def halfPi (p : Nat) : Enc :=
  let n := p / 4 + 4
  let v := (8 * atanSum 5 n 0 (2 ^ p / 5) - 2 * atanSum 239 n 0 (2 ^ p / 239)).toNat
  { lo := v - 30 * n, hi := v + 30 * n }

/-- Sums of the terms of r^k/k! of index k, k+4, …: `up` is 0 for a lower and 1 for an upper sum. -/
def trigSum (p r up : Nat) : Nat → Nat → Nat → Nat
  | 0, _, t => if up == 0 then 0 else t + t
  | n + 1, k, t =>
    let next (t j : Nat) : Nat := t * r / (2 ^ p * j) + up
    t + trigSum p r up n (k + 4) (next (next (next (next t (k + 1)) (k + 2)) (k + 3)) (k + 4))

/-- cos r (start 0) or sin r (start 1) for an enclosed r in [0, 1.6). -/
def trigEnc (p start : Nat) (r : Enc) : Enc :=
  let n := p / 8 + 6
  let term (x up k : Nat) : Nat := (List.range k).foldl (fun t j => t * x / (2 ^ p * (j + 1)) + up) (2 ^ p)
  let pos (x up : Nat) := trigSum p x up n start (term x up start)
  let neg (x up : Nat) := trigSum p x up n (start + 2) (term x up (start + 2))
  { lo := pos r.lo 0 - neg r.hi 1, hi := pos r.hi 1 - neg r.lo 0 }

/-- sin x (`isCos` false) or cos x for 0 < x ≤ 65,536. -/
def sincosEnc (isCos : Bool) (m : Nat) (e : Int) (p : Nat) : Enc :=
  let x := shiftNat m (e + p)
  let h := halfPi p
  let q := x / h.hi
  if (x + 1) / h.lo != q then { lo := 0, hi := 2 ^ p }
  else
    let r : Enc := { lo := x - q * h.hi, hi := x + 1 - q * h.lo }
    let i := (q + (if isCos then 1 else 0)) % 4
    { trigEnc p (if i % 2 == 0 then 1 else 0) r with neg := 2 ≤ i }

/-- The greatest 34-bit number strictly below m × 2^e: the truncation of a value just under it. -/
def justBelow (neg : Bool) (m : Nat) (e : Int) : Val :=
  let t := trunc34 (m * 2 ^ 64 - 1)
  .num neg t.1 ((t.2 : Int) + e - 64) false true

/-! ## The functions with the special inputs of Table 6-3 -/

/-- The exponent of the leading bit of m × 2^e. -/
def topOf (m : Nat) (e : Int) : Int := (bitLen m : Nat) + e - 1

/-- Whether m is a power of two. -/
def isPow2 (m : Nat) : Bool := m == 2 ^ (bitLen m - 1)

def sfuRcp : Val → Val × Efl
  | .nan q => (.nan q, 0)
  | .inf s => (.zero s, 0)
  | .num s m e _ _ => if m == 0 then (.inf s, fDZ) else (rcpVal s m e, 0)

def sfuRsq : Val → Val × Efl
  | .nan q => (.nan q, 0)
  | .inf s => if s then (.nan true, fNV) else (.zero false, 0)
  | .num s m e _ _ => if m == 0 then (.inf s, fDZ) else if s then (.nan true, fNV) else (rsqVal m e, 0)

def sfuSqrt : Val → Val × Efl
  | .nan q => (.nan q, 0)
  | .inf s => if s then (.nan true, fNV) else (.inf false, 0)
  | .num s m e _ _ => if m == 0 then (.zero s, 0) else if s then (.nan true, fNV) else (sqrtVal m e, 0)

/-- 2^(±m × 2^e): results beyond 2^±8192 overflow, clamp, wrap or are tiny alike in every slot, so the exponent stops there; they are
exact for an integer argument (Table 6-3). -/
def exp2Val (s : Bool) (m : Nat) (e : Int) : Val :=
  if 14 ≤ topOf m e then .num false 1 (if s then -8192 else 8192) false (e < 0 && m % 2 ^ (-e).toNat != 0)
  else if 0 ≤ e then .exact false 1 (if s then -(m * 2 ^ e.toNat : Nat) else (m * 2 ^ e.toNat : Nat))
  else
    let d := (-e).toNat
    let x : Int := if s then -m else m
    let n := x / (2 ^ d : Nat)
    let f := (x % (2 ^ d : Nat)).toNat
    if f == 0 then .exact false 1 n
    else match decided (exp2Enc f d) with
      | .num g a b st ix => .num g a (b + n) st ix
      | v => v

def sfuExp2 : Val → Val × Efl
  | .nan q => (.nan q, 0)
  | .inf s => (if s then .zero false else .inf false, 0)
  | .num s m e _ _ => (if m == 0 then .exact false 1 0 else exp2Val s m e, 0)

def sfuLog2 : Val → Val × Efl
  | .nan q => (.nan q, 0)
  | .inf s => if s then (.nan true, fNV) else (.inf false, 0)
  | .num s m e _ _ =>
    if m == 0 then (.inf true, fDZ)
    else if s then (.nan true, fNV)
    else if isPow2 m then (.ofInt (topOf m e) 0, 0)
    else (decided (log2Enc m e), 0)

/-- R187: arguments beyond 65,536 have no value. -/
def beyondTrig (m : Nat) (e : Int) : Bool := magLt 65536 0 m e

def sfuSin : Val → Val × Efl
  | .nan q => (.nan q, 0)
  | .inf _ => (.nan true, fNV)
  | .num s m e _ _ =>
    if m == 0 then (.zero s, 0)
    else if beyondTrig m e then (.nan true, fNV)
    else if topOf m e < -20 then (justBelow s m e, 0)
    else (match decided (sincosEnc false m e) with
      | .num g a b st ix => .num (g != s) a b st ix
      | v => v, 0)

def sfuCos : Val → Val × Efl
  | .nan q => (.nan q, 0)
  | .inf _ => (.nan true, fNV)
  | .num _ m e _ _ =>
    if m == 0 then (.exact false 1 0, 0)
    else if beyondTrig m e then (.nan true, fNV)
    else if topOf m e < -20 then (justBelow false 1 0, 0)
    else (decided (sincosEnc true m e), 0)

def sfuTanh : Val → Val × Efl
  | .nan q => (.nan q, 0)
  | .inf s => (.exact s 1 0, 0)
  | .num s m e _ _ =>
    if m == 0 then (.zero s, 0)
    else if topOf m e < -20 then (justBelow s m e, 0)
    else if 5 ≤ topOf m e then (justBelow s 1 0, 0)
    else ((decided (tanhEnc m e)).withSign s, 0)

/-- R75: NX where a finite fn(x) is not what the slot delivers for a reason that R51 and R55 do not flag: it lies outside an integer
slot, or is negative and the slot is unsigned. -/
def replacedNx (f : Fmt) : Val → Efl
  | .num s m e _ _ =>
    if f.int then flagIf (if f.sgn then magLt (2 ^ (f.width - 1) - if s then 0 else 1) 0 m e else (s && m != 0) || magLt (2 ^ f.width - 1) 0 m e) fNX
    else flagIf (!f.sgn && s && m != 0) fNX
  | _ => 0

/-- R173: the cc for which a word of t executing threads occupies its quadrant's unit, 8 elements per cc. Of two slots of different
element counts the smaller count is what the unit computes (log 85). -/
def sfuTime (e : Env) (f : VBody) : Nat :=
  ((e.exec f.grd).length * min (Fmt.of (e.slot f.fs.toNat)).elems (Fmt.of (e.slot f.fs2.toNat)).elems + 7) / 8

/-- A special-function word: it stalls while the unit is occupied (R173, R185). -/
def sfuWord (s : State) (f : VBody) (fn : Val → Val × Efl) : Result :=
  match s.env? with
  | none => .refused (.notEnabled "issue")
  | some e =>
    let q := quadId e.b.core e.b.quad
    if s.cc < s.sfuUntil.get 0 q then .next (stallWord s)
    else match cvtWord s f true fun fd v => let y := fn v
                                        (y.1, y.2 ||| replacedNx fd y.1) with
      | .next t => .next (if (t.bundle? e.b.id).any (·.idx != e.b.idx) then { t with sfuUntil := t.sfuUntil.set 0 q (s.cc + sfuTime e f) } else t)
      | r => r

def execRcp (f : VBody) (s : State) : Result := sfuWord s f sfuRcp
def execRsq (f : VBody) (s : State) : Result := sfuWord s f sfuRsq
def execSqrt (f : VBody) (s : State) : Result := sfuWord s f sfuSqrt
def execExp2 (f : VBody) (s : State) : Result := sfuWord s f sfuExp2
def execLog2 (f : VBody) (s : State) : Result := sfuWord s f sfuLog2
def execSin (f : VBody) (s : State) : Result := sfuWord s f sfuSin
def execCos (f : VBody) (s : State) : Result := sfuWord s f sfuCos
def execTanh (f : VBody) (s : State) : Result := sfuWord s f sfuTanh

end Sys2Proof.Machine
end

