-- ==== Sys2Proof/Machine/Dispatch.lean ====
section
/-! DEFINITION. The dispatch: one arm per constructor of `Instr`. -/

namespace Sys2Proof.Machine

def exec (i : Instr) (s : State) : Host.Outcome State Fault Refusal :=
  match i with
  | .nop x => Sys2Proof.Machine.execNop x s
  | .meet x => Sys2Proof.Machine.execMeet x s
  | .meetx x => Sys2Proof.Machine.execMeetx x s
  | .loop x => Sys2Proof.Machine.execLoop x s
  | .lbrk x => Sys2Proof.Machine.execLbrk x s
  | .yield x => Sys2Proof.Machine.execYield x s
  | .nap x => Sys2Proof.Machine.execNap x s
  | .trap x => Sys2Proof.Machine.execTrap x s
  | .spawn x => Sys2Proof.Machine.execSpawn x s
  | .joinc x => Sys2Proof.Machine.execJoinc x s
  | .post x => Sys2Proof.Machine.execPost x s
  | .sysrd x => Sys2Proof.Machine.execSysrd x s
  | .syswr x => Sys2Proof.Machine.execSyswr x s
  | .snap x => Sys2Proof.Machine.execSnap x s
  | .seed x => Sys2Proof.Machine.execSeed x s
  | .flagrd x => Sys2Proof.Machine.execFlagrd x s
  | .flagclr x => Sys2Proof.Machine.execFlagclr x s
  | .wfmt x => Sys2Proof.Machine.execWfmt x s
  | .rfmt x => Sys2Proof.Machine.execRfmt x s
  | .segrd x => Sys2Proof.Machine.execSegrd x s
  | .iadd x => Sys2Proof.Machine.execIadd x s
  | .isub x => Sys2Proof.Machine.execIsub x s
  | .imul x => Sys2Proof.Machine.execImul x s
  | .imulh x => Sys2Proof.Machine.execImulh x s
  | .imad x => Sys2Proof.Machine.execImad x s
  | .iabs x => Sys2Proof.Machine.execIabs x s
  | .ineg x => Sys2Proof.Machine.execIneg x s
  | .imin x => Sys2Proof.Machine.execImin x s
  | .imax x => Sys2Proof.Machine.execImax x s
  | .iaddw x => Sys2Proof.Machine.execIaddw x s
  | .isubw x => Sys2Proof.Machine.execIsubw x s
  | .shl x => Sys2Proof.Machine.execShl x s
  | .shr x => Sys2Proof.Machine.execShr x s
  | .sar x => Sys2Proof.Machine.execSar x s
  | .rot x => Sys2Proof.Machine.execRot x s
  | .fshf x => Sys2Proof.Machine.execFshf x s
  | .and x => Sys2Proof.Machine.execAnd x s
  | .or x => Sys2Proof.Machine.execOr x s
  | .xor x => Sys2Proof.Machine.execXor x s
  | .andn x => Sys2Proof.Machine.execAndn x s
  | .lop3 x => Sys2Proof.Machine.execLop3 x s
  | .popc x => Sys2Proof.Machine.execPopc x s
  | .clz x => Sys2Proof.Machine.execClz x s
  | .ctz x => Sys2Proof.Machine.execCtz x s
  | .brev x => Sys2Proof.Machine.execBrev x s
  | .bfx x => Sys2Proof.Machine.execBfx x s
  | .bfi x => Sys2Proof.Machine.execBfi x s
  | .mov x => Sys2Proof.Machine.execMov x s
  | .movi x => Sys2Proof.Machine.execMovi x s
  | .movh x => Sys2Proof.Machine.execMovh x s
  | .sel x => Sys2Proof.Machine.execSel x s
  | .icmp x => Sys2Proof.Machine.execIcmp x s
  | .ppop x => Sys2Proof.Machine.execPpop x s
  | .pdup x => Sys2Proof.Machine.execPdup x s
  | .pnot x => Sys2Proof.Machine.execPnot x s
  | .pand x => Sys2Proof.Machine.execPand x s
  | .por x => Sys2Proof.Machine.execPor x s
  | .pxor x => Sys2Proof.Machine.execPxor x s
  | .pswap x => Sys2Proof.Machine.execPswap x s
  | .pset x => Sys2Proof.Machine.execPset x s
  | .ptov x => Sys2Proof.Machine.execPtov x s
  | .vtop x => Sys2Proof.Machine.execVtop x s
  | .shfl x => Sys2Proof.Machine.execShfl x s
  | .bcast x => Sys2Proof.Machine.execBcast x s
  | .vote x => Sys2Proof.Machine.execVote x s
  | .wred x => Sys2Proof.Machine.execWred x s
  | .eadd x => Sys2Proof.Machine.execEadd x s
  | .esub x => Sys2Proof.Machine.execEsub x s
  | .emul x => Sys2Proof.Machine.execEmul x s
  | .efma x => Sys2Proof.Machine.execEfma x s
  | .emulz x => Sys2Proof.Machine.execEmulz x s
  | .efmaz x => Sys2Proof.Machine.execEfmaz x s
  | .emin x => Sys2Proof.Machine.execEmin x s
  | .emax x => Sys2Proof.Machine.execEmax x s
  | .eabs x => Sys2Proof.Machine.execEabs x s
  | .eneg x => Sys2Proof.Machine.execEneg x s
  | .ecpys x => Sys2Proof.Machine.execEcpys x s
  | .eclass x => Sys2Proof.Machine.execEclass x s
  | .escale x => Sys2Proof.Machine.execEscale x s
  | .eround x => Sys2Proof.Machine.execEround x s
  | .ecmp x => Sys2Proof.Machine.execEcmp x s
  | .ecmpm x => Sys2Proof.Machine.execEcmpm x s
  | .eblend x => Sys2Proof.Machine.execEblend x s
  | .ecvt x => Sys2Proof.Machine.execEcvt x s
  | .edot x => Sys2Proof.Machine.execEdot x s
  | .esumw x => Sys2Proof.Machine.execEsumw x s
  | .rcp x => Sys2Proof.Machine.execRcp x s
  | .rsq x => Sys2Proof.Machine.execRsq x s
  | .sqrt x => Sys2Proof.Machine.execSqrt x s
  | .exp2 x => Sys2Proof.Machine.execExp2 x s
  | .log2 x => Sys2Proof.Machine.execLog2 x s
  | .sin x => Sys2Proof.Machine.execSin x s
  | .cos x => Sys2Proof.Machine.execCos x s
  | .tanh x => Sys2Proof.Machine.execTanh x s
  | .sld x => Sys2Proof.Machine.execSld x s
  | .sst x => Sys2Proof.Machine.execSst x s
  | .sldw x => Sys2Proof.Machine.execSldw x s
  | .sstw x => Sys2Proof.Machine.execSstw x s
  | .sldp x => Sys2Proof.Machine.execSldp x s
  | .sstp x => Sys2Proof.Machine.execSstp x s
  | .cld x => Sys2Proof.Machine.execCld x s
  | .cst x => Sys2Proof.Machine.execCst x s
  | .catom x => Sys2Proof.Machine.execCatom x s
  | .qld x => Sys2Proof.Machine.execQld x s
  | .qldp x => Sys2Proof.Machine.execQldp x s
  | .qst x => Sys2Proof.Machine.execQst x s
  | .qstp x => Sys2Proof.Machine.execQstp x s
  | .qpop x => Sys2Proof.Machine.execQpop x s
  | .qcfg x => Sys2Proof.Machine.execQcfg x s
  | .push x => Sys2Proof.Machine.execPush x s
  | .pop x => Sys2Proof.Machine.execPop x s
  | .qtry x => Sys2Proof.Machine.execQtry x s
  | .qallow x => Sys2Proof.Machine.execQallow x s
  | .wellinit x => Sys2Proof.Machine.execWellinit x s
  | .arrive x => Sys2Proof.Machine.execArrive x s
  | .waitg x => Sys2Proof.Machine.execWaitg x s
  | .atom x => Sys2Proof.Machine.execAtom x s
  | .red x => Sys2Proof.Machine.execRed x s
  | .dred x => Sys2Proof.Machine.execDred x s
  | .satom x => Sys2Proof.Machine.execSatom x s
  | .fence x => Sys2Proof.Machine.execFence x s
  | .fenceX x => Sys2Proof.Machine.execFenceX x s
  | .clock x => Sys2Proof.Machine.execClock x s
  | .cunlock x => Sys2Proof.Machine.execCunlock x s
  | .pref x => Sys2Proof.Machine.execPref x s
  | .mma x => Sys2Proof.Machine.execMma x s
  | .mmas x => Sys2Proof.Machine.execMmas x s
  | .tld x => Sys2Proof.Machine.execTld x s
  | .tst x => Sys2Proof.Machine.execTst x s
  | .tzero x => Sys2Proof.Machine.execTzero x s
  | .accalloc x => Sys2Proof.Machine.execAccalloc x s
  | .accfree x => Sys2Proof.Machine.execAccfree x s
  | .acczero x => Sys2Proof.Machine.execAcczero x s
  | .accalign x => Sys2Proof.Machine.execAccalign x s
  | .accrd x => Sys2Proof.Machine.execAccrd x s
  | .accwr x => Sys2Proof.Machine.execAccwr x s
  | .accld x => Sys2Proof.Machine.execAccld x s
  | .accst x => Sys2Proof.Machine.execAccst x s
  | .pwset x => Sys2Proof.Machine.execPwset x s
  | .gang x => Sys2Proof.Machine.execGang x s
  | .xcmdSgo x => Sys2Proof.Machine.execXcmdSgo x s
  | .xcmdSstat x => Sys2Proof.Machine.execXcmdSstat x s
  | .xcmdSsusp x => Sys2Proof.Machine.execXcmdSsusp x s
  | .xcmdSres x => Sys2Proof.Machine.execXcmdSres x s
  | .xcmdSabort x => Sys2Proof.Machine.execXcmdSabort x s
  | .xcmdScreg x => Sys2Proof.Machine.execXcmdScreg x s
  | .xcmdScunreg x => Sys2Proof.Machine.execXcmdScunreg x s
  | .xcmdScdesc x => Sys2Proof.Machine.execXcmdScdesc x s
  | .xcmdScpref x => Sys2Proof.Machine.execXcmdScpref x s
  | .xcmdRparam x => Sys2Proof.Machine.execXcmdRparam x s
  | .xcmdRstat x => Sys2Proof.Machine.execXcmdRstat x s
  | .xcmdRhalt x => Sys2Proof.Machine.execXcmdRhalt x s
  | .xcmdRrate x => Sys2Proof.Machine.execXcmdRrate x s
  | .xcmdFmcast x => Sys2Proof.Machine.execXcmdFmcast x s
  | .xcmdFwarr x => Sys2Proof.Machine.execXcmdFwarr x s
  | .xcmdFmwarr x => Sys2Proof.Machine.execXcmdFmwarr x s
  | .xcmdMrel x => Sys2Proof.Machine.execXcmdMrel x s
  | .xcmdMsweep x => Sys2Proof.Machine.execXcmdMsweep x s
  | .xcmdMquota x => Sys2Proof.Machine.execXcmdMquota x s
  | .xcmdMquotard x => Sys2Proof.Machine.execXcmdMquotard x s
  | .xcmdYseed x => Sys2Proof.Machine.execXcmdYseed x s
  | .xcmdYsnap x => Sys2Proof.Machine.execXcmdYsnap x s
  | .xcmdYmigr x => Sys2Proof.Machine.execXcmdYmigr x s
  | .hintWord x0 x1 => Sys2Proof.Machine.execHintWord x0 x1 s
  | .fall x => Sys2Proof.Machine.execFall x s
  | .jmp x => Sys2Proof.Machine.execJmp x s
  | .brp x => Sys2Proof.Machine.execBrp x s
  | .brx x => Sys2Proof.Machine.execBrx x s
  | .call x => Sys2Proof.Machine.execCall x s
  | .ret x => Sys2Proof.Machine.execRet x s
  | .exit x => Sys2Proof.Machine.execExit x s
  | .endl x => Sys2Proof.Machine.execEndl x s
  | .clauseDecode x => Sys2Proof.Machine.execClauseDecode x s
  | .bundleFormation x0 x1 => Sys2Proof.Machine.execBundleFormation x0 x1 s
  | .overdue x => Sys2Proof.Machine.execOverdue x s
  | .flagCompletion x => Sys2Proof.Machine.execFlagCompletion x s
  | .napEnd x0 x1 x2 => Sys2Proof.Machine.execNapEnd x0 x1 x2 s
  | .meetingRelease x0 x1 x2 => Sys2Proof.Machine.execMeetingRelease x0 x1 x2 s
  | .rendezvousRelease x0 x1 x2 => Sys2Proof.Machine.execRendezvousRelease x0 x1 x2 s
  | .instanceRun x => Sys2Proof.Machine.execInstanceRun x s
  | .epochBoundary => Sys2Proof.Machine.execEpochBoundary s
  | .teamHeld x0 x1 => Sys2Proof.Machine.execTeamHeld x0 x1 s
  | .faultRecordWrite => Sys2Proof.Machine.execFaultRecordWrite s
  | .teamResourceRelease x0 x1 => Sys2Proof.Machine.execTeamResourceRelease x0 x1 s
  | .teamRetirement x0 x1 => Sys2Proof.Machine.execTeamRetirement x0 x1 s
  | .gridRetirement x => Sys2Proof.Machine.execGridRetirement x s
  | .liveGridNumberFree x => Sys2Proof.Machine.execLiveGridNumberFree x s
  | .sqdb x0 x1 => Sys2Proof.Machine.execSqdb x0 x1 s
  | .sqctlWrite x0 x1 => Sys2Proof.Machine.execSqctlWrite x0 x1 s
  | .packetServe => Sys2Proof.Machine.execPacketServe s
  | .launchPacket x => Sys2Proof.Machine.execLaunchPacket x s
  | .graphPacket x => Sys2Proof.Machine.execGraphPacket x s
  | .graphNodeAdvance x => Sys2Proof.Machine.execGraphNodeAdvance x s
  | .teamPlacement => Sys2Proof.Machine.execTeamPlacement s
  | .placementWaitLimit => Sys2Proof.Machine.execPlacementWaitLimit s
  | .preemption x0 x1 => Sys2Proof.Machine.execPreemption x0 x1 s
  | .preemptionSave x0 x1 => Sys2Proof.Machine.execPreemptionSave x0 x1 s
  | .preemptionLimit x0 x1 => Sys2Proof.Machine.execPreemptionLimit x0 x1 s
  | .resumption x0 x1 => Sys2Proof.Machine.execResumption x0 x1 s
  | .resume x0 x1 => Sys2Proof.Machine.execResume x0 x1 s
  | .endGrid x0 x1 => Sys2Proof.Machine.execEndGrid x0 x1 s
  | .save x0 x1 => Sys2Proof.Machine.execSave x0 x1 s
  | .frhead x => Sys2Proof.Machine.execFrhead x s
  | .invctlGo x => Sys2Proof.Machine.execInvctlGo x s
  | .invalidationComplete => Sys2Proof.Machine.execInvalidationComplete s
  | .contextEn x0 x1 => Sys2Proof.Machine.execContextEn x0 x1 s
  | .migctlGo => Sys2Proof.Machine.execMigctlGo s
  | .snapctlArm => Sys2Proof.Machine.execSnapctlArm s
  | .snapctlTrig => Sys2Proof.Machine.execSnapctlTrig s
  | .devctlRst => Sys2Proof.Machine.execDevctlRst s
  | .registerWrite x0 x1 => Sys2Proof.Machine.execRegisterWrite x0 x1 s
  | .stageFirmware x => Sys2Proof.Machine.execStageFirmware x s
  | .powerCheck x0 x1 x2 => Sys2Proof.Machine.execPowerCheck x0 x1 x2 s
  | .thermalTrip x0 x1 x2 => Sys2Proof.Machine.execThermalTrip x0 x1 x2 s
  | .unitFence x0 x1 => Sys2Proof.Machine.execUnitFence x0 x1 s
  | .l2Access x => Sys2Proof.Machine.execL2Access x s
  | .rehome x => Sys2Proof.Machine.execRehome x s
  | .rehomeRetry x => Sys2Proof.Machine.execRehomeRetry x s
  | .atomicAtHome x => Sys2Proof.Machine.execAtomicAtHome x s
  | .redApplication x => Sys2Proof.Machine.execRedApplication x s
  | .pressContribution x => Sys2Proof.Machine.execPressContribution x s
  | .wellArrival x => Sys2Proof.Machine.execWellArrival x s
  | .scribeArrival x0 x1 => Sys2Proof.Machine.execScribeArrival x0 x1 s
  | .scribeEarlyEnd x0 x1 => Sys2Proof.Machine.execScribeEarlyEnd x0 x1 s
  | .scribeContinue x0 x1 => Sys2Proof.Machine.execScribeContinue x0 x1 s
  | .accessClause x0 x1 x2 => Sys2Proof.Machine.execAccessClause x0 x1 x2 s
  | .packetInjection x => Sys2Proof.Machine.execPacketInjection x s
  | .flitArrival x0 x1 x2 => Sys2Proof.Machine.execFlitArrival x0 x1 x2 s
  | .acknowledgement x => Sys2Proof.Machine.execAcknowledgement x s
  | .hoopTimeout x => Sys2Proof.Machine.execHoopTimeout x s
  | .fabricPressureUpdate => Sys2Proof.Machine.execFabricPressureUpdate s
  | .linkRetry x => Sys2Proof.Machine.execLinkRetry x s
  | .linkRetrain x => Sys2Proof.Machine.execLinkRetrain x s
  | .linkTraining x0 x1 => Sys2Proof.Machine.execLinkTraining x0 x1 s
  | .hostWindowRequest x0 x1 => Sys2Proof.Machine.execHostWindowRequest x0 x1 s
  | .peerWindowRequest x0 x1 => Sys2Proof.Machine.execPeerWindowRequest x0 x1 s
  | .migrationRound x => Sys2Proof.Machine.execMigrationRound x s
  | .migrationFrameReceive x0 x1 => Sys2Proof.Machine.execMigrationFrameReceive x0 x1 s
  | .migrationTransportFailure x => Sys2Proof.Machine.execMigrationTransportFailure x s
  | .softError x0 x1 => Sys2Proof.Machine.execSoftError x0 x1 s
  | .xcmdUnassignedCode x0 x1 => Sys2Proof.Machine.execXcmdUnassignedCode x0 x1 s
  | .supplyLoss => Sys2Proof.Machine.execSupplyLoss s
  | .attest => Sys2Proof.Machine.execAttest s
  | .loadKeySlot => Sys2Proof.Machine.execLoadKeySlot s
  | .identityCertificate => Sys2Proof.Machine.execIdentityCertificate s
  | .clearFenceRecord => Sys2Proof.Machine.execClearFenceRecord s
  | .fullReset => Sys2Proof.Machine.execFullReset s
  | .d3hotEntry => Sys2Proof.Machine.execD3hotEntry s

end Sys2Proof.Machine
end

