-- ==== Sys2Proof/Machine/Clock.lean ====
section
/-! DEFINITION. The passing of time: a fabric clock, and a cc of the cores with what bundles missed in the one before (R361 to R363). -/

namespace Sys2Proof.Machine

/-- R361: whether a bundle that has not been tried in this cc waits on R16, R206 or R364: its next word would stall. -/
def wouldStall (s : State) (b : Bundle) : Bool :=
  match nextInstr s b with
  | .error _ => false
  | .ok i => match exec i (issueState s b.core b.quad b) with
    | .next t => ((t.bundle? b.id).map (·.stalled)).getD false
    | _ => false

/-- The same of a bundle whose clause has yet to be decoded: its first word counts, once its header raises nothing. A bundle that none of
its threads can begin with waits too. -/
def waitsNow (s : State) (b : Bundle) : Bool :=
  if b.decoded then wouldStall s b
  else match s.envOf b with
    | none => false
    | some e =>
      let p := splitFormats s e
      p.2.b.members.isEmpty ||
        (let t := decodeClause p.1 p.2
         ((t.bundle? b.id).filter (·.decoded)).any (wouldStall t))

/-- R361, R363: a new cc. A bundle that was ready in the cc that ends and did not issue missed one opportunity; one that waited was not
ready, and becomes so in the next cc at the earliest (log 27). -/
def newCc (s : State) : State :=
  { s with
    cc := s.cc + 1
    quadIssued := []
    bundles := s.bundles.map fun b =>
      if b.stalled then { b with stalled := false, since := s.cc + 1 }
      else if b.issuedAt == s.cc + 1 then b
      else if waitsNow s b then { b with since := s.cc + 1 }
      else { b with missed := b.missed + 1 } }

/-- R429: nodes that held a flit ready to inject in this fc and injected none. -/
def closeFc (s : State) : State :=
  { s with waits := (s.waited.filter fun x => !s.injected.contains x).foldl (fun m x =>
      m.set [] x (s.fc :: (m.get [] x).filter fun c => s.fc < c + 64)) s.waits }

/-- One fabric clock passes; the core clock follows at its own rate (R470), and a new cc opens every quadrant (R361). -/
def fabricClock (s : State) : State :=
  let acc := s.clkAcc + s.mhz
  let s := closeFc s
  let s := { s with fc := s.fc + 1, free := s.free + 1, routed := [], waited := [], injected := [] }
  if 2400 ≤ acc then { newCc s with clkAcc := acc - 2400 } else { s with clkAcc := acc }

/-- Time stands still in D3hot and without supply (R467). -/
def tick (s : State) : State := if s.mgmt.d3hot then { s with free := s.free + 1 } else fabricClock s

end Sys2Proof.Machine
end

