-- ==== Sys2Proof/Machine/Policy.lean ====
section
/-! DEFINITION. What the part does next when nothing is asked of it (log 1): the first enabled event of a fixed order, else an issue,
else the passing of a fabric clock. -/

namespace Sys2Proof.Machine

/-- Instructions of the table that are words or terminals, and so execute only through an issue. -/
def isWord (i : Instr) : Bool := (encode i).isSome

/-! ## Issue -/

/-- Issue one word or terminal of a quadrant's chosen bundle (R361): one in each cc, from a clause that has been decoded. -/
def issueStep (core quad : Nat) (s : State) : Event :=
  if s.quadIssued.contains (quadId core quad) then .refused (.notEnabled "issue")
  else match chooseBundle s core quad with
    | none => .refused (.notEnabled "issue")
    | some b =>
      if !b.decoded then .refused (.notEnabled "issue")
      else match nextInstr s b with
        | .error _ => .fault .undecodedWord
        | .ok i => exec i (issueState s core quad b)

/-! ## Time -/

/-- Nodes that may have routers to serve. -/
def activeNodes (s : State) : List Nat := (s.flits.map (·.at') ++ s.packets.map (·.src)).eraseDups

/-- Routers that have flits or a local injection in this fc and have not been served (R424). -/
def unrouted (s : State) : List (Nat × Bool) :=
  (activeNodes s).flatMap fun x => [false, true].filterMap fun r =>
    if routerBusy s x r && !s.routed.contains (routerId x r) then some (x, r) else none

/-! ## The order of internal events -/

def teamIds (s : State) : List (Nat × Nat) := s.teams.map fun t => (t.grid, t.index)
def activeCores (s : State) : List Nat := (s.teams.map (·.core)).eraseDups
def quads (s : State) : List (Nat × Nat) := (activeCores s).flatMap fun c => (List.range 4).map fun q => (c, q)

/-- A well arrival waits while a thread of the team is within a clause, at most to a multiple of 4,096 fc, so that threads that wait on the
well go on together (log 1). -/
def wellQuiet (s : State) (p : Packet) : Bool :=
  s.fc % 4096 == 0 || p.dests.all fun d => (s.team? p.grid d.2).all fun t =>
    !(s.bundles.any fun b => b.grid == t.grid && b.team == t.index) && t.threads.all fun x => x.notBefore ≤ s.cc

/-- An acknowledgement or a well arrival begins in a fc in which its node injects no data and has nothing else to do on the request
mesh, so that it does not wait there, or at a multiple of 4,096 fc (log 1). -/
def beginQuiet (s : State) (p : Packet) : Bool :=
  s.fc % 4096 == 0 || !(p.kind == 3 || p.kind == 7) ||
    ((injecting s p.src true).isEmpty && !routerBusy s p.src false && !s.routed.contains (routerId p.src false))

def fabricEvents (s : State) : List Instr :=
  s.packets.flatMap (fun p => [.acknowledgement p.id] ++ (if wellQuiet s p then [.wellArrival p.id] else []) ++
    (if beginQuiet s p then [.packetInjection p.id] else [])) ++
  (unrouted s).map (fun p => .flitArrival (p.1 / 192) p.2 (p.1 % 192)) ++ s.hoops.map (fun h => .hoopTimeout h.id)

def memoryEvents (s : State) : List Instr :=
  s.reqs.flatMap fun r => [.packetInjection r.id, .atomicAtHome r.id, .redApplication r.id, .pressContribution r.id, .rehome r.id, .rehomeRetry r.id, .l2Access r.id]

/-- The mailbox command that runs (R469). -/
def mailboxEvents (s : State) : List Instr :=
  match runningCommand s.mgmt with
  | some (1, _) => [.attest]
  | some (2, n) => [.stageFirmware (BitVec.ofNat 16 n)]
  | some (3, _) => [.loadKeySlot]
  | some (4, _) => [.identityCertificate]
  | some (5, _) => [.clearFenceRecord]
  | _ => []

def engineEvents (s : State) : List Instr :=
  s.scribes.flatMap (fun c => [.scribeArrival c.die c.ch, .scribeEarlyEnd c.die c.ch]) ++
  s.scribeWait.map (fun c => .scribeContinue c.die c.ch) ++ s.failing.map (fun p => .unitFence p.1 p.2) ++ [.invalidationComplete] ++ mailboxEvents s

/-- The operations that one word started in the threads of a warp complete together once all of them may, or at a multiple of 4,096 fc, so
that threads that wait for one flag stay in one bundle (log 1). -/
def opWord (o : Op) : Nat × Nat × Nat × Nat := (o.grid, o.team, o.tid / 32, o.src)

def opsReady (s : State) : List Op :=
  if s.fc % 4096 == 0 then s.ops
  else
    let late := ((s.ops.filter fun o => !mayComplete s o).map opWord).eraseDups
    s.ops.filter fun o => !late.contains (opWord o)

def coreEvents (s : State) : List Instr :=
  (s.teams.flatMap fun t => t.insts.map fun i => .instanceRun i.id) ++ (opsReady s).map (fun o => .flagCompletion o.id) ++
  (s.teams.flatMap fun t => (t.threads.filter fun x => x.nap.isSome).map fun x => .napEnd t.grid t.index x.tid) ++
  (s.teams.flatMap fun t => t.meetings.map fun m => .meetingRelease t.grid t.index m.id) ++
  (s.teams.flatMap fun t => ((t.threads.filter fun x => x.place == .boundary).map (·.pc)).eraseDups.map fun a => .rendezvousRelease t.grid t.index a) ++
  s.bundles.map (fun b => .overdue b.id)

def teamEvents (s : State) : List Instr :=
  (teamIds s).flatMap (fun p => [.teamHeld p.1 p.2, .teamResourceRelease p.1 p.2, .teamRetirement p.1 p.2, .preemptionSave p.1 p.2,
    .preemptionLimit p.1 p.2, .resumption p.1 p.2, .preemption p.1 p.2]) ++
  s.grids.flatMap (fun g => [.gridRetirement g.num, .liveGridNumberFree g.num]) ++ [.faultRecordWrite]

def taskEvents (s : State) : List Instr :=
  s.sqs.flatMap (fun p => [.launchPacket p.1, .graphPacket p.1]) ++ s.graphs.map (fun g => .graphNodeAdvance g.queue) ++
  [.teamPlacement, .placementWaitLimit, .packetServe]

def formEvents (s : State) : List Instr := (quads s).map fun p => .bundleFormation p.1 p.2

def decodeEvents (s : State) : List Instr := s.bundles.map fun b => .clauseDecode b.id

/-- The first event of a list that is enabled, performed. -/
def firstOf (s : State) : List Instr → Option State
  | [] => none
  | i :: r => match exec i s with
    | .next t => some t
    | _ => firstOf s r

/-- The first quadrant that issues. -/
def firstIssue (s : State) : List (Nat × Nat) → Option Event
  | [] => none
  | (c, q) :: r => match issueStep c q s with
    | .refused _ => firstIssue s r
    | e => some e

def orElse (a : Option State) (b : Unit → Option State) : Option State :=
  match a with
  | some x => some x
  | none => b ()

/-- The first enabled internal event, group by group. -/
def internal (s : State) : Option State :=
  orElse (firstOf s (fabricEvents s)) fun _ => orElse (firstOf s (memoryEvents s)) fun _ => orElse (firstOf s (coreEvents s)) fun _ =>
  orElse (firstOf s (engineEvents s)) fun _ => orElse (firstOf s (teamEvents s)) fun _ => orElse (firstOf s (taskEvents s)) fun _ =>
  orElse (firstOf s (formEvents s)) fun _ => firstOf s (decodeEvents s)

/-- Run one event if it is enabled. -/
def perform (s : State) (i : Instr) : State :=
  match exec i s with
  | .next t => t
  | _ => s

/-- Access threads and migration streams take turns, one event in each fc. -/
def background (s : State) : List Instr :=
  let l : List Instr := (s.teams.flatMap fun t => t.access.map fun x => .accessClause t.grid t.index x.tid) ++
    s.streams.map fun m => .migrationRound m.port
  l.drop (s.fc % max 1 l.length) ++ l.take (s.fc % max 1 l.length)

/-- The passing of one fabric clock, with what belongs to its number: pressure every 16 fc (R429), the epoch every 65,536 cc (R365). -/
def passClock (s : State) : State := perform (perform (tick s) .fabricPressureUpdate) .epochBoundary

/-- A fabric clock may pass once every router of the one before has been served. -/
def tickStep (s : State) : Event := if (unrouted s).isEmpty then .next (passClock s) else .refused (.notEnabled "tick")

/-- A fabric clock passes on its own, and an access thread or a stream takes its turn in it. -/
def passTime (s : State) : State := passClock ((firstOf s (background s)).getD s)

/-- What happens next when the agenda is empty. -/
def policy (s : State) : Event :=
  match internal s with
  | some t => .next t
  | none => match firstIssue s (quads s) with
    | some e => e
    | none => .next (passTime s)

end Sys2Proof.Machine
end

