-- ==== Sys2Proof/Machine/Step.lean ====
section
/-! DEFINITION. One step of the machine: what the agenda asks for, else what the part does next on its own. -/

namespace Sys2Proof.Machine

/-- One step of one action. Words execute only through an issue. -/
def actionStep (a : Action) (s : State) : Host.Outcome State Fault Refusal :=
  match a with
  | .tick => tickStep s
  | .issue core quad => issueStep core quad s
  | .event i => if isWord i then .refused (.notEnabled "event") else exec i { s with cur := none }

/-- The step: the head of the agenda, if any, else the policy. -/
def step (s : State) : Host.Outcome State Fault Refusal :=
  match s.agenda with
  | a :: r => actionStep a { s with agenda := r }
  | [] => policy s

/-- The instruction of `nbits` bits `w` stored where the next step fetches it. -/
def State.withFetchWord (s : State) (nbits w : Nat) : State := placeWord s (BitVec.ofNat 128 (w % 2 ^ nbits))

end Sys2Proof.Machine
end

