-- ==== Sys2Proof/Safety.lean ====
section
/-! DEFINITION. What claims are stated with: sound states, a word free to execute, what a word leaves alone, and how a word or
event ends. -/

namespace Sys2Proof.Machine

/-- Device, host and peer memory are in canonical form. -/
def State.memWf (s : State) : Bool :=
  SMap.wf 0 s.mem && SMap.wf 0 s.hostMem && SMap.wf 0 s.peerMem

/-- No access of any thread to memory or to a mate's scratchpad is on its way: a release or a fence finds nothing of the issuing
thread's to wait for or to write. -/
def State.quiet (s : State) : Prop := s.reqs = [] ∧ ∀ p ∈ s.packets, p.mateStore = false

/-! ## Before a word -/

/-- Nothing keeps a word from executing (R16, R18, R337, R374): no register it names is pending in any thread of the bundle, no
register it reads is poisoned in an executing thread (but for PREF, which is dropped there), and a long word has a flag for its results that no executing thread holds
at 63. -/
abbrev RegsFree (e : Env) (f : Body) (u : Use) : Prop :=
  (∀ x ∈ e.threads, ∀ r ∈ u.reads ++ u.writes, x.pend.get none r = none) ∧
  (u.drops = false → ∀ x ∈ e.exec f.grd, ∀ r ∈ u.reads, r ∉ x.vpoison) ∧
  (u.long = true → (u.writes = [] ∨ (e.flag f.fl).isSome = true) ∧ ∀ n ∈ e.flag f.fl, ∀ x ∈ e.exec f.grd, x.cf.get 0 n < 63)

/-- The word `f` is being issued by the bundle of `e`, and nothing keeps it from executing: one that acts on the scratchpad or a well
is not behind a fence that names T (R224, R274). -/
abbrev Issues (s : State) (e : Env) (f : Body) (u : Use) : Prop :=
  s.env? = some e ∧ RegsFree e f u ∧ (u.bank = true → ∀ x ∈ e.exec f.grd, bankHeld s x = false)

/-! ## After a word -/

/-- The issuing bundle stands at the next word of its clause. -/
def Advanced (t : State) (e : Env) : Prop := t.cur = none ∧ (t.bundle? e.b.id).map (·.idx) = some (e.b.idx + 1)

/-- The word of instruction `i` completes: a next state in which its bundle has gone on. -/
def Completes (i : Instr) (s : State) (e : Env) : Prop := ∃ t, exec i s = .next t ∧ Advanced t e

/-- What a word that acts on the registers of its threads leaves alone: every part of the state but the issuing team's executing
threads, the issuing bundle, long operations, and the counters of issue. -/
def RegFrame (s t : State) (e : Env) (ex : List Thread) : Prop :=
  t = { s with teams := t.teams, bundles := t.bundles, ops := t.ops, cur := t.cur, free := t.free, nextId := t.nextId,
               issued := t.issued } ∧
  (∀ kind a, t.physByte kind a = s.physByte kind a) ∧
  (∀ g i, (g, i) ≠ (e.t.grid, e.t.index) → t.team? g i = s.team? g i) ∧
  (∃ l, t.team? e.t.grid e.t.index = some { e.t with threads := l }) ∧
  (∀ n, (∀ x ∈ ex, x.tid ≠ n) → t.threadOf e.t.grid e.t.index n = e.t.thread? n) ∧
  (∀ b, b ≠ e.b.id → t.bundle? b = s.bundle? b)

/-- Whether a thread of a bundle carries YIELD's mark, which lowers the bundle's next issue (R123, R361). -/
def State.lowered (t : State) (e : Env) : Bool := (e.b.members.filterMap (t.threadOf e.t.grid e.t.index)).any (·.yielded)

/-- The bundle after a word: the next word, with the clause's k writes `kw` and its place in the order of issue. -/
def Bundle.next (b : Bundle) (cc : Nat) (kw : List KWrite) (low : Bool) : Bundle :=
  { b with idx := b.idx + 1, kw := kw, missed := 0, overdue := false, yielded := low, since := cc, issuedAt := cc + 1 }

/-- The end of a short word that turns each executing thread `x` into `g x` and changes nothing else of the program's state
but the k writes of its clause. -/
def ShortEnd (s t : State) (e : Env) (f : Body) (g : Thread → Thread) (kw : List KWrite) : Prop :=
  t.cur = none ∧ t.ops = s.ops ∧ RegFrame s t e (e.exec f.grd) ∧
  (∀ x ∈ e.exec f.grd, t.threadOf e.t.grid e.t.index x.tid = some (g x)) ∧
  t.bundle? e.b.id = some (e.b.next s.cc kw (t.lowered e))

/-- A thread after a whole write of one register (R337: the write clears the register's poison). -/
def Thread.write (x : Thread) (n : Nat) (v : W64) : Thread := { x with v := x.v.set 0 n v, vpoison := x.vpoison.filter (· != n) }

/-- R144, R148: the thread after its result goes to D: a vector register takes it, any other D leaves the thread alone. -/
def Thread.deliver (x : Thread) (d : Operand) (v : W64) : Thread :=
  match d with
  | .v n => x.write n.val v
  | _ => x

/-- R148: the k writes after a word that gives each executing thread `val x`: a team-uniform D takes the value of the executing
thread in the highest warp slot and lane. -/
def kwGives (e : Env) (f : Body) (val : Thread → W64) : List KWrite :=
  match f.d, (e.exec f.grd).getLast? with
  | .k n, some x => putK e.b.kw n.val (val x) (e.t.order x.tid)
  | _, _ => e.b.kw

/-- The instruction completes as a short word that delivers `val x` to D in each executing thread and turns the rest of the thread
into `g x`. -/
def Delivers (i : Instr) (s : State) (e : Env) (f : Body) (g : Thread → Thread) (val : Thread → W64) : Prop :=
  ∃ t, exec i s = .next t ∧ ShortEnd s t e f (fun x => (g x).deliver f.d (val x)) (kwGives e f val)

/-- The instruction completes as a short word without D that turns each executing thread `x` into `g x`. -/
def Turns (i : Instr) (s : State) (e : Env) (f : Body) (g : Thread → Thread) : Prop :=
  ∃ t, exec i s = .next t ∧ ShortEnd s t e f g e.b.kw

/-- A thread after a long word attached to `flag` whose results go to `regs`: the flag's count rises by one and the registers become
pending on it (R16, R18). -/
def Thread.await (x : Thread) (flag : Option Nat) (regs : List Nat) : Thread :=
  match flag with
  | none => x
  | some n => { x with cf := x.cf.set 0 n (x.cf.get 0 n + 1), pend := regs.foldl (fun p r => p.set none r (some n)) x.pend }

/-- The end of a long word that turns each executing thread into `g x` and leaves one operation for each, in (warp slot, lane)
order, whose results go to `regs`; nothing else of the program's state changes. -/
def LongEnd (s t : State) (e : Env) (f : Body) (regs : List Nat) (g : Thread → Thread) : Prop :=
  t.cur = none ∧ RegFrame s t e (e.exec f.grd) ∧ t.bundle? e.b.id = some (e.b.next s.cc e.b.kw (t.lowered e)) ∧
  (∀ x ∈ e.exec f.grd, t.threadOf e.t.grid e.t.index x.tid = some ((g x).await (e.flag f.fl) regs)) ∧
  ∃ l, t.ops = s.ops ++ l ∧ l.map (·.tid) = (e.exec f.grd).map (·.tid) ∧
    ∀ o ∈ l, o.grid = e.t.grid ∧ o.team = e.t.index ∧ o.flag = e.flag f.fl

/-- Each executing thread of a long word has left an operation that waits for nothing and carries no poison, with these values for D and
the registers after it, and these flags. -/
def Leaves (s t : State) (e : Env) (f : Body) (r : Thread → List W64 × BitVec 32) : Prop :=
  ∀ x ∈ e.exec f.grd, ∃ o ∈ t.ops.drop s.ops.length, o.tid = x.tid ∧ o.wait = .ready ∧ o.poison = none ∧ o.efl = (r x).2 ∧
    ∀ d, f.d = .v d → o.dst = ((List.range (r x).1.length).zip (r x).1).map fun p => (d.val + p.1, p.2)

/-- Taking a fault (R368 to R371): the bundle of `e` is gone, its threads are held at its clause with the registers they had, a team
that was running is to be held, one record per warp of the bundle carries the code and kind, SEQ advances, and no byte of memory
changes. -/
def Faulted (s t : State) (e : Env) (code kind : Nat) : Prop :=
  t.cur = none ∧ t.bundle? e.b.id = none ∧ t.seq = (s.seq + 1) % 2 ^ 32 ∧
  (∀ x ∈ e.threads, ∃ y, t.threadOf e.t.grid e.t.index x.tid = some y ∧ y.place = .held ∧ y.pc = e.b.addr ∧ y.heldKind = kind ∧
    y.v = x.v ∧ y.pred = x.pred ∧ y.levels = x.levels ∧ y.calls = x.calls ∧ y.lc = x.lc) ∧
  (e.t.phase = .running → (t.team? e.t.grid e.t.index).map (·.phase) = some .holding) ∧
  (∃ recs, t.faults = s.faults ++ recs ∧ recs.length = ((e.b.members.map (· / 32)).eraseDups).length ∧
    ∀ r ∈ recs, r.bytes.length = 64 ∧ r.bytes.take 2 = [BitVec.ofNat 8 code, BitVec.ofNat 8 kind]) ∧
  (∀ m a, t.physByte m a = s.physByte m a) ∧ t.msix = s.msix

/-- The word of instruction `i` takes the fault `code` with kind 1, at the word. -/
def Raises (i : Instr) (s : State) (e : Env) (code : Nat) : Prop := ∃ t, exec i s = .next t ∧ Faulted s t e code 1

/-- The end of a clause (R41, R108): the bundle is gone and its k writes are committed; each of its threads stands at the boundary as
`g` leaves it at the address it goes to; no other thread, team, or byte of memory changes. -/
def ClauseEnd (s t : State) (e : Env) (g : Thread → Thread) : Prop :=
  t.cur = none ∧ t.bundle? e.b.id = none ∧ (∀ b, b ≠ e.b.id → t.bundle? b = s.bundle? b) ∧
  (∀ x ∈ e.threads, ∃ y, t.threadOf e.t.grid e.t.index x.tid = some y ∧ y.place = .boundary ∧ y.notBefore = s.cc ∧ y.pc = (g x).pc ∧
    y.pred = (g x).pred ∧ y.levels = (g x).levels ∧ y.calls = (g x).calls ∧ y.lc = (g x).lc ∧ y.lbrk = (g x).lbrk ∧
    y.newLevel = (g x).newLevel ∧ y.mrV = (g x).mrV ∧ y.mrJ = (g x).mrJ ∧ y.v = x.v ∧ y.efl = x.efl) ∧
  (∀ n, (∀ x ∈ e.threads, x.tid ≠ n) → t.threadOf e.t.grid e.t.index n = e.t.thread? n) ∧
  (t.team? e.t.grid e.t.index).map (·.k) = some (commitK s.cc e.b.members e.t.k e.b.kw) ∧
  (∀ a b, (a, b) ≠ (e.t.grid, e.t.index) → t.team? a b = s.team? a b) ∧ t.grids = s.grids ∧ t.faults = s.faults ∧
  (∀ m a, t.physByte m a = s.physByte m a)

/-- A terminal completes by ending its clause. -/
def Ends (i : Instr) (s : State) (e : Env) (g : Thread → Thread) : Prop := ∃ t, exec i s = .next t ∧ ClauseEnd s t e g

/-! ## Operands and lanes -/

/-- R144: lane `k` of a source under lane width `w`: an immediate gives every lane its low `w` bits, any other operand its own. -/
def laneIn (s : State) (e : Env) (f : VBody) (x : Thread) (o : Operand) (k : Nat) : Nat :=
  if o = .imm then (f.imm.signExtend 64).toNat % 2 ^ laneWidth f.fs else elemOf (laneWidth f.fs) k (readOp s e f.imm x o)

/-- R149: `r` holds the exact lane result `x`: clamped to the lane's range under .sat, else modulo 2^w. -/
def LaneIs (w : Nat) (signed sat : Bool) (x : Int) (r : Nat) : Prop :=
  let lo : Int := if signed then -(2 ^ (w - 1)) else 0
  let hi : Int := if signed then 2 ^ (w - 1) - 1 else 2 ^ w - 1
  r < 2 ^ w ∧ if sat then laneVal w signed r = max lo (min hi x) else ((r : Int) - x) % 2 ^ w = 0

/-- R182, R185: the source element that element `i` of D takes under selector `j`, of `ed` elements in D's slot and `es` in the source's;
none where D has a zero code, or under a narrowing keeps its old one. -/
def cvtSource (ed es j i : Nat) : Option Nat :=
  if ed = es then some i
  else if ed < es then (if j * ed + i < es then some (j * ed + i) else none)
  else if j * es ≤ i ∧ i < j * es + es then some (i - j * es) else none

/-- The threads of a word's warp that take part in it beside `x`, itself included (R162). -/
def Mate (e : Env) (f : Body) (x y : Thread) : Prop := y ∈ e.exec f.grd ∧ y.warp = x.warp

end Sys2Proof.Machine
end

