-- ==== Sys2Proof/WellFormed.lean ====
section
/-! DEFINITION. Well-formed instructions: those whose word passes every decode check of R78 to R97 under given limits. -/

namespace Sys2Proof

/-- A word, header or event the part accepts: `brx` marks the last body word of a clause ending in brx (R92). -/
def Instr.wf (lim : Limits) (brx : Bool) (i : Instr) : Bool :=
  match encode i with
  | none => true
  | some w =>
    match i with
    | .fall _ | .jmp _ | .brp _ | .brx _ | .call _ | .ret _ | .exit _ | .endl _ => (checkHeader w).isNone
    | .xcmdUnassignedCode _ func => (checkWord lim brx w).isNone && !funcListed func.toNat
    | _ => (checkWord lim brx w).isNone

end Sys2Proof
end

