-- ==== Sys2Proof/Certificates/Slice0/Obligations.lean ====
section
/-! DEFINITION. The statements for the provers. -/

open Sys2Proof Sys2Proof.Machine

/-! ## Encoding -/

/-- Every accepted body word, header or hint decodes to the instruction it encodes, whatever its operands and fields (R77 to R97). -/
def Obligations.Decode_of_encode : Prop :=
  ∀ (lim : Limits) (brx : Bool) (i : Instr) (w : W128), i.wf lim brx = true → encode i = some w →
    (if opcOf w = 0x3FF then decodeHeader w else decodeWord lim brx w) = .ok i

/-- A word that the decoder accepts is the encoding of what it decodes to: no accepted word has a bit that decoding drops. -/
def Obligations.Encode_of_decode : Prop :=
  (∀ (lim : Limits) (brx : Bool) (w : W128) (i : Instr), decodeWord lim brx w = .ok i → encode i = some w) ∧
  (∀ (w : W128) (i : Instr), decodeHeader w = .ok i → encode i = some w)

/-- Words of the manual's tables decode to their instructions: MMA and PWSET (Table 8-14), the all-zero NOP (R139), FENCE.X. -/
def Obligations.Worked_words : Prop :=
  decodeTableWord 128 0x80000C4040C000000000000010000000 =
    some (.mma { d := .a 0, a := .v 32, b := .m 0, kf := 16 }) ∧
  decodeTableWord 128 0x8800AC40000000000000000000030000 = some (.pwset { fs := 5, d := .a 0, aux := 3 }) ∧
  decodeTableWord 128 0 = some (.nop {}) ∧
  decodeTableWord 128 0x74400000000000000000000008060000 = some (.fenceX { scope := 4, opx := 6 })

/-- R79: GRD = 00000 is unconditional; 1nddd guards on depth ddd, on a true entry for n = 0 and a false one for n = 1; any other value
raises RESERVED_FIELD in a word whose opcode is in the map. R96: a word with an opcode in 0x300 to 0x37F raises ILLEGAL_OPCODE. -/
def Obligations.Guard_and_opcode_fields : Prop :=
  (∀ (lim : Limits) (brx : Bool) (w : W128), 0x300 ≤ opcOf w → opcOf w ≤ 0x37F → decodeWord lim brx w = .error (.illegalOpcode (opcOf w))) ∧
  (∀ (lim : Limits) (brx : Bool) (w : W128), opcOf w ≠ 0x3FF → isHint w = false → (rowOf lim w).isSome = true →
    w.getLsbD 117 = false → fieldOf 4 113 w ≠ 0 → ∃ bit, decodeWord lim brx w = .error (.reservedField bit)) ∧
  Guard.ofCode 0 = .always ∧
  (∀ (d : Fin 8) (n : Bool), Guard.ofCode (1#1 ++ BitVec.ofBool n ++ BitVec.ofNat 3 d.val) = .on d n) ∧
  (∀ (e : Env) (x : Thread), x ∈ e.threads → x ∈ e.exec .always) ∧
  (∀ (e : Env) (x : Thread) (d : Fin 8) (n : Bool), x ∈ e.exec (.on d n) ↔ x ∈ e.threads ∧ x.pred.getD d.val false = !n)

/-! ## The step -/

/-- A step whose agenda asks for an issue executes the instruction that the chosen bundle's next word decodes to, in the state that marks
the bundle as issuing; an event asked for is executed; a fabric clock passes when every router has been served. R470, R38: a fabric clock
advances fc by one and the core clock by its share of mhz to 2,400; a new cc opens every quadrant. Memory and threads stay. -/
def Obligations.Step_runs_decoded : Prop :=
  ((∀ (s : State) (core quad : Nat) (r : List Action) (b : Bundle) (i : Instr),
     s.agenda = .issue core quad :: r → s.quadIssued.contains (quadId core quad) = false →
     chooseBundle { s with agenda := r } core quad = some b → b.decoded = true →
     (if (Header.of b.hdr).len.toNat < b.idx then decodeHeader b.hdr
      else decodeWord (bundleLimits s b) (b.idx == (Header.of b.hdr).len.toNat && termOf b.hdr == 3) (b.words.getD (b.idx - 1) 0)) =
       .ok i →
     step s = exec i (issueState { s with agenda := r } core quad b)) ∧
   (∀ (s : State) (r : List Action) (i : Instr), s.agenda = .event i :: r → encode i = none →
     step s = exec i { s with agenda := r, cur := none }) ∧
   (∀ (s : State) (r : List Action), s.agenda = .tick :: r → unrouted { s with agenda := r } = [] →
     step s = .next (tick { s with agenda := r }))) ∧
  (∀ (s : State), s.mgmt.d3hot = false →
     (tick s).fc = s.fc + 1 ∧ (tick s).teams = s.teams ∧ (tick s).mem = s.mem ∧
     (s.clkAcc + s.mhz < 2400 → (tick s).cc = s.cc ∧ (tick s).clkAcc = s.clkAcc + s.mhz ∧ (tick s).bundles = s.bundles) ∧
     (2400 ≤ s.clkAcc + s.mhz → (tick s).cc = s.cc + 1 ∧ (tick s).clkAcc + 2400 = s.clkAcc + s.mhz ∧ (tick s).quadIssued = [] ∧
       ∀ b ∈ (tick s).bundles, b.stalled = false))

/-! ## Integer words -/

/-- R149: every lane of the integer arithmetic words holds the exact result, clamped under .sat and reduced modulo 2^w otherwise. R150:
IADDW and ISUBW act modulo 2^128 on pairs, the even register lowest; .c pushes the carry or the borrow. -/
def Obligations.Integer_arithmetic : Prop :=
  (∀ (s : State) (e : Env) (f : VBody),
     let w := laneWidth f.fs
     let sg := f.mod3.getLsbD 0
     let a := fun x k => laneVal w sg (laneIn s e f x f.a k)
     let b := fun x k => laneVal w sg (laneIn s e f x f.b k)
     let c := fun x k => laneVal w sg (laneIn s e f x f.c k)
     let gives := fun (i : Instr) (srcs : List Operand) (sat : Bool) (r : Thread → Nat → Int) =>
       Issues s e f.toBody { reads := srcs.flatMap regsOf, writes := regsOf f.d } →
         ∃ val, Delivers i s e f.toBody id val ∧ ∀ x ∈ e.exec f.grd, ∀ k < 64 / w, LaneIs w sg sat (r x k) (elemOf w k (val x))
     gives (.iadd f) [f.a, f.b] (f.mod3.getLsbD 1) (fun x k => a x k + b x k) ∧
     gives (.isub f) [f.a, f.b] (f.mod3.getLsbD 1) (fun x k => a x k - b x k) ∧
     gives (.imul f) [f.a, f.b] (f.mod3.getLsbD 1) (fun x k => a x k * b x k) ∧
     gives (.imulh f) [f.a, f.b] false (fun x k => a x k * b x k / 2 ^ w) ∧
     gives (.imad f) [f.a, f.b, f.c] (f.mod3.getLsbD 1) (fun x k => a x k * b x k + c x k) ∧
     gives (.iabs f) [f.a] (f.mod3.getLsbD 1) (fun x k => (a x k).natAbs) ∧
     gives (.ineg f) [f.a] (f.mod3.getLsbD 1) (fun x k => -(a x k)) ∧
     gives (.imin f) [f.a, f.b] false (fun x k => min (a x k) (b x k)) ∧
     gives (.imax f) [f.a, f.b] false (fun x k => max (a x k) (b x k))) ∧
  (∀ (s : State) (e : Env) (f : VBody) (d : Fin 320), f.d = .v d →
     Issues s e f.toBody { reads := regsOf f.a 2 ++ regsOf f.b 2, writes := [d.val, d.val + 1] } →
     let ends := fun (i : Instr) (r : Thread → W128) (p : Thread → Bool) =>
       ∃ t, exec i s = .next t ∧ ShortEnd s t e f.toBody (fun x =>
         ((({ x with pred := if f.mod3.getLsbD 2 then p x :: x.pred.take 7 else x.pred } : Thread).write d.val ((r x).extractLsb' 0 64)).write
           (d.val + 1) ((r x).extractLsb' 64 64))) e.b.kw
     ends (.iaddw f) (fun x => readPair x f.a + readPair x f.b) (fun x => decide (2 ^ 128 ≤ (readPair x f.a).toNat + (readPair x f.b).toNat)) ∧
     ends (.isubw f) (fun x => readPair x f.a - readPair x f.b) (fun x => decide ((readPair x f.a).toNat < (readPair x f.b).toNat)))

/-- R151: the shift count is B's lane as an unsigned number; SHL and SHR fill with zeros, SAR with copies of the top bit, also for counts
of w and more, and ROT rotates by the count modulo w, to the right under MOD3[0]. -/
def Obligations.Shifts : Prop :=
  ∀ (s : State) (e : Env) (f : VBody),
    let w := laneWidth f.fs
    let a := fun x k => BitVec.ofNat w (laneIn s e f x f.a k)
    let n := fun x k => laneIn s e f x f.b k
    Issues s e f.toBody { reads := regsOf f.a ++ regsOf f.b, writes := regsOf f.d } →
    let gives := fun (i : Instr) (r : Thread → Nat → BitVec w) =>
      ∃ val, Delivers i s e f.toBody id val ∧ ∀ x ∈ e.exec f.grd, ∀ k < 64 / w, elemOf w k (val x) = (r x k).toNat
    gives (.shl f) (fun x k => a x k <<< n x k) ∧
    gives (.shr f) (fun x k => a x k >>> n x k) ∧
    gives (.sar f) (fun x k => (a x k).sshiftRight (n x k)) ∧
    gives (.rot f) (fun x k => if f.mod3.getLsbD 0 then (a x k).rotateRight (n x k) else (a x k).rotateLeft (n x k))

/-- R155: POPC, CLZ, CTZ and BREV on each lane. R156: BFX and BFI on the field of length ctl[15:8] at ctl[7:0], cut at bit 63. -/
def Obligations.Bit_counts_and_fields : Prop :=
  (∀ (s : State) (e : Env) (f : VBody),
     let w := laneWidth f.fs
     let a := fun x k => laneIn s e f x f.a k
     Issues s e f.toBody { reads := regsOf f.a, writes := regsOf f.d } →
     let gives := fun (i : Instr) (ok : Nat → Nat → Prop) =>
       ∃ val, Delivers i s e f.toBody id val ∧ ∀ x ∈ e.exec f.grd, ∀ k < 64 / w, ok (a x k) (elemOf w k (val x))
     gives (.popc f) (fun v r => r = ((List.range w).filter fun j => v.testBit j).length) ∧
     gives (.clz f) (fun v r => r ≤ w ∧ (∀ j < w, w - r ≤ j → v.testBit j = false) ∧ (r < w → v.testBit (w - 1 - r) = true)) ∧
     gives (.ctz f) (fun v r => r ≤ w ∧ (∀ j < r, v.testBit j = false) ∧ (r < w → v.testBit r = true)) ∧
     gives (.brev f) (fun v r => ∀ j < w, r.testBit (w - 1 - j) = v.testBit j)) ∧
  (∀ (s : State) (e : Env) (f : VBody),
     let a := fun x => readOp s e f.imm x f.a
     let b := fun x => readOp s e f.imm x f.b
     let c := fun x => readOp s e f.imm x f.c
     let pos := fun (ctl : W64) => ctl.toNat % 256
     let len := fun (ctl : W64) => ctl.toNat / 256 % 256
     let valid := fun (ctl : W64) => len ctl ≠ 0 ∧ pos ctl < 64
     let n := fun (ctl : W64) => min (pos ctl + len ctl) 64 - pos ctl
     (Issues s e f.toBody { reads := regsOf f.a ++ regsOf f.b, writes := regsOf f.d } →
       ∃ val, Delivers (.bfx f) s e f.toBody id val ∧ ∀ x ∈ e.exec f.grd,
         (¬ valid (b x) → val x = 0) ∧
         (valid (b x) → ∀ j < 64, (val x).getLsbD j =
           if j < n (b x) then (a x).getLsbD (pos (b x) + j)
           else f.mod3.getLsbD 0 && (a x).getLsbD (pos (b x) + n (b x) - 1))) ∧
     (Issues s e f.toBody { reads := regsOf f.a ++ regsOf f.b ++ regsOf f.c, writes := regsOf f.d } →
       ∃ val, Delivers (.bfi f) s e f.toBody id val ∧ ∀ x ∈ e.exec f.grd,
         (¬ valid (c x) → val x = a x) ∧
         (valid (c x) → ∀ j < 64, (val x).getLsbD j =
           if pos (c x) ≤ j ∧ j < pos (c x) + n (c x) then (b x).getLsbD (j - pos (c x)) else (a x).getLsbD j)))

/-- R152 to R154, R157 to R159: funnel shifts, logic, three-input logic, moves and selection, whole registers at a time. -/
def Obligations.Logic_and_moves : Prop :=
  ∀ (s : State) (e : Env) (f : VBody),
    let a := fun x => readOp s e f.imm x f.a
    let b := fun x => readOp s e f.imm x f.b
    let c := fun x => readOp s e f.imm x f.c
    let gives := fun (i : Instr) (srcs : List Operand) (val : Thread → W64) =>
      Issues s e f.toBody { reads := srcs.flatMap regsOf, writes := regsOf f.d } → Delivers i s e f.toBody id val
    gives (.and f) [f.a, f.b] (fun x => a x &&& b x) ∧
    gives (.or f) [f.a, f.b] (fun x => a x ||| b x) ∧
    gives (.xor f) [f.a, f.b] (fun x => a x ^^^ b x) ∧
    gives (.andn f) [f.a, f.b] (fun x => a x &&& ~~~ b x) ∧
    gives (.fshf f) [f.a, f.b, f.c] (fun x => let n := (c x).toNat % 64
      if f.mod3.getLsbD 0 then ((a x ++ b x) <<< n).extractLsb' 64 64 else ((a x ++ b x) >>> n).extractLsb' 0 64) ∧
    gives (.mov f) [f.a] a ∧
    gives (.movi f) [] (fun _ => 0#32 ++ f.imm) ∧
    gives (.movh f) [f.d] (fun x => f.imm ++ (readOp s e f.imm x f.d).extractLsb' 0 32) ∧
    gives (.sel f) [f.a, f.b] (fun x => if x.pred.getD (f.sel.toNat % 8) false then a x else b x) ∧
    (Issues s e f.toBody { reads := regsOf f.a ++ regsOf f.b ++ regsOf f.c, writes := regsOf f.d } →
      ∃ val, Delivers (.lop3 f) s e f.toBody id val ∧ ∀ x ∈ e.exec f.grd, ∀ k < 64, (val x).getLsbD k =
        f.lut.getLsbD (4 * ((a x).getLsbD k).toNat + 2 * ((b x).getLsbD k).toNat + ((c x).getLsbD k).toNat))

/-! ## Predicates -/

/-- R19, R160, R161: each predicate word changes the predicate register of the executing threads as Table 5-3 gives, and nothing else; a
push moves every entry one deeper and drops a ninth; a depth at or beyond the count reads false. PTOV writes the layout of Table 4-4. ICMP
pushes the outcome of its lane. -/
def Obligations.Predicate_words : Prop :=
  ∀ (s : State) (e : Env) (f : VBody),
    let p := fun (x : Thread) (d : Nat) => x.pred.getD d false
    let a := f.sel.toNat % 8
    let b := f.sel.toNat / 8
    let turns := fun (i : Instr) (srcs : List Operand) (g : Thread → List Bool) =>
      Issues s e f.toBody { reads := srcs.flatMap regsOf } → Turns i s e f.toBody (fun x => { x with pred := g x })
    let pushes := fun (i : Instr) (srcs : List Operand) (g : Thread → Bool) => turns i srcs (fun x => g x :: x.pred.take 7)
    turns (.ppop f) [] (fun x => x.pred.drop 1) ∧
    pushes (.pdup f) [] (fun x => p x a) ∧
    pushes (.pnot f) [] (fun x => !p x a) ∧
    pushes (.pand f) [] (fun x => p x a && p x b) ∧
    pushes (.por f) [] (fun x => p x a || p x b) ∧
    pushes (.pxor f) [] (fun x => p x a != p x b) ∧
    pushes (.vtop f) [f.a] (fun x => (readOp s e f.imm x f.a).getLsbD f.sel.toNat) ∧
    (Issues s e f.toBody {} → ∃ g : Thread → List Bool, Turns (.pswap f) s e f.toBody (fun x => { x with pred := g x }) ∧ ∀ x ∈ e.exec f.grd,
      (g x).length = x.pred.length ∧ ∀ d < x.pred.length, (g x).getD d false =
        if d = a then p x b else if d = b then p x a else p x d) ∧
    (Issues s e f.toBody { reads := regsOf f.a } → ∃ g : Thread → List Bool, Turns (.pset f) s e f.toBody (fun x => { x with pred := g x }) ∧
      ∀ x ∈ e.exec f.grd, let v := readOp s e f.imm x f.a
        (g x).length = min (v.toNat / 256 % 16) 8 ∧ ∀ d < (g x).length, (g x).getD d false = v.getLsbD d) ∧
    (Issues s e f.toBody { writes := regsOf f.d } → ∃ val, Delivers (.ptov f) s e f.toBody id val ∧ ∀ x ∈ e.exec f.grd,
      (∀ d < 8, (val x).getLsbD d = p x d) ∧ (val x).toNat / 256 = min 8 x.pred.length) ∧
    (f.sel.toNat < 64 / laneWidth f.fs → pushes (.icmp f) [f.a, f.b] (fun x =>
      let l := laneVal (laneWidth f.fs) (f.mod3.getLsbD 0) (laneIn s e f x f.a f.sel.toNat)
      let r := laneVal (laneWidth f.fs) (f.mod3.getLsbD 0) (laneIn s e f x f.b f.sel.toNat)
      match f.subop.toNat with
      | 0 => decide (l = r)
      | 1 => decide (l ≠ r)
      | 2 => decide (l < r)
      | 3 => decide (l ≤ r)
      | 4 => decide (r < l)
      | _ => decide (r ≤ l)))

/-! ## Lanes -/

/-- R165: BCAST gives every participant the whole A of the participant of its warp at lane B, or where there is none its own A, 0 under
.zf. R166: VOTE.all and .any push one outcome over the participants of the warp; VOTE.bal writes the mask of their lanes. R164: SHFL takes
element s of the participants of the warp, by warp-wide index, as its mode computes s, and bits at or above W·E are 0. R167: WRED gives
every participant of a warp one value in every element, and bits above them are 0; in width mode it is the sum modulo 2^w, the smallest,
the largest, the conjunction, the disjunction or the parity of all elements of the participants, without a flag; in slot mode it is that
of the tree, whose flags go to EFL, and only the generator of the warp's first participant in the bundle's order moves. A WRED that sets
no enabled flag completes: one in slot mode where no trap is enabled, and every integer operation. -/
def Obligations.Lane_words : Prop :=
  (∀ (s : State) (e : Env) (f : VBody),
     (Issues s e f.toBody { reads := regsOf f.a ++ regsOf f.b, writes := regsOf f.d } →
       ∃ val, Delivers (.bcast f) s e f.toBody id val ∧ ∀ x ∈ e.exec f.grd,
         (∀ y, Mate e f.toBody x y → y.lane = (readOp s e f.imm x f.b).toNat → val x = readOp s e f.imm y f.a) ∧
         ((¬ ∃ y, Mate e f.toBody x y ∧ y.lane = (readOp s e f.imm x f.b).toNat) →
           val x = if f.mod3.getLsbD 2 then 0 else readOp s e f.imm x f.a)) ∧
     (f.subop = 0 ∨ f.subop = 1 → Issues s e f.toBody {} →
       ∃ r : Thread → Bool, Turns (.vote f) s e f.toBody (fun x => { x with pred := r x :: x.pred.take 7 }) ∧ ∀ x ∈ e.exec f.grd,
         (f.subop = 0 → (r x = true ↔ ∀ y, Mate e f.toBody x y → y.pred.getD (f.sel.toNat % 8) false = true)) ∧
         (f.subop = 1 → (r x = true ↔ ∃ y, Mate e f.toBody x y ∧ y.pred.getD (f.sel.toNat % 8) false = true))) ∧
     (f.subop = 2 → Issues s e f.toBody { writes := regsOf f.d } →
       ∃ val, Delivers (.vote f) s e f.toBody id val ∧ ∀ x ∈ e.exec f.grd, ∀ l < 64,
         ((val x).getLsbD l = true ↔ ∃ y, Mate e f.toBody x y ∧ y.lane = l ∧ y.pred.getD (f.sel.toNat % 8) false = true))) ∧
  (∀ (s : State) (e : Env) (f : VBody),
     let w := if f.mod3.getLsbD 1 then fmtWidth (e.slot f.fs.toNat) else laneWidth f.fs
     let n := 64 / w
     let a := fun (x : Thread) => readOp s e f.imm x f.a
     let src := fun (x : Thread) (sub : Nat) =>
       let b : Int := (readOp s e f.imm x f.b).toNat
       let j : Nat := x.lane * n + sub
       if f.subop = 0 then b + sub else if f.subop = 1 then ((j ^^^ b.toNat : Nat) : Int) else if f.subop = 2 then j - b else j + b
     Issues s e f.toBody { reads := regsOf f.a ++ regsOf f.b, writes := regsOf f.d } →
     ∃ val, Delivers (.shfl f) s e f.toBody id val ∧ ∀ x ∈ e.exec f.grd, ∀ sub < n,
       (∀ y, Mate e f.toBody x y → 0 ≤ src x sub → src x sub < 32 * n → y.lane = (src x sub).toNat / n →
         elemOf w sub (val x) = elemOf w ((src x sub).toNat % n) (a y)) ∧
       ((src x sub < 0 ∨ 32 * n ≤ src x sub ∨ ¬ ∃ y, Mate e f.toBody x y ∧ y.lane = (src x sub).toNat / n) →
         elemOf w sub (val x) = if f.mod3.getLsbD 2 then 0 else elemOf w sub (a x)) ∧
       (val x).toNat < 2 ^ (w * n)) ∧
  (∀ (s : State) (e : Env) (f : VBody), e.c.trapen = 0 ∨ f.subop.toNat < 6 →
     let w := if f.mod3.getLsbD 1 then fmtWidth (e.slot f.fs.toNat) else laneWidth f.fs
     let elems := fun (x : Thread) => ((List.range 32).filterMap fun l => (e.exec f.grd).find? fun y => y.warp == x.warp && y.lane == l).flatMap
       fun y => (List.range (64 / w)).map fun k => elemOf w k (readOp s e f.imm y f.a)
     let num := laneVal w (f.mod3.getLsbD 0)
     Issues s e f.toBody { reads := regsOf f.a, writes := regsOf f.d } →
     ∃ (val : Thread → W64) (fl : Thread → Efl) (s0 s1 : Thread → W64), Delivers (.wred f) s e f.toBody (fun x => { x with efl := x.efl ||| fl x, s0 := s0 x, s1 := s1 x }) val ∧
       ∀ x ∈ e.exec f.grd,
         (∀ y, Mate e f.toBody x y → val y = val x ∧ fl y = fl x) ∧
         (∀ k < 64 / w, elemOf w k (val x) = elemOf w 0 (val x)) ∧ (val x).toNat < 2 ^ (w * (64 / w)) ∧
         ((e.exec f.grd).find? (fun y => y.warp == x.warp) ≠ some x → s0 x = x.s0 ∧ s1 x = x.s1) ∧
         (f.mod3.getLsbD 1 = false → f.subop.toNat < 6 → let r := elemOf w 0 (val x)
           fl x = 0 ∧ s0 x = x.s0 ∧ s1 x = x.s1 ∧
           (f.subop = 0 → r = (elems x).sum % 2 ^ w) ∧
           (f.subop = 1 → r ∈ elems x ∧ ∀ v ∈ elems x, num r ≤ num v) ∧
           (f.subop = 2 → r ∈ elems x ∧ ∀ v ∈ elems x, num v ≤ num r) ∧
           (f.subop = 3 → ∀ b < w, (r.testBit b = true ↔ ∀ v ∈ elems x, v.testBit b = true)) ∧
           (f.subop = 4 → ∀ b < w, (r.testBit b = true ↔ ∃ v ∈ elems x, v.testBit b = true)) ∧
           (f.subop = 5 → ∀ b < w, r.testBit b = decide (((elems x).filter (·.testBit b)).length % 2 = 1))) ∧
         (f.mod3.getLsbD 1 = true →
           let r := wredResult f.subop.toNat w (f.mod3.getLsbD 0) (Fmt.of (e.slot f.fs.toNat)) ((e.exec f.grd).filter (·.warp == x.warp))
             (fun y => readOp s e f.imm y f.a)
           val x = packElems w (List.replicate (64 / w) r.1) ∧ fl x = r.2.1 ∧
           ((e.exec f.grd).find? (fun y => y.warp == x.warp) = some x → s0 x = r.2.2.s0 ∧ s1 x = r.2.2.s1)))

/-! ## Element words -/

/-- A value that a floating slot holds exactly is delivered as its own code without a flag, in every rounding mode and for every draw
(R51, R54, R64); an integer slot holds its own values exactly (R55). R61: packing elements and taking them out again: element i of a
packed register is the i-th, and every bit at or above W·E is 0. -/
def Obligations.Exact_values_round_to_themselves : Prop :=
  (∀ (x : W64) (c draw : Nat), fmtValid x = true → c < 2 ^ (Fmt.of x).width →
     ((Fmt.of x).int = true ∨ (Fmt.of x).sub ≠ 1) → (Fmt.of x).special c = none → ((Fmt.of x).decode c).2 = 0 →
     (Fmt.of x).roundTo draw ((Fmt.of x).decode c).1 = (c, 0)) ∧
  (∀ (w : Nat) (l : List Nat), 1 ≤ w → l.length * w ≤ 64 →
     (∀ i < l.length, elemOf w i (packElems w l) = l.getD i 0 % 2 ^ w) ∧ (packElems w l).toNat < 2 ^ (w * l.length))

/-- R57: one step of the thread's generator, in 64-bit logical arithmetic: the value drawn is the new s1 plus the old. -/
def Obligations.Generator_step : Prop :=
  ∀ (s0 s1 : W64), let x := s0 ^^^ (s0 <<< 23)
    (xsNext s0 s1).2.1 = s1 ∧ (xsNext s0 s1).2.2 = x ^^^ s1 ^^^ (x >>> 17) ^^^ (s1 >>> 26) ∧
    (xsNext s0 s1).1.toNat = ((xsNext s0 s1).2.2.toNat + s1.toNat) % 2 ^ 64

/-- R174: with no enabled trap and a slot that does not round stochastically, each element of EADD, ESUB, EMUL, EFMA, EMULZ and EFMAZ is
the exact result rounded once; EFL collects the flags of every decode and rounding; nothing else changes. -/
def Obligations.Element_arithmetic : Prop :=
  ∀ (s : State) (e : Env) (f : VBody), e.c.trapen = 0 →
    let fm := Fmt.of (e.slot f.fs.toNat)
    fm.stochastic = false →
    let at' := fun (o : Operand) (x : Thread) (k : Nat) => fm.decode (srcElem s e f x o fm.width k)
    let gives := fun (i : Instr) (srcs : List Operand) (v : Thread → Nat → Val) =>
      Issues s e f.toBody { reads := srcs.flatMap regsOf, writes := regsOf f.d } →
      ∃ (val : Thread → W64) (fl : Thread → Efl), Delivers i s e f.toBody (fun x => { x with efl := x.efl ||| fl x }) val ∧
        ∀ x ∈ e.exec f.grd,
          (∀ k < fm.elems, elemOf fm.width k (val x) = (fm.roundTo 0 (v x k)).1 % 2 ^ fm.width) ∧
          ∀ n, (fl x).getLsbD n = true ↔ ∃ k < fm.elems, (fm.roundTo 0 (v x k)).2.getLsbD n = true ∨
            ∃ o ∈ srcs, (at' o x k).2.getLsbD n = true
    let a := fun x k => (at' f.a x k).1
    let b := fun x k => (at' f.b x k).1
    let c := fun x k => (at' f.c x k).1
    gives (.eadd f) [f.a, f.b] (fun x k => exactSum fm [a x k, b x k]) ∧
    gives (.esub f) [f.a, f.b] (fun x k => exactSum fm [a x k, (b x k).neg]) ∧
    gives (.emul f) [f.a, f.b] (fun x k => (a x k).prod (b x k)) ∧
    gives (.efma f) [f.a, f.b, f.c] (fun x k => exactSum fm [(a x k).prod (b x k), c x k]) ∧
    gives (.emulz f) [f.a, f.b] (fun x k => (a x k).prodz (b x k)) ∧
    gives (.efmaz f) [f.a, f.b, f.c] (fun x k => exactSum fm [(a x k).prodz (b x k), c x k])

/-- R181: EBLEND writes elem(A, i) where bit W−1 of elem(C, i) is 1 and elem(B, i) otherwise; it decodes nothing, sets no flag and draws
nothing under any slot. -/
def Obligations.Element_blend : Prop :=
  ∀ (s : State) (e : Env) (f : VBody),
    let fm := Fmt.of (e.slot f.fs.toNat)
    let at' := fun (o : Operand) (x : Thread) (k : Nat) => srcElem s e f x o fm.width k
    Issues s e f.toBody { reads := regsOf f.a ++ regsOf f.b ++ regsOf f.c, writes := regsOf f.d } →
    ∃ val : Thread → W64, Delivers (.eblend f) s e f.toBody id val ∧ ∀ x ∈ e.exec f.grd, ∀ k < fm.elems,
      elemOf fm.width k (val x) = (if (at' f.c x k).testBit (fm.width - 1) then at' f.a x k else at' f.b x k)

/-- The other short element words with a result complete when no trap is enabled, and change only D, EFL and the generator of the
executing threads; EMIN, EMAX, ECMPM and ECLASS.m leave the generator alone (R58). EMIN and EMAX choose a code (R175); EABS, ENEG and
ECPYS deliver the signed value in an integer or unsigned slot (R176); ESCALE delivers a × 2^n (R177), for a count beyond ±2^14 what the
count ±2^14 gives; EROUND the integral value of its mode, and in an integer slot its input (R178); ECMPM and ECLASS.m all ones where the
outcome or the class holds (R179, R180); ECVT each source element through its new slot, with the old codes or zeros elsewhere (R182): each
under a slot that draws nothing. So do the lane words, in any state that lets them execute: SHFL, BCAST and VOTE.bal change D alone,
VOTE.all and .any the predicates alone, and a WRED that can raise no enabled flag (R163 to R167). -/
def Obligations.Element_results : Prop :=
  (∀ (s : State) (e : Env) (f : VBody), e.c.trapen = 0 →
    let fm := Fmt.of (e.slot f.fs.toNat)
    let from' := Fmt.of (e.slot f.fs2.toNat)
    let w := fm.width
    let code := fun (o : Operand) (x : Thread) (k : Nat) => srcElem s e f x o w k
    let num := fun (o : Operand) (x : Thread) (k : Nat) => (fm.decode (code o x k)).1
    let cut := fun (o : Operand) (x : Thread) (k : Nat) => (fm.decode (code o x k)).2
    let rounds := fun (v : Val) (fl : Efl) => ((fm.roundTo 0 v).1, (fm.roundTo 0 v).2 ||| fl)
    let ends := fun (i : Instr) (srcs : List Operand) (draws : Bool) (gives : (Thread → W64) → (Thread → Efl) → Prop) =>
      Issues s e f.toBody { reads := srcs.flatMap regsOf, writes := regsOf f.d } →
      ∃ (val : Thread → W64) (fl : Thread → Efl) (s0 s1 : Thread → W64),
        Delivers i s e f.toBody (fun x => { x with efl := x.efl ||| fl x, s0 := s0 x, s1 := s1 x }) val ∧
        (draws = false → ∀ x ∈ e.exec f.grd, s0 x = x.s0 ∧ s1 x = x.s1) ∧ gives val fl
    let each := fun (cond : Prop) (r : Thread → Nat → Nat × Efl) (val : Thread → W64) (fl : Thread → Efl) => cond → ∀ x ∈ e.exec f.grd,
      (∀ k < fm.elems, elemOf w k (val x) = (r x k).1 % 2 ^ w) ∧ ∀ n, (fl x).getLsbD n = true ↔ ∃ k < fm.elems, (r x k).2.getLsbD n = true
    let pick := fun (isMax : Bool) (x : Thread) (k : Nat) =>
      let a := num f.a x k
      let b := num f.b x k
      let both := a.isNan && b.isNan
      let first := b.isNan || (!a.isNan && !(if isMax then valLt true a b else valLt true b a))
      (if both then (fm.nanResult false).1 else if first then fm.inCode (code f.a x k) else fm.inCode (code f.b x k),
       cut f.a x k ||| cut f.b x k ||| flagIf (a == .nan true || b == .nan true) fNV ||| (if both then (fm.nanResult false).2 else 0))
    let signs := fm.stochastic = false ∧ (fm.int = true ∨ fm.sgn = false)
    let count := fun x => max (-16384) (min 16384 (readOp s e f.imm x f.b).toInt)
    ends (.emin f) [f.a, f.b] false (each True (pick false)) ∧ ends (.emax f) [f.a, f.b] false (each True (pick true)) ∧
    ends (.ecmpm f) [f.a, f.b] false (each True fun x k => let c := elemCompare fm f.subop.toNat (code f.a x k) (code f.b x k)
      (if c.1 then 2 ^ w - 1 else 0, c.2)) ∧
    (f.mod3.getLsbD 0 = true → ends (.eclass f) [f.a] false (each True fun x k =>
      (if f.imm.getLsbD (classOf fm (elemOf w k (readOp s e f.imm x f.a))) then 2 ^ w - 1 else 0, 0))) ∧
    ends (.eabs f) [f.a] true (each signs fun x k => rounds (num f.a x k).abs (cut f.a x k)) ∧
    ends (.eneg f) [f.a] true (each signs fun x k => rounds (num f.a x k).neg (cut f.a x k)) ∧
    ends (.ecpys f) [f.a, f.b] true (each signs fun x k =>
      rounds ((num f.a x k).withSign (num f.b x k).sign) (cut f.a x k ||| cut f.b x k)) ∧
    ends (.escale f) [f.a, f.b] true (each (fm.stochastic = false) fun x k => rounds ((num f.a x k).scale (count x)) (cut f.a x k)) ∧
    ends (.eround f) [f.a] true (each (fm.stochastic = false) fun x k => if fm.int then (code f.a x k, 0) else
      rounds (eroundVal fm f.mod3.toNat 0 (num f.a x k)).1 (cut f.a x k ||| (eroundVal fm f.mod3.toNat 0 (num f.a x k)).2)) ∧
    ends (.ecvt f) (if narrows s f then [f.a, f.d] else [f.a]) true (each (fm.stochastic = false) fun x k =>
      match cvtSource fm.elems from'.elems f.sel.toNat k with
      | some j => let v := from'.decode (srcElem s e f x f.a from'.width j)
                  rounds v.1 v.2
      | none => (if from'.elems < fm.elems then elemOf w k (readOp s e f.imm x f.d) else 0, 0))) ∧
  (∀ (s : State) (e : Env) (f : VBody),
    (Issues s e f.toBody { reads := regsOf f.a ++ regsOf f.b, writes := regsOf f.d } → ∀ i ∈ [Instr.shfl f, .bcast f],
      ∃ (t : State) (val : Thread → W64), exec i s = .next t ∧
        ShortEnd s t e f.toBody (fun x => x.deliver f.d (val x)) (kwGives e f.toBody val)) ∧
    (f.subop = 2 → Issues s e f.toBody { writes := regsOf f.d } → ∃ (t : State) (val : Thread → W64), exec (.vote f) s = .next t ∧
      ShortEnd s t e f.toBody (fun x => x.deliver f.d (val x)) (kwGives e f.toBody val)) ∧
    (f.subop ≠ 2 → Issues s e f.toBody {} → ∃ (t : State) (p : Thread → List Bool), exec (.vote f) s = .next t ∧
      ShortEnd s t e f.toBody (fun x => { x with pred := p x }) e.b.kw) ∧
    (e.c.trapen = 0 ∨ f.subop.toNat < 6 → Issues s e f.toBody { reads := regsOf f.a, writes := regsOf f.d } →
      ∃ (t : State) (val : Thread → W64) (fl : Thread → Efl) (s0 s1 : Thread → W64), exec (.wred f) s = .next t ∧
        ShortEnd s t e f.toBody (fun x => ({ x with efl := x.efl ||| fl x, s0 := s0 x, s1 := s1 x }).deliver f.d (val x))
          (kwGives e f.toBody val)))

/-- R176: in a signed floating slot whose NaN is not the negative-zero code, EABS clears, ENEG inverts and ECPYS copies the sign bit of
each code and raises no flag; ECMP and ECLASS.p push their outcome and move no generator (R179, R180). -/
def Obligations.Element_signs_and_tests : Prop :=
  ∀ (s : State) (e : Env) (f : VBody),
    let fm := Fmt.of (e.slot f.fs.toNat)
    let at' := fun (o : Operand) (x : Thread) (k : Nat) => srcElem s e f x o fm.width k
    (fmtValid (e.slot f.fs.toNat) = true → fm.int = false → fm.sgn = true → fm.nan ≠ 3 →
      let gives := fun (i : Instr) (srcs : List Operand) (top : Thread → Nat → Bool) =>
        Issues s e f.toBody { reads := srcs.flatMap regsOf, writes := regsOf f.d } →
        ∃ val : Thread → W64, Delivers i s e f.toBody id val ∧ ∀ x ∈ e.exec f.grd, ∀ k < fm.elems, ∀ n < fm.width,
          (elemOf fm.width k (val x)).testBit n = if n = fm.width - 1 then top x k else (at' f.a x k).testBit n
      gives (.eabs f) [f.a] (fun _ _ => false) ∧
      gives (.eneg f) [f.a] (fun x k => !(at' f.a x k).testBit (fm.width - 1)) ∧
      gives (.ecpys f) [f.a, f.b] (fun x k => (at' f.b x k).testBit (fm.width - 1))) ∧
    (f.mod3.getLsbD 0 = false → Issues s e f.toBody { reads := regsOf f.a } →
      Turns (.eclass f) s e f.toBody (fun x =>
        let c := classOf fm (elemOf fm.width f.sel.toNat (readOp s e f.imm x f.a))
        { x with pred := f.imm.getLsbD c :: x.pred.take 7 })) ∧
    (e.c.trapen = 0 → Issues s e f.toBody { reads := regsOf f.a ++ regsOf f.b } →
      Turns (.ecmp f) s e f.toBody (fun x =>
        let r := elemCompare fm f.subop.toNat (at' f.a x f.sel.toNat) (at' f.b x f.sel.toNat)
        { x with pred := r.1 :: x.pred.take 7, efl := x.efl ||| r.2 }))

/-- R183 to R185: EDOT and ESUMW, and the special-function words while their unit is free (R173), end as long words: one operation for
each executing thread, the flag's count raised, D pending; only the generators of executing threads may move besides, and a
special-function word occupies its quadrant's unit. Where the slot of D draws nothing, EDOT leaves the exact sum of its products, and of
C, rounded once; ESUMW that of all elements of its warp's participants; a special-function word fn of each source element in the places
that ECVT gives them, with the flags of every decode, of fn and of every rounding (R65, R75). -/
def Obligations.Long_element_words : Prop :=
  ∀ (s : State) (e : Env) (f : VBody),
    let n := f.imm.toNat % 16
    let fd := Fmt.of (e.slot f.fs.toNat)
    let fs := Fmt.of (e.slot f.fs2.toNat)
    let total := fun (l : List (Val × Efl)) => let r := fd.roundTo 0 (exactSum fd (l.map (·.1)))
      ([BitVec.ofNat 64 r.1], l.foldl (fun a t => a ||| t.2) r.2)
    (Issues s e f.toBody { reads := regsOf f.a n ++ regsOf f.b n ++ (if f.mod3.getLsbD 0 then regsOf f.c else []),
                           writes := regsOf f.d, long := true } →
      ∃ (t : State) (s0 s1 : Thread → W64), exec (.edot f) s = .next t ∧
        LongEnd s t e f.toBody (regsOf f.d) (fun x => { x with s0 := s0 x, s1 := s1 x }) ∧
        (fd.stochastic = false → Leaves s t e f.toBody fun x => total (((List.range n).flatMap fun r => (List.range fs.elems).map fun i =>
            let a := fs.decode (elemOf fs.width i (regAt x f.a r))
            let b := fs.decode (elemOf fs.width i (regAt x f.b r))
            (a.1.prod b.1, a.2 ||| b.2)) ++
          if f.mod3.getLsbD 0 then [fd.decode (elemOf fd.width 0 (readOp s e f.imm x f.c))] else []))) ∧
    (Issues s e f.toBody { reads := regsOf f.a, writes := regsOf f.d, long := true } →
      ∃ (t : State) (s0 s1 : Thread → W64), exec (.esumw f) s = .next t ∧
        LongEnd s t e f.toBody (regsOf f.d) (fun x => { x with s0 := s0 x, s1 := s1 x }) ∧
        (fd.stochastic = false → Leaves s t e f.toBody fun x => total (((e.exec f.grd).filter (·.warp == x.warp)).flatMap fun y =>
          (List.range fs.elems).map fun i => fs.decode (elemOf fs.width i (readOp s e f.imm y f.a))))) ∧
    (Issues s e f.toBody { reads := regsOf f.a ++ (if narrows s f then regsOf f.d else []), writes := regsOf f.d, long := true } →
      s.sfuUntil.get 0 (quadId e.b.core e.b.quad) ≤ s.cc →
      ∀ i ∈ [(Instr.rcp f, sfuRcp), (.rsq f, sfuRsq), (.sqrt f, sfuSqrt), (.exp2 f, sfuExp2), (.log2 f, sfuLog2), (.sin f, sfuSin),
          (.cos f, sfuCos), (.tanh f, sfuTanh)],
        ∃ (t : State) (s0 s1 : Thread → W64) (val : Thread → W64) (fl : Thread → Efl), exec i.1 s = .next t ∧
          LongEnd s { t with sfuUntil := s.sfuUntil } e f.toBody (regsOf f.d) (fun x => { x with s0 := s0 x, s1 := s1 x }) ∧
          t.sfuUntil = s.sfuUntil.set 0 (quadId e.b.core e.b.quad) (s.cc + sfuTime e f) ∧
          Leaves s t e f.toBody (fun x => ([val x], fl x)) ∧ (fd.stochastic = false → ∀ x ∈ e.exec f.grd,
            let y := fun (j : Nat) => fs.decode (srcElem s e f x f.a fs.width j)
            let takes := cvtSource fd.elems fs.elems f.sel.toNat
            (∀ k < fd.elems, elemOf fd.width k (val x) = match takes k with
              | some j => (fd.roundTo 0 (i.2 (y j).1).1).1 % 2 ^ fd.width
              | none => if fs.elems < fd.elems then elemOf fd.width k (readOp s e f.imm x f.d) else 0) ∧
            ∀ n, (fl x).getLsbD n = true ↔ ∃ k < fd.elems, ∃ j, takes k = some j ∧ let r := i.2 (y j).1
              ((y j).2 ||| r.2 ||| replacedNx fd r.1 ||| (fd.roundTo 0 r.1).2).getLsbD n = true))

/-! ## Control and system words -/

/-- R114, R123, R124, R133, R135, R136, R138, R139: NOP, MEETX, YIELD, NAP, SEED, FLAGRD, FLAGCLR, RFMT and SEGRD in each executing
thread; of several naps of a clause the longest counts, and NAP #0 begins none; SYSRD of a register that its grid may read writes D alone.
That RFMT delivers the slot in force at the clause, whatever WFMT the clause executed before it, is the model's choice (log 12). -/
def Obligations.Thread_state_words : Prop :=
  ∀ (s : State) (e : Env) (f : SBody),
    let a := fun x => readOp s e f.imm x f.a
    let reads := fun (n : Nat) => Issues s e f.toBody { reads := regsOf f.a n }
    (Issues s e f.toBody {} → Turns (.nop f) s e f.toBody id ∧ Turns (.meetx f) s e f.toBody (fun x => { x with mrV := false }) ∧
      Turns (.yield f) s e f.toBody (fun x => { x with yielded := true })) ∧
    (reads 1 → Turns (.nap f) s e f.toBody (fun x => { x with
        napNext := if a x = 0 then x.napNext else some (max (min 65535 (a x).toNat) (x.napNext.getD 0)) }) ∧
      Turns (.flagclr f) s e f.toBody (fun x => { x with efl := x.efl &&& ~~~ ((a x).setWidth 32 &&& 0xFF), eflHeld := (clearEfl (a x) x).eflHeld })) ∧
    (reads 2 → Turns (.seed f) s e f.toBody (fun x =>
      let lo := (readPair x f.a).extractLsb' 0 64
      let hi := (readPair x f.a).extractLsb' 64 64
      { x with s0 := lo, s1 := if lo = 0 ∧ hi = 0 then 1 else hi })) ∧
    (Issues s e f.toBody { writes := regsOf f.d } →
      Delivers (.flagrd f) s e f.toBody id (fun x => x.efl.setWidth 64) ∧
      Delivers (.rfmt f) s e f.toBody id (fun _ => e.b.fmt.getD f.fs.toNat 0) ∧
      Delivers (.segrd f) s e f.toBody id (fun _ => if f.mod3 = 0 then (e.g.launch.sg.getD f.fs.toNat (0, 0)).1
        else if f.mod3 = 1 then (e.g.launch.sg.getD f.fs.toNat (0, 0)).2 else BitVec.ofNat 64 e.g.launch.spad) ∧
      (f.sysreg.toNat < 0x100 ∨ e.g.launch.sys = true → ∃ (t : State) (val : Thread → W64), exec (.sysrd f) s = .next t ∧
        ShortEnd s t e f.toBody (fun x => x.deliver f.d (val x)) (kwGives e f.toBody val)))

/-- R117, R121: LOOP prepares its level where the four checks pass in every executing thread, and raises LOOP in any other case; LBRK
marks threads that have an open level and raises LOOP where one has none. -/
def Obligations.Loop_words : Prop :=
  ∀ (s : State) (e : Env) (f : SBody),
    let start := e.b.addr + BitVec.ofNat 57 (16 * ((Header.of e.b.hdr).len.toNat + 1))
    let last := e.b.addr + BitVec.ofInt 57 (16 * f.imm.toInt)
    let count := fun x => (readOp s e f.imm x f.a).toNat
    let ok := fun (x : Thread) => count x ≤ 0xFFFFFFFF ∧ x.levels.length < 3 ∧ (∀ l ∈ x.levels, l.ctr ≠ f.mod3.toNat) ∧
      start.toNat ≤ last.toNat
    (Issues s e f.toBody { reads := regsOf f.a } →
      ((∀ x ∈ e.exec f.grd, ok x) → Turns (.loop f) s e f.toBody (fun x =>
        { x with newLevel := some ({ ctr := f.mod3.toNat, start := start, last := last }, count x) })) ∧
      ((∃ x ∈ e.exec f.grd, ¬ ok x) → Raises (.loop f) s e fLoop)) ∧
    (Issues s e f.toBody {} →
      ((∀ x ∈ e.exec f.grd, x.levels ≠ []) → Turns (.lbrk f) s e f.toBody (fun x => { x with lbrk := true })) ∧
      ((∃ x ∈ e.exec f.grd, x.levels = []) → Raises (.lbrk f) s e fLoop))

/-- R126: TRAP raises USER_TRAP at its word when a thread executes it, with IMM zero-extended as the operand detail, named with every
executing thread; a TRAP that no thread executes goes on. -/
def Obligations.User_trap : Prop :=
  ∀ (s : State) (e : Env) (f : SBody), Issues s e f.toBody {} →
    (e.exec f.grd ≠ [] → Raises (.trap f) s e fUserTrap ∧
      exec (.trap f) s = .next (raiseAt s e e.b.idx { code := fUserTrap, detail := f.imm.toNat }
        ((e.exec f.grd).map fun x => (x.tid, { code := fUserTrap, detail := f.imm.toNat })))) ∧
    (e.exec f.grd = [] → Turns (.trap f) s e f.toBody id)

/-- R111: MEET forms a meeting of the executing threads at header + 16 × IMM, and each holds it in its meeting register. R137: WFMT writes
the slot of each warp with an executing thread from its last executing lane where the values are valid, and raises FORMAT where one is
not; the clause goes on under the old slot (R32). -/
def Obligations.Meet_and_wfmt : Prop :=
  ∀ (s : State) (e : Env) (f : SBody),
    let j := e.b.addr + BitVec.ofInt 57 (16 * f.imm.toInt)
    let v := fun x => readOp s e f.imm x f.a
    let last := fun (w : Nat) => ((e.exec f.grd).filter fun x => x.warp == w).getLast?
    (Issues s e f.toBody {} → ∃ t m, exec (.meet f) s = .next t ∧ Advanced t e ∧
      t.team? e.t.grid e.t.index = some m ∧ m.meetings.getLast? = some { id := s.nextId, addr := j, members := (e.exec f.grd).map (·.tid) } ∧
      (∀ x ∈ e.exec f.grd, m.thread? x.tid = some { x with mrJ := j, mrV := true, mrRef := s.nextId }) ∧
      (∀ n, (∀ x ∈ e.exec f.grd, x.tid ≠ n) → m.thread? n = e.t.thread? n) ∧ (∀ k a, t.physByte k a = s.physByte k a)) ∧
    (Issues s e f.toBody { reads := regsOf f.a } →
      ((∀ w x, last w = some x → fmtValid (v x) = true) → ∃ t m, exec (.wfmt f) s = .next t ∧ Advanced t e ∧
        t.team? e.t.grid e.t.index = some m ∧ (t.bundle? e.b.id).map (·.fmt) = some e.b.fmt ∧
        (∀ w, m.warp? w = (e.t.warp? w).map fun y => match last w with
          | some x => { y with fmt := y.fmt.set f.fs.toNat (v x) }
          | none => y) ∧
        (∀ n, m.thread? n = e.t.thread? n) ∧ (∀ k a, t.physByte k a = s.physByte k a)) ∧
      ((∃ w x, last w = some x ∧ fmtValid (v x) = false) → Raises (.wfmt f) s e fFormat))

/-- R133, Tables 4-3 to 4-6: SYSRD reads each register of the table, and raises PRIVILEGE for a system register from a grid without the
attribute. -/
def Obligations.System_register_reads : Prop :=
  ∀ (s : State) (e : Env) (f : SBody), Issues s e f.toBody { writes := regsOf f.d } →
    let n := f.sysreg.toNat
    (n < 0x100 ∨ e.g.launch.sys = true → ∃ val, Delivers (.sysrd f) s e f.toBody id val ∧ ∀ x ∈ e.exec f.grd,
      (n = 0x000 → val x = 0x51390200) ∧ (n = 0x001 → val x = BitVec.ofNat 64 e.g.ctx) ∧
      (n = 0x002 → val x = BitVec.ofNat 64 (s.pressure.get 0 (coreNode e.t.core))) ∧
      (n = 0x003 → val x = BitVec.ofNat 64 e.g.depth) ∧
      (n = 0x004 → val x = BitVec.ofNat 64 (e.g.launch.gx + e.g.launch.gy * 2 ^ 32)) ∧
      (n = 0x005 → val x = BitVec.ofNat 64 e.g.launch.gz) ∧
      (n = 0x006 → val x = BitVec.ofNat 64 e.g.launch.wpt) ∧
      (n = 0x007 → val x = BitVec.ofNat 64 (e.t.rank + e.g.launch.coh * 2 ^ 16)) ∧
      (0x010 ≤ n → n ≤ 0x012 → val x = (x.lc.get 0 (n - 0x010)).setWidth 64) ∧
      (n = 0x013 → (∀ d < 8, (val x).getLsbD d = x.pred.getD d false) ∧ (val x).toNat / 256 = min 8 x.pred.length) ∧
      (n = 0x014 → x.mrJ.toNat % 16 = 0 → (val x).toNat = x.mrJ.toNat + if x.mrV then 2 ^ 63 else 0) ∧
      (n = 0x015 → x.calls.length ≤ 16 → x.levels.length ≤ 3 → let c := (x.levels.head?.map (·.ctr)).getD 0
        c < 4 → (val x).toNat = x.calls.length + x.levels.length * 2 ^ 8 + c * 2 ^ 16) ∧
      (n = 0x016 → val x = x.s0) ∧ (n = 0x017 → val x = x.s1) ∧ (n = 0x020 → val x = e.c.trapen) ∧
      (0x100 ≤ n → n < 0x120 → val x = e.c.bp.get 0 (n - 0x100)) ∧ (n = 0x120 → val x = e.c.sstep)) ∧
    (0x100 ≤ n → e.g.launch.sys = false → e.exec f.grd ≠ [] → Raises (.sysrd f) s e fPrivilege)

/-- R133: SYSWR writes a loop counter in each executing thread, a context register with its reserved bits zero under system privilege, and
raises PRIVILEGE for any other register. R134: SNAP asserts the trigger once when the context's enable is 1: unlatched, it latches with
the tag IMM[15:0]; latched in an earlier cc, the snapshot stays and the missed count rises, to at most 65,535. With the enable at 0 it
raises PRIVILEGE. That one SNAP asserts the trigger once for its whole bundle, however many threads execute it, is the model's choice (log
11). -/
def Obligations.System_register_writes : Prop :=
  (∀ (s : State) (e : Env) (f : SBody), Issues s e f.toBody { reads := regsOf f.a } →
     let n := f.sysreg.toNat
     let v := fun x => readOp s e f.imm x f.a
     (0x010 ≤ n → n ≤ 0x012 → Completes (.syswr f) s e ∧ ∀ t, exec (.syswr f) s = .next t →
       (∀ x ∈ e.exec f.grd, t.threadOf e.t.grid e.t.index x.tid = some { x with lc := x.lc.set 0 (n - 0x010) ((v x).setWidth 32) }) ∧
       t.ctxs = s.ctxs ∧ ∀ k a, t.physByte k a = s.physByte k a) ∧
     (n = 0x020 ∨ 0x100 ≤ n → e.g.launch.sys = true → Completes (.syswr f) s e ∧
       ∀ x, e.exec f.grd = [x] → ∃ t, exec (.syswr f) s = .next t ∧ t.threadOf e.t.grid e.t.index x.tid = some x ∧
         t.ctxs = s.ctxs.set {} e.g.ctx (if n = 0x020 then { s.ctx e.g.ctx with trapen := v x &&& 0xFF }
           else if n = 0x120 then { s.ctx e.g.ctx with sstep := v x &&& 0xFFFFFFFF00003FFF }
           else { s.ctx e.g.ctx with bp := (s.ctx e.g.ctx).bp.set 0 (n - 0x100) (v x &&& 0x01FFFFFFFFFFFFF1) })) ∧
     (¬ (0x010 ≤ n ∧ n ≤ 0x012) → ¬ ((n = 0x020 ∨ 0x100 ≤ n) ∧ e.g.launch.sys = true) → e.exec f.grd ≠ [] →
       Raises (.syswr f) s e fPrivilege)) ∧
  (∀ (s : State) (e : Env) (f : SBody), Issues s e f.toBody {} → e.exec f.grd ≠ [] →
     (e.c.snapen = true → Completes (.snap f) s e ∧ ∀ t, exec (.snap f) s = .next t →
       (s.mgmt.snapLatched = false → t.mgmt.snapLatched = true ∧ t.mgmt.snapTag = f.imm.toNat % 2 ^ 16 ∧ t.mgmt.snapCore = e.t.core ∧
         t.mgmt.snapMissed = s.mgmt.snapMissed) ∧
       (s.mgmt.snapLatched = true → s.mgmt.snapCc ≠ s.cc → t.mgmt = { s.mgmt with snapMissed := min 65535 (s.mgmt.snapMissed + 1) }) ∧
       ∀ k a, t.physByte k a = s.physByte k a) ∧
     (e.c.snapen = false → Raises (.snap f) s e fPrivilege))

/-! ## Terminals -/

/-- R91, R108, R112: fall, jmp and brp in threads without a loop mark or a prepared level: the successor, TGTA, or TGTA or TGTB by the
popped depth 0; brp sets the meeting of the whole bundle at JOIN. -/
def Obligations.Branch_terminals : Prop :=
  ∀ (s : State) (e : Env) (h : Header), s.env? = some e → (∀ x ∈ e.threads, x.lbrk = false ∧ x.newLevel = none) →
    let tgt := fun (w : BitVec 16) => e.b.addr + BitVec.ofInt 57 (16 * w.toInt)
    Ends (.fall h) s e (fun x => { x with pc := e.b.addr + BitVec.ofNat 57 (16 * ((Header.of e.b.hdr).len.toNat + 1)) }) ∧
    Ends (.jmp h) s e (fun x => { x with pc := tgt h.tgta }) ∧
    Ends (.brp h) s e (fun x => { x with pred := x.pred.drop 1, pc := tgt (if x.pred.headD false then h.tgta else h.tgtb),
                                         mrV := true, mrJ := tgt h.join })

/-- R14, R116, R120: call pushes the return address with the number of open levels, up to 16 entries, and ret pops it where the numbers
agree; endl counts the innermost level down and loops, or closes it. Each raises its fault of kind 2 where a check fails in a thread. -/
def Obligations.Stack_terminals : Prop :=
  ∀ (s : State) (e : Env) (h : Header), s.env? = some e → (∀ x ∈ e.threads, x.lbrk = false ∧ x.newLevel = none) →
    let tgt := fun (w : BitVec 16) => e.b.addr + BitVec.ofInt 57 (16 * w.toInt)
    let traps := fun (i : Instr) (code : Nat) => ∃ t, exec i s = .next t ∧ Faulted s t e code 2
    ((∀ x ∈ e.threads, x.calls.length < 16) → Ends (.call h) s e (fun x =>
      { x with calls := (tgt h.tgtb, x.levels.length) :: x.calls, pc := tgt h.tgta })) ∧
    ((∃ x ∈ e.threads, 16 ≤ x.calls.length) → traps (.call h) fCallDepth) ∧
    ((∀ x ∈ e.threads, (x.calls.head?).map (·.2) = some x.levels.length) → Ends (.ret h) s e (fun x =>
      { x with calls := x.calls.drop 1, pc := ((x.calls.head?).map (·.1)).getD 0 })) ∧
    (e.threads ≠ [] → (∀ x ∈ e.threads, x.calls = []) → traps (.ret h) fCallDepth) ∧
    (e.threads ≠ [] → (∀ x ∈ e.threads, ∃ a n r, x.calls = (a, n) :: r ∧ n ≠ x.levels.length) → traps (.ret h) fLoop) ∧
    ((∀ x ∈ e.threads, (x.levels.head?).map (·.last) = some e.b.addr) → Ends (.endl h) s e (fun x =>
      let lv := x.levels.headD {}
      let c := x.lc.get 0 lv.ctr
      let past := e.b.addr + BitVec.ofNat 57 (16 * ((Header.of e.b.hdr).len.toNat + 1))
      if c = 0 then { x with levels := x.levels.drop 1, pc := past }
      else if c = 1 then { x with lc := x.lc.set 0 lv.ctr 0, levels := x.levels.drop 1, pc := past }
      else { x with lc := x.lc.set 0 lv.ctr (c - 1), pc := lv.start })) ∧
    ((∃ x ∈ e.threads, (x.levels.head?).map (·.last) ≠ some e.b.addr) → traps (.endl h) fLoop)

/-- R118, R121: at the end of a clause a thread that executed LOOP opens its level and goes to the body start, or with a count of zero
passes over the body; a marked thread closes its innermost level, keeps the counter, and goes past its end, whatever the terminal. That
the boundary after the body end is reckoned from the word fetched there, whether or not it carries a header's marker, is the model's
choice (log 10). -/
def Obligations.Loop_boundary : Prop :=
  ∀ (s : State) (e : Env) (h : Header), s.env? = some e →
    (∀ (lv : Level) (n : Nat), n < 2 ^ 32 → (∀ x ∈ e.threads, x.lbrk = false ∧ x.newLevel = some (lv, n)) →
      (n ≠ 0 → Ends (.fall h) s e (fun x => { x with newLevel := none, lc := x.lc.set 0 lv.ctr (BitVec.ofNat 32 n),
                                                     levels := lv :: x.levels, pc := lv.start })) ∧
      (n = 0 → ∀ w, fetchWord s e.t.core e.g.ctx (vaOf lv.last) = .ok w → Ends (.fall h) s e (fun x =>
        { x with newLevel := none, lc := x.lc.set 0 lv.ctr 0, pc := lv.last + BitVec.ofNat 57 (16 * ((Header.of w).len.toNat + 1)) }))) ∧
    (∀ (lv : Level) (w : W128), fetchWord s e.t.core e.g.ctx (vaOf lv.last) = .ok w →
      (∀ x ∈ e.threads, x.lbrk = true ∧ x.levels.head? = some lv) → ∀ i ∈ [Instr.fall h, .jmp h, .endl h],
      Ends i s e (fun x => { x with lbrk := false, newLevel := none, levels := x.levels.drop 1,
                                    pc := lv.last + BitVec.ofNat 57 (16 * ((Header.of w).len.toNat + 1)) }))

/-- R92, R115: brx goes to code base plus the value of the register that the last word's D field names, where it is ready, a multiple of
16 and in the address space, and raises ALIGNMENT of kind 2 where a value is not; exit ends every thread of its bundle. -/
def Obligations.Brx_and_exit : Prop :=
  ∀ (s : State) (e : Env) (h : Header), s.env? = some e →
    let o := Operand.ofField (fieldOf 10 99 (e.b.words.getLastD 0))
    let v := fun x => readOp s e 0 x o
    let a := fun x => e.g.launch.code.signExtend 64 + v x
    let ready := ∀ x ∈ e.threads, x.lbrk = false ∧ x.newLevel = none ∧ ∀ r ∈ regsOf o, x.pend.get none r = none
    (ready → (∀ x ∈ e.threads, (v x).toNat % 16 = 0 ∧ canonical (a x).toNat = true) →
      Ends (.brx h) s e (fun x => { x with pc := (a x).setWidth 57 })) ∧
    (ready → e.threads ≠ [] → (∀ x ∈ e.threads, (v x).toNat % 16 ≠ 0) → ∃ t, exec (.brx h) s = .next t ∧ Faulted s t e fAlignment 2) ∧
    (e.t.insts = [] → ∃ t, exec (.exit h) s = .next t ∧ t.cur = none ∧ t.bundle? e.b.id = none ∧
      (∀ x ∈ e.threads, ∃ y, t.threadOf e.t.grid e.t.index x.tid = some y ∧ y.place = .exited ∧ y.mrV = false) ∧
      (∀ n, (∀ x ∈ e.threads, x.tid ≠ n) → t.threadOf e.t.grid e.t.index n = e.t.thread? n) ∧ t.reqs = s.reqs ∧
      (t.ops.map (·.id)) = s.ops.map (·.id) ∧ ∀ m b, t.physByte m b = s.physByte m b)

/-! ## Scratchpad -/

/-- R36, R191, R192, R194 to R197: a scratchpad load that fits its limit, is aligned and finds no poison leaves an operation that holds
the little-endian value, zero- or sign-extended, of 16 bytes as two registers, the low one first; SLDW one word of 8 bytes for each
register; SLDP the elements of its slot, packed from element 0 on, from the bits they hold in the stream. One beyond the limit raises
SEGMENT_LIMIT, else one not aligned raises ALIGNMENT. That the value is the one at issue (log 14) and that the limit is checked before the
alignment (log 49) are the model's choice. -/
def Obligations.Scratchpad_loads : Prop :=
  ∀ (s : State) (e : Env) (f : LBody),
    let n := 2 ^ f.sz.toNat
    let off := fun x => memOffset s e x f
    let words := (f.opx.extractLsb' 0 4).toNat + 1
    let packed := fun x => packedOf s e x f
    (f.sz.toNat ≤ 4 → Issues s e f.toBody { reads := regsOf f.a, writes := regsOf f.d (spanOf n), long := true, bank := true } →
      ((∀ x ∈ e.exec f.grd, off x + n ≤ e.g.launch.spad ∧ off x % n = 0 ∧ e.t.spadPoisoned (off x) n = false) →
        ∃ t, exec (.sld f) s = .next t ∧ LongEnd s t e f.toBody (regsOf f.d (spanOf n)) id ∧ Leaves s t e f.toBody fun x =>
          let v := leNat (e.t.spadBytes (off x) n)
          (if n = 16 then [BitVec.ofNat 64 v, BitVec.ofNat 64 (v / 2 ^ 64)]
           else [BitVec.ofInt 64 (if f.mod3.getLsbD 0 then signedOf (8 * n) v else v)], 0)) ∧
      (∀ x, e.exec f.grd = [x] → e.g.launch.spad < off x + n → Raises (.sld f) s e fSegmentLimit) ∧
      (∀ x, e.exec f.grd = [x] → off x + n ≤ e.g.launch.spad → off x % n ≠ 0 → Raises (.sld f) s e fAlignment)) ∧
    (Issues s e f.toBody { reads := regsOf f.a, writes := regsOf f.d words, long := true, bank := true } →
      (∀ x ∈ e.exec f.grd, off x + 8 * words ≤ e.g.launch.spad ∧ off x % 8 = 0 ∧ e.t.spadPoisoned (off x) (8 * words) = false) →
      ∃ t, exec (.sldw f) s = .next t ∧ LongEnd s t e f.toBody (regsOf f.d words) id ∧ Leaves s t e f.toBody fun x =>
        ((List.range words).map fun i => BitVec.ofNat 64 (leNat (e.t.spadBytes (off x + 8 * i) 8)), 0)) ∧
    (Issues s e f.toBody { reads := regsOf f.a ++ regsOf f.b, writes := regsOf f.d, long := true, bank := true } →
      (∀ x ∈ e.exec f.grd, off x + ((packed x).first + (packed x).len) ≤ e.g.launch.spad ∧
        e.t.spadPoisoned (off x + (packed x).first) (packed x).len = false) →
      ∃ (t : State) (val : Thread → W64), exec (.sldp f) s = .next t ∧ LongEnd s t e f.toBody (regsOf f.d) id ∧
        Leaves s t e f.toBody (fun x => ([val x], 0)) ∧ ∀ x ∈ e.exec f.grd, let p := packed x
          (val x).toNat < 2 ^ (p.w * p.cnt) ∧ ∀ i < p.cnt, p.w * (i + 1) ≤ 64 →
            elemOf p.w i (val x) = leNat (e.t.spadBytes (off x + p.first) p.len) / 2 ^ (p.bit + p.w * i) % 2 ^ p.w)

/-- R193, R195 to R198: a scratchpad store that fits and is aligned writes its bytes, SST the low bytes of its data, SSTW 8 for each
register, SSTP the bits of its elements alone; where several threads store to a byte, or under SSTP to a bit, the last of them in (warp
slot, lane) order leaves its own; every other byte and bit is unchanged; a store beyond the limit raises SEGMENT_LIMIT. That the bytes are
written at once (log 14) and that SEGMENT_LIMIT is raised whatever the alignment (log 49) are the model's choice. -/
def Obligations.Scratchpad_stores : Prop :=
  ∀ (s : State) (e : Env) (f : LBody), SMap.wf 0 e.t.spad = true →
    let n := 2 ^ f.sz.toNat
    let off := fun x => memOffset s e x f
    let words := (f.opx.extractLsb' 0 4).toNat + 1
    let packed := fun x => packedOf s e x f
    let outside := fun (i : Instr) (at' len : Thread → Nat) =>
      Completes i s e ∧ ∀ t, exec i s = .next t → ∃ m, t.team? e.t.grid e.t.index = some m ∧
        (∀ a, (∀ x ∈ e.exec f.grd, a < at' x ∨ at' x + len x ≤ a) → m.spad.get 0 a = e.t.spad.get 0 a) ∧
        (∀ k, m.thread? k = e.t.thread? k) ∧ t.ops = s.ops ∧ (∀ k a, t.physByte k a = s.physByte k a) ∧
        (∀ g j, (g, j) ≠ (e.t.grid, e.t.index) → t.team? g j = s.team? g j)
    let inside := fun (i : Instr) (len : Thread → Nat) (byte : Thread → Nat → Byte) => ∀ t, exec i s = .next t →
      ∃ m, t.team? e.t.grid e.t.index = some m ∧ ∀ a x, ((e.exec f.grd).filter fun x => off x ≤ a && a < off x + len x).getLast? = some x →
        m.spad.get 0 a = byte x (a - off x)
    (f.sz.toNat ≤ 4 → Issues s e f.toBody { reads := regsOf f.a ++ regsOf f.b (spanOf n), bank := true } →
      ((∀ x ∈ e.exec f.grd, off x + n ≤ e.g.launch.spad ∧ off x % n = 0) →
        outside (.sst f) off (fun _ => n) ∧ inside (.sst f) (fun _ => n) fun x j => BitVec.ofNat 8 (dataOf s e x f f.b n / 256 ^ j)) ∧
      (∀ x, e.exec f.grd = [x] → e.g.launch.spad < off x + n → Raises (.sst f) s e fSegmentLimit)) ∧
    (Issues s e f.toBody { reads := regsOf f.a ++ regsOf f.b words, bank := true } →
      (∀ x ∈ e.exec f.grd, off x + 8 * words ≤ e.g.launch.spad ∧ off x % 8 = 0) →
      outside (.sstw f) off (fun _ => 8 * words) ∧
      inside (.sstw f) (fun _ => 8 * words) fun x j => BitVec.ofNat 8 ((regPlus x f.b (j / 8)).toNat / 256 ^ (j % 8))) ∧
    (Issues s e f.toBody { reads := regsOf f.a ++ regsOf f.b ++ regsOf f.c, bank := true } →
      (∀ x ∈ e.exec f.grd, off x + ((packed x).first + (packed x).len) ≤ e.g.launch.spad) →
      outside (.sstp f) (fun x => off x + (packed x).first) (fun x => (packed x).len) ∧
      ∀ t, exec (.sstp f) s = .next t → ∃ m, t.team? e.t.grid e.t.index = some m ∧ ∀ a, ∀ b < 8,
        let bit := fun x => 8 * (off x + (packed x).first) + (packed x).bit
        let last := ((e.exec f.grd).filter fun x => bit x ≤ 8 * a + b && 8 * a + b < bit x + (packed x).w * (packed x).cnt).getLast?
        (m.spad.get 0 a).getLsbD b = match last with
          | some x => let k := 8 * a + b - bit x
                      (elemOf (packed x).w (k / (packed x).w) (readOp s e f.imm x f.c)).testBit (k % (packed x).w)
          | none => (e.t.spad.get 0 a).getLsbD b)

/-- R199, R220: cohort loads, stores and atomics, and SATOM, complete where the rank is below the cohort size and the access fits and is
aligned; a CST to the own scratchpad writes its bytes there, one to a mate sends them to its core; SATOM.add leaves the sum at the bank
and answers the old value; a rank at or beyond the size raises COHORT. That an access acts and answers at issue, a CST to a mate apart
(log 14), and that COHORT is raised before the limit and the alignment are checked (log 49) are the model's choice. -/
def Obligations.Cohort_and_bank_words : Prop :=
  ∀ (s : State) (e : Env) (f : LBody), f.sz.toNat ≤ 4 →
    let n := 2 ^ f.sz.toNat
    let off := fun x => memOffset s e x f
    let rank := fun x => (readOp s e 0 x f.c).toNat
    let fits := fun x => off x + n ≤ e.g.launch.spad ∧ off x % n = 0
    let peerClean := fun x => (peerNow s e (rank x)).spadPoisoned (off x) n = false
    (Issues s e f.toBody { reads := regsOf f.a ++ regsOf f.c, writes := regsOf f.d (spanOf n), long := true, bank := true } →
      ((∀ x ∈ e.exec f.grd, rank x < e.g.launch.coh ∧ fits x ∧ peerClean x) → Completes (.cld f) s e ∧ ((∀ p ∈ s.packets, p.mateStore = false) →
        ∃ t l, exec (.cld f) s = .next t ∧ LongEnd s { t with packets := s.packets } e f.toBody (regsOf f.d (spanOf n)) id ∧
          t.packets = s.packets ++ l ∧ l.map (·.op) = (t.ops.drop s.ops.length).map (fun o => some o.id) ∧
          ∀ p ∈ l, p.kind = 0 ∧ p.src = coreNode e.t.core)) ∧
      (∀ x, e.exec f.grd = [x] → e.g.launch.coh ≤ rank x → Raises (.cld f) s e fCohort)) ∧
    (Issues s e f.toBody { reads := regsOf f.a ++ regsOf f.b (spanOf n) ++ regsOf f.c, bank := true } →
      (∀ x ∈ e.exec f.grd, rank x < e.g.launch.coh ∧ fits x) →
      Completes (.cst f) s e ∧ ∀ t, exec (.cst f) s = .next t → (∀ k a, t.physByte k a = s.physByte k a) ∧ ∀ x, e.exec f.grd = [x] →
        (peerIndex e (rank x) = e.t.index → SMap.wf 0 e.t.spad = true → ∃ m, t.team? e.t.grid e.t.index = some m ∧
          (∀ j < n, m.spad.get 0 (off x + j) = BitVec.ofNat 8 (dataOf s e x f f.b n / 256 ^ j)) ∧
          ∀ a, a < off x ∨ off x + n ≤ a → m.spad.get 0 a = e.t.spad.get 0 a) ∧
        (peerIndex e (rank x) ≠ e.t.index → ∃ p, t.packets.getLast? = some p ∧ p.kind = 1 ∧ p.grid = e.t.grid ∧ p.team = peerIndex e (rank x) ∧
          p.offset = off x ∧ p.data = leBytes n (dataOf s e x f f.b n) ∧ (t.team? e.t.grid e.t.index).map (·.spad) = some e.t.spad)) ∧
    (Issues s e f.toBody { atomUse f true with bank := true } → (∀ x ∈ e.exec f.grd, rank x < e.g.launch.coh ∧ fits x ∧ peerClean x) →
      Completes (.catom f) s e ∧ ∀ t, exec (.catom f) s = .next t → ∀ k a, t.physByte k a = s.physByte k a) ∧
    (Issues s e f.toBody { atomUse f with bank := true } → (∀ x ∈ e.exec f.grd, fits x ∧ e.t.spadPoisoned (off x) n = false) →
      Completes (.satom f) s e ∧ ∀ x t, e.exec f.grd = [x] → exec (.satom f) s = .next t → f.opx = 0 → f.sz.toNat ≤ 3 →
        SMap.wf 0 e.t.spad = true →
        let old := leNat (e.t.spadBytes (off x) n)
        ∃ m, t.team? e.t.grid e.t.index = some m ∧
          leNat (m.spadBytes (off x) n) = (old + dataOf s e x f f.b n) % 2 ^ (8 * n) ∧
          ∀ d, f.d = .v d → (t.ops.getLast?).map (·.dst) = some [(d.val, BitVec.ofNat 64 old)])

/-- R214: WELLINIT of one well by threads with equal values sets COUNT to 0, TARGET to B[31:0], ARMED to 1 and clears ERR and the error
record, and leaves GEN and the reserved bits; a target of 0 raises WELL with detail 2. That the well stands changed in the state after the
word is issued is the model's choice (log 14). -/
def Obligations.Well_initialisation : Prop :=
  ∀ (s : State) (e : Env) (f : LBody) (o v : Nat), SMap.wf 0 e.t.spad = true →
    Issues s e f.toBody { reads := regsOf f.a ++ regsOf f.b, bank := true } → e.exec f.grd ≠ [] →
    (∀ x ∈ e.exec f.grd, memOffset s e x f = o ∧ (readOp s e f.imm x f.b).toNat % 2 ^ 32 = v) →
    o + 32 ≤ e.g.launch.spad → o % 32 = 0 →
    (v ≠ 0 → Completes (.wellinit f) s e ∧ ∀ t, exec (.wellinit f) s = .next t → ∃ m, t.team? e.t.grid e.t.index = some m ∧
      m.well o = { e.t.well o with count := 0, target := v, armed := true, err := false, ebytes := 0, ecode := 0, eeng := 0 } ∧
      (∀ a, a < o ∨ o + 32 ≤ a → m.spad.get 0 a = e.t.spad.get 0 a) ∧ ∀ k, m.thread? k = e.t.thread? k) ∧
    (v = 0 → Raises (.wellinit f) s e fWell ∧ exec (.wellinit f) s = .next (raiseAt s e e.b.idx { code := fWell, detail := 2 }
      ((e.exec f.grd).map fun x => (x.tid, { code := fWell, detail := 2 }))))

/-- R215, R216: ARRIVE at an armed well of the own scratchpad adds its units and advances GEN by the generations passed; at a peer it
leaves a well arrival to be sent; an unarmed own well raises WELL. WAITG gives GEN and the flags in D. That an ARRIVE adds its units to
the own well at issue is the model's choice (log 14). -/
def Obligations.Well_arrival_and_wait : Prop :=
  ∀ (s : State) (e : Env) (f : LBody),
    let off := fun x => memOffset s e x f
    let units := fun x => (readOp s e f.imm x f.b).toNat % 2 ^ 32
    let well := fun x => e.t.well (off x)
    let fits := fun x => off x + 32 ≤ e.g.launch.spad ∧ off x % 32 = 0
    let clean := fun x => e.t.spadPoisoned (off x) 32 = false
    (f.mod3.getLsbD 0 = false → Issues s e f.toBody { reads := regsOf f.a ++ regsOf f.b, bank := true } →
      ((∀ x ∈ e.exec f.grd, fits x ∧ clean x ∧ (well x).armed = true ∧ (well x).target ≠ 0) → Completes (.arrive f) s e ∧
        ∀ x t, e.exec f.grd = [x] → exec (.arrive f) s = .next t → s.quiet → SMap.wf 0 e.t.spad = true →
          ∃ m, t.team? e.t.grid e.t.index = some m ∧ m.well (off x) = { well x with
            count := ((well x).count + units x) % (well x).target
            gen := ((well x).gen + ((well x).count + units x) / (well x).target) % 2 ^ 32 }) ∧
      (∀ x, e.exec f.grd = [x] → fits x → clean x → (well x).armed = false → Raises (.arrive f) s e fWell)) ∧
    (f.mod3.getLsbD 0 = true → Issues s e f.toBody { reads := regsOf f.a ++ regsOf f.b ++ regsOf f.c, bank := true } →
      (∀ x ∈ e.exec f.grd, fits x ∧ (readOp s e 0 x f.c).toNat < e.g.launch.coh) → Completes (.arrive f) s e ∧
        ∀ x t, e.exec f.grd = [x] → exec (.arrive f) s = .next t → s.quiet → ∃ p, t.packets = s.packets ++ [p] ∧
          p.kind = 7 ∧ p.arrive = some (off x, units x) ∧ p.grid = e.t.grid) ∧
    (Issues s e f.toBody { reads := regsOf f.a ++ regsOf f.b, writes := regsOf f.d, bank := true } →
      (∀ x ∈ e.exec f.grd, fits x ∧ clean x) → Completes (.waitg f) s e ∧
        ∀ t, exec (.waitg f) s = .next t → ∀ x ∈ e.exec f.grd, ∀ d, f.d = .v d →
          (t.threadOf e.t.grid e.t.index x.tid).map (·.v) = some (x.v.set 0 d.val (waitgValue (well x))))

/-! ## Queues -/

/-- R201, R203, R204, R206: QLD, QLDP, QST, QSTP and QPOP complete where the queue is configured for them, has room or an entry, and the
access passes its checks; loads and stores put one request for each executing thread in flight, and no byte of memory changes yet; a QPOP
whose entry has its data, and no other before it, leaves an operation that holds them. A QPOP of an empty LOAD FIFO raises QUEUE; of an
empty engine-fed FIFO it waits at its word while the slice runs and raises QUEUE after it. That an entry which an earlier QPOP has taken
no longer counts there is the model's choice (log 47). -/
def Obligations.Decoupling_queues : Prop :=
  ∀ (s : State) (e : Env) (f : LBody),
    let n := 2 ^ f.sz.toNat
    let off := fun x => memOffset s e x f
    let lim := (e.g.seg f.seg.toNat).2.toNat
    let va := fun (o : Nat) => ((e.g.seg f.seg.toNat).1.toNat + o) % 2 ^ 64
    let p := fun x => packedOf s e x f
    let kind := fun (k : Nat) => f.qn.toNat < e.g.launch.queues ∧ (queueNow e.t f).kind = k
    let fifo := fun (x : Thread) => (queueNow e.t f).fifo x.tid
    let sends := fun (i : Instr) => Completes i s e ∧ ∀ t, exec i s = .next t → (∃ l, t.reqs = s.reqs ++ l ∧
      l.map (·.agent) = (e.exec f.grd).map fun x => Agent.thread e.t.grid e.t.index x.tid) ∧ ∀ k a, t.physByte k a = s.physByte k a
    let room := fun (x : Thread) => fifoHeld (fifo x) < (queueNow e.t f).depth
    let space := fun (x : Thread) => (fifo x).entries.length < (queueNow e.t f).depth
    (Issues s e f.toBody { reads := regsOf f.a } → kind 1 →
      (∀ x ∈ e.exec f.grd, room x ∧ off x + n ≤ lim ∧ va (off x) % n = 0) → sends (.qld f)) ∧
    (Issues s e f.toBody { reads := regsOf f.a ++ regsOf f.b } → kind 1 →
      (∀ x ∈ e.exec f.grd, room x ∧ off x + ((p x).first + (p x).len) ≤ lim) → sends (.qldp f)) ∧
    (Issues s e f.toBody { reads := regsOf f.a ++ regsOf f.b (spanOf n), long := true } → kind 3 →
      (∀ x ∈ e.exec f.grd, space x ∧ off x + n ≤ lim ∧ va (off x) % n = 0 ∧
        ∃ l, translateRange s e.t.core e.g.ctx (va (off x)) n .write = .ok l) → sends (.qst f)) ∧
    (Issues s e f.toBody { reads := regsOf f.a ++ regsOf f.b ++ regsOf f.c, long := true } → kind 3 →
      (∀ x ∈ e.exec f.grd, space x ∧ off x + ((p x).first + (p x).len) ≤ lim ∧
        ∃ l, translateRange s e.t.core e.g.ctx ((va (off x) + (p x).first) % 2 ^ 64) (p x).len .write = .ok l) → sends (.qstp f)) ∧
    (Issues s e f.toBody { writes := regsOf f.d (spanOf n), long := true } → (kind 1 ∨ kind 2) →
      (∀ x ∈ e.exec f.grd, ∃ y r, unclaimed (fifo x) = y :: r ∧ y.bytes = n ∧ y.poison = none) → Completes (.qpop f) s e ∧
        ∀ x t y r d, e.exec f.grd = [x] → exec (.qpop f) s = .next t → (fifo x).entries = y :: r → y.claimed = none → y.ready = true → f.d = .v d →
          let a := slotAddr (queueNow e.t f) x.tid y.slot
          e.t.spadPoisoned a (if n = 16 then 16 else 8) = false → (t.ops.getLast?).map (fun o => (o.wait, o.poison, o.dst)) = some (.ready, none,
            if n = 16 then [(d.val, BitVec.ofNat 64 (leNat (e.t.spadBytes a 8))), (d.val + 1, BitVec.ofNat 64 (leNat (e.t.spadBytes (a + 8) 8)))]
            else [(d.val, BitVec.ofNat 64 (leNat (e.t.spadBytes a 8)))])) ∧
    (Issues s e f.toBody { writes := regsOf f.d (spanOf n), long := true } →
      (∀ x, e.exec f.grd = [x] → (kind 1 ∨ (kind 2 ∧ e.t.accessEnded = true)) → unclaimed (fifo x) = [] → Raises (.qpop f) s e fQueue) ∧
      (∀ x, e.exec f.grd = [x] → kind 2 → e.t.accessEnded = false → unclaimed (fifo x) = [] → exec (.qpop f) s = .next (stallWord s)) ∧
      (e.exec f.grd ≠ [] → e.g.launch.queues ≤ f.qn.toNat → Raises (.qpop f) s e fQueue))

/-- R201, R207, R209, R210: QCFG configures a queue that is not in use, of each kind of Table 7-2, or frees it, and raises QUEUE on one in
use; PUSH and POP complete on a named queue where their bundle holds a reservation on it, and raise QUEUE where it holds none: a PUSH puts
its value behind the others and takes one unit of allowance, a POP takes the oldest into D; QTRY pops a value that no reservation claims
into D and pushes true, else writes 0 and pushes false; QALLOW adds to the allowance where it stays within depth − occupancy, and raises
QUEUE otherwise. -/
def Obligations.Named_queues : Prop :=
  ∀ (s : State) (e : Env) (f : LBody),
    let q := queueNow e.t f
    let named := f.qn.toNat < e.g.launch.queues ∧ q.kind = 4
    let after := fun (i : Instr) (r : Queue) => ∀ t, exec i s = .next t → ∃ m, t.team? e.t.grid e.t.index = some m ∧ queueNow m f = r
    let holds := fun (push : Bool) => ∃ r ∈ e.b.resv, r.1 = f.qn.toNat ∧ 0 < if push then r.2.2 else r.2.1
    let oldest := BitVec.ofNat 64 (leNat (e.t.spadBytes (q.base + 8 * q.head) 8))
    let popped := { q with head := (q.head + 1) % max 1 q.depth, occ := q.occ - 1 }
    let dGets := fun (i : Instr) (v : W64) (p : Thread → List Bool) => ∀ t, exec i s = .next t → ∀ x ∈ e.exec f.grd, ∃ y,
      t.threadOf e.t.grid e.t.index x.tid = some y ∧ y.pred = p x ∧ y.v = (match f.d with
        | .v d => x.v.set 0 d.val v
        | _ => x.v)
    (Issues s e f.toBody {} → ∀ x, (e.exec f.grd).getLast? = some x →
      let base := memOffset s e x f
      let depth := (readOp s e f.imm x f.b).toNat
      let kind := f.mod3.toNat
      let size := if kind = 4 then 8 * depth else 512 * e.g.launch.wpt * depth
      f.qn.toNat < e.g.launch.queues → kind ≤ 4 →
      (kind = 0 ∨ (1 ≤ depth ∧ depth ≤ (if kind = 4 then 4096 else 32) ∧ base % 256 = 0 ∧ base + size ≤ e.g.launch.spad ∧
        ∀ y ∈ e.t.queues, y.n = q.n ∨ y.kind = 0 ∨ y.base + regionBytes e y.kind y.depth ≤ base ∨ base + size ≤ y.base)) →
      (queueBusy s e.t q = false → Completes (.qcfg f) s e ∧ after (.qcfg f) (if kind = 0 then { n := f.qn.toNat } else
        { n := f.qn.toNat, kind, depth, base, allow := if kind = 4 then depth else 0 })) ∧
      (queueBusy s e.t q = true → Raises (.qcfg f) s e fQueue)) ∧
    (Issues s e f.toBody { reads := regsOf f.b } → named → e.exec f.grd ≠ [] →
      (holds true → Completes (.push f) s e ∧ (s.quiet → after (.push f) { q with occ := q.occ + 1, allow := q.allow - 1 } ∧
        (SMap.wf 0 e.t.spad = true → ∀ x t, (e.exec f.grd).getLast? = some x → exec (.push f) s = .next t → ∃ m,
          t.team? e.t.grid e.t.index = some m ∧ let a := q.base + 8 * ((q.head + q.occ) % max 1 q.depth)
            m.spadBytes a 8 = leBytes 8 (readOp s e f.imm x f.b).toNat ∧ ∀ b, b < a ∨ a + 8 ≤ b → m.spad.get 0 b = e.t.spad.get 0 b))) ∧
      (¬ holds true → Raises (.push f) s e fQueue)) ∧
    (Issues s e f.toBody { writes := regsOf f.d } → named → e.exec f.grd ≠ [] →
      (holds false → Completes (.pop f) s e ∧ dGets (.pop f) oldest (·.pred) ∧ (s.quiet → after (.pop f) popped)) ∧
      (¬ holds false → Raises (.pop f) s e fQueue) ∧
      Completes (.qtry f) s e ∧
      ((reserved s e.t q.n).1 < q.occ → dGets (.qtry f) oldest (fun x => true :: x.pred.take 7) ∧ (s.quiet → after (.qtry f) popped)) ∧
      (q.occ ≤ (reserved s e.t q.n).1 → after (.qtry f) q ∧ dGets (.qtry f) 0 (fun x => false :: x.pred.take 7))) ∧
    (Issues s e f.toBody { reads := regsOf f.b } → named → ∀ x, (e.exec f.grd).getLast? = some x →
      let n := (readOp s e f.imm x f.b).toNat
      (q.allow + n ≤ q.depth - q.occ → Completes (.qallow f) s e ∧ after (.qallow f) { q with allow := q.allow + n }) ∧
      (q.depth - q.occ < q.allow + n → Raises (.qallow f) s e fQueue))

/-! ## Nesting and hints -/

/-- R97, R129, R130, Table 4-2: a hint word advances; JOINC reads the count of faulted children and clears it; POST combines its value
into the grid's result word. R127, R128: SPAWN by thread 0 of a grid less than 10 deep, of an aligned packet that is readable once the
thread's earlier accesses have been released, completes with the status of Table 4-1 in D, and a status of 0 says that a child grid of its
team one level deeper has been accepted; whatever the status, PARENT stands in the packet where its page may be written (written before
the checks, R128) and no other byte changes; deeper grids and other threads raise NESTING, an unaligned packet ALIGNMENT. That PARENT is
written only where its page may be written, that SPAWN is not refused where it may not, and that the write marks no page dirty is the
model's choice (log 79). -/
def Obligations.Nesting_words : Prop :=
  (∀ (s : State) (e : Env) (f : SBody),
     let v := fun x => readOp s e f.imm x f.a
     let still := fun (t : State) => (∀ k a, t.physByte k a = s.physByte k a) ∧
       ∀ n, (t.threadOf e.t.grid e.t.index n).map (fun y => (y.pred, y.pc, y.place)) = (e.t.thread? n).map fun y => (y.pred, y.pc, y.place)
     (s.env? = some e → ∀ a b, ∃ t, exec (.hintWord a b) s = .next t ∧ ShortEnd s t e {} id e.b.kw) ∧
     (Issues s e f.toBody { writes := regsOf f.d } → Completes (.joinc f) s e ∧ ∀ t, exec (.joinc f) s = .next t → still t ∧
       (e.exec f.grd ≠ [] → (t.team? e.t.grid e.t.index).map (·.faulted) = some 0) ∧
       ∀ x ∈ e.exec f.grd, ∀ d, f.d = .v d →
         (t.threadOf e.t.grid e.t.index x.tid).map (·.v) = some (x.v.set 0 d.val (BitVec.ofNat 64 e.t.faulted))) ∧
     (Issues s e f.toBody { reads := regsOf f.a } → Completes (.post f) s e ∧ ∀ t, exec (.post f) s = .next t → still t ∧
       (∀ n, n ≠ e.g.num → t.grid? n = s.grid? n) ∧
       ∀ x, e.exec f.grd = [x] → ∃ g, t.grid? e.g.num = some g ∧
         let old := e.g.post.getD (if e.g.launch.comb = 2 then BitVec.ofNat 64 (2 ^ 64 - 1) else 0)
         (e.g.launch.comb = 0 → g.post = some (old ||| v x)) ∧
         (e.g.launch.comb = 1 → g.post.map (·.toNat) = some (max old.toNat (v x).toNat)) ∧
         (e.g.launch.comb = 2 → g.post.map (·.toNat) = some (min old.toNat (v x).toNat)) ∧
         (e.g.launch.comb = 3 → g.post.map (·.toNat) = some (min (2 ^ 64 - 1) (old.toNat + (v x).toNat))) ∧
         (e.g.launch.comb = 4 → g.post = if e.t.index = 0 ∧ (e.g.post = none ∨ e.g.postBy ≤ x.tid) then some (v x) else e.g.post))) ∧
  (∀ (s : State) (e : Env) (f : SBody), Issues s e f.toBody { reads := regsOf f.a, writes := regsOf f.d, long := true } →
     let va := fun x => (readOp s e f.imm x f.a).toNat
     ∀ x, e.exec f.grd = [x] →
       (e.g.depth < 10 → x.tid = 0 → va x % 64 = 0 →
         (let fenced := releaseThread s e.t.grid e.t.index x.tid false
          ∃ l, translateRange fenced e.t.core e.g.ctx (va x) 512 .read = .ok l ∧ segPoison fenced (segsOf l) = 0) →
         Completes (.spawn f) s e ∧ ∀ t, exec (.spawn f) s = .next t → s.quiet → s.memWf = true → (∀ n, (s.regions.get {} n).st ≠ 2) →
           let parent := (writeSegs s e.g.ctx ((va x + 472) % 2 ^ 64) 8).getD []
           (∀ k a, (∀ g ∈ parent, min g.1 2 ≠ min k 2 ∨ a < g.2.1 ∨ g.2.1 + g.2.2 ≤ a) → t.physByte k a = s.physByte k a) ∧
           (parent ≠ [] → segBytes t parent = leBytes 8 (e.t.grid % 2 ^ 12 + e.t.index % 2 ^ 32 * 2 ^ 12 + 2 ^ 63)) ∧
           ∃ st : Nat, st ≤ 3 ∧ (∀ d, f.d = .v d → (t.ops.getLast?).map (·.dst) = some [(d.val, BitVec.ofNat 64 st)]) ∧
             (st ≠ 0 → t.grids = s.grids) ∧
             (st = 0 → ∃ g, t.grids = s.grids ++ [g] ∧ g.depth = e.g.depth + 1 ∧ g.parent = some (e.t.grid, e.t.index) ∧ g.ctx = e.g.ctx ∧
               (t.team? e.t.grid e.t.index).map (·.children) = some (e.t.children + 1))) ∧
       (10 ≤ e.g.depth ∨ x.tid ≠ 0 → Raises (.spawn f) s e fNesting) ∧
       (e.g.depth < 10 → x.tid = 0 → va x % 64 ≠ 0 → Raises (.spawn f) s e fAlignment))

/-! ## Global atomics, fences, locks -/

/-- R220 to R223, R325, R452: ATOM, RED and DRED that pass their checks put one request for each executing thread in flight and change no
byte of memory yet, and a DRED is numbered by its thread's earlier ones; an operation that the memory kind does not accept raises
HOST_ATOMIC, and a RED or DRED whose contributions and counters do not all find room, beside those on their way, raises ENGINE. -/
def Obligations.Global_atomics : Prop :=
  ∀ (s : State) (e : Env) (f : LBody),
    let n := 2 ^ f.sz.toNat
    let sends := fun (i : Instr) => Completes i s e ∧ ∀ t, exec i s = .next t → (∃ l, t.reqs = s.reqs ++ l ∧
      (l.map (·.agent) = (e.exec f.grd).map fun x => Agent.thread e.t.grid e.t.index x.tid) ∧ ∀ r ∈ l, r.path = .a ∧ r.len = n) ∧
      ∀ k a, t.physByte k a = s.physByte k a
    let rejected := fun (x : Thread) (isAtom isDred : Bool) =>
      let o := memOffset s e x f
      let va := globalVa e f o
      o + n ≤ (e.g.seg f.seg.toNat).2.toNat ∧ va % n = 0 ∧ ∃ l, translateRange s e.t.core e.g.ctx va n .atomic = .ok l ∧
        atomicAccepted (kindOf (segsOf l)) f.opx.toNat n isAtom isDred = false
    let reads := Issues s e f.toBody { reads := regsOf f.a ++ regsOf f.b }
    (Issues s e f.toBody (atomUse f) →
      ((∀ x ∈ e.exec f.grd, atomCheck s e f x true false = none) → sends (.atom f)) ∧
      (∀ x, e.exec f.grd = [x] → rejected x true false → Raises (.atom f) s e fHostAtomic)) ∧
    (reads → (∀ x ∈ e.exec f.grd, atomCheck s e f x false false = none) →
      (updateRoom s e f false (e.exec f.grd) = true → sends (.red f)) ∧
      (updateRoom s e f false (e.exec f.grd) = false → e.exec f.grd ≠ [] → Raises (.red f) s e fEngine)) ∧
    (reads → ∀ x, e.exec f.grd = [x] → rejected x false false → Raises (.red f) s e fHostAtomic) ∧
    (reads → (∀ x ∈ e.exec f.grd, atomCheck s e f x false true = none) →
      (updateRoom s e f true (e.exec f.grd) = true → sends (.dred f) ∧ ∀ t, exec (.dred f) s = .next t → ∀ x ∈ e.exec f.grd,
        (t.threadOf e.t.grid e.t.index x.tid).map (·.dreds) = some (x.dreds + 1)) ∧
      (updateRoom s e f true (e.exec f.grd) = false → e.exec f.grd ≠ [] → Raises (.dred f) s e fEngine)) ∧
    (reads → ∀ x, e.exec f.grd = [x] → rejected x false true → Raises (.dred f) s e fHostAtomic)

/-- R224, R225, R227, R228, R292, R317: prefetches complete in any state, fences where no write to peer memory is still to be acknowledged
for them, else they wait at their word, and line locks where their byte passes its checks; none changes a register, a byte of memory, or a
request in flight but the lock's own and the mark that an acquire leaves on those it waits for; a fence that acquires at cohort scope or
wider makes every word of the core's L1 stale. -/
def Obligations.Fences_locks_prefetch : Prop :=
  ∀ (s : State) (e : Env) (f : LBody),
    let plain := fun (x : Thread) => { x with fences := [], cf := [], pend := [] }
    let still := fun (t : State) => (∀ k a, t.physByte k a = s.physByte k a) ∧
      ∀ n, (t.threadOf e.t.grid e.t.index n).map plain = (e.t.thread? n).map plain
    let segs := fun x => segsFor s e (globalVa e f (memOffset s e x f)) 1 .read
    let plainReqs := fun (t : State) => t.reqs.map fun r => { r with marks := false, passes := [] }
    let clear := fun (groups : List (List Path)) => ∀ x ∈ e.exec f.grd, peerHeld s e x f groups = false
    let locks := fun (i : Instr) (release : Bool) => ((∀ x ∈ e.exec f.grd, lockCheck s e f release x = none) →
      Completes i s e ∧ ∀ t, exec i s = .next t → still t ∧ ∀ x, e.exec f.grd = [x] →
        (isDevice (segs x) = false → t.reqs = s.reqs ∧ ∀ d, f.d = .v d → (t.ops.getLast?).map (·.dst) = some [(d.val, 4)]) ∧
        (isDevice (segs x) = true → ∃ r, t.reqs = s.reqs ++ [r] ∧ r.path = .a ∧ r.agent = .thread e.t.grid e.t.index x.tid))
    (Issues s e f.toBody {} →
      (clear [[.q], [.a], [.m]] → Completes (.fence f) s e ∧ ∀ t, exec (.fence f) s = .next t → still t ∧ plainReqs t = plainReqs s ∧
        (f.mod3 ≠ 1 → 2 ≤ f.scope.toNat → e.exec f.grd ≠ [] → ∀ w ∈ t.l1, w.core = e.t.core → w.stale = true)) ∧
      (clear [maskPaths f.opx] → Completes (.fenceX f) s e ∧ ∀ t, exec (.fenceX f) s = .next t → still t ∧ plainReqs t = plainReqs s) ∧
      (¬ clear [[.q], [.a], [.m]] → exec (.fence f) s = .next (stallWord s)) ∧
      (¬ clear [maskPaths f.opx] → exec (.fenceX f) s = .next (stallWord s))) ∧
    (Issues s e f.toBody { reads := regsOf f.a, writes := regsOf f.d, long := true } → locks (.clock f) false ∧ locks (.cunlock f) true) ∧
    (Issues s e f.toBody { reads := regsOf f.a, drops := true } → Completes (.pref f) s e ∧
      ((∀ r ∈ s.reqs, r.gathered = false) → (∀ n, (s.regions.get {} n).st ≠ 2) → ∀ t, exec (.pref f) s = .next t → still t ∧ t.reqs = s.reqs))

/-! ## Matrix -/

/-- R252: TLD, TST and TZERO complete where each executing thread's 64 bytes pass their checks; TLD from the scratchpad and TZERO set the
four columns of the thread's lane, TST to the scratchpad stores them, where no fence holds the thread's accesses by path M back. That the
scratchpad is read and written at issue is the model's choice (log 22). -/
def Obligations.Tile_words : Prop :=
  ∀ (s : State) (e : Env) (f : MBody),
    let off := fun x => tileOffset s e x f
    let column := fun (t : Team) (x : Thread) (m j : Nat) => (t.warp? x.warp).map fun w => SMap.get 0 w.tiles (128 * m + 4 * x.lane + j)
    let whole := fun (t : Team) => ∀ w ∈ t.warps, SMap.wf 0 w.tiles = true
    let unfenced := fun (x : Thread) => fencedIds s x .m = []
    (Issues s e f.toBody { reads := regsOf f.a, long := true } →
      ((∀ x ∈ e.exec f.grd, tileCheck s e f (off x) 64 16 .read = none) → Completes (.tld f) s e ∧
        ∀ x t w, e.exec f.grd = [x] → MBody.inSpad f = true → unfenced x → exec (.tld f) s = .next t → e.t.warp? x.warp = some w → whole e.t →
          ∃ m, t.team? e.t.grid e.t.index = some m ∧ ∀ j < 4,
            column m x (tileOf f.d) j = some (BitVec.ofNat 128 (leNat (e.t.spadBytes (off x + 16 * j) 16)))) ∧
      ((∀ x ∈ e.exec f.grd, tileCheck s e f (off x) 64 16 .write = none ∧ columnPoison e.t x (tileOf f.b) = none) →
        Completes (.tst f) s e ∧
        ∀ x t w, e.exec f.grd = [x] → MBody.inSpad f = true → unfenced x → exec (.tst f) s = .next t → e.t.warp? x.warp = some w →
          SMap.wf 0 e.t.spad = true → ∃ m, t.team? e.t.grid e.t.index = some m ∧
            (∀ j < 4, some (BitVec.ofNat 128 (leNat (m.spadBytes (off x + 16 * j) 16))) = column e.t x (tileOf f.b) j) ∧
            (∀ a, a < off x ∨ off x + 64 ≤ a → m.spad.get 0 a = e.t.spad.get 0 a) ∧ ∀ k a, t.physByte k a = s.physByte k a)) ∧
    (Issues s e f.toBody {} → Completes (.tzero f) s e ∧ ∀ t, exec (.tzero f) s = .next t → whole e.t →
      (∀ k a, t.physByte k a = s.physByte k a) ∧ ∃ m, t.team? e.t.grid e.t.index = some m ∧
        (∀ n, m.thread? n = e.t.thread? n) ∧ ∀ x ∈ e.exec f.grd, (e.t.warp? x.warp).isSome →
          ∀ j < 4, column m x (tileOf f.d) j = some 0)

/-- R254, R255, where no instance of the window is open: ACCALLOC adds a window whose descriptor is legal and whose number and region are
free, else raises ACC_RANGE; ACCFREE removes it; ACCZERO sets every cell; ACCALIGN sets E0 and scales the cells, exactly and clamped to a
smaller E0, to the nearest value with ties to even to a larger one, and keeps the marks. Each raises ACC_RANGE on a window that is not
allocated. -/
def Obligations.Window_words : Prop :=
  ∀ (s : State) (e : Env) (f : MBody) (x : Thread),
    let n := winOf f.d
    let v := readOp s e f.imm x f.a
    let wins := fun (i : Instr) (p : List Window → Prop) => Completes i s e ∧ ∀ t, exec i s = .next t →
      ∃ m, t.team? e.t.grid e.t.index = some m ∧ p m.wins ∧ m.insts = e.t.insts ∧ m.spad = e.t.spad ∧
        ∀ k a, t.physByte k a = s.physByte k a
    let becomes := fun (g : Window → Window) (l : List Window) => l = e.t.wins.map fun w => if w.n = n then g w else w
    (e.exec f.grd).getLast? = some x →
    (∀ t ∈ s.teams, t.grid = e.t.grid → t.index = e.t.index → ∀ i ∈ t.insts, i.win ≠ n) →
    (Issues s e f.toBody { reads := regsOf f.a } →
      (descriptorOk e.g.launch.accg v (windowOf n v) = true → (∀ w ∈ e.t.wins, w.n ≠ n ∧ overlaps w (windowOf n v) = false) →
        wins (.accalloc f) (· = e.t.wins ++ [windowOf n v])) ∧
      (descriptorOk e.g.launch.accg v (windowOf n v) = false ∨ (∃ w ∈ e.t.wins, w.n = n ∨ overlaps w (windowOf n v) = true) →
        Raises (.accalloc f) s e fAccRange)) ∧
    (Issues s e f.toBody { long := true } →
      (∀ w, e.t.window? n = some w →
        wins (.accfree f) (· = e.t.wins.filter (·.n ≠ n)) ∧
        (w.cols ≤ 128 → Completes (.acczero f) s e ∧ ∀ t, exec (.acczero f) s = .next t → ∃ m w', t.team? e.t.grid e.t.index = some m ∧
          m.window? n = some w' ∧ w'.ovf = false ∧ w'.binding = none ∧ w'.e0 = w.e0 ∧ ∀ r < w.rows, ∀ c < w.cols,
            w'.cell r c = { q := 0, mark := if f.mod3 = 1 then .pinf else if f.mod3 = 2 then .ninf else .none })) ∧
      (e.t.window? n = none → Raises (.accfree f) s e fAccRange ∧ Raises (.acczero f) s e fAccRange)) ∧
    (Issues s e f.toBody { reads := regsOf f.a, long := true } →
      (∀ w, e.t.window? n = some w → -8192 ≤ v.toInt → v.toInt ≤ 8191 → wins (.accalign f) (becomes fun w => rescaleAll w v.toInt) ∧
        (SMap.wf {} w.cells = true → v.toInt ≤ w.e0 → ∀ k, let y := (rescaleAll w v.toInt).cells.get {} k
          y.q = (w.clamp ((w.cells.get {} k).q * 2 ^ (w.e0 - v.toInt).toNat)).1 ∧ y.mark = (w.cells.get {} k).mark) ∧
        (SMap.wf {} w.cells = true → w.e0 < v.toInt → ∀ k, let y := (rescaleAll w v.toInt).cells.get {} k
          let unit : Int := 2 ^ (v.toInt - w.e0).toNat
          let rest := ((w.cells.get {} k).q - y.q * unit).natAbs
          2 * (rest : Int) ≤ unit ∧ (2 * (rest : Int) = unit → y.q % 2 = 0) ∧ y.mark = (w.cells.get {} k).mark)) ∧
      (e.t.window? n = none ∨ v.toInt < -8192 ∨ 8191 < v.toInt → Raises (.accalign f) s e fAccRange))

/-- R256, R257, where no instance of the window is open: ACCRD, ACCWR, ACCLD and ACCST complete where the row, the column or chunk and the
memory operand pass their checks. Of one thread: a raw ACCRD reads 128 bits of the cell, or its mark and the window's OVF, any other the
values of consecutive cells, zero beyond the window, rounded into its slot; a raw ACCWR replaces those bits, or mark and OVF, any other
ACCWR writes to consecutive cells the decoded elements of its slot, and ACCLD to the cells of a row those of the stream in memory; no
other cell changes, and memory stays. ACCST stores the row's values as a stream, in the scratchpad at once (the model's choice, log 22),
else by a request in flight. -/
def Obligations.Cell_words : Prop :=
  ∀ (s : State) (e : Env) (f : MBody),
    let raw := f.mod3.getLsbD 0
    let row := if f.mod3.getLsbD 1 then regsOf f.c else []
    let idle := fun (win : Nat) => ∀ t ∈ s.teams, t.grid = e.t.grid → t.index = e.t.index → ∀ i ∈ t.insts, i.win ≠ win
    let inside := fun (win : Nat) (x : Thread) (v : W64) => cellCheck s e f win x (colOf raw v) = none ∧ chunkCheck (e.t.window? win) raw v = none
    let fm := Fmt.of (e.slot f.fs.toNat)
    let elems := fm.elems
    let rowVal := fun (w : Window) (r c : Nat) => if c < w.cols then w.val (w.cell r c) else .zero false
    let unfenced := fun (x : Thread) => fencedIds s x .m = []
    (let win := winOf f.a
     let v := fun x => readOp s e f.imm x f.b
     let used := fun x => (List.range (if raw then 1 else elems)).map (colOf raw (v x) + ·)
     Issues s e f.toBody { reads := regsOf f.b ++ row, writes := regsOf f.d (if raw then 2 else 1), long := true } → idle win →
      (∀ x ∈ e.exec f.grd, inside win x (v x) ∧ ∀ w, e.t.window? win = some w → cellPoison w (accRow s e f w x) (used x) = none) →
      Completes (.accrd f) s e ∧ ∀ x t w d, e.exec f.grd = [x] → exec (.accrd f) s = .next t → e.t.window? win = some w → f.d = .v d →
        let cell := w.cell (accRow s e f w x) (colOf raw (v x))
        (raw = true → chunkOf (v x) ≠ 15 → ∃ lo hi : W64, (t.ops.getLast?).map (·.dst) = some [(d.val, lo), (d.val + 1, hi)] ∧
          ((lo.toNat + hi.toNat * 2 ^ 64 : Nat) : Int) = cell.q / 2 ^ (128 * chunkOf (v x)) % 2 ^ 128) ∧
        (raw = true → chunkOf (v x) = 15 → (t.ops.getLast?).map (·.dst) =
          some [(d.val, BitVec.ofNat 64 (cell.mark.code + if w.ovf then 4 else 0)), (d.val + 1, 0)]) ∧
        (raw = false → fm.stochastic = false → ∃ (r : W64) (fl : Efl), (t.ops.getLast?).map (fun o => (o.dst, o.efl)) = some ([(d.val, r)], fl) ∧
          let put := fun i => fm.roundTo 0 (rowVal w (accRow s e f w x) (colOf raw (v x) + i))
          (∀ i < elems, elemOf fm.width i r = (put i).1 % 2 ^ fm.width) ∧ ∀ n, fl.getLsbD n = true ↔ ∃ i < elems, (put i).2.getLsbD n = true)) ∧
    (let win := winOf f.d
     let v := fun x => readOp s e f.imm x f.a
     Issues s e f.toBody { reads := regsOf f.a ++ regsOf f.b (if raw then 2 else 1) ++ row, long := true } → idle win →
      (∀ x ∈ e.exec f.grd, inside win x (v x)) →
      Completes (.accwr f) s e ∧ ∀ x t w, e.exec f.grd = [x] → exec (.accwr f) s = .next t → e.t.window? win = some w →
        SMap.wf {} w.cells = true → (∀ k a, t.physByte k a = s.physByte k a) ∧
        ∃ m w', t.team? e.t.grid e.t.index = some m ∧ m.window? win = some w' ∧ (∀ k,
          (k < 128 * accRow s e f w x + colOf raw (v x) ∨ 128 * accRow s e f w x + colOf raw (v x) + (if raw then 1 else elems) ≤ k) →
          w'.cells.get {} k = w.cells.get {} k) ∧
          let r := accRow s e f w x
          let c := colOf raw (v x)
          let old := w.cell r c
          let n := 128 * chunkOf (v x)
          let bits := fun (q : Int) => (q % 2 ^ w.aw).toNat
          (raw = true → chunkOf (v x) = 15 → w'.cell r c = { old with mark := .ofCode ((readPair x f.b).toNat % 4) } ∧
            w'.ovf = (w.ovf || (readPair x f.b).getLsbD 2)) ∧
          (raw = true → chunkOf (v x) ≠ 15 → 1 ≤ w.lanes → let y := w'.cell r c
            y.mark = old.mark ∧ w'.ovf = w.ovf ∧ -(2 ^ (w.aw - 1)) ≤ y.q ∧ y.q < 2 ^ (w.aw - 1) ∧
            ∀ b < w.aw, (bits y.q).testBit b = if n ≤ b ∧ b < n + 128 then (readPair x f.b).getLsbD (b - n) else (bits old.q).testBit b) ∧
          (raw = false → w.cols ≤ 128 → (∀ i < elems, c + i < w.cols →
            w'.cell r (c + i) = (cellFrom w (fm.decode (elemOf fm.width i (readOp s e f.imm x f.b))).1).1) ∧
            (∀ k, w.cols ≤ k % 128 → w'.cells.get {} k = w.cells.get {} k) ∧
            ∃ fl, (t.ops.getLast?).map (·.efl) = some fl ∧ ∀ b, fl.getLsbD b = true ↔ ∃ i < elems, c + i < w.cols ∧
              (fm.decode (elemOf fm.width i (readOp s e f.imm x f.b))).2.getLsbD b = true)) ∧
    (let win := winOf f.d
     Issues s e f.toBody { reads := regsOf f.a ++ row, long := true } → idle win →
      (∀ x ∈ e.exec f.grd, cellCheck s e f win x 0 = none ∧ tileCheck s e f (tileOffset s e x f) (rowBytes e f win) 1 .read = none) →
      Completes (.accld f) s e ∧ ∀ x t w bs, e.exec f.grd = [x] → exec (.accld f) s = .next t → e.t.window? win = some w →
        SMap.wf {} w.cells = true → w.cols ≤ 128 →
        (if MBody.inSpad f then unfenced x ∧ bs = e.t.spadBytes (tileOffset s e x f) (rowBytes e f win)
         else s.reqs = [] ∧ (∀ y ∈ s.l1, y.core ≠ e.t.core) ∧ (∀ n, (s.regions.get {} n).st ≠ 2) ∧
          bs = segBytes s (segsFor s e (tileVa e f (tileOffset s e x f)) (rowBytes e f win) .read)) →
        (∀ k a, t.physByte k a = s.physByte k a) ∧ ∃ m w', t.team? e.t.grid e.t.index = some m ∧ m.window? win = some w' ∧
          m.spad = e.t.spad ∧ ∀ r < 256, ∀ c < 128, w'.cell r c = if r = accRow s e f w x ∧ c < w.cols then
            (cellFrom w (fm.decode (leNat bs / 2 ^ (fm.width * c) % 2 ^ fm.width)).1).1 else w.cell r c) ∧
    (let win := winOf f.b
     Issues s e f.toBody { reads := regsOf f.a ++ row, long := true } → idle win →
      (∀ x ∈ e.exec f.grd, cellCheck s e f win x 0 = none ∧
        (∀ w, e.t.window? win = some w → cellPoison w (accRow s e f w x) (List.range w.cols) = none) ∧
        tileCheck s e f (tileOffset s e x f) (rowBytes e f win) 1 .write = none) →
      Completes (.accst f) s e ∧ ∀ x t w, e.exec f.grd = [x] → exec (.accst f) s = .next t → e.t.window? win = some w → fm.stochastic = false →
        let o := tileOffset s e x f
        let n := rowBytes e f win
        let code := fun c => (fm.roundTo 0 (rowVal w (accRow s e f w x) c)).1 % 2 ^ fm.width
        (∀ k a, t.physByte k a = s.physByte k a) ∧
        (MBody.inSpad f = true → unfenced x → SMap.wf 0 e.t.spad = true → ∃ m, t.team? e.t.grid e.t.index = some m ∧ m.wins = e.t.wins ∧
          (∀ c < w.cols, leNat (m.spadBytes o n) / 2 ^ (fm.width * c) % 2 ^ fm.width = code c) ∧
          (∀ b, fm.width * w.cols ≤ b → (leNat (m.spadBytes o n)).testBit b = (leNat (e.t.spadBytes o n)).testBit b) ∧
          ∀ a, a < o ∨ o + n ≤ a → m.spad.get 0 a = e.t.spad.get 0 a) ∧
        (MBody.inSpad f = false → (t.team? e.t.grid e.t.index).map (·.spad) = some e.t.spad ∧ ∃ r data mask, t.reqs = s.reqs ++ [r] ∧
          r.agent = .thread e.t.grid e.t.index x.tid ∧ r.path = .m ∧ r.va = tileVa e f o ∧ r.len = n ∧ r.kind = .store data mask ∧
          r.segs = segsFor s e (tileVa e f o) n .write ∧
          (∀ c < w.cols, leNat data / 2 ^ (fm.width * c) % 2 ^ fm.width = code c) ∧
          ∀ b, (leNat mask).testBit b = decide (b < fm.width * w.cols)))

/-- R234, R235, R249, R251: MMA, MMAS and PWSET on an allocated window complete while a member of each row group has yet to come, each
long one leaving an operation for each executing thread; one on a window that is not allocated raises ACC_RANGE. GANG sets the gang to the
warps its operand names, 2 to 6 of them, or to none, and raises GANG on another number, an absent warp, or an open instance. -/
def Obligations.Row_group_words : Prop :=
  ∀ (s : State) (e : Env) (f : MBody),
    let win := winOf f.d
    let fresh := fun (range : Thread → List Nat) => (∀ x ∈ e.threads, ∀ r ∈ range x, x.pend.get none r = none) ∧
      ∀ x ∈ e.exec f.grd, ∀ r ∈ range x, r < e.g.launch.vregs ∧ r ∉ x.vpoison
    let open' := fun (g : Bool) => (∀ x ∈ e.exec f.grd, g = true → e.t.gang.contains x.warp = true) ∧
      (∀ x ∈ e.threads, ∃ y ∈ e.t.threads, y.tid ∉ e.b.members ∧ (groupOf e g x).contains y.warp = true ∧ y.place ≠ .exited) ∧
      ∀ i ∈ e.t.insts, i.queued = false → ∃ y ∈ e.t.threads, y.tid ∉ e.b.members ∧ i.group.contains y.warp = true ∧ y.tid ∉ i.arrived ∧
        y.place ≠ .exited
    let leaves := fun (i : Instr) => Completes i s e ∧ ∀ t, exec i s = .next t →
      t.ops.map (·.tid) = s.ops.map (·.tid) ++ (e.exec f.grd).map (·.tid) ∧ ∀ k a, t.physByte k a = s.physByte k a
    let range := fun x => aRange e win f.kf.toNat f.a x
    (s.env? = some e → (e.t.window? win).isSome = true →
      (open' (f.mod3.getLsbD 0) → fresh range → (∀ n ∈ e.flag f.fl, ∀ x ∈ e.exec f.grd, x.cf.get 0 n < 63) →
        leaves (.mma f) ∧ leaves (.mmas f)) ∧
      (open' (f.aux.getLsbD 4) → Completes (.pwset f) s e)) ∧
    (s.env? = some e → e.t.window? win = none → e.exec f.grd ≠ [] → f.mod3.getLsbD 0 = false → f.aux.getLsbD 4 = false → fresh range →
      Raises (.mma f) s e fAccRange ∧ Raises (.mmas f) s e fAccRange ∧ Raises (.pwset f) s e fAccRange) ∧
    (Issues s e f.toBody { reads := regsOf f.a } → ∀ x, (e.exec f.grd).getLast? = some x →
      let ws := (List.range 32).filter fun i => (readOp s e f.imm x f.a).getLsbD i
      let busy := e.t.gang ≠ [] ∧ ((∃ i ∈ e.t.insts, i.group = e.t.gang) ∨ ∃ r ∈ e.t.runs, r.group = e.t.gang ∧ s.cc < r.ends)
      let legal := ws = [] ∨ (2 ≤ ws.length ∧ ws.length ≤ 6 ∧ ∀ w ∈ ws, w < e.g.launch.wpt)
      (¬ busy → legal → Completes (.gang f) s e ∧ ∀ t, exec (.gang f) s = .next t →
        ∃ m, t.team? e.t.grid e.t.index = some m ∧ m.gang = ws ∧ (∀ n, m.thread? n = e.t.thread? n) ∧ m.insts = e.t.insts) ∧
      (busy ∨ ¬ legal → Raises (.gang f) s e fGang))

/-! ## Engine commands -/

/-- R259, R261, R392 to R394, R400, R410, R411, Table 8-10: each scribe and scale-handle command completes and, where no request is in
flight, replies the status the table gives; a command whose record lies beyond the scratchpad raises SEGMENT_LIMIT. The order in which
SGO, SCREG and SCDESC check, where several statuses would hold, is the model's choice (log 49). -/
def Obligations.Scribe_and_handle_commands : Prop :=
  ∀ (s : State) (e : Env) (f : XBody) (x : Thread), (e.exec f.grd).getLast? = some x →
    let a := (readOp s e 0 x f.a).toNat
    let b := (readOp s e 0 x f.b).toNat
    let issues := fun (args : List Operand) => Issues s e f.toBody { reads := args.flatMap regsOf, writes := regsOf f.d, long := true }
    let die := e.t.core / 48
    let ch := f.ch.toNat
    let sc := s.scribe die ch
    let own := ownChannel s e ch
    let known := (handleOf e.t a).isSome
    let replies := fun (i : Instr) (v : Nat) (after : State → Prop) => Completes i s e ∧ ∀ t, exec i s = .next t → s.quiet →
      (∀ d, f.d = .v d → (t.ops.getLast?).map (·.dst) = some [(d.val, BitVec.ofNat 64 v)]) ∧ after t
    let handles := fun (p : List Handle → Prop) (t : State) => ∃ m, t.team? e.t.grid e.t.index = some m ∧ p m.handles
    (issues [f.a, f.b] →
      (a + 64 ≤ e.g.launch.spad → e.t.spadPoisoned a 64 = false → b + 32 ≤ e.g.launch.spad →
        let ok := recordOk (e.t.spadBytes a 64) e.g.launch.coh e.g.launch.spad (e.slot (xferOf (e.t.spadBytes a 64)).sfs)
          (e.slot (xferOf (e.t.spadBytes a 64)).dfs)
        replies (.xcmdSgo f) (if a % 64 ≠ 0 ∨ b % 32 ≠ 0 then 2 else if sc.held then 1 else if ok then 0 else 2)
          fun t => a % 64 = 0 → b % 32 = 0 → sc.held = false → ok = true →
            (t.scribe die ch).status = 1 ∧ (t.scribe die ch).holder = some (e.t.grid, e.t.index) ∧ (t.scribe die ch).done = 0 ∧
            (t.scribe die ch).well = b) ∧
      (e.g.launch.spad < a + 64 → Raises (.xcmdSgo f) s e fSegmentLimit) ∧
      (b + 64 ≤ e.g.launch.spad → e.t.spadPoisoned b 64 = false →
        replies (.xcmdScreg f)
          (if 63 < a ∨ b % 64 ≠ 0 then 2 else if known then 1 else if registrationOk (e.t.spadBytes b 64) then 0 else 2)
          (handles fun l => a ≤ 63 → b % 64 = 0 → known = false → registrationOk (e.t.spadBytes b 64) = true →
            l = e.t.handles ++ [{ n := a, reg := e.t.spadBytes b 64, desc := 0x2FE01 }])) ∧
      (e.g.launch.spad < b + 64 → Raises (.xcmdScreg f) s e fSegmentLimit) ∧
      replies (.xcmdScdesc f) (if 63 < a ∨ scaleDescOk b = false then 2 else if known then 0 else 3)
        (handles fun l => a ≤ 63 → scaleDescOk b = true → l = e.t.handles.map fun h =>
          if h.n = a then { h with desc := readOp s e 0 x f.b } else h)) ∧
    (issues [f.a] → replies (.xcmdScunreg f) (if 63 < a then 2 else if known then 0 else 3)
      (handles fun l => a ≤ 63 → l = e.t.handles.filter (·.n ≠ a))) ∧
    (issues [f.a, f.b, f.c] → replies (.xcmdScpref f) (if 63 < a then 2 else if known then 0 else 3)
      (handles fun l => (l.map fun h => (h.n, h.reg, h.desc)) = e.t.handles.map fun h => (h.n, h.reg, h.desc))) ∧
    (issues [] →
      replies (.xcmdSstat f) (channelStatus own) (fun t => t.scribes = s.scribes) ∧
      Completes (.xcmdSsusp f) s e ∧ (own = none → replies (.xcmdSsusp f) 3 (fun t => t.scribes = s.scribes)) ∧
      (∀ c, own = some c → c.status = 1 → ∀ t, exec (.xcmdSsusp f) s = .next t → s.quiet → (t.scribe c.die c.ch).suspend = true) ∧
      (waitingTransfer s e ch = none → replies (.xcmdSres f) (if sc.holder = some (e.t.grid, e.t.index) ∧ sc.status = 2 then 0 else 3)
        (fun t => sc.holder = some (e.t.grid, e.t.index) → sc.status = 2 → (t.scribe die ch).status = 1)) ∧
      (∀ c, waitingTransfer s e ch = some c →
        replies (.xcmdSsusp f) 0 (fun t => t.scribeWait = s.scribeWait.map fun y => if y = c then { y with byPreempt := false } else y) ∧
        replies (.xcmdSres f) 0 (fun t => t.scribeWait = s.scribeWait.map fun y => if y = c then { y with byPreempt := true } else y) ∧
        replies (.xcmdSabort f) 0 (fun t => ∃ y ∈ t.scribeWait, y.status = 3 ∧ y.die = c.die ∧ y.ch = c.ch ∧ y.holder = c.holder ∧
          y.done = c.sent)) ∧
      Completes (.xcmdSabort f) s e ∧ (own = none → replies (.xcmdSabort f) 3 (fun t => t.scribes = s.scribes)) ∧
      ((∀ c ∈ s.scribeWait, c.holder ≠ some (e.t.grid, e.t.index)) → ∀ c, own = some c → c.held = true →
        replies (.xcmdSabort f) 0 (fun t => (t.scribe die ch).status = 3)))

/-- R259 to R261, R322, R330, R391, R403 to R409, R415, R473, Table 8-10: each ruling, fabric, memory and system command completes and,
where no request is in flight, replies the status the table gives; a rank at or beyond the cohort size raises COHORT, a system command of
a grid without the attribute PRIVILEGE, and an unassigned function code ENGINE. The status of RSTAT in a team without an access slice (log
97) and that FMCAST raises COHORT before it replies 2, and 2 before it checks the limit (log 49), are the model's choice. -/
def Obligations.Other_engine_commands : Prop :=
  ∀ (s : State) (e : Env) (f : XBody) (x : Thread), (e.exec f.grd).getLast? = some x →
    let a := readOp s e 0 x f.a
    let b := readOp s e 0 x f.b
    let issues := fun (args : List Operand) => Issues s e f.toBody { reads := args.flatMap regsOf, writes := regsOf f.d, long := true }
    let replies := fun (i : Instr) (v : Nat) (after : State → Team → Prop) => Completes i s e ∧ ∀ t, exec i s = .next t → s.quiet →
      (∀ d, f.d = .v d → (t.ops.getLast?).map (·.dst) = some [(d.val, BitVec.ofNat 64 v)]) ∧
      ∃ m, t.team? e.t.grid e.t.index = some m ∧ after t m
    let limit := (e.g.seg (f.imm.toNat % 16)).2.toNat
    let n := f.imm.toNat % 2 ^ 16
    let ranks := fun (m : W64) => ∀ r < 64, m.getLsbD r = true → r < e.g.launch.coh
    let refused := a.toNat % 16 ≠ 0 ∨ n % 16 ≠ 0 ∨ n < 16 ∨ 512 < n
    (issues [f.a, f.b] → replies (.xcmdRparam f) (if 15 < a.toNat then 2 else 0) fun _ m =>
      a.toNat ≤ 15 → SMap.wf 0 e.t.params = true → ∀ k, m.params.get 0 k = if k = a.toNat then b else e.t.params.get 0 k) ∧
    (issues [] →
      replies (.xcmdRstat f) ((if e.t.accessEnded then 2 else 1) + e.t.supplied % 2 ^ 32 * 2 ^ 32)
        (fun _ m => m.accessEnded = e.t.accessEnded ∧ m.supplied = e.t.supplied) ∧
      replies (.xcmdRhalt f) 0 (fun _ m => m.accessEnded = true) ∧
      replies (.xcmdMquotard f) ((s.ctx e.g.ctx).quota % 2 ^ 32 + (s.locks.filter (·.ctx == e.g.ctx)).length % 2 ^ 32 * 2 ^ 32)
        (fun t _ => t.ctxs = s.ctxs ∧ t.locks = s.locks)) ∧
    (issues [f.a] →
      replies (.xcmdRrate f) (if a = 0 ∨ 64 < a.toNat then 2 else a.toNat)
        (fun _ m => m.rateCap = if a = 0 ∨ 64 < a.toNat then e.t.rateCap else a.toNat) ∧
      (SMap.wf {} s.ctxs = true → replies (.xcmdMquota f) (min a.toNat (s.ctx e.g.ctx).qceil.toNat) (fun t _ =>
        t.ctx e.g.ctx = { s.ctx e.g.ctx with quota := min a.toNat (s.ctx e.g.ctx).qceil.toNat } ∧
        ∀ c, c ≠ e.g.ctx → t.ctx c = s.ctx c)) ∧
      Completes (.xcmdMrel f) s e ∧ (limit ≤ a.toNat → replies (.xcmdMrel f) 2 (fun t _ => t.regions = s.regions)) ∧
      Completes (.xcmdMsweep f) s e ∧
      (limit ≤ a.toNat → replies (.xcmdMsweep f) 2 (fun t _ => ∀ k a, t.physByte k a = s.physByte k a)) ∧
      (e.g.launch.sys = true → (SMap.wf {} s.ctxs = true → replies (.xcmdYseed f) 0 (fun t _ =>
        t.ctx e.g.ctx = { s.ctx e.g.ctx with seed := a } ∧ t.grids = s.grids)) ∧ Completes (.xcmdYmigr f) s e) ∧
      (e.g.launch.sys = false → Raises (.xcmdYseed f) s e fPrivilege ∧ Raises (.xcmdYmigr f) s e fPrivilege)) ∧
    (issues [] →
      (e.g.launch.sys = true → replies (.xcmdYsnap f) s.mgmt.snapMissed (fun t _ =>
        t.mgmt = { s.mgmt with snapLatched := false, snapMissed := 0 })) ∧
      (e.g.launch.sys = false → Raises (.xcmdYsnap f) s e fPrivilege)) ∧
    (issues [f.a, f.b, f.c] →
      (ranks b → refused ∨ (a.toNat + n ≤ e.g.launch.spad ∧ e.t.spadPoisoned a.toNat n = false) → Completes (.xcmdFmcast f) s e ∧
        (refused → replies (.xcmdFmcast f) 2 (fun t _ => t.packets = s.packets))) ∧
      (¬ ranks b → Raises (.xcmdFmcast f) s e fCohort ∧ Raises (.xcmdFmwarr f) s e fCohort) ∧
      (ranks b → Completes (.xcmdFmwarr f) s e) ∧
      Completes (.xcmdFwarr f) s e ∧
      (s.team? e.t.grid a.toNat = none → replies (.xcmdFwarr f) 3 (fun t _ => t.packets = s.packets))) ∧
    (issues [] → ∀ func : BitVec 7,
      (func.toNat < 0x60 ∨ 0x6F < func.toNat ∨ e.g.launch.sys = true → Raises (.xcmdUnassignedCode f func) s e fEngine) ∧
      (0x60 ≤ func.toNat → func.toNat ≤ 0x6F → e.g.launch.sys = false → Raises (.xcmdUnassignedCode f func) s e fPrivilege))

/-! ## Events of bundles and threads -/

/-- R17, R94, R359, R363: a clause whose header and words decode begins at the bundle's word, and one that does not raises the fault at
the word that fails; a ready thread that no bundle admits forms one; a bundle passed over 48 times becomes overdue. -/
def Obligations.Clause_and_bundle_events : Prop :=
  (∀ (s : State) (n : Nat) (b : Bundle) (e : Env), s.bundle? n = some b → b.decoded = false →
    s.quadIssued.contains (quadId b.core b.quad) = false → (chooseBundle s b.core b.quad).map (·.id) = some n → s.envOf b = some e →
    let p := splitFormats s e
    let all := fun (t : Trap) => p.2.threads.map fun x => (x.tid, t)
    p.2.b.members ≠ [] → (b.startAt = 0 → ∀ x ∈ p.2.threads, breakTrap p.2.c p.2.g p.2.t x = none) →
    (∀ h ws, fetchClause p.1 p.2.t.core p.2.g p.2.b.fmt b.addr = .ok (h, ws) →
      (b.startAt = 0 → ∀ x ∈ p.2.threads, distanceTrap (Header.of h).safe x = none ∧ dueTraps h x = []) →
      ∃ t c, exec (.clauseDecode n) s = .next t ∧ t.bundle? n = some c ∧ c.decoded = true ∧ c.hdr = h ∧ c.words = ws ∧
        c.idx = max 1 b.startAt ∧ c.members = p.2.b.members ∧ t.faults = s.faults ∧ ∀ k a, t.physByte k a = s.physByte k a) ∧
    (∀ i tr, fetchClause p.1 p.2.t.core p.2.g p.2.b.fmt b.addr = .error (i, tr) →
      exec (.clauseDecode n) s = .next { raiseDecode p.1 p.2 i tr (all tr) with free := s.free + 1 })) ∧
  (∀ (s : State) (core quad g n tid : Nat) (e : Env) (x : Thread), s.mgmt.fencedCores.contains core = false →
    readyThreads s core quad = [(g, n, tid)] → s.envOf { grid := g, team := n } = some e → e.t.thread? tid = some x →
    threadNeeds s e x = [] → (∀ b ∈ s.bundles, stillOpen b = false ∨ b.core ≠ core ∨ b.quad ≠ quad) →
    ∃ t b, exec (.bundleFormation core quad) s = .next t ∧ t.bundles = s.bundles ++ [b] ∧ b.members = [tid] ∧ b.addr = x.pc ∧
      b.core = core ∧ b.quad = quad ∧ b.decoded = false ∧ b.startAt = x.resumeAt ∧
      (t.threadOf g n tid).map (·.place) = some (.bundle b.id) ∧ ∀ k a, t.physByte k a = s.physByte k a) ∧
  (∀ (s : State) (n : Nat) (b : Bundle), s.bundle? n = some b → 48 ≤ b.missed → b.overdue = false →
    ∃ t, exec (.overdue n) s = .next t ∧ t.bundle? n = some { b with overdue := true } ∧ t.teams = s.teams)

/-- R16, R18, R43, R113, R124, R234, R245 to R248, R365: a completing operation lowers its flag and writes its registers, naps end at
their time, meetings and rendezvous release those that wait once all have come, the first queued instance of a window runs once its bands
are free and its contributors' operations complete no earlier than its cost after it: an MMA or MMAS steps the cells of its contributors'
rows by the semiring's product of A and B, under MMAS times both scales, and leaves every other cell (R245 to R247), a PWSET sets the
precision register. An epoch clears the charges, those of saved teams with them. -/
def Obligations.Thread_events : Prop :=
  (∀ (s : State) (n : Nat) (o : Op), s.op? n = some o → mayComplete s o = true →
    ∃ t, exec (.flagCompletion n) s = .next t ∧ t.ops = s.ops.filter (·.id != n) ∧ t.bundles = s.bundles ∧
      ∀ x, s.threadOf o.grid o.team o.tid = some x → ∃ y, t.threadOf o.grid o.team o.tid = some y ∧
        (x.place = .exited → y = x) ∧
        (x.place ≠ .exited → (∀ f, o.flag = some f → SMap.wf 0 x.cf = true → y.cf.get 0 f = x.cf.get 0 f - 1) ∧
          (o.poison = none → o.efl = 0 → ∀ d v, o.dst = [(d, v)] → y.v = x.v.set 0 d v) ∧
          (∀ tr, o.poison = some tr → y.v = x.v ∧ y.deferred.length = x.deferred.length + 1))) ∧
  (∀ (s : State) (g n tid k : Nat) (x : Thread), s.threadOf g n tid = some x → x.nap = some k → k ≤ s.cc →
    ∃ t, exec (.napEnd g n tid) s = .next t ∧ t.threadOf g n tid = some { x with nap := none } ∧
      ∀ m, m ≠ tid → t.threadOf g n m = s.threadOf g n m) ∧
  (∀ (s : State) (g n k : Nat) (tm : Team) (m : Meeting), s.team? g n = some tm → tm.meetings.find? (·.id == k) = some m →
    let mem := m.members.filterMap tm.thread?
    (∀ x ∈ mem, doneWith m x = true) → (∃ x ∈ mem, waitsAt k x = true) →
    ∃ t, exec (.meetingRelease g n k) s = .next t ∧
      ∀ x ∈ mem, t.threadOf g n x.tid = some (if waitsAt k x then { x with mrV := false, notBefore := releaseCc mem } else x)) ∧
  (∀ (s : State) (g n : Nat) (a : Addr) (e : Env) (h : W128) (ws : List W128), s.envOf { grid := g, team := n } = some e →
    clauseAt s e.t.core e.g.ctx a = some (h, ws) → e.t.phase = .running → rendezvous e.t ws a ≠ [] →
    ∃ t, exec (.rendezvousRelease g n a) s = .next t ∧
      ∀ x ∈ rendezvous e.t ws a, (t.threadOf g n x.tid).map (·.released) = some true) ∧
  (∀ (s : State) (n : Nat) (tm : Team) (i : Inst), s.teams.find? (fun t => t.insts.any (·.id == n)) = some tm →
    tm.insts.find? (·.id == n) = some i → instMayRun s tm i = true → s.team? tm.grid tm.index = some tm →
    ∃ t m, exec (.instanceRun n) s = .next t ∧ t.team? tm.grid tm.index = some m ∧
     ((∀ u ∈ s.teams, ∀ j ∈ u.insts, j.queued = false → j.failed = false → instComplete u j = false) →
      m.insts = tm.insts.filter (·.id != n) ∧
      (∀ o ∈ t.ops, o.wait ≠ .inst n) ∧ (∀ o ∈ s.ops, o.wait = .inst n → ∃ o' ∈ t.ops, o'.id = o.id ∧ s.cc + instCost i ≤ o'.notBefore) ∧
      (i.arg.op = 2 → i.applied = false → ∀ w, tm.window? i.win = some w → m.window? i.win = some { w with pw := i.pw }) ∧
      (i.arg.op < 2 → i.applied = false → ∀ w, tm.window? i.win = some w → SMap.wf {} w.cells = true → i.cols.length ≤ 128 →
        let row := fun (r : ARow) => rowOf? i.group ((tm.thread? r.tid).getD { tid := r.tid })
        (i.rows.map row).Nodup → ∃ w', m.window? i.win = some w' ∧ w'.e0 = w.e0 ∧ w'.pw = w.pw ∧
          (∀ r ∈ i.rows, ∀ c < i.cols.length,
            let a := (List.range i.arg.k).map fun j => let f := Fmt.of i.fmtA
              (f.decode (elemOf f.width (j % f.elems) (r.regs.getD (j / f.elems) 0))).1
            let b := (i.cols.getD c []).map fun x => ((Fmt.of i.fmtB).decode x).1
            let p := semiReduce (Pw.semi i.pw) a b
            let v := if i.arg.op = 0 then p else
              ((scaleVal (((i.sa.find? fun q => q.1 == row r).map (·.2)).getD 0)).prod (scaleVal i.sb)).prod p
            w'.cell (row r) c = (semiStep w (Pw.semi i.pw) (w.cell (row r) c) v).1) ∧
          ∀ k, (∀ r ∈ i.rows, k / 128 ≠ row r ∨ i.cols.length ≤ k % 128) → w'.cells.get {} k = w.cells.get {} k))) ∧
  (∀ s : State, s.cc % 65536 = 0 → s.epochAt ≠ s.cc + 1 → ∃ t, exec .epochBoundary s = .next t ∧ (∀ m ∈ t.teams, m.charge = 0) ∧ (∀ v ∈ t.saves, v.team.charge = 0) ∧
    t.teams.map (·.threads) = s.teams.map (·.threads))

/-! ## Faults and their owner -/

/-- R369, R371, R383: a team is held once its operations have drained; a record of a held team goes to the ring's tail and TAIL advances,
unless the ring is full; RESUME releases a held team, END begins the end of its grid (STATUS 1, in progress), SAVE begins a pre-emption,
and each leaves its status. That a GO acts at once whatever STATUS holds, an action in progress included, is the model's choice (log 37).
-/
def Obligations.Fault_and_owner_events : Prop :=
  (∀ (s : State) (g n : Nat) (tm : Team), s.team? g n = some tm → tm.phase = .holding →
    drainedBut (openInst tm) s tm = true →
    ∃ t, exec (.teamHeld g n) s = .next t ∧ t.team? g n = some { tm with phase := .held } ∧ t.faults = s.faults) ∧
  (∀ (s : State) (r : FaultRec), nextRecord s = some r → s.mgmt.frEn = true →
    let a := (s.mgmt.frbase.toNat + 64 * (s.mgmt.frTail.toNat % 2 ^ s.mgmt.frLog2n)) % 2 ^ 40
    (ringFull s.mgmt = false → ∃ t, exec .faultRecordWrite s = .next t ∧ t.mgmt.frTail = s.mgmt.frTail + 1 ∧
      (s.mgmt.frHead = s.mgmt.frTail → t.msix = s.mgmt.frIvec :: s.msix) ∧
      (s.memWf = true → (∀ q ∈ s.reqs, q.gathered = false) → (∀ n, (s.regions.get {} n).st ≠ 2) →
        (∀ i < r.bytes.length, t.physByte 0 (a + i) = r.bytes.getD i 0) ∧
        ∀ k b, k ≠ 0 ∨ b < a ∨ a + r.bytes.length ≤ b → t.physByte k b = s.physByte k b)) ∧
    (ringFull s.mgmt = true → s.mgmt.frFull = false → ∃ t, exec .faultRecordWrite s = .next t ∧ t.mgmt.frFull = true ∧
      t.faults = s.faults ∧ t.mgmt.frTail = s.mgmt.frTail)) ∧
  (∀ (s : State) (v : BitVec 16), ∃ t, exec (.frhead v) s = .next t ∧
    t.mgmt.frHead = if s.mgmt.devstate = 1 then v else s.mgmt.frHead) ∧
  (∀ (s : State) (g n : Nat), s.mgmt.devstate = 1 →
    (∃ t, exec (.resume g n) s = .next t ∧
      (s.team? g n = none → t.mgmt = { s.mgmt with tctlGrid := g, tctlTeam := n, tctlAct := 1, tctlStatus := 2 }) ∧
      ∀ e, s.envOf { grid := g, team := n } = some e → e.t.phase = .held → t.mgmt.tctlStatus = 0 ∧
        (e.t.insts = [] → (e.t.threads.map (·.tid)).Nodup → (∀ x ∈ e.t.threads, raisedEntries s e.g e.t x = [] ∧ x.deferred = []) →
          (t.team? g n).map (·.phase) = some .running ∧ ∀ tid x, e.t.thread? tid = some x → x.place = .held →
            t.threadOf g n tid = some { x with place := .boundary, notBefore := max s.cc x.notBefore, stepOk := true, farOff := false, retryVa := none
                                               spd := if x.farOff then 0 else x.spd })) ∧
    (∃ t, exec (.endGrid g n) s = .next t ∧ (teamNamed s g n = false → t.mgmt.tctlStatus = 2 ∧ t.grids = s.grids) ∧
      (teamNamed s g n = true → t.mgmt.tctlStatus = 1 ∧ ∀ gr, s.grid? g = some gr → gr.ended = none →
        (t.grid? g).map (·.ended) = some (some (gr.fault.getD 0x1B)))) ∧
    (∃ t, exec (.save g n) s = .next t ∧ (s.team? g n = none → t.mgmt.tctlStatus = 2) ∧
      ∀ tm s1, s.team? g n = some tm → savable tm.phase = true → beginSave (nameTctl s g n 3) g n true = some s1 → t.mgmt.tctlStatus = 1))

/-- R115, R132, R200, R325, R346, R347: a team whose threads have exited and whose operations have drained gives up its resources, retires
once its children have, its grid completes with its last team, and the number is free again. -/
def Obligations.Retirement_events : Prop :=
  (∀ (s : State) (g n : Nat) (tm : Team), s.team? g n = some tm → tm.phase = .running → (∀ x ∈ tm.threads, x.place = .exited) →
    (∀ c ∈ s.scribes ++ s.scribeWait, c.holder ≠ some (g, n)) → drained s tm = true →
    ∃ t m, exec (.teamResourceRelease g n) s = .next t ∧ t.team? g n = some m ∧ m.phase = .released ∧ m.threads = [] ∧ m.wins = [] ∧
      m.queues = [] ∧ m.k = [] ∧ m.spad = (if 1 < cohOf s g then tm.spad else []) ∧ ∀ k a, t.physByte k a = s.physByte k a) ∧
  (∀ (s : State) (g n : Nat) (tm : Team) (gr : Grid), s.team? g n = some tm → s.grid? g = some gr → tm.phase = .released →
    s.children g n = [] →
    ∃ t, exec (.teamRetirement g n) s = .next t ∧ (t.grid? g).map (·.done) = some (gr.done + 1) ∧
      ∀ m, t.team? g n = some m → m.phase = .retired) ∧
  (∀ (s : State) (g : Nat) (gr : Grid), s.grid? g = some gr → gr.retired = false → gridDone gr = true →
    ∃ t, exec (.gridRetirement g) s = .next t ∧ (t.grid? g).map (·.retired) = some true ∧ (∀ p ∈ t.press, p.grid ≠ g)) ∧
  (∀ (s : State) (g : Nat) (gr : Grid), s.grid? g = some gr → gr.retired = true →
    ∃ t, exec (.liveGridNumberFree g) s = .next t ∧ t.grid? g = none ∧ (∀ c ∈ t.counters, c.grid ≠ g) ∧
      ∀ k a, t.physByte k a = s.physByte k a)

/-! ## The task processor -/

/-- R339 to R342, R345, R346, R348, R351: a doorbell moves TAIL or sets ERR; a SQCTL write sets the fields that may change; the chosen
queue's packet is read, and a launch packet becomes a grid or is refused, a graph packet a graph or is refused; a graph at its end is
gone. That a SQCTL write with LOG2N 13 to 15 is ignored whole and sets ERR even while EN = 1 (log 64), and that ERR stays at a write while
EN = 1 (log 28), are the model's choice. -/
def Obligations.Queue_events : Prop :=
  (∀ (s : State) (q : Nat) (tail : BitVec 16), q < 64 → s.mgmt.devstate = 1 → SMap.wf {} s.sqs = true →
    let x := s.sq q
    ∃ t, exec (.sqdb q tail) s = .next t ∧ (∀ k, k ≠ q → t.sq k = s.sq k) ∧
      t.sq q = if 2 ^ x.log2n < (tail - x.head).toNat then { x with err := true } else { x with tail := tail }) ∧
  (∀ (s : State) (q : Nat) (v : W64), q < 64 → s.mgmt.devstate = 1 → SMap.wf {} s.sqs = true →
    let x := s.sq q
    ∃ t, exec (.sqctlWrite q v) s = .next t ∧ (∀ k, k ≠ q → t.sq k = s.sq k) ∧
      (13 ≤ v.toNat / 2 ^ 20 % 16 → t.sq q = { x with err := true }) ∧
      (v.toNat / 2 ^ 20 % 16 < 13 → (t.sq q).en = v.getLsbD 0 ∧ (t.sq q).prio = v.toNat / 2 % 8 ∧
        (t.sq q).head = x.head ∧ (t.sq q).tail = x.tail ∧
        (x.en = true → (t.sq q).ctx = x.ctx ∧ (t.sq q).log2n = x.log2n ∧ (t.sq q).sysok = x.sysok ∧ (t.sq q).err = x.err) ∧
        (x.en = false → (t.sq q).err = (x.err && !v.getLsbD 24) ∧ (t.sq q).ctx = v.toNat / 2 ^ 8 % 2 ^ 12 ∧ (t.sq q).log2n = v.toNat / 2 ^ 20 % 16 ∧ (t.sq q).sysok = v.getLsbD 4))) ∧
  (∀ (s : State) (q : Nat), nextQueue s = some q → ∃ t, exec .packetServe s = .next t ∧
    ((∀ r ∈ s.reqs, r.gathered = false) → (∀ n, (s.regions.get {} n).st ≠ 2) → (t.sq q).packet = some ((headPacket s (s.sq q)).getD [])) ∧
    (t.sq q).head = (s.sq q).head) ∧
  (∀ (s : State) (q : Nat) (p : List Byte), (s.sq q).packet = some p → SMap.wf {} s.sqs = true →
    (pkField p 0 2 ≠ 2 → ∃ t, exec (.launchPacket q) s = .next t ∧
      (∀ l n, checkLaunch s (s.sq q).ctx p (s.sq q).sysok true = .ok l → mustWait s (s.sq q) l.serial = false → freeNumber s = some n →
        (t.sq q).head = (s.sq q).head + 1 ∧ (t.sq q).packet = none ∧ ∃ g, t.grids = s.grids ++ [g] ∧ g.num = n ∧ g.launch = l ∧
          g.depth = 0 ∧ g.parent = none ∧ g.ctx = (s.sq q).ctx ∧ g.seed = (s.ctx (s.sq q).ctx).seed) ∧
      (∀ st off, checkLaunch s (s.sq q).ctx p (s.sq q).sysok true = .error (st, off) → pkField p 448 8 = 0 →
        t.grids = s.grids ∧ t.sq q = { s.sq q with packet := none, head := (s.sq q).head + 1, err := true, lastErr := st + off / 4 % 256 * 256 })) ∧
    (pkField p 0 2 = 2 → ∃ t, exec (.graphPacket q) s = .next t ∧ t.grids = s.grids ∧ (t.sq q).head = (s.sq q).head + 1 ∧
      (graphFaults p = [] → t.graphs = s.graphs ++ [graphOf q (s.sq q).ctx p]) ∧ (graphFaults p ≠ [] → t.graphs = s.graphs))) ∧
  (∀ (s : State) (q : Nat) (g : Graph), s.graphs.find? (·.queue == q) = some g → g.grid = none → g.result = none →
    g.node = 0xFFFF → g.gwell = 0 →
    ∃ t, exec (.graphNodeAdvance q) s = .next t ∧ t.graphs = s.graphs.filter (·.queue != q) ∧ t.grids = s.grids ∧ t.sqs = s.sqs)

/-- R352 to R357, R384 to R388: the first pending team that fits is placed on its cores, or after 1 ms holds others back; a pre-emption
begins where room can be had, suspends the channels of members that have a stopped thread, captures the hoops of a cohort that has
stopped, saves one that has stopped and drained, is given up at its limit, and a saved cohort resumes on its cores. -/
def Obligations.Placement_and_preemption_events : Prop :=
  (∀ (s : State) (w : Wait) (cores : List Nat) (g : Grid), placeable s = some (w, cores) → w.saved = false → s.grid? w.grid = some g →
    ∃ t l, exec .teamPlacement s = .next t ∧ t.teams = s.teams ++ l ∧ l.map (·.core) = cores ∧
      (l.map (·.index) = (List.range cores.length).map (g.started + ·)) ∧
      (t.grid? w.grid).map (·.started) = some (g.started + cores.length) ∧
      ∀ m ∈ l, m.grid = g.num ∧ m.phase = .running ∧ m.threads.length = 32 * g.launch.wpt ∧ m.spad = [] ∧
        ∀ x ∈ m.threads, x.pc = g.launch.code + BitVec.ofNat 57 g.launch.entry ∧ x.place = .boundary ∧ x.v = [] ∧ x.pred = [] ∧ x.efl = 0 ∧
          (x.s0 ≠ 0 ∨ x.s1 ≠ 0)) ∧
  (∀ (s : State) (w : Wait) (r : List Wait), pendingOrder s = w :: r → w.since + 1200000 ≤ s.cc → s.placeHold = none →
    ∃ t, exec .placementWaitLimit s = .next t ∧ t.placeHold = some (w.order * 2 ^ 32 + w.team, w.prio) ∧ t.teams = s.teams) ∧
  (∀ (s s1 : State) (g n : Nat), priorityTarget s = some (g, n) ∨ childTarget s = some (g, n) → beginSave s g n false = some s1 →
    ∃ t, exec (.preemption g n) s = .next t ∧ t.rooms = s1.rooms ∧ t.teams.map (·.phase) = s1.teams.map (·.phase)) ∧
  (∀ (s : State) (g n : Nat) (gr : Grid) (tm : Team) (r : List Team), s.grid? g = some gr → savingMembers s g n = tm :: r → tm.index = n →
    (toSuspend s gr (tm :: r) ≠ [] → ∃ t, exec (.preemptionSave g n) s = .next t ∧ t.saves = s.saves ∧ t.teams = s.teams ∧
      t.scribes = s.scribes.map fun c => if c ∈ toSuspend s gr (tm :: r) then { c with suspend := true, byPreempt := true } else c) ∧
    (toSuspend s gr (tm :: r) = [] → (∀ m ∈ tm :: r, allStopped s gr m (wasHeldOf m) = true ∧ s.parkedFor m.grid m.index = []) →
      (∃ m ∈ tm :: r, hoopsFor s m ≠ []) → ∃ t, exec (.preemptionSave g n) s = .next t ∧ t.saves = s.saves ∧
        (∀ m ∈ tm :: r, ∀ h ∈ hoopsFor s m, h ∉ t.hoops ∧ ∃ c ∈ t.hoopRecs, c.hoop = h ∧ s.packet? h.pkt = some c.pkt) ∧
        (∀ h ∈ s.hoops, (∀ m ∈ tm :: r, h ∉ hoopsFor s m) → h ∈ t.hoops) ∧ ∀ k a, t.physByte k a = s.physByte k a) ∧
    ((∀ m ∈ tm :: r, allStopped s gr m (wasHeldOf m) = true ∧ saveDrained s m = true ∧ runningChannels s m = []) →
      ((∀ m ∈ tm :: r, hoopsFor s m = []) ∨ ∃ m ∈ tm :: r, s.parkedFor m.grid m.index ≠ []) →
      ∃ t, exec (.preemptionSave g n) s = .next t ∧ t.saves.length = s.saves.length + (tm :: r).length ∧
        ∃ ends, t.saves = s.saves ++ ends ∧ ends.map (fun x => (x.team.grid, x.team.index)) = (tm :: r).map (fun m => (m.grid, m.index))) ∧
    (tm.savingSince + s.mgmt.plim.toNat ≤ s.cc → (∃ m ∈ tm :: r, allStopped s gr m (wasHeldOf m) = false) →
      (∀ m ∈ tm :: r, s.parkedFor m.grid m.index = []) → ∃ t, exec (.preemptionLimit g n) s = .next t ∧ t.saves = s.saves ∧
        ∀ m, t.team? tm.grid n = some m → isSaving m.phase = false)) ∧
  (∀ (s : State) (w : Wait) (cores : List Nat) (g : Grid), placeable s = some (w, cores) → w.saved = true → s.grid? w.grid = some g →
    ∃ t, exec (.resumption w.grid w.team) s = .next t ∧ ∀ x, savedOf s w = [x] → 
      (∀ n, checkImage (dropHold (touchVa s x.ctx x.addr (max 1 (x.image.length + x.control.length))) w) x ≠ .error n) →
      x.team.grid = w.grid → cores ≠ [] → t.saves = s.saves.filter (· ≠ x))

/-! ## The management space and Iagar -/

/-- R322, R379, R415, R464 to R466, R470, R473, Tables 19-2, 19-3 and 19-7: register writes act once the part is ready; INVCTL.GO starts
an invalidation unless one is busy, which completes once no access of the range is outstanding; ARM re-arms and TRIG latches or counts a
miss; PWRCAP is clamped; the stepping reads 0x51390200. That the other fields of a write of EN = 0 act while the context is in use (log
71), that its locks are dropped then (log 43), and that MIGCTL replies at once (log 42) are the model's choice. What becomes of the other
bits of a context whose EN is 0 (log 71), that its locks are dropped then (log 43), and that MIGCTL replies at once (log 42) are the
model's choice. -/
def Obligations.Register_events : Prop :=
  ∀ s : State,
    let live := s.mgmt.devstate = 1
    (∀ v : W64, ∃ t, exec (.invctlGo v) s = .next t ∧ (live →
      (s.mgmt.invBusy = true → v.getLsbD 32 = true → t.mgmt = s.mgmt) ∧
      (s.mgmt.invBusy = false → t.mgmt.invCtx = v.toNat % 2 ^ 12 ∧ t.mgmt.invPages = v.toNat / 2 ^ 12 % 2 ^ 20 ∧
        t.mgmt.invBusy = v.getLsbD 32 ∧
        (v.getLsbD 32 = true → t.mgmt.invRunCtx = v.toNat % 2 ^ 12 ∧ t.mgmt.invRunFirst = s.mgmt.invva.toNat / 2 ^ 12 % 2 ^ 45 ∧
          t.mgmt.invRunPages = v.toNat / 2 ^ 12 % 2 ^ 20)))) ∧
    (s.mgmt.invBusy = true → (∀ r ∈ s.reqs, oldAccess s r = false) → ∃ t, exec .invalidationComplete s = .next t ∧
      t.mgmt.invBusy = false ∧ (∀ x ∈ t.tlb, x.ctx = s.mgmt.invRunCtx → entryInRange s.mgmt x = false) ∧ t.mem = s.mem) ∧
    (∀ (c : Nat) (v : W64), c < 4096 → SMap.wf {} s.ctxs = true → ∃ t, exec (.contextEn c v) s = .next t ∧
      (∀ k, k ≠ c → t.ctx k = s.ctx k) ∧
      (live → (t.ctx c).en = (v.getLsbD 0 || ((s.ctx c).en && ctxBusy s c)) ∧ (t.ctx c).dten = v.getLsbD 1 ∧
        (t.ctx c).snapen = v.getLsbD 2 ∧ ((s.ctx c).en ≠ (t.ctx c).en → (∀ x ∈ t.tlb, x.ctx ≠ c) ∧
          (if (t.ctx c).en then (t.ctx c).quota = (s.ctx c).qceil.toNat else ∀ l ∈ t.locks, l.ctx ≠ c))) ∧
      (¬ live → t.ctxs = s.ctxs)) ∧
    (∃ t, exec .migctlGo s = .next t ∧ (live → t.mgmt.migReply = (submitMigration s s.mgmt.migdesc.toNat none).2) ∧
      (¬ live → t.streams = s.streams)) ∧
    (∃ t, exec .snapctlArm s = .next t ∧ t.mgmt = if live then { s.mgmt with snapLatched := false, snapMissed := 0 } else s.mgmt) ∧
    (∃ t, exec .snapctlTrig s = .next t ∧ (¬ live → t.mgmt = s.mgmt) ∧ (live →
      (s.mgmt.snapLatched = false → t.mgmt.snapLatched = true ∧ t.mgmt.snapSrc = 1 ∧ t.mgmt.snapMissed = s.mgmt.snapMissed) ∧
      (s.mgmt.snapLatched = true → t.mgmt.snapMissed = min 65535 (s.mgmt.snapMissed + 1) ∧ t.mgmt.snapData = s.mgmt.snapData))) ∧
    (exec .devctlRst s = .next (if live then fullReset s else { s with free := s.free + 1 })) ∧
    (∀ (off : BitVec 28) (v : W64), ∃ t, exec (.registerWrite off v) s = .next t ∧
      (off.toNat % 8 ≠ 0 ∨ s.mgmt.d3hot = true → t = { s with free := s.free + 1 }) ∧
      (off.toNat % 8 = 0 → off.toNat < 0x10000 ∨ 0x20000 ≤ off.toNat → ¬ live → t = { s with free := s.free + 1 }) ∧
      (live → s.mgmt.d3hot = false → (off = 0x20 → t.mgmt.hvec = v.toNat % 2 ^ 11) ∧
        (off = 0x20000 → t.mgmt.pwrcap = max 1000 (min 3600 (v.toNat % 4096))) ∧ (off = 0x110020 → t.mgmt.plim = v))) ∧
    (live → s.mgmt.d3hot = false → bar0Read s 0 = 0x51390200)

/-- R336 to R338, R466 to R471, R474, Table 19-5: the mailbox commands, the power check, the thermal trip, the fencing of a unit, the loss
of supply, the entry to D3hot and the full reset. A reset or loss of power leaves no memory, team, grid, context or key slot, and keeps
the fuses and the flash images. That a thermal trip discards all that a full reset does and that in recovery the mailbox refuses its
commands with MBSTAT 2 (log 98), and that fc is 0 at boot (log 3), are the model's choice. -/
def Obligations.Iagar_events : Prop :=
  ∀ s : State,
    let on := s.mgmt.d3hot = false
    let open' := s.mgmt.devstate ≠ 2
    let idle := s.mgmt.mbstat ≠ 1
    let gone := fun (t : State) => t.mem = [] ∧ t.teams = [] ∧ t.grids = [] ∧ t.bundles = [] ∧ t.ctxs = [] ∧ t.keySlots = [] ∧ t.reqs = [] ∧
      t.faults = [] ∧ t.iagar.rootDigest = s.iagar.rootDigest ∧ t.iagar.secret = s.iagar.secret ∧ t.iagar.images = s.iagar.images
    (on → idle → ∀ piece, ∃ t, exec (.stageFirmware piece) s = .next t ∧ t.mgmt.mbstat = 0 ∧ (SMap.wf 0 s.iagar.staged = true →
      ∀ i < 4096, t.iagar.staged.get 0 (4096 * piece.toNat + i) = s.mgmt.mbuf.get 0 i)) ∧
    (on → idle → (∃ t, exec .attest s = .next t ∧ t.mgmt.mbstat = 0) ∧
      (∃ t, exec .loadKeySlot s = .next t ∧ (¬ open' → t.mgmt.mbstat = 2 ∧ t.keySlots = s.keySlots) ∧
        (open' → SMap.wf [] s.keySlots = true → match Config.unwrapKey s.iagar.secret (mailboxBytes s 0 4096) with
          | none => t.mgmt.mbstat = 2 ∧ t.keySlots = s.keySlots
          | some k => t.mgmt.mbstat = 0 ∧ t.keySlots.get [] (s.mgmt.mbuf.get 0 0).toNat = k)) ∧
      (∃ t, exec .identityCertificate s = .next t ∧ t.mgmt.mbstat = if open' then 0 else 2) ∧
      (∃ t, exec .clearFenceRecord s = .next t ∧ (open' → t.iagar.clearFences = true) ∧ t.mgmt.fencedCores = s.mgmt.fencedCores)) ∧
    (on → s.fc % 240000 = 0 → ∀ (watts : Nat) (dies hbm : List Nat), dies.length = 8 → hbm.length = 16 →
      ∃ t, exec (.powerCheck watts dies hbm) s = .next t ∧ t.mgmt.watts = watts ∧
        let above := s.mgmt.pwrcap < watts ∨ (∃ d ∈ dies, 1600 < d) ∨ ∃ h ∈ hbm, 1520 < h
        let below := 100 * watts ≤ 95 * s.mgmt.pwrcap ∧ (∀ d ∈ dies, d ≤ 1552) ∧ ∀ h ∈ hbm, h ≤ 1472
        (above → t.mhz = max 600 (s.mhz - 75)) ∧ (¬ above → below → t.mhz = min 1200 (s.mhz + 75)) ∧ (¬ above → ¬ below → t.mhz = s.mhz)) ∧
    (on → s.mgmt.devstate ≠ 3 → ∀ (stack : Bool) (sensor temp : Nat),
      (if stack then sensor < 16 ∧ 1680 ≤ temp else sensor < 8 ∧ 1840 ≤ temp) →
      ∃ t, exec (.thermalTrip stack sensor temp) s = .next t ∧ gone t ∧ t.mgmt.devstate = 3 ∧ t.msix = s.mgmt.hvec :: s.msix) ∧
    (∀ (u : UnitKind) (n : Nat), n < unitCount u → n ∉ fencedUnits s u → (u, n) ∈ s.failing → ∃ t, exec (.unitFence u n) s = .next t ∧
      t.mgmt.newfence = true ∧ n ∈ fencedUnits t u ∧ (t.msix.length = s.msix.length + 1)) ∧
    (∃ t, exec .supplyLoss s = .next t ∧ gone t ∧ t.mgmt.d3hot = true ∧ t.iagar = s.iagar) ∧
    (on → ∃ t, exec .d3hotEntry s = .next t ∧ gone t ∧ t.mgmt.d3hot = true ∧ t.iagar = s.iagar) ∧
    (∃ t, exec .fullReset s = .next t ∧ gone t ∧ (t.mgmt.devstate = 1 ∨ t.mgmt.devstate = 2) ∧ t.mgmt.d3hot = false ∧ t.fc = 0 ∧
      t.mhz = 1200 ∧ t.mgmt.pwrcap = 3600 ∧
      (s.iagar.clearFences = false → t.mgmt.fencedCores = s.iagar.recCores ∧ t.mgmt.fencedMscs = s.iagar.recMscs))

/-! ## Memory events -/

/-- R203, R206, R219, R220, R269, R280, R315, R323, R329, R336, R337: requests reach slices and their homes; at a home that the requester
knows, a store of up to 32 bytes leaves its bytes under its mask and no other changed, and a load brings the bytes there, or those of its
core's L1, extended or packed, into its queue entry's slot and changes no byte of memory; an accepted integer add of 1 to 16 bytes at one
device address leaves the sum there and no other byte changed; an uncorrectable error poisons what it strikes. -/
def Obligations.Home_events : Prop :=
  (∀ (s : State) (n : Nat) (r : Req), s.req? n = some r →
    let calm := (∀ q ∈ s.reqs, q.gathered = false) ∧ ∀ k, (s.regions.get {} k).st ≠ 2
    let homed := fun (r : Req) => ∀ w ∈ segWords (placesOf s r), let x := s.regions.get {} (w / 4096)
      x.st = 1 ∧ ∀ c ∈ s.regionCache, c.1 = (r.core, w / 4096) → c.2 = (x.die, x.node)
    (r.accepted = false → r.gathered = false → r.rehome = none → reqReady s r = true →
      (carried s r = true ∨ (∃ tr, reqSegs s r = .error tr) ∨ (r.sent = false ∧ ∃ l, reqSegs s r = .ok l ∧ l1Serves s r l = true)) →
      ∃ t, exec (.l2Access n) s = .next t ∧
        (calm → homed r → (∀ data mask a, r.kind = .store data mask → r.segs = [(0, a, r.len)] → (storeBytes s r data).length = r.len → mask.length = r.len →
            r.len ≤ 32 → r.bad = false → (s.ctx r.ctx).dten = false → s.memWf = true →
            t.req? n = none ∧ (∀ j < r.len, t.physByte 0 (a + j) =
              maskMerge (s.physByte 0 (a + j)) ((storeBytes s r data).getD j 0) (mask.getD j 0)) ∧
            ∀ m b, m ≠ 0 ∨ b < a ∨ a + r.len ≤ b → t.physByte m b = s.physByte m b) ∧
          (∀ tid q slot g i x l tm qq en, r.kind = .load tid q slot → r.agent = .thread g i x → reqSegs s r = .ok l → segPoison s l = 0 →
            s.team? g i = some tm → tm.queue? q = some qq → (∀ y ∈ (qq.fifo tid).entries, y.claimed = none) →
            (qq.fifo tid).entries.find? (·.req == n) = some en → SMap.wf 0 tm.spad = true →
            t.req? n = none ∧ (∀ m b, t.physByte m b = s.physByte m b) ∧ ∃ m, t.team? g i = some m ∧
              (m.queue? q).map (fun z => ((z.fifo tid).entries.find? (·.req == n)).map fun y => (y.ready, y.poison)) = some (some (true, none)) ∧
              let a := slotAddr qq tid slot
              let held := fun (bs : List Byte) => m.spadBytes a (loadData r bs).length = loadData r bs ∧
                ∀ b, b < a ∨ a + (loadData r bs).length ≤ b → m.spad.get 0 b = tm.spad.get 0 b
              ((∀ y ∈ s.l1, y.core ≠ r.core) → (∀ y ∈ s.reqs, y.taken = false) → held (segBytes s l)) ∧
              (r.sent = false → l1Serves s r l = true → ∀ a len, l = [(0, a, len)] →
                held ((List.range len).map fun j => ((((l1Usable s r.core ((a + j) / 16)).map (·.data)).getD []).getD ((a + j) % 16) 0)))))) ∧
    (∀ h, r.rehome = some (some h) → answersOut s n = false → ∃ t, exec (.rehome n) s = .next t ∧ (t.req? n).map (·.rehome) = some none ∧
      t.regionCache.head? = some ((r.core, r.rehomeReg), h)) ∧
    (r.rehome = some none → r.rehomeAt + 64 ≤ s.fc → answersOut s n = false → ∃ t, exec (.rehomeRetry n) s = .next t ∧ (t.req? n).map (·.rehome) = some none) ∧
    (r.accepted = true → ∀ op k x cmp fmt, r.kind = .atom op k x cmp fmt → ∃ t, exec (.atomicAtHome n) s = .next t ∧ t.req? n = none ∧
      ∀ a, op = 0 → k ≤ 16 → r.bad = false → r.segs = [(0, a, k)] → segPoison s r.segs = 0 → (∀ q ∈ s.reqs, q.gathered = false) → s.memWf = true →
        (s.ctx r.ctx).dten = false → (∀ n, (s.regions.get {} n).st ≠ 2) →
        leNat (t.physBytes 0 a k) = (leNat (s.physBytes 0 a k) + x) % 2 ^ (8 * k) ∧
        ∀ m b, m ≠ 0 ∨ b < a ∨ a + k ≤ b → t.physByte m b = s.physByte m b) ∧
    (r.accepted = true → ∀ op k x fmt, r.kind = .red op k x fmt → ∃ t, exec (.redApplication n) s = .next t ∧ t.req? n = none) ∧
    (r.accepted = true → ∀ op k x fmt g sq slot, r.kind = .dred op k x fmt g sq slot → ∃ t, exec (.pressContribution n) s = .next t ∧
      t.req? n = none ∧ ((∀ n, (s.regions.get {} n).st ≠ 2) → (∀ h, (heldPress s h).length < 16) → r.bad = false →
        t.press.length = s.press.length + (if segPoison s r.segs = 0 then 1 else 0) ∧ ∀ m b, t.physByte m b = s.physByte m b))) ∧
  (∀ (s : State) (p : Spot) (u : Bool), spotExists s p = true → ∃ t, exec (.softError p u) s = .next t ∧
    (u = false → t.teams = s.teams ∧ t.poison = s.poison ∧ t.mem = s.mem) ∧
    (∀ n, u = true → p = .dram n → t.poison.get 0 n = 7) ∧
    (∀ g n tid r x, u = true → p = .reg g n tid r → s.threadOf g n tid = some x →
      (t.threadOf g n tid).map (fun y => (y.v, decide (r ∈ y.vpoison))) = some (x.v, true)))

/-- R215, R414, R424, R428, R429, R433, R437: a well arrival that has reached its core adds its units at an armed well, leaves any other,
and is answered; packets begin when they may, routers serve a fc once, acknowledgements and old hoops go, pressure is taken every 16 fc,
and links retry, retrain and train. That the links below 10 are those of the die boundaries is the model's choice (log 23). -/
def Obligations.Fabric_events : Prop :=
  (∀ (s : State) (n o amt : Nat) (p : Packet) (d : Nat × Nat) (tm : Team), s.packet? n = some p → p.kind = 7 → p.arrive = some (o, amt) →
    p.reached ≠ [] → p.dests.head? = some d → s.team? p.grid d.2 = some tm → parked tm.phase = false → SMap.wf 0 tm.spad = true →
    let w := tm.well o
    ∃ t m q, exec (.wellArrival n) s = .next t ∧ t.team? p.grid d.2 = some m ∧ t.packets.getLast? = some q ∧ q.kind = 3 ∧ q.answers = p.id ∧
      q.missed = !(w.armed && w.target != 0) ∧
      (m.well o = if w.armed ∧ w.target ≠ 0 then { w with count := (w.count + amt) % w.target
                                                          gen := (w.gen + (w.count + amt) / w.target) % 2 ^ 32 } else w) ∧
      ∀ a, a < o ∨ o + 32 ≤ a → m.spad.get 0 a = tm.spad.get 0 a) ∧
  (∀ (s : State) (n : Nat) (r : Req), s.packet? n = none → s.req? n = some r → sendable s r = true →
    ∃ t, exec (.packetInjection n) s = .next t ∧ (t.req? n).map (·.sent) = some true) ∧
  (∀ (s : State) (n : Nat) (p : Packet), s.packet? n = some p →
    (mayBegin s p = true → ∃ t, exec (.packetInjection n) s = .next t ∧ (t.packet? n).map (·.begun) = some true) ∧
    (p.isAnswer = true → p.reached ≠ [] → ∃ t, exec (.acknowledgement n) s = .next t ∧ (n ≠ s.nextId → t.packet? n = none))) ∧
  (∀ (s : State) (die node : Nat) (reply : Bool), die < 8 → node < 192 → routerBusy s (192 * die + node) reply = true →
    routerId (192 * die + node) reply ∉ s.routed →
    ∃ t, exec (.flitArrival die reply node) s = .next t ∧ routerId (192 * die + node) reply ∈ t.routed) ∧
  (∀ (s : State) (n : Nat) (h : Hoop), s.hoops.find? (·.id == n) = some h → h.reserved = false → h.since + 113688 ≤ s.fc →
    (s.packet? h.pkt = none → ∃ t, exec (.hoopTimeout n) s = .next t ∧ ∀ x ∈ t.hoops, x.id ≠ n) ∧
    (∀ p, s.packet? h.pkt = some p → (∃ i < flitCount p, i ∉ h.got) → ∃ t, exec (.hoopTimeout n) s = .next t ∧
      (inOrder s p h.core = true → ∀ x ∈ t.hoops, x.id ≠ n) ∧
      (inOrder s p h.core = false → ∃ x ∈ t.hoops, x.id = n ∧ x.applied = flitCount p))) ∧
  (∀ s : State, s.fc % 16 = 0 → s.pressureAt ≠ s.fc + 1 → ∃ t, exec .fabricPressureUpdate s = .next t ∧ ∀ x < 1536,
    t.pressure.get 0 x = if draining s (x / 192) then 255
      else max (255 * inFlight s (x / 192) / 4096) (255 * ((s.waits.get [] x).filter fun c => c < s.fc ∧ s.fc ≤ c + 64).length / 64)) ∧
  (∀ (s : State) (n : Nat),
    ((linkOf s n).retries < 8 → ∃ t, exec (.linkRetry n) s = .next t ∧ (linkOf t n).replays = (linkOf s n).replays + 1 ∧
      (linkOf t n).retries ≤ 8 ∧ t.flits = s.flits) ∧
    ((linkOf s n).retries = 8 → ∃ t, exec (.linkRetrain n) s = .next t ∧ (linkOf t n).retries = 0 ∧
      (linkOf t n).retrains = (linkOf s n).retrains + 1 ∧ t.flits.length = s.flits.length) ∧
    ∀ peers, ∃ t, exec (.linkTraining n peers) s = .next t ∧ (linkOf t n).up = true ∧ (linkOf t n).peers = peers ∧
      (linkOf t n).cmp = (!s.mgmt.nocmp && (n < 10 || peers.all Config.peerHoldsBlocks)) ∧ (linkOf t n).dedup = !s.mgmt.nodedup ∧
      (linkOf t n).sender = [] ∧ (linkOf t n).mirror = [])

/-- R398 to R403, R416, R418, R441 to R444: a scribe reads a piece, sends it, arrives with what has been acknowledged, or ends early, a
transfer continues on a free channel, an access thread runs its clause, window requests are answered, and migration streams take frames
and fail. A round sweeps the dirty bits of its range (R391) and sends, sealed and numbered in order, the pages found dirty, or all in the
first round and after an overflow; it writes the status block and goes on, waits for MODE 1, or under MODE 1 sends the end frame and
closes; it fails where SEQ would reach 2^32 (R417). The numbers of winReply (log 39) and that the status block has a physical address (log
24) are the model's choice. -/
def Obligations.Service_events : Prop :=
  (∀ (s : State) (die ch : Nat), let c := s.scribe die ch
    (mayArrive s c = true → ∃ t, exec (.scribeArrival die ch) s = .next t ∧
      (t.scribe die ch).done = c.pieceEnd ∧ (c.pieceEnd = c.total → (t.scribe die ch).status = if (t.scribe die ch).miss then 3 else 0) ∧
      (c.pieceEnd ≠ c.total → (t.scribe die ch).status = if c.suspend ∧ c.sent = c.front c.pieceEnd then 2 else 1) ∧
      ∀ k a, t.physByte k a = s.physByte k a) ∧
    (mayArrive s c = false → hasTurn s c = true →
      (c.reading = false → ∃ t, exec (.scribeArrival die ch) s = .next t ∧ (t.scribe die ch).reading = true ∧
        (t.scribe die ch).sent = c.sent ∧ t.teams = s.teams ∧ ∀ k a, t.physByte k a = s.physByte k a) ∧
      (c.reading = true → maySend s c = true → ∃ t, exec (.scribeArrival die ch) s = .next t ∧ (t.scribe die ch).sent = (nextChunk s c).1 ∧
        (t.scribe die ch).done = c.done ∧ t.teams = s.teams ∧ ∀ k a, t.physByte k a = s.physByte k a)) ∧
    (∀ n code, c.stop = some (n, code) → mayEnd s c = true → ∃ t, exec (.scribeEarlyEnd die ch) s = .next t ∧
      (t.scribe die ch).status = 3 ∧ (t.scribe die ch).done = n ∧ ∀ k a, t.physByte k a = s.physByte k a)) ∧
  (∀ (s : State) (die ch : Nat) (c : Scribe), s.scribeWait.find? (fun c => c.die == die && c.ch == ch && c.status != 3) = some c →
    (s.scribe die ch).held = false → ∃ t, exec (.scribeContinue die ch) s = .next t ∧
      (t.scribe die ch).status = (if c.byPreempt then 1 else 2) ∧ (t.scribe die ch).done = c.done ∧ (t.scribe die ch).holder = c.holder) ∧
  (∀ (s : State) (g n tid : Nat) (tm : Team) (gr : Grid) (x : Thread), s.team? g n = some tm → s.grid? g = some gr →
    tm.access.find? (·.tid == tid) = some x → accessRuns s tm x = true → tm.core ∉ s.mgmt.fencedCores →
    accessBlocked s gr tm x = false → let clause := accessClauseAt s tm.core gr (nextFmt tm x) x.pc
    ∃ t, exec (.accessClause g n tid) s = .next t ∧ t.cur = none ∧
      (∀ h w, clause = .ok (h, [w]) → termOf h = 6 → x.resumeAt = 0 → let f := LBody.of w
        (∀ b, accessDecode h (nextFmt tm x) [] true w = .ok (.nop b) → (∀ z ∈ s.bundles, z.id ≠ s.nextId) →
          ∃ m, t.team? g n = some m ∧ m.threads = tm.threads ∧ m.k = tm.k ∧ m.queues = tm.queues ∧ m.spad = tm.spad ∧
            (m.access.find? (·.tid == tid)).map (fun y => (y.place, y.v, y.pred)) = some (.exited, x.v, x.pred) ∧
            m.accessEnded = m.access.all (·.place == .exited) ∧ t.reqs = s.reqs ∧ t.faults = s.faults ∧
            ∀ k a, t.physByte k a = s.physByte k a) ∧
        (accessDecode h (nextFmt tm x) [] true w = .ok (.qld f) → guardHolds f.grd x.pred = true → f.qn.toNat < gr.launch.queues →
          (queueNow tm f).kind = 2 → (∀ y ∈ ((queueNow tm f).fifo tid).entries, y.claimed ≠ none → y.ready = false) →
          ∃ m, t.team? g n = some m ∧ m.supplied = tm.supplied + 1 ∧ m.threads = tm.threads ∧ m.k = tm.k ∧
            (m.access.find? (·.tid == tid)).map (·.place) = some .exited ∧
            (m.queue? f.qn.toNat).map (fun q => (q.fifo tid).entries.length) = some (((queueNow tm f).fifo tid).entries.length + 1) ∧
            ∀ k a, t.physByte k a = s.physByte k a))) ∧
  (∀ (s : State) (off : BitVec 40) (op : WindowOp) (host : Bool), s.mgmt.devstate = 1 →
    (if host then hostFormed off.toNat op else peerFormed off.toNat op) = true →
    ∃ t, exec (if host then .hostWindowRequest off op else .peerWindowRequest off op) s = .next t ∧
      (∀ bytes st, op = .write bytes ∨ op = .writePoisoned bytes → resolveWindow s off.toNat bytes.length .write = .refused st →
        t.winReply = some (st, []) ∧ t.mem = s.mem) ∧
      (∀ bytes a, op = .write bytes → resolveWindow s off.toNat bytes.length .write = .at' [(0, a, bytes.length)] none →
        t.winReply = some (0, []) ∧ ((∀ q ∈ s.reqs, q.gathered = false) → (∀ n, (s.regions.get {} n).st ≠ 2) → s.memWf = true →
          (∀ i < bytes.length, t.physByte 0 (a + i) = bytes.getD i 0) ∧
          ∀ m b, m ≠ 0 ∨ b < a ∨ a + bytes.length ≤ b → t.physByte m b = s.physByte m b)) ∧
      (∀ len segs via, op = .read len → resolveWindow s off.toNat len .read = .at' segs via → (∀ q ∈ s.reqs, q.gathered = false) →
        (∀ n, (s.regions.get {} n).st ≠ 2) → t.winReply = some (if segPoison s segs = 0 then 0 else 3, segBytes s segs) ∧ t.mem = s.mem)) ∧
  (∀ (s : State) (port : Nat) (m : MigStream),
    (s.streams.find? (fun m => m.port == port && m.running && m.mode < 2) = some m → ∃ t, exec (.migrationRound port) s = .next t ∧
      let r := sweepRange s m.ctx m.va (m.len / 4096)
      let pages := if (m.mode = 0 ∧ m.runRounds = 0) ∨ (s.ctx m.ctx).dovf = true then allPages m else r.2
      let n := pages.length
      let last := m.mode = 1
      let waits := n ≤ m.thresh ∨ m.maxr ≤ m.runRounds + 1
      let flags : Byte := if last then 1 else if waits then 4 else 0
      (∀ q ∈ s.reqs, q.gathered = false) → (∀ k, (s.regions.get {} k).st ≠ 2) → s.memWf = true →
      ((∀ p ∈ pages, ∃ a, devicePage r.1 m.ctx p = some a ∧ r.1.poisonOf 0 a 4096 = 0) → m.seq + n + 1 < 2 ^ 32 →
        (∃ l, t.frames = l ++ s.frames ∧ l.reverse.map (fun q => (q.1, q.2.1, leNat ((q.2.2.drop 8).take 8), leNat ((q.2.2.drop 16).take 8),
            leNat ((q.2.2.drop 28).take 2))) =
          ((List.range n).zip pages).map (fun p => (m.port, m.peer, m.seq + 1 + p.1, p.2 % 2 ^ 64, 1)) ++
            if last then [(m.port, m.peer, m.seq + n + 1, 0, 2)] else []) ∧
        (last → ∀ x ∈ t.streams, x.id ≠ m.id) ∧
        (¬ last → ∃ x ∈ t.streams, x.id = m.id ∧ x.rounds = m.rounds + 1 ∧ x.seq = m.seq + n ∧ x.sent = m.sent + n ∧ x.found = n ∧
          x.running = !decide waits) ∧
        leNat (t.physBytes 0 m.status 4) = (m.rounds + 1) % 2 ^ 32 ∧ t.physByte 0 (m.status + 4) = flags ∧ t.physByte 0 (m.status + 5) = 0 ∧
        leNat (t.physBytes 0 (m.status + 16) 8) = n % 2 ^ 64 ∧
        ∀ k b, k ≠ 0 ∨ b < m.status ∨ m.status + 64 ≤ b → t.physByte k b = r.1.physByte k b) ∧
      (∀ p l, pages = p :: l → (devicePage r.1 m.ctx p).isSome → 2 ^ 32 ≤ m.seq + 1 → t.frames = s.frames ∧ (∀ x ∈ t.streams, x.id ≠ m.id) ∧
        t.physByte 0 (m.status + 4) = 2 ∧ t.physByte 0 (m.status + 5) = 0x1B)) ∧
    (∀ frame, s.streams.find? (fun m => m.port == port && m.running && m.mode == 2) = some m →
      ∃ t, exec (.migrationFrameReceive port frame) s = .next t ∧
        (openFrame s m frame = none → ∀ x ∈ t.streams, x.id ≠ m.id)) ∧
    (m ∈ s.streams → m.port = port → ∃ t, ∃ m ∈ s.streams, m.port = port ∧ exec (.migrationTransportFailure port) s = .next t ∧
      (∀ x ∈ t.streams, x.id ≠ m.id) ∧
      (s.memWf = true → t.physByte 0 (m.status + 4) = 2 ∧ t.physByte 0 (m.status + 5) = 0x1B))) ∧
  (∀ (s : State) (c va : Nat), s.memWf = true →
    let p := sweepPage s c va
    (dirtyLeaf s c va = none → p = (s, false)) ∧
    ∀ leaf, dirtyLeaf s c va = some leaf → let a := leaf + va / 2 ^ 12 % 2 ^ 9 / 8
      let bit := va / 2 ^ 12 % 8
      p.2 = (s.physByte 0 a).getLsbD bit ∧ (∀ b < 8, (p.1.physByte 0 a).getLsbD b = ((s.physByte 0 a).getLsbD b && b != bit)) ∧
      ∀ k b, k ≠ 0 ∨ b ≠ a → p.1.physByte k b = s.physByte k b)

/-! ## Memory, translation, reset -/

/-- R316, R337: bytes of memory read as they were last written and a write leaves every other byte alone, in physical memory and in a
scratchpad; a write keeps the canonical form (the model's own), and one of a whole sector clears its poison. -/
def Obligations.Memory_bytes : Prop :=
  (∀ (s : State) (k a : Nat) (bs : List Byte), s.memWf = true →
    let t := s.setPhysBytes k a bs
    t.memWf = true ∧ t.physBytes k a bs.length = bs ∧ (∀ i < bs.length, t.physByte k (a + i) = bs.getD i 0) ∧
    (∀ m b, min m 2 ≠ min k 2 ∨ b < a ∨ a + bs.length ≤ b → t.physByte m b = s.physByte m b) ∧
    (∀ n, k = 0 → SMap.wf 0 s.poison = true → a ≤ 32 * n → 32 * n + 32 ≤ a + bs.length → t.poison.get 0 n = 0)) ∧
  (∀ (m : Team) (o : Nat) (bs : List Byte), SMap.wf 0 m.spad = true →
    let n := m.setSpad o bs
    SMap.wf 0 n.spad = true ∧ n.spadBytes o bs.length = bs ∧ (∀ a, a < o ∨ o + bs.length ≤ a → n.spad.get 0 a = m.spad.get 0 a) ∧
    n.threads = m.threads) ∧
  (∀ (n v : Nat), leNat (leBytes n v) = v % 256 ^ n ∧ (leBytes n v).length = n)

/-- R376, R377, Table 14-4: an access to an address that is not canonical raises TRANSLATION with cause 2; the walk stops at an entry that
is not valid (cause 1) or malformed (cause 3) and goes on from any other entry that is no leaf. What an access finds is the walk's answer
or that of an entry which its TLBs hold (R378): a leaf without R, W or X raises PROTECTION for an access that needs it, a peer leaf whose
part no port reaches PROTECTION with cause 4, and any other leaf, of device, host or peer memory, maps the address. -/
def Obligations.Translation : Prop :=
  ∀ (s : State) (unit c va : Nat) (acc : Access),
    let root := (s.ctx c).root.toNat / 4096 * 4096 % 2 ^ 40
    let needs := fun (bit : Nat) => (bit = 2 ∧ (acc = .read ∨ acc = .atomic)) ∨ (bit = 3 ∧ (acc = .write ∨ acc = .atomic)) ∨ (bit = 4 ∧ acc = .fetch)
    (canonical va = false → translate s unit c va acc = .error { code := fTranslation, detail := acc.code + 8, vaddr := va }) ∧
    (∀ table level, level < 5 → let e := s.phys64 (table + 8 * (va / 2 ^ (12 + 9 * level) % 512))
      (e.testBit 0 = false → walk s table va (level + 1) = .inl (1, level + 1)) ∧
      (e.testBit 0 = true → pteBad e (level + 1) = true → walk s table va (level + 1) = .inl (3, level + 1)) ∧
      (e.testBit 0 = true → pteBad e (level + 1) = false → walk s table va (level + 1) =
        if e.testBit 1 then .inr (e, level + 1) else walk s (e / 2 ^ 12 % 2 ^ 28 * 4096) va level)) ∧
    (canonical va = true → ∃ r,
      (r = walk s root va 5 ∨ ∃ t ∈ s.tlb, seesUnit unit t.unit = true ∧ t.serves c va = true ∧ r = t.resolve s va) ∧
      (∀ cause level, r = .inl (cause, level) →
        translate s unit c va acc = .error { code := fTranslation, detail := acc.code + cause * 4 + level * 32, vaddr := va }) ∧
      (∀ leaf level, r = .inr (leaf, level) →
        let kind := leaf / 2 ^ 5 % 4
        let addr := leaf / 2 ^ 12 % 2 ^ 40 * 4096 + va % 2 ^ (12 + 9 * (level - 1))
        let reached := kind ≠ 2 ∨ peerReachable s (leaf / 2 ^ 40 % 2 ^ 10) = true
        let protection := fun (cause : Nat) => translate s unit c va acc =
          .error { code := fProtection, detail := acc.code + cause * 4 + level * 32, vaddr := va }
        ((∀ bit, needs bit → leaf.testBit bit = true) →
          (reached → translate s unit c va acc = .ok { kind, addr := if kind = 0 then addr % 2 ^ 40 else addr }) ∧
          (¬ reached → protection 4)) ∧
        ((∃ bit, needs bit ∧ leaf.testBit bit = false) → ∃ cause, protection cause ∧ 1 ≤ cause ∧ cause ≤ 3)))

/-- What the spec gives of the state after a full reset: nothing of a program, every invalid entry, the caps at their reset values and
every unit idle (R466, R467, R470; Tables 14-3a, 19-2 and 19-3). That FRHEAD is 0 (log 7) and that the part stands ready with its boot
done (log 4) are the model's choice. -/
def Obligations.Reset_values : Prop :=
  let s := State.reset
  s.teams = [] ∧ s.grids = [] ∧ s.bundles = [] ∧ s.ops = [] ∧ s.reqs = [] ∧ s.faults = [] ∧ s.tlb = [] ∧ s.locks = [] ∧ s.press = [] ∧
  s.graphs = [] ∧ s.saves = [] ∧ s.streams = [] ∧ s.packets = [] ∧ s.flits = [] ∧ s.hoops = [] ∧
  (∀ r, (s.regions.get {} r).st = 0) ∧ (∀ n, s.poison.get 0 n = 0) ∧ (∀ q, (s.sq q).en = false ∧ (s.sq q).err = false) ∧
  (∀ c, (s.ctx c).en = false ∧ (s.ctx c).root = 0 ∧ (s.ctx c).trapen = 0 ∧ (s.ctx c).sstep = 0 ∧ ∀ n, (s.ctx c).bp.get 0 n = 0) ∧
  s.mgmt.devstate = 1 ∧ s.mgmt.pwrcap = 3600 ∧ s.mgmt.plim = 12000000 ∧ s.mgmt.frEn = false ∧ s.mgmt.frHead = 0 ∧ s.mgmt.frTail = 0 ∧
  s.mgmt.nocmp = false ∧ s.mgmt.nodedup = false ∧ s.mgmt.newfence = false ∧ s.mhz = 1200 ∧ s.keySlots = []

/-- Reset memory is in canonical form (the model's own form of memory, log 5). -/
def Obligations.Reset_memory_canonical : Prop := State.reset.memWf = true

/-- Every step keeps device, host and peer memory in canonical form: addresses strictly rising, no entry that reads as an unlisted one. -/
def Obligations.Steps_keep_memory_canonical : Prop := ∀ s t : State, s.memWf = true → step s = .next t → t.memWf = true
end

