-- ==== Sys2Proof/Laws/Encoding.lean ====
section
/-! SUPPORT. The fields of encoded words: what the decoder reads from a word that the encoder wrote. -/

namespace Sys2Proof

/-! ## Slices of joined bit vectors -/

theorem slice_high {n m : Nat} (x : BitVec n) (y : BitVec m) (lo k : Nat) (h : m ≤ lo) :
    (x ++ y).extractLsb' lo k = x.extractLsb' (lo - m) k := by
  ext i hi
  simp only [BitVec.getElem_extractLsb', BitVec.getLsbD_append]
  rw [if_neg (by omega)]
  congr 1
  omega

theorem slice_low {n m : Nat} (x : BitVec n) (y : BitVec m) (lo k : Nat) (h : lo + k ≤ m) :
    (x ++ y).extractLsb' lo k = y.extractLsb' lo k := by
  ext i hi
  simp only [BitVec.getElem_extractLsb', BitVec.getLsbD_append]
  rw [if_pos (by omega)]

theorem slice_all {n : Nat} (x : BitVec n) : x.extractLsb' 0 n = x := by
  ext i hi
  simp

theorem bit_high {n m : Nat} (x : BitVec n) (y : BitVec m) (i : Nat) (h : m ≤ i) : (x ++ y).getLsbD i = x.getLsbD (i - m) := by
  rw [BitVec.getLsbD_append, if_neg (by omega)]

theorem bit_low {n m : Nat} (x : BitVec n) (y : BitVec m) (i : Nat) (h : i < m) : (x ++ y).getLsbD i = y.getLsbD i := by
  rw [BitVec.getLsbD_append, if_pos h]

/-! ## Codes -/

theorem guard_code (g : Guard) : Guard.ofCode g.code = g := by
  cases g with
  | always => decide
  | on d n =>
    revert d n
    decide

theorem operand_code (o : Operand) : Operand.ofField (BitVec.ofNat 10 o.code) = o := by
  have h : ∀ n, n < 1024 → (BitVec.ofNat 10 n).toNat = n := fun n hn => by
    rw [BitVec.toNat_ofNat, Nat.mod_eq_of_lt (by omega)]
  unfold Operand.ofField
  cases o with
  | v n =>
    have := n.isLt
    rw [Operand.code, h _ (by omega)]
    unfold Operand.ofCode
    rw [dif_pos this]
    rfl
  | k n =>
    have := n.isLt
    rw [Operand.code, h _ (by omega)]
    unfold Operand.ofCode
    rw [dif_neg (by omega), if_pos (by omega)]
    simp
  | m n =>
    have := n.isLt
    rw [Operand.code, h _ (by omega)]
    unfold Operand.ofCode
    rw [dif_neg (by omega), if_neg (by omega), if_pos (by omega)]
    simp
  | a n =>
    have := n.isLt
    rw [Operand.code, h _ (by omega)]
    unfold Operand.ofCode
    rw [dif_neg (by omega), if_neg (by omega), if_neg (by omega), if_pos (by omega)]
    simp
  | _ => rfl

/-! ## Words of every group -/

theorem bits_opc (f : Body) (opc : BitVec 10) (xf : BitVec 32) : fieldOf 10 118 (f.bits opc xf) = opc := by
  simp (disch := omega) only [fieldOf, Body.bits, slice_high, slice_all, Nat.reduceSub]

theorem bits_xf (f : Body) (opc : BitVec 10) (xf : BitVec 32) (n lo : Nat) (h : lo + n ≤ 32) :
    fieldOf n lo (f.bits opc xf) = xf.extractLsb' lo n := by
  unfold fieldOf Body.bits
  exact slice_low _ _ _ _ h

theorem bits_body (f : Body) (opc : BitVec 10) (xf : BitVec 32) : Body.of (f.bits opc xf) = f := by
  have hg : fieldOf 5 113 (f.bits opc xf) = f.grd.code := by
    simp (disch := omega) only [fieldOf, Body.bits, slice_high, slice_low, slice_all, Nat.reduceSub]
  have hfs : fieldOf 4 109 (f.bits opc xf) = f.fs := by
    simp (disch := omega) only [fieldOf, Body.bits, slice_high, slice_low, slice_all, Nat.reduceSub]
  have hd : fieldOf 10 99 (f.bits opc xf) = BitVec.ofNat 10 f.d.code := by
    simp (disch := omega) only [fieldOf, Body.bits, slice_high, slice_low, slice_all, Nat.reduceSub]
  have ha : fieldOf 10 89 (f.bits opc xf) = BitVec.ofNat 10 f.a.code := by
    simp (disch := omega) only [fieldOf, Body.bits, slice_high, slice_low, slice_all, Nat.reduceSub]
  have hb : fieldOf 10 79 (f.bits opc xf) = BitVec.ofNat 10 f.b.code := by
    simp (disch := omega) only [fieldOf, Body.bits, slice_high, slice_low, slice_all, Nat.reduceSub]
  have hc : fieldOf 10 69 (f.bits opc xf) = BitVec.ofNat 10 f.c.code := by
    simp (disch := omega) only [fieldOf, Body.bits, slice_high, slice_low, slice_all, Nat.reduceSub]
  have hm : fieldOf 3 64 (f.bits opc xf) = f.mod3 := by
    simp (disch := omega) only [fieldOf, Body.bits, slice_high, slice_low, slice_all, Nat.reduceSub]
  have hi : fieldOf 32 32 (f.bits opc xf) = f.imm := by
    simp (disch := omega) only [fieldOf, Body.bits, slice_high, slice_low, slice_all, Nat.reduceSub]
  have hfl : (f.bits opc xf).getLsbD 68 = f.fl := by
    simp (disch := omega) only [Body.bits, bit_high, bit_low, Nat.reduceSub]
    simp
  have hru : (f.bits opc xf).getLsbD 67 = f.ru := by
    simp (disch := omega) only [Body.bits, bit_high, bit_low, Nat.reduceSub]
    simp
  unfold Body.of
  rw [hg, hfs, hd, ha, hb, hc, hm, hi, hfl, hru]
  rw [guard_code, operand_code f.d, operand_code f.a, operand_code f.b, operand_code f.c]

theorem hint_of_opc {w : W128} {opc : BitVec 10} (h : fieldOf 10 118 w = opc) : isHint w = (opc.extractLsb' 6 4 == 0b1110#4) := by
  have : fieldOf 4 124 w = opc.extractLsb' 6 4 := by
    rw [← h]
    unfold fieldOf
    ext i hi
    simp only [BitVec.getElem_extractLsb', BitVec.getLsbD_extractLsb']
    rw [show 118 + (6 + i) = 124 + i by omega]
    simp only [show 6 + i < 10 by omega, decide_true, Bool.true_and]
  unfold isHint
  rw [this]
  rfl

theorem sbody_bits (f : SBody) (opc : BitVec 10) : SBody.of (f.bits opc) = f ∧ fieldOf 10 118 (f.bits opc) = opc := by
  refine ⟨?_, bits_opc ..⟩
  unfold SBody.of SBody.bits
  rw [bits_body, bits_xf _ _ _ _ _ (by omega)]
  simp (disch := omega) only [slice_high, slice_all, Nat.reduceSub]

theorem vbody_bits (f : VBody) (opc : BitVec 10) : VBody.of (f.bits opc) = f ∧ fieldOf 10 118 (f.bits opc) = opc := by
  refine ⟨?_, bits_opc ..⟩
  unfold VBody.of VBody.bits
  rw [bits_body, bits_xf _ _ _ _ _ (by omega), bits_xf _ _ _ _ _ (by omega), bits_xf _ _ _ _ _ (by omega), bits_xf _ _ _ _ _ (by omega)]
  simp (disch := omega) only [slice_high, slice_low, slice_all, Nat.reduceSub]

theorem lbody_bits (f : LBody) (opc : BitVec 10) : LBody.of (f.bits opc) = f ∧ fieldOf 10 118 (f.bits opc) = opc := by
  refine ⟨?_, bits_opc ..⟩
  unfold LBody.of LBody.bits
  rw [bits_body, bits_xf _ _ _ _ _ (by omega), bits_xf _ _ _ _ _ (by omega), bits_xf _ _ _ _ _ (by omega), bits_xf _ _ _ _ _ (by omega),
    bits_xf _ _ _ _ _ (by omega), bits_xf _ _ _ _ _ (by omega)]
  simp (disch := omega) only [slice_high, slice_low, slice_all, Nat.reduceSub]

theorem mbody_bits (f : MBody) (opc : BitVec 10) : MBody.of (f.bits opc) = f ∧ fieldOf 10 118 (f.bits opc) = opc := by
  refine ⟨?_, bits_opc ..⟩
  unfold MBody.of MBody.bits
  rw [bits_body, bits_xf _ _ _ _ _ (by omega), bits_xf _ _ _ _ _ (by omega)]
  simp (disch := omega) only [slice_high, slice_low, slice_all, Nat.reduceSub]

theorem xbody_bits (f : XBody) (func : BitVec 7) :
    XBody.of (f.bits func) = f ∧ fieldOf 10 118 (f.bits func) = 0x240 ∧ fieldOf 7 25 (f.bits func) = func := by
  refine ⟨?_, bits_opc .., ?_⟩
  · unfold XBody.of XBody.bits
    rw [bits_body, bits_xf _ _ _ _ _ (by omega)]
    simp (disch := omega) only [slice_high, slice_low, slice_all, Nat.reduceSub]
  · unfold XBody.bits
    rw [bits_xf _ _ _ _ _ (by omega)]
    simp (disch := omega) only [slice_high, slice_all, Nat.reduceSub]

theorem header_bits (h : Header) (t : BitVec 3) :
    Header.of (h.bits t) = h ∧ fieldOf 10 118 (h.bits t) = 0x3FF ∧ fieldOf 3 91 (h.bits t) = t := by
  refine ⟨?_, ?_, ?_⟩
  · have h1 : fieldOf 4 114 (h.bits t) = h.len := by
      simp (disch := omega) only [fieldOf, Header.bits, slice_high, slice_low, slice_all, Nat.reduceSub]
    have h2 : fieldOf 12 102 (h.bits t) = h.wait := by
      simp (disch := omega) only [fieldOf, Header.bits, slice_high, slice_low, slice_all, Nat.reduceSub]
    have h3 : fieldOf 4 98 (h.bits t) = h.setA := by
      simp (disch := omega) only [fieldOf, Header.bits, slice_high, slice_low, slice_all, Nat.reduceSub]
    have h4 : fieldOf 4 94 (h.bits t) = h.setB := by
      simp (disch := omega) only [fieldOf, Header.bits, slice_high, slice_low, slice_all, Nat.reduceSub]
    have h5 : (h.bits t).getLsbD 90 = h.safe := by
      simp (disch := omega) only [Header.bits, bit_high, bit_low, Nat.reduceSub]
      simp
    have h6 : fieldOf 12 78 (h.bits t) = h.spix := by
      simp (disch := omega) only [fieldOf, Header.bits, slice_high, slice_low, slice_all, Nat.reduceSub]
    have h7 : fieldOf 16 62 (h.bits t) = h.tgta := by
      simp (disch := omega) only [fieldOf, Header.bits, slice_high, slice_low, slice_all, Nat.reduceSub]
    have h8 : fieldOf 16 46 (h.bits t) = h.tgtb := by
      simp (disch := omega) only [fieldOf, Header.bits, slice_high, slice_low, slice_all, Nat.reduceSub]
    have h9 : fieldOf 16 30 (h.bits t) = h.join := by
      simp (disch := omega) only [fieldOf, Header.bits, slice_high, slice_low, slice_all, Nat.reduceSub]
    unfold Header.of
    rw [h1, h2, h3, h4, h5, h6, h7, h8, h9]
  · simp (disch := omega) only [fieldOf, Header.bits, slice_high, slice_all, Nat.reduceSub]
    rfl
  · simp (disch := omega) only [fieldOf, Header.bits, slice_high, slice_low, slice_all, Nat.reduceSub]

theorem hint_bits (opc : BitVec 6) (rest : BitVec 118) :
    let w : W128 := 0b1110#4 ++ opc ++ rest
    isHint w = true ∧ fieldOf 6 118 w = opc ∧ fieldOf 118 0 w = rest := by
  refine ⟨?_, ?_, ?_⟩
  · simp (disch := omega) only [isHint, fieldOf, slice_high, slice_all, Nat.reduceSub]
    rfl
  · simp (disch := omega) only [fieldOf, slice_high, slice_low, slice_all, Nat.reduceSub]
  · simp (disch := omega) only [fieldOf, slice_low, slice_all]

end Sys2Proof
end

