-- ==== Sys2Proof/Laws/State.lean ====
section
/-! SUPPORT. What each update of the state leaves alone: one lemma per field, and per lookup that reads only such fields. -/

namespace Sys2Proof.Machine

/-! ## State.setTeam -/

@[simp] theorem State.setTeam_fc (s : State) (t : Team) : (s.setTeam t).fc = s.fc := rfl
@[simp] theorem State.setTeam_cc (s : State) (t : Team) : (s.setTeam t).cc = s.cc := rfl
@[simp] theorem State.setTeam_mhz (s : State) (t : Team) : (s.setTeam t).mhz = s.mhz := rfl
@[simp] theorem State.setTeam_clkAcc (s : State) (t : Team) : (s.setTeam t).clkAcc = s.clkAcc := rfl
@[simp] theorem State.setTeam_agenda (s : State) (t : Team) : (s.setTeam t).agenda = s.agenda := rfl
@[simp] theorem State.setTeam_free (s : State) (t : Team) : (s.setTeam t).free = s.free := rfl
@[simp] theorem State.setTeam_nextId (s : State) (t : Team) : (s.setTeam t).nextId = s.nextId := rfl
@[simp] theorem State.setTeam_cur (s : State) (t : Team) : (s.setTeam t).cur = s.cur := rfl
@[simp] theorem State.setTeam_quadIssued (s : State) (t : Team) : (s.setTeam t).quadIssued = s.quadIssued := rfl
@[simp] theorem State.setTeam_issued (s : State) (t : Team) : (s.setTeam t).issued = s.issued := rfl
@[simp] theorem State.setTeam_deflects (s : State) (t : Team) : (s.setTeam t).deflects = s.deflects := rfl
@[simp] theorem State.setTeam_grids (s : State) (t : Team) : (s.setTeam t).grids = s.grids := rfl
@[simp] theorem State.setTeam_bundles (s : State) (t : Team) : (s.setTeam t).bundles = s.bundles := rfl
@[simp] theorem State.setTeam_ops (s : State) (t : Team) : (s.setTeam t).ops = s.ops := rfl
@[simp] theorem State.setTeam_reqs (s : State) (t : Team) : (s.setTeam t).reqs = s.reqs := rfl
@[simp] theorem State.setTeam_mem (s : State) (t : Team) : (s.setTeam t).mem = s.mem := rfl
@[simp] theorem State.setTeam_hostMem (s : State) (t : Team) : (s.setTeam t).hostMem = s.hostMem := rfl
@[simp] theorem State.setTeam_peerMem (s : State) (t : Team) : (s.setTeam t).peerMem = s.peerMem := rfl
@[simp] theorem State.setTeam_poison (s : State) (t : Team) : (s.setTeam t).poison = s.poison := rfl
@[simp] theorem State.setTeam_l1 (s : State) (t : Team) : (s.setTeam t).l1 = s.l1 := rfl
@[simp] theorem State.setTeam_tlb (s : State) (t : Team) : (s.setTeam t).tlb = s.tlb := rfl
@[simp] theorem State.setTeam_regions (s : State) (t : Team) : (s.setTeam t).regions = s.regions := rfl
@[simp] theorem State.setTeam_regionCache (s : State) (t : Team) : (s.setTeam t).regionCache = s.regionCache := rfl
@[simp] theorem State.setTeam_locks (s : State) (t : Team) : (s.setTeam t).locks = s.locks := rfl
@[simp] theorem State.setTeam_hints (s : State) (t : Team) : (s.setTeam t).hints = s.hints := rfl
@[simp] theorem State.setTeam_errors (s : State) (t : Team) : (s.setTeam t).errors = s.errors := rfl
@[simp] theorem State.setTeam_failing (s : State) (t : Team) : (s.setTeam t).failing = s.failing := rfl
@[simp] theorem State.setTeam_pressureAt (s : State) (t : Team) : (s.setTeam t).pressureAt = s.pressureAt := rfl
@[simp] theorem State.setTeam_epochAt (s : State) (t : Team) : (s.setTeam t).epochAt = s.epochAt := rfl
@[simp] theorem State.setTeam_lastSep (s : State) (t : Team) : (s.setTeam t).lastSep = s.lastSep := rfl
@[simp] theorem State.setTeam_waited (s : State) (t : Team) : (s.setTeam t).waited = s.waited := rfl
@[simp] theorem State.setTeam_injected (s : State) (t : Team) : (s.setTeam t).injected = s.injected := rfl
@[simp] theorem State.setTeam_oseqSent (s : State) (t : Team) : (s.setTeam t).oseqSent = s.oseqSent := rfl
@[simp] theorem State.setTeam_oseqDone (s : State) (t : Team) : (s.setTeam t).oseqDone = s.oseqDone := rfl
@[simp] theorem State.setTeam_press (s : State) (t : Team) : (s.setTeam t).press = s.press := rfl
@[simp] theorem State.setTeam_counters (s : State) (t : Team) : (s.setTeam t).counters = s.counters := rfl
@[simp] theorem State.setTeam_packets (s : State) (t : Team) : (s.setTeam t).packets = s.packets := rfl
@[simp] theorem State.setTeam_flits (s : State) (t : Team) : (s.setTeam t).flits = s.flits := rfl
@[simp] theorem State.setTeam_hoops (s : State) (t : Team) : (s.setTeam t).hoops = s.hoops := rfl
@[simp] theorem State.setTeam_pressure (s : State) (t : Team) : (s.setTeam t).pressure = s.pressure := rfl
@[simp] theorem State.setTeam_waits (s : State) (t : Team) : (s.setTeam t).waits = s.waits := rfl
@[simp] theorem State.setTeam_lastBegin (s : State) (t : Team) : (s.setTeam t).lastBegin = s.lastBegin := rfl
@[simp] theorem State.setTeam_routed (s : State) (t : Team) : (s.setTeam t).routed = s.routed := rfl
@[simp] theorem State.setTeam_links (s : State) (t : Team) : (s.setTeam t).links = s.links := rfl
@[simp] theorem State.setTeam_scribes (s : State) (t : Team) : (s.setTeam t).scribes = s.scribes := rfl
@[simp] theorem State.setTeam_scribeWait (s : State) (t : Team) : (s.setTeam t).scribeWait = s.scribeWait := rfl
@[simp] theorem State.setTeam_scribeTurn (s : State) (t : Team) : (s.setTeam t).scribeTurn = s.scribeTurn := rfl
@[simp] theorem State.setTeam_sfuUntil (s : State) (t : Team) : (s.setTeam t).sfuUntil = s.sfuUntil := rfl
@[simp] theorem State.setTeam_sqs (s : State) (t : Team) : (s.setTeam t).sqs = s.sqs := rfl
@[simp] theorem State.setTeam_rr (s : State) (t : Team) : (s.setTeam t).rr = s.rr := rfl
@[simp] theorem State.setTeam_graphs (s : State) (t : Team) : (s.setTeam t).graphs = s.graphs := rfl
@[simp] theorem State.setTeam_acceptOrder (s : State) (t : Team) : (s.setTeam t).acceptOrder = s.acceptOrder := rfl
@[simp] theorem State.setTeam_placeHold (s : State) (t : Team) : (s.setTeam t).placeHold = s.placeHold := rfl
@[simp] theorem State.setTeam_posted (s : State) (t : Team) : (s.setTeam t).posted = s.posted := rfl
@[simp] theorem State.setTeam_hoopRecs (s : State) (t : Team) : (s.setTeam t).hoopRecs = s.hoopRecs := rfl
@[simp] theorem State.setTeam_ruling (s : State) (t : Team) : (s.setTeam t).ruling = s.ruling := rfl
@[simp] theorem State.setTeam_images (s : State) (t : Team) : (s.setTeam t).images = s.images := rfl
@[simp] theorem State.setTeam_saves (s : State) (t : Team) : (s.setTeam t).saves = s.saves := rfl
@[simp] theorem State.setTeam_rooms (s : State) (t : Team) : (s.setTeam t).rooms = s.rooms := rfl
@[simp] theorem State.setTeam_ctxs (s : State) (t : Team) : (s.setTeam t).ctxs = s.ctxs := rfl
@[simp] theorem State.setTeam_faults (s : State) (t : Team) : (s.setTeam t).faults = s.faults := rfl
@[simp] theorem State.setTeam_seq (s : State) (t : Team) : (s.setTeam t).seq = s.seq := rfl
@[simp] theorem State.setTeam_msix (s : State) (t : Team) : (s.setTeam t).msix = s.msix := rfl
@[simp] theorem State.setTeam_winReply (s : State) (t : Team) : (s.setTeam t).winReply = s.winReply := rfl
@[simp] theorem State.setTeam_streams (s : State) (t : Team) : (s.setTeam t).streams = s.streams := rfl
@[simp] theorem State.setTeam_keySlots (s : State) (t : Team) : (s.setTeam t).keySlots = s.keySlots := rfl
@[simp] theorem State.setTeam_salts (s : State) (t : Team) : (s.setTeam t).salts = s.salts := rfl
@[simp] theorem State.setTeam_frames (s : State) (t : Team) : (s.setTeam t).frames = s.frames := rfl
@[simp] theorem State.setTeam_mgmt (s : State) (t : Team) : (s.setTeam t).mgmt = s.mgmt := rfl
@[simp] theorem State.setTeam_iagar (s : State) (t : Team) : (s.setTeam t).iagar = s.iagar := rfl
@[simp] theorem State.setTeam_grid? (s : State) (t : Team) (g1 : Nat) : (s.setTeam t).grid? g1 = s.grid? g1 := rfl
@[simp] theorem State.setTeam_bundle? (s : State) (t : Team) (b1 : Nat) : (s.setTeam t).bundle? b1 = s.bundle? b1 := rfl
@[simp] theorem State.setTeam_op? (s : State) (t : Team) (n1 : Nat) : (s.setTeam t).op? n1 = s.op? n1 := rfl
@[simp] theorem State.setTeam_req? (s : State) (t : Team) (n1 : Nat) : (s.setTeam t).req? n1 = s.req? n1 := rfl
@[simp] theorem State.setTeam_packet? (s : State) (t : Team) (n1 : Nat) : (s.setTeam t).packet? n1 = s.packet? n1 := rfl
@[simp] theorem State.setTeam_ctx (s : State) (t : Team) (c1 : Nat) : (s.setTeam t).ctx c1 = s.ctx c1 := rfl
@[simp] theorem State.setTeam_sq (s : State) (t : Team) (q1 : Nat) : (s.setTeam t).sq q1 = s.sq q1 := rfl
@[simp] theorem State.setTeam_memOf (s : State) (t : Team) (k1 : Nat) : (s.setTeam t).memOf k1 = s.memOf k1 := by rcases k1 with _ | _ | _ <;> rfl
@[simp] theorem State.setTeam_physByte (s : State) (t : Team) (k1 a1 : Nat) : (s.setTeam t).physByte k1 a1 = s.physByte k1 a1 := by rcases k1 with _ | _ | _ <;> rfl
@[simp] theorem State.setTeam_physBytes (s : State) (t : Team) (k1 a1 n1 : Nat) : (s.setTeam t).physBytes k1 a1 n1 = s.physBytes k1 a1 n1 := by rcases k1 with _ | _ | _ <;> rfl

/-! ## State.updTeam -/

@[simp] theorem State.updTeam_fc (s : State) (g t : Nat) (f : Team → Team) : (s.updTeam g t f).fc = s.fc := rfl
@[simp] theorem State.updTeam_cc (s : State) (g t : Nat) (f : Team → Team) : (s.updTeam g t f).cc = s.cc := rfl
@[simp] theorem State.updTeam_mhz (s : State) (g t : Nat) (f : Team → Team) : (s.updTeam g t f).mhz = s.mhz := rfl
@[simp] theorem State.updTeam_clkAcc (s : State) (g t : Nat) (f : Team → Team) : (s.updTeam g t f).clkAcc = s.clkAcc := rfl
@[simp] theorem State.updTeam_agenda (s : State) (g t : Nat) (f : Team → Team) : (s.updTeam g t f).agenda = s.agenda := rfl
@[simp] theorem State.updTeam_free (s : State) (g t : Nat) (f : Team → Team) : (s.updTeam g t f).free = s.free := rfl
@[simp] theorem State.updTeam_nextId (s : State) (g t : Nat) (f : Team → Team) : (s.updTeam g t f).nextId = s.nextId := rfl
@[simp] theorem State.updTeam_cur (s : State) (g t : Nat) (f : Team → Team) : (s.updTeam g t f).cur = s.cur := rfl
@[simp] theorem State.updTeam_quadIssued (s : State) (g t : Nat) (f : Team → Team) : (s.updTeam g t f).quadIssued = s.quadIssued := rfl
@[simp] theorem State.updTeam_issued (s : State) (g t : Nat) (f : Team → Team) : (s.updTeam g t f).issued = s.issued := rfl
@[simp] theorem State.updTeam_deflects (s : State) (g t : Nat) (f : Team → Team) : (s.updTeam g t f).deflects = s.deflects := rfl
@[simp] theorem State.updTeam_grids (s : State) (g t : Nat) (f : Team → Team) : (s.updTeam g t f).grids = s.grids := rfl
@[simp] theorem State.updTeam_bundles (s : State) (g t : Nat) (f : Team → Team) : (s.updTeam g t f).bundles = s.bundles := rfl
@[simp] theorem State.updTeam_ops (s : State) (g t : Nat) (f : Team → Team) : (s.updTeam g t f).ops = s.ops := rfl
@[simp] theorem State.updTeam_reqs (s : State) (g t : Nat) (f : Team → Team) : (s.updTeam g t f).reqs = s.reqs := rfl
@[simp] theorem State.updTeam_mem (s : State) (g t : Nat) (f : Team → Team) : (s.updTeam g t f).mem = s.mem := rfl
@[simp] theorem State.updTeam_hostMem (s : State) (g t : Nat) (f : Team → Team) : (s.updTeam g t f).hostMem = s.hostMem := rfl
@[simp] theorem State.updTeam_peerMem (s : State) (g t : Nat) (f : Team → Team) : (s.updTeam g t f).peerMem = s.peerMem := rfl
@[simp] theorem State.updTeam_poison (s : State) (g t : Nat) (f : Team → Team) : (s.updTeam g t f).poison = s.poison := rfl
@[simp] theorem State.updTeam_l1 (s : State) (g t : Nat) (f : Team → Team) : (s.updTeam g t f).l1 = s.l1 := rfl
@[simp] theorem State.updTeam_tlb (s : State) (g t : Nat) (f : Team → Team) : (s.updTeam g t f).tlb = s.tlb := rfl
@[simp] theorem State.updTeam_regions (s : State) (g t : Nat) (f : Team → Team) : (s.updTeam g t f).regions = s.regions := rfl
@[simp] theorem State.updTeam_regionCache (s : State) (g t : Nat) (f : Team → Team) : (s.updTeam g t f).regionCache = s.regionCache := rfl
@[simp] theorem State.updTeam_locks (s : State) (g t : Nat) (f : Team → Team) : (s.updTeam g t f).locks = s.locks := rfl
@[simp] theorem State.updTeam_hints (s : State) (g t : Nat) (f : Team → Team) : (s.updTeam g t f).hints = s.hints := rfl
@[simp] theorem State.updTeam_errors (s : State) (g t : Nat) (f : Team → Team) : (s.updTeam g t f).errors = s.errors := rfl
@[simp] theorem State.updTeam_failing (s : State) (g t : Nat) (f : Team → Team) : (s.updTeam g t f).failing = s.failing := rfl
@[simp] theorem State.updTeam_pressureAt (s : State) (g t : Nat) (f : Team → Team) : (s.updTeam g t f).pressureAt = s.pressureAt := rfl
@[simp] theorem State.updTeam_epochAt (s : State) (g t : Nat) (f : Team → Team) : (s.updTeam g t f).epochAt = s.epochAt := rfl
@[simp] theorem State.updTeam_lastSep (s : State) (g t : Nat) (f : Team → Team) : (s.updTeam g t f).lastSep = s.lastSep := rfl
@[simp] theorem State.updTeam_waited (s : State) (g t : Nat) (f : Team → Team) : (s.updTeam g t f).waited = s.waited := rfl
@[simp] theorem State.updTeam_injected (s : State) (g t : Nat) (f : Team → Team) : (s.updTeam g t f).injected = s.injected := rfl
@[simp] theorem State.updTeam_oseqSent (s : State) (g t : Nat) (f : Team → Team) : (s.updTeam g t f).oseqSent = s.oseqSent := rfl
@[simp] theorem State.updTeam_oseqDone (s : State) (g t : Nat) (f : Team → Team) : (s.updTeam g t f).oseqDone = s.oseqDone := rfl
@[simp] theorem State.updTeam_press (s : State) (g t : Nat) (f : Team → Team) : (s.updTeam g t f).press = s.press := rfl
@[simp] theorem State.updTeam_counters (s : State) (g t : Nat) (f : Team → Team) : (s.updTeam g t f).counters = s.counters := rfl
@[simp] theorem State.updTeam_packets (s : State) (g t : Nat) (f : Team → Team) : (s.updTeam g t f).packets = s.packets := rfl
@[simp] theorem State.updTeam_flits (s : State) (g t : Nat) (f : Team → Team) : (s.updTeam g t f).flits = s.flits := rfl
@[simp] theorem State.updTeam_hoops (s : State) (g t : Nat) (f : Team → Team) : (s.updTeam g t f).hoops = s.hoops := rfl
@[simp] theorem State.updTeam_pressure (s : State) (g t : Nat) (f : Team → Team) : (s.updTeam g t f).pressure = s.pressure := rfl
@[simp] theorem State.updTeam_waits (s : State) (g t : Nat) (f : Team → Team) : (s.updTeam g t f).waits = s.waits := rfl
@[simp] theorem State.updTeam_lastBegin (s : State) (g t : Nat) (f : Team → Team) : (s.updTeam g t f).lastBegin = s.lastBegin := rfl
@[simp] theorem State.updTeam_routed (s : State) (g t : Nat) (f : Team → Team) : (s.updTeam g t f).routed = s.routed := rfl
@[simp] theorem State.updTeam_links (s : State) (g t : Nat) (f : Team → Team) : (s.updTeam g t f).links = s.links := rfl
@[simp] theorem State.updTeam_scribes (s : State) (g t : Nat) (f : Team → Team) : (s.updTeam g t f).scribes = s.scribes := rfl
@[simp] theorem State.updTeam_scribeWait (s : State) (g t : Nat) (f : Team → Team) : (s.updTeam g t f).scribeWait = s.scribeWait := rfl
@[simp] theorem State.updTeam_scribeTurn (s : State) (g t : Nat) (f : Team → Team) : (s.updTeam g t f).scribeTurn = s.scribeTurn := rfl
@[simp] theorem State.updTeam_sfuUntil (s : State) (g t : Nat) (f : Team → Team) : (s.updTeam g t f).sfuUntil = s.sfuUntil := rfl
@[simp] theorem State.updTeam_sqs (s : State) (g t : Nat) (f : Team → Team) : (s.updTeam g t f).sqs = s.sqs := rfl
@[simp] theorem State.updTeam_rr (s : State) (g t : Nat) (f : Team → Team) : (s.updTeam g t f).rr = s.rr := rfl
@[simp] theorem State.updTeam_graphs (s : State) (g t : Nat) (f : Team → Team) : (s.updTeam g t f).graphs = s.graphs := rfl
@[simp] theorem State.updTeam_acceptOrder (s : State) (g t : Nat) (f : Team → Team) : (s.updTeam g t f).acceptOrder = s.acceptOrder := rfl
@[simp] theorem State.updTeam_placeHold (s : State) (g t : Nat) (f : Team → Team) : (s.updTeam g t f).placeHold = s.placeHold := rfl
@[simp] theorem State.updTeam_posted (s : State) (g t : Nat) (f : Team → Team) : (s.updTeam g t f).posted = s.posted := rfl
@[simp] theorem State.updTeam_hoopRecs (s : State) (g t : Nat) (f : Team → Team) : (s.updTeam g t f).hoopRecs = s.hoopRecs := rfl
@[simp] theorem State.updTeam_ruling (s : State) (g t : Nat) (f : Team → Team) : (s.updTeam g t f).ruling = s.ruling := rfl
@[simp] theorem State.updTeam_images (s : State) (g t : Nat) (f : Team → Team) : (s.updTeam g t f).images = s.images := rfl
@[simp] theorem State.updTeam_saves (s : State) (g t : Nat) (f : Team → Team) : (s.updTeam g t f).saves = s.saves := rfl
@[simp] theorem State.updTeam_rooms (s : State) (g t : Nat) (f : Team → Team) : (s.updTeam g t f).rooms = s.rooms := rfl
@[simp] theorem State.updTeam_ctxs (s : State) (g t : Nat) (f : Team → Team) : (s.updTeam g t f).ctxs = s.ctxs := rfl
@[simp] theorem State.updTeam_faults (s : State) (g t : Nat) (f : Team → Team) : (s.updTeam g t f).faults = s.faults := rfl
@[simp] theorem State.updTeam_seq (s : State) (g t : Nat) (f : Team → Team) : (s.updTeam g t f).seq = s.seq := rfl
@[simp] theorem State.updTeam_msix (s : State) (g t : Nat) (f : Team → Team) : (s.updTeam g t f).msix = s.msix := rfl
@[simp] theorem State.updTeam_winReply (s : State) (g t : Nat) (f : Team → Team) : (s.updTeam g t f).winReply = s.winReply := rfl
@[simp] theorem State.updTeam_streams (s : State) (g t : Nat) (f : Team → Team) : (s.updTeam g t f).streams = s.streams := rfl
@[simp] theorem State.updTeam_keySlots (s : State) (g t : Nat) (f : Team → Team) : (s.updTeam g t f).keySlots = s.keySlots := rfl
@[simp] theorem State.updTeam_salts (s : State) (g t : Nat) (f : Team → Team) : (s.updTeam g t f).salts = s.salts := rfl
@[simp] theorem State.updTeam_frames (s : State) (g t : Nat) (f : Team → Team) : (s.updTeam g t f).frames = s.frames := rfl
@[simp] theorem State.updTeam_mgmt (s : State) (g t : Nat) (f : Team → Team) : (s.updTeam g t f).mgmt = s.mgmt := rfl
@[simp] theorem State.updTeam_iagar (s : State) (g t : Nat) (f : Team → Team) : (s.updTeam g t f).iagar = s.iagar := rfl
@[simp] theorem State.updTeam_grid? (s : State) (g t : Nat) (f : Team → Team) (g1 : Nat) : (s.updTeam g t f).grid? g1 = s.grid? g1 := rfl
@[simp] theorem State.updTeam_bundle? (s : State) (g t : Nat) (f : Team → Team) (b1 : Nat) : (s.updTeam g t f).bundle? b1 = s.bundle? b1 := rfl
@[simp] theorem State.updTeam_op? (s : State) (g t : Nat) (f : Team → Team) (n1 : Nat) : (s.updTeam g t f).op? n1 = s.op? n1 := rfl
@[simp] theorem State.updTeam_req? (s : State) (g t : Nat) (f : Team → Team) (n1 : Nat) : (s.updTeam g t f).req? n1 = s.req? n1 := rfl
@[simp] theorem State.updTeam_packet? (s : State) (g t : Nat) (f : Team → Team) (n1 : Nat) : (s.updTeam g t f).packet? n1 = s.packet? n1 := rfl
@[simp] theorem State.updTeam_ctx (s : State) (g t : Nat) (f : Team → Team) (c1 : Nat) : (s.updTeam g t f).ctx c1 = s.ctx c1 := rfl
@[simp] theorem State.updTeam_sq (s : State) (g t : Nat) (f : Team → Team) (q1 : Nat) : (s.updTeam g t f).sq q1 = s.sq q1 := rfl
@[simp] theorem State.updTeam_memOf (s : State) (g t : Nat) (f : Team → Team) (k1 : Nat) : (s.updTeam g t f).memOf k1 = s.memOf k1 := by rcases k1 with _ | _ | _ <;> rfl
@[simp] theorem State.updTeam_physByte (s : State) (g t : Nat) (f : Team → Team) (k1 a1 : Nat) : (s.updTeam g t f).physByte k1 a1 = s.physByte k1 a1 := by rcases k1 with _ | _ | _ <;> rfl
@[simp] theorem State.updTeam_physBytes (s : State) (g t : Nat) (f : Team → Team) (k1 a1 n1 : Nat) : (s.updTeam g t f).physBytes k1 a1 n1 = s.physBytes k1 a1 n1 := by rcases k1 with _ | _ | _ <;> rfl

/-! ## State.updGrid -/

@[simp] theorem State.updGrid_fc (s : State) (g : Nat) (f : Grid → Grid) : (s.updGrid g f).fc = s.fc := rfl
@[simp] theorem State.updGrid_cc (s : State) (g : Nat) (f : Grid → Grid) : (s.updGrid g f).cc = s.cc := rfl
@[simp] theorem State.updGrid_mhz (s : State) (g : Nat) (f : Grid → Grid) : (s.updGrid g f).mhz = s.mhz := rfl
@[simp] theorem State.updGrid_clkAcc (s : State) (g : Nat) (f : Grid → Grid) : (s.updGrid g f).clkAcc = s.clkAcc := rfl
@[simp] theorem State.updGrid_agenda (s : State) (g : Nat) (f : Grid → Grid) : (s.updGrid g f).agenda = s.agenda := rfl
@[simp] theorem State.updGrid_free (s : State) (g : Nat) (f : Grid → Grid) : (s.updGrid g f).free = s.free := rfl
@[simp] theorem State.updGrid_nextId (s : State) (g : Nat) (f : Grid → Grid) : (s.updGrid g f).nextId = s.nextId := rfl
@[simp] theorem State.updGrid_cur (s : State) (g : Nat) (f : Grid → Grid) : (s.updGrid g f).cur = s.cur := rfl
@[simp] theorem State.updGrid_quadIssued (s : State) (g : Nat) (f : Grid → Grid) : (s.updGrid g f).quadIssued = s.quadIssued := rfl
@[simp] theorem State.updGrid_issued (s : State) (g : Nat) (f : Grid → Grid) : (s.updGrid g f).issued = s.issued := rfl
@[simp] theorem State.updGrid_deflects (s : State) (g : Nat) (f : Grid → Grid) : (s.updGrid g f).deflects = s.deflects := rfl
@[simp] theorem State.updGrid_teams (s : State) (g : Nat) (f : Grid → Grid) : (s.updGrid g f).teams = s.teams := rfl
@[simp] theorem State.updGrid_bundles (s : State) (g : Nat) (f : Grid → Grid) : (s.updGrid g f).bundles = s.bundles := rfl
@[simp] theorem State.updGrid_ops (s : State) (g : Nat) (f : Grid → Grid) : (s.updGrid g f).ops = s.ops := rfl
@[simp] theorem State.updGrid_reqs (s : State) (g : Nat) (f : Grid → Grid) : (s.updGrid g f).reqs = s.reqs := rfl
@[simp] theorem State.updGrid_mem (s : State) (g : Nat) (f : Grid → Grid) : (s.updGrid g f).mem = s.mem := rfl
@[simp] theorem State.updGrid_hostMem (s : State) (g : Nat) (f : Grid → Grid) : (s.updGrid g f).hostMem = s.hostMem := rfl
@[simp] theorem State.updGrid_peerMem (s : State) (g : Nat) (f : Grid → Grid) : (s.updGrid g f).peerMem = s.peerMem := rfl
@[simp] theorem State.updGrid_poison (s : State) (g : Nat) (f : Grid → Grid) : (s.updGrid g f).poison = s.poison := rfl
@[simp] theorem State.updGrid_l1 (s : State) (g : Nat) (f : Grid → Grid) : (s.updGrid g f).l1 = s.l1 := rfl
@[simp] theorem State.updGrid_tlb (s : State) (g : Nat) (f : Grid → Grid) : (s.updGrid g f).tlb = s.tlb := rfl
@[simp] theorem State.updGrid_regions (s : State) (g : Nat) (f : Grid → Grid) : (s.updGrid g f).regions = s.regions := rfl
@[simp] theorem State.updGrid_regionCache (s : State) (g : Nat) (f : Grid → Grid) : (s.updGrid g f).regionCache = s.regionCache := rfl
@[simp] theorem State.updGrid_locks (s : State) (g : Nat) (f : Grid → Grid) : (s.updGrid g f).locks = s.locks := rfl
@[simp] theorem State.updGrid_hints (s : State) (g : Nat) (f : Grid → Grid) : (s.updGrid g f).hints = s.hints := rfl
@[simp] theorem State.updGrid_errors (s : State) (g : Nat) (f : Grid → Grid) : (s.updGrid g f).errors = s.errors := rfl
@[simp] theorem State.updGrid_failing (s : State) (g : Nat) (f : Grid → Grid) : (s.updGrid g f).failing = s.failing := rfl
@[simp] theorem State.updGrid_pressureAt (s : State) (g : Nat) (f : Grid → Grid) : (s.updGrid g f).pressureAt = s.pressureAt := rfl
@[simp] theorem State.updGrid_epochAt (s : State) (g : Nat) (f : Grid → Grid) : (s.updGrid g f).epochAt = s.epochAt := rfl
@[simp] theorem State.updGrid_lastSep (s : State) (g : Nat) (f : Grid → Grid) : (s.updGrid g f).lastSep = s.lastSep := rfl
@[simp] theorem State.updGrid_waited (s : State) (g : Nat) (f : Grid → Grid) : (s.updGrid g f).waited = s.waited := rfl
@[simp] theorem State.updGrid_injected (s : State) (g : Nat) (f : Grid → Grid) : (s.updGrid g f).injected = s.injected := rfl
@[simp] theorem State.updGrid_oseqSent (s : State) (g : Nat) (f : Grid → Grid) : (s.updGrid g f).oseqSent = s.oseqSent := rfl
@[simp] theorem State.updGrid_oseqDone (s : State) (g : Nat) (f : Grid → Grid) : (s.updGrid g f).oseqDone = s.oseqDone := rfl
@[simp] theorem State.updGrid_press (s : State) (g : Nat) (f : Grid → Grid) : (s.updGrid g f).press = s.press := rfl
@[simp] theorem State.updGrid_counters (s : State) (g : Nat) (f : Grid → Grid) : (s.updGrid g f).counters = s.counters := rfl
@[simp] theorem State.updGrid_packets (s : State) (g : Nat) (f : Grid → Grid) : (s.updGrid g f).packets = s.packets := rfl
@[simp] theorem State.updGrid_flits (s : State) (g : Nat) (f : Grid → Grid) : (s.updGrid g f).flits = s.flits := rfl
@[simp] theorem State.updGrid_hoops (s : State) (g : Nat) (f : Grid → Grid) : (s.updGrid g f).hoops = s.hoops := rfl
@[simp] theorem State.updGrid_pressure (s : State) (g : Nat) (f : Grid → Grid) : (s.updGrid g f).pressure = s.pressure := rfl
@[simp] theorem State.updGrid_waits (s : State) (g : Nat) (f : Grid → Grid) : (s.updGrid g f).waits = s.waits := rfl
@[simp] theorem State.updGrid_lastBegin (s : State) (g : Nat) (f : Grid → Grid) : (s.updGrid g f).lastBegin = s.lastBegin := rfl
@[simp] theorem State.updGrid_routed (s : State) (g : Nat) (f : Grid → Grid) : (s.updGrid g f).routed = s.routed := rfl
@[simp] theorem State.updGrid_links (s : State) (g : Nat) (f : Grid → Grid) : (s.updGrid g f).links = s.links := rfl
@[simp] theorem State.updGrid_scribes (s : State) (g : Nat) (f : Grid → Grid) : (s.updGrid g f).scribes = s.scribes := rfl
@[simp] theorem State.updGrid_scribeWait (s : State) (g : Nat) (f : Grid → Grid) : (s.updGrid g f).scribeWait = s.scribeWait := rfl
@[simp] theorem State.updGrid_scribeTurn (s : State) (g : Nat) (f : Grid → Grid) : (s.updGrid g f).scribeTurn = s.scribeTurn := rfl
@[simp] theorem State.updGrid_sfuUntil (s : State) (g : Nat) (f : Grid → Grid) : (s.updGrid g f).sfuUntil = s.sfuUntil := rfl
@[simp] theorem State.updGrid_sqs (s : State) (g : Nat) (f : Grid → Grid) : (s.updGrid g f).sqs = s.sqs := rfl
@[simp] theorem State.updGrid_rr (s : State) (g : Nat) (f : Grid → Grid) : (s.updGrid g f).rr = s.rr := rfl
@[simp] theorem State.updGrid_graphs (s : State) (g : Nat) (f : Grid → Grid) : (s.updGrid g f).graphs = s.graphs := rfl
@[simp] theorem State.updGrid_acceptOrder (s : State) (g : Nat) (f : Grid → Grid) : (s.updGrid g f).acceptOrder = s.acceptOrder := rfl
@[simp] theorem State.updGrid_placeHold (s : State) (g : Nat) (f : Grid → Grid) : (s.updGrid g f).placeHold = s.placeHold := rfl
@[simp] theorem State.updGrid_posted (s : State) (g : Nat) (f : Grid → Grid) : (s.updGrid g f).posted = s.posted := rfl
@[simp] theorem State.updGrid_hoopRecs (s : State) (g : Nat) (f : Grid → Grid) : (s.updGrid g f).hoopRecs = s.hoopRecs := rfl
@[simp] theorem State.updGrid_ruling (s : State) (g : Nat) (f : Grid → Grid) : (s.updGrid g f).ruling = s.ruling := rfl
@[simp] theorem State.updGrid_images (s : State) (g : Nat) (f : Grid → Grid) : (s.updGrid g f).images = s.images := rfl
@[simp] theorem State.updGrid_saves (s : State) (g : Nat) (f : Grid → Grid) : (s.updGrid g f).saves = s.saves := rfl
@[simp] theorem State.updGrid_rooms (s : State) (g : Nat) (f : Grid → Grid) : (s.updGrid g f).rooms = s.rooms := rfl
@[simp] theorem State.updGrid_ctxs (s : State) (g : Nat) (f : Grid → Grid) : (s.updGrid g f).ctxs = s.ctxs := rfl
@[simp] theorem State.updGrid_faults (s : State) (g : Nat) (f : Grid → Grid) : (s.updGrid g f).faults = s.faults := rfl
@[simp] theorem State.updGrid_seq (s : State) (g : Nat) (f : Grid → Grid) : (s.updGrid g f).seq = s.seq := rfl
@[simp] theorem State.updGrid_msix (s : State) (g : Nat) (f : Grid → Grid) : (s.updGrid g f).msix = s.msix := rfl
@[simp] theorem State.updGrid_winReply (s : State) (g : Nat) (f : Grid → Grid) : (s.updGrid g f).winReply = s.winReply := rfl
@[simp] theorem State.updGrid_streams (s : State) (g : Nat) (f : Grid → Grid) : (s.updGrid g f).streams = s.streams := rfl
@[simp] theorem State.updGrid_keySlots (s : State) (g : Nat) (f : Grid → Grid) : (s.updGrid g f).keySlots = s.keySlots := rfl
@[simp] theorem State.updGrid_salts (s : State) (g : Nat) (f : Grid → Grid) : (s.updGrid g f).salts = s.salts := rfl
@[simp] theorem State.updGrid_frames (s : State) (g : Nat) (f : Grid → Grid) : (s.updGrid g f).frames = s.frames := rfl
@[simp] theorem State.updGrid_mgmt (s : State) (g : Nat) (f : Grid → Grid) : (s.updGrid g f).mgmt = s.mgmt := rfl
@[simp] theorem State.updGrid_iagar (s : State) (g : Nat) (f : Grid → Grid) : (s.updGrid g f).iagar = s.iagar := rfl
@[simp] theorem State.updGrid_team? (s : State) (g : Nat) (f : Grid → Grid) (g1 i1 : Nat) : (s.updGrid g f).team? g1 i1 = s.team? g1 i1 := rfl
@[simp] theorem State.updGrid_bundle? (s : State) (g : Nat) (f : Grid → Grid) (b1 : Nat) : (s.updGrid g f).bundle? b1 = s.bundle? b1 := rfl
@[simp] theorem State.updGrid_op? (s : State) (g : Nat) (f : Grid → Grid) (n1 : Nat) : (s.updGrid g f).op? n1 = s.op? n1 := rfl
@[simp] theorem State.updGrid_req? (s : State) (g : Nat) (f : Grid → Grid) (n1 : Nat) : (s.updGrid g f).req? n1 = s.req? n1 := rfl
@[simp] theorem State.updGrid_packet? (s : State) (g : Nat) (f : Grid → Grid) (n1 : Nat) : (s.updGrid g f).packet? n1 = s.packet? n1 := rfl
@[simp] theorem State.updGrid_ctx (s : State) (g : Nat) (f : Grid → Grid) (c1 : Nat) : (s.updGrid g f).ctx c1 = s.ctx c1 := rfl
@[simp] theorem State.updGrid_sq (s : State) (g : Nat) (f : Grid → Grid) (q1 : Nat) : (s.updGrid g f).sq q1 = s.sq q1 := rfl
@[simp] theorem State.updGrid_memOf (s : State) (g : Nat) (f : Grid → Grid) (k1 : Nat) : (s.updGrid g f).memOf k1 = s.memOf k1 := by rcases k1 with _ | _ | _ <;> rfl
@[simp] theorem State.updGrid_physByte (s : State) (g : Nat) (f : Grid → Grid) (k1 a1 : Nat) : (s.updGrid g f).physByte k1 a1 = s.physByte k1 a1 := by rcases k1 with _ | _ | _ <;> rfl
@[simp] theorem State.updGrid_physBytes (s : State) (g : Nat) (f : Grid → Grid) (k1 a1 n1 : Nat) : (s.updGrid g f).physBytes k1 a1 n1 = s.physBytes k1 a1 n1 := by rcases k1 with _ | _ | _ <;> rfl

/-! ## State.updBundle -/

@[simp] theorem State.updBundle_fc (s : State) (b : Nat) (f : Bundle → Bundle) : (s.updBundle b f).fc = s.fc := rfl
@[simp] theorem State.updBundle_cc (s : State) (b : Nat) (f : Bundle → Bundle) : (s.updBundle b f).cc = s.cc := rfl
@[simp] theorem State.updBundle_mhz (s : State) (b : Nat) (f : Bundle → Bundle) : (s.updBundle b f).mhz = s.mhz := rfl
@[simp] theorem State.updBundle_clkAcc (s : State) (b : Nat) (f : Bundle → Bundle) : (s.updBundle b f).clkAcc = s.clkAcc := rfl
@[simp] theorem State.updBundle_agenda (s : State) (b : Nat) (f : Bundle → Bundle) : (s.updBundle b f).agenda = s.agenda := rfl
@[simp] theorem State.updBundle_free (s : State) (b : Nat) (f : Bundle → Bundle) : (s.updBundle b f).free = s.free := rfl
@[simp] theorem State.updBundle_nextId (s : State) (b : Nat) (f : Bundle → Bundle) : (s.updBundle b f).nextId = s.nextId := rfl
@[simp] theorem State.updBundle_cur (s : State) (b : Nat) (f : Bundle → Bundle) : (s.updBundle b f).cur = s.cur := rfl
@[simp] theorem State.updBundle_quadIssued (s : State) (b : Nat) (f : Bundle → Bundle) : (s.updBundle b f).quadIssued = s.quadIssued := rfl
@[simp] theorem State.updBundle_issued (s : State) (b : Nat) (f : Bundle → Bundle) : (s.updBundle b f).issued = s.issued := rfl
@[simp] theorem State.updBundle_deflects (s : State) (b : Nat) (f : Bundle → Bundle) : (s.updBundle b f).deflects = s.deflects := rfl
@[simp] theorem State.updBundle_teams (s : State) (b : Nat) (f : Bundle → Bundle) : (s.updBundle b f).teams = s.teams := rfl
@[simp] theorem State.updBundle_grids (s : State) (b : Nat) (f : Bundle → Bundle) : (s.updBundle b f).grids = s.grids := rfl
@[simp] theorem State.updBundle_ops (s : State) (b : Nat) (f : Bundle → Bundle) : (s.updBundle b f).ops = s.ops := rfl
@[simp] theorem State.updBundle_reqs (s : State) (b : Nat) (f : Bundle → Bundle) : (s.updBundle b f).reqs = s.reqs := rfl
@[simp] theorem State.updBundle_mem (s : State) (b : Nat) (f : Bundle → Bundle) : (s.updBundle b f).mem = s.mem := rfl
@[simp] theorem State.updBundle_hostMem (s : State) (b : Nat) (f : Bundle → Bundle) : (s.updBundle b f).hostMem = s.hostMem := rfl
@[simp] theorem State.updBundle_peerMem (s : State) (b : Nat) (f : Bundle → Bundle) : (s.updBundle b f).peerMem = s.peerMem := rfl
@[simp] theorem State.updBundle_poison (s : State) (b : Nat) (f : Bundle → Bundle) : (s.updBundle b f).poison = s.poison := rfl
@[simp] theorem State.updBundle_l1 (s : State) (b : Nat) (f : Bundle → Bundle) : (s.updBundle b f).l1 = s.l1 := rfl
@[simp] theorem State.updBundle_tlb (s : State) (b : Nat) (f : Bundle → Bundle) : (s.updBundle b f).tlb = s.tlb := rfl
@[simp] theorem State.updBundle_regions (s : State) (b : Nat) (f : Bundle → Bundle) : (s.updBundle b f).regions = s.regions := rfl
@[simp] theorem State.updBundle_regionCache (s : State) (b : Nat) (f : Bundle → Bundle) : (s.updBundle b f).regionCache = s.regionCache := rfl
@[simp] theorem State.updBundle_locks (s : State) (b : Nat) (f : Bundle → Bundle) : (s.updBundle b f).locks = s.locks := rfl
@[simp] theorem State.updBundle_hints (s : State) (b : Nat) (f : Bundle → Bundle) : (s.updBundle b f).hints = s.hints := rfl
@[simp] theorem State.updBundle_errors (s : State) (b : Nat) (f : Bundle → Bundle) : (s.updBundle b f).errors = s.errors := rfl
@[simp] theorem State.updBundle_failing (s : State) (b : Nat) (f : Bundle → Bundle) : (s.updBundle b f).failing = s.failing := rfl
@[simp] theorem State.updBundle_pressureAt (s : State) (b : Nat) (f : Bundle → Bundle) : (s.updBundle b f).pressureAt = s.pressureAt := rfl
@[simp] theorem State.updBundle_epochAt (s : State) (b : Nat) (f : Bundle → Bundle) : (s.updBundle b f).epochAt = s.epochAt := rfl
@[simp] theorem State.updBundle_lastSep (s : State) (b : Nat) (f : Bundle → Bundle) : (s.updBundle b f).lastSep = s.lastSep := rfl
@[simp] theorem State.updBundle_waited (s : State) (b : Nat) (f : Bundle → Bundle) : (s.updBundle b f).waited = s.waited := rfl
@[simp] theorem State.updBundle_injected (s : State) (b : Nat) (f : Bundle → Bundle) : (s.updBundle b f).injected = s.injected := rfl
@[simp] theorem State.updBundle_oseqSent (s : State) (b : Nat) (f : Bundle → Bundle) : (s.updBundle b f).oseqSent = s.oseqSent := rfl
@[simp] theorem State.updBundle_oseqDone (s : State) (b : Nat) (f : Bundle → Bundle) : (s.updBundle b f).oseqDone = s.oseqDone := rfl
@[simp] theorem State.updBundle_press (s : State) (b : Nat) (f : Bundle → Bundle) : (s.updBundle b f).press = s.press := rfl
@[simp] theorem State.updBundle_counters (s : State) (b : Nat) (f : Bundle → Bundle) : (s.updBundle b f).counters = s.counters := rfl
@[simp] theorem State.updBundle_packets (s : State) (b : Nat) (f : Bundle → Bundle) : (s.updBundle b f).packets = s.packets := rfl
@[simp] theorem State.updBundle_flits (s : State) (b : Nat) (f : Bundle → Bundle) : (s.updBundle b f).flits = s.flits := rfl
@[simp] theorem State.updBundle_hoops (s : State) (b : Nat) (f : Bundle → Bundle) : (s.updBundle b f).hoops = s.hoops := rfl
@[simp] theorem State.updBundle_pressure (s : State) (b : Nat) (f : Bundle → Bundle) : (s.updBundle b f).pressure = s.pressure := rfl
@[simp] theorem State.updBundle_waits (s : State) (b : Nat) (f : Bundle → Bundle) : (s.updBundle b f).waits = s.waits := rfl
@[simp] theorem State.updBundle_lastBegin (s : State) (b : Nat) (f : Bundle → Bundle) : (s.updBundle b f).lastBegin = s.lastBegin := rfl
@[simp] theorem State.updBundle_routed (s : State) (b : Nat) (f : Bundle → Bundle) : (s.updBundle b f).routed = s.routed := rfl
@[simp] theorem State.updBundle_links (s : State) (b : Nat) (f : Bundle → Bundle) : (s.updBundle b f).links = s.links := rfl
@[simp] theorem State.updBundle_scribes (s : State) (b : Nat) (f : Bundle → Bundle) : (s.updBundle b f).scribes = s.scribes := rfl
@[simp] theorem State.updBundle_scribeWait (s : State) (b : Nat) (f : Bundle → Bundle) : (s.updBundle b f).scribeWait = s.scribeWait := rfl
@[simp] theorem State.updBundle_scribeTurn (s : State) (b : Nat) (f : Bundle → Bundle) : (s.updBundle b f).scribeTurn = s.scribeTurn := rfl
@[simp] theorem State.updBundle_sfuUntil (s : State) (b : Nat) (f : Bundle → Bundle) : (s.updBundle b f).sfuUntil = s.sfuUntil := rfl
@[simp] theorem State.updBundle_sqs (s : State) (b : Nat) (f : Bundle → Bundle) : (s.updBundle b f).sqs = s.sqs := rfl
@[simp] theorem State.updBundle_rr (s : State) (b : Nat) (f : Bundle → Bundle) : (s.updBundle b f).rr = s.rr := rfl
@[simp] theorem State.updBundle_graphs (s : State) (b : Nat) (f : Bundle → Bundle) : (s.updBundle b f).graphs = s.graphs := rfl
@[simp] theorem State.updBundle_acceptOrder (s : State) (b : Nat) (f : Bundle → Bundle) : (s.updBundle b f).acceptOrder = s.acceptOrder := rfl
@[simp] theorem State.updBundle_placeHold (s : State) (b : Nat) (f : Bundle → Bundle) : (s.updBundle b f).placeHold = s.placeHold := rfl
@[simp] theorem State.updBundle_posted (s : State) (b : Nat) (f : Bundle → Bundle) : (s.updBundle b f).posted = s.posted := rfl
@[simp] theorem State.updBundle_hoopRecs (s : State) (b : Nat) (f : Bundle → Bundle) : (s.updBundle b f).hoopRecs = s.hoopRecs := rfl
@[simp] theorem State.updBundle_ruling (s : State) (b : Nat) (f : Bundle → Bundle) : (s.updBundle b f).ruling = s.ruling := rfl
@[simp] theorem State.updBundle_images (s : State) (b : Nat) (f : Bundle → Bundle) : (s.updBundle b f).images = s.images := rfl
@[simp] theorem State.updBundle_saves (s : State) (b : Nat) (f : Bundle → Bundle) : (s.updBundle b f).saves = s.saves := rfl
@[simp] theorem State.updBundle_rooms (s : State) (b : Nat) (f : Bundle → Bundle) : (s.updBundle b f).rooms = s.rooms := rfl
@[simp] theorem State.updBundle_ctxs (s : State) (b : Nat) (f : Bundle → Bundle) : (s.updBundle b f).ctxs = s.ctxs := rfl
@[simp] theorem State.updBundle_faults (s : State) (b : Nat) (f : Bundle → Bundle) : (s.updBundle b f).faults = s.faults := rfl
@[simp] theorem State.updBundle_seq (s : State) (b : Nat) (f : Bundle → Bundle) : (s.updBundle b f).seq = s.seq := rfl
@[simp] theorem State.updBundle_msix (s : State) (b : Nat) (f : Bundle → Bundle) : (s.updBundle b f).msix = s.msix := rfl
@[simp] theorem State.updBundle_winReply (s : State) (b : Nat) (f : Bundle → Bundle) : (s.updBundle b f).winReply = s.winReply := rfl
@[simp] theorem State.updBundle_streams (s : State) (b : Nat) (f : Bundle → Bundle) : (s.updBundle b f).streams = s.streams := rfl
@[simp] theorem State.updBundle_keySlots (s : State) (b : Nat) (f : Bundle → Bundle) : (s.updBundle b f).keySlots = s.keySlots := rfl
@[simp] theorem State.updBundle_salts (s : State) (b : Nat) (f : Bundle → Bundle) : (s.updBundle b f).salts = s.salts := rfl
@[simp] theorem State.updBundle_frames (s : State) (b : Nat) (f : Bundle → Bundle) : (s.updBundle b f).frames = s.frames := rfl
@[simp] theorem State.updBundle_mgmt (s : State) (b : Nat) (f : Bundle → Bundle) : (s.updBundle b f).mgmt = s.mgmt := rfl
@[simp] theorem State.updBundle_iagar (s : State) (b : Nat) (f : Bundle → Bundle) : (s.updBundle b f).iagar = s.iagar := rfl
@[simp] theorem State.updBundle_team? (s : State) (b : Nat) (f : Bundle → Bundle) (g1 i1 : Nat) : (s.updBundle b f).team? g1 i1 = s.team? g1 i1 := rfl
@[simp] theorem State.updBundle_grid? (s : State) (b : Nat) (f : Bundle → Bundle) (g1 : Nat) : (s.updBundle b f).grid? g1 = s.grid? g1 := rfl
@[simp] theorem State.updBundle_op? (s : State) (b : Nat) (f : Bundle → Bundle) (n1 : Nat) : (s.updBundle b f).op? n1 = s.op? n1 := rfl
@[simp] theorem State.updBundle_req? (s : State) (b : Nat) (f : Bundle → Bundle) (n1 : Nat) : (s.updBundle b f).req? n1 = s.req? n1 := rfl
@[simp] theorem State.updBundle_packet? (s : State) (b : Nat) (f : Bundle → Bundle) (n1 : Nat) : (s.updBundle b f).packet? n1 = s.packet? n1 := rfl
@[simp] theorem State.updBundle_ctx (s : State) (b : Nat) (f : Bundle → Bundle) (c1 : Nat) : (s.updBundle b f).ctx c1 = s.ctx c1 := rfl
@[simp] theorem State.updBundle_sq (s : State) (b : Nat) (f : Bundle → Bundle) (q1 : Nat) : (s.updBundle b f).sq q1 = s.sq q1 := rfl
@[simp] theorem State.updBundle_memOf (s : State) (b : Nat) (f : Bundle → Bundle) (k1 : Nat) : (s.updBundle b f).memOf k1 = s.memOf k1 := by rcases k1 with _ | _ | _ <;> rfl
@[simp] theorem State.updBundle_physByte (s : State) (b : Nat) (f : Bundle → Bundle) (k1 a1 : Nat) : (s.updBundle b f).physByte k1 a1 = s.physByte k1 a1 := by rcases k1 with _ | _ | _ <;> rfl
@[simp] theorem State.updBundle_physBytes (s : State) (b : Nat) (f : Bundle → Bundle) (k1 a1 n1 : Nat) : (s.updBundle b f).physBytes k1 a1 n1 = s.physBytes k1 a1 n1 := by rcases k1 with _ | _ | _ <;> rfl

/-! ## State.updCtx -/

@[simp] theorem State.updCtx_fc (s : State) (c : Nat) (f : Ctx → Ctx) : (s.updCtx c f).fc = s.fc := rfl
@[simp] theorem State.updCtx_cc (s : State) (c : Nat) (f : Ctx → Ctx) : (s.updCtx c f).cc = s.cc := rfl
@[simp] theorem State.updCtx_mhz (s : State) (c : Nat) (f : Ctx → Ctx) : (s.updCtx c f).mhz = s.mhz := rfl
@[simp] theorem State.updCtx_clkAcc (s : State) (c : Nat) (f : Ctx → Ctx) : (s.updCtx c f).clkAcc = s.clkAcc := rfl
@[simp] theorem State.updCtx_agenda (s : State) (c : Nat) (f : Ctx → Ctx) : (s.updCtx c f).agenda = s.agenda := rfl
@[simp] theorem State.updCtx_free (s : State) (c : Nat) (f : Ctx → Ctx) : (s.updCtx c f).free = s.free := rfl
@[simp] theorem State.updCtx_nextId (s : State) (c : Nat) (f : Ctx → Ctx) : (s.updCtx c f).nextId = s.nextId := rfl
@[simp] theorem State.updCtx_cur (s : State) (c : Nat) (f : Ctx → Ctx) : (s.updCtx c f).cur = s.cur := rfl
@[simp] theorem State.updCtx_quadIssued (s : State) (c : Nat) (f : Ctx → Ctx) : (s.updCtx c f).quadIssued = s.quadIssued := rfl
@[simp] theorem State.updCtx_issued (s : State) (c : Nat) (f : Ctx → Ctx) : (s.updCtx c f).issued = s.issued := rfl
@[simp] theorem State.updCtx_deflects (s : State) (c : Nat) (f : Ctx → Ctx) : (s.updCtx c f).deflects = s.deflects := rfl
@[simp] theorem State.updCtx_teams (s : State) (c : Nat) (f : Ctx → Ctx) : (s.updCtx c f).teams = s.teams := rfl
@[simp] theorem State.updCtx_grids (s : State) (c : Nat) (f : Ctx → Ctx) : (s.updCtx c f).grids = s.grids := rfl
@[simp] theorem State.updCtx_bundles (s : State) (c : Nat) (f : Ctx → Ctx) : (s.updCtx c f).bundles = s.bundles := rfl
@[simp] theorem State.updCtx_ops (s : State) (c : Nat) (f : Ctx → Ctx) : (s.updCtx c f).ops = s.ops := rfl
@[simp] theorem State.updCtx_reqs (s : State) (c : Nat) (f : Ctx → Ctx) : (s.updCtx c f).reqs = s.reqs := rfl
@[simp] theorem State.updCtx_mem (s : State) (c : Nat) (f : Ctx → Ctx) : (s.updCtx c f).mem = s.mem := rfl
@[simp] theorem State.updCtx_hostMem (s : State) (c : Nat) (f : Ctx → Ctx) : (s.updCtx c f).hostMem = s.hostMem := rfl
@[simp] theorem State.updCtx_peerMem (s : State) (c : Nat) (f : Ctx → Ctx) : (s.updCtx c f).peerMem = s.peerMem := rfl
@[simp] theorem State.updCtx_poison (s : State) (c : Nat) (f : Ctx → Ctx) : (s.updCtx c f).poison = s.poison := rfl
@[simp] theorem State.updCtx_l1 (s : State) (c : Nat) (f : Ctx → Ctx) : (s.updCtx c f).l1 = s.l1 := rfl
@[simp] theorem State.updCtx_tlb (s : State) (c : Nat) (f : Ctx → Ctx) : (s.updCtx c f).tlb = s.tlb := rfl
@[simp] theorem State.updCtx_regions (s : State) (c : Nat) (f : Ctx → Ctx) : (s.updCtx c f).regions = s.regions := rfl
@[simp] theorem State.updCtx_regionCache (s : State) (c : Nat) (f : Ctx → Ctx) : (s.updCtx c f).regionCache = s.regionCache := rfl
@[simp] theorem State.updCtx_locks (s : State) (c : Nat) (f : Ctx → Ctx) : (s.updCtx c f).locks = s.locks := rfl
@[simp] theorem State.updCtx_hints (s : State) (c : Nat) (f : Ctx → Ctx) : (s.updCtx c f).hints = s.hints := rfl
@[simp] theorem State.updCtx_errors (s : State) (c : Nat) (f : Ctx → Ctx) : (s.updCtx c f).errors = s.errors := rfl
@[simp] theorem State.updCtx_failing (s : State) (c : Nat) (f : Ctx → Ctx) : (s.updCtx c f).failing = s.failing := rfl
@[simp] theorem State.updCtx_pressureAt (s : State) (c : Nat) (f : Ctx → Ctx) : (s.updCtx c f).pressureAt = s.pressureAt := rfl
@[simp] theorem State.updCtx_epochAt (s : State) (c : Nat) (f : Ctx → Ctx) : (s.updCtx c f).epochAt = s.epochAt := rfl
@[simp] theorem State.updCtx_lastSep (s : State) (c : Nat) (f : Ctx → Ctx) : (s.updCtx c f).lastSep = s.lastSep := rfl
@[simp] theorem State.updCtx_waited (s : State) (c : Nat) (f : Ctx → Ctx) : (s.updCtx c f).waited = s.waited := rfl
@[simp] theorem State.updCtx_injected (s : State) (c : Nat) (f : Ctx → Ctx) : (s.updCtx c f).injected = s.injected := rfl
@[simp] theorem State.updCtx_oseqSent (s : State) (c : Nat) (f : Ctx → Ctx) : (s.updCtx c f).oseqSent = s.oseqSent := rfl
@[simp] theorem State.updCtx_oseqDone (s : State) (c : Nat) (f : Ctx → Ctx) : (s.updCtx c f).oseqDone = s.oseqDone := rfl
@[simp] theorem State.updCtx_press (s : State) (c : Nat) (f : Ctx → Ctx) : (s.updCtx c f).press = s.press := rfl
@[simp] theorem State.updCtx_counters (s : State) (c : Nat) (f : Ctx → Ctx) : (s.updCtx c f).counters = s.counters := rfl
@[simp] theorem State.updCtx_packets (s : State) (c : Nat) (f : Ctx → Ctx) : (s.updCtx c f).packets = s.packets := rfl
@[simp] theorem State.updCtx_flits (s : State) (c : Nat) (f : Ctx → Ctx) : (s.updCtx c f).flits = s.flits := rfl
@[simp] theorem State.updCtx_hoops (s : State) (c : Nat) (f : Ctx → Ctx) : (s.updCtx c f).hoops = s.hoops := rfl
@[simp] theorem State.updCtx_pressure (s : State) (c : Nat) (f : Ctx → Ctx) : (s.updCtx c f).pressure = s.pressure := rfl
@[simp] theorem State.updCtx_waits (s : State) (c : Nat) (f : Ctx → Ctx) : (s.updCtx c f).waits = s.waits := rfl
@[simp] theorem State.updCtx_lastBegin (s : State) (c : Nat) (f : Ctx → Ctx) : (s.updCtx c f).lastBegin = s.lastBegin := rfl
@[simp] theorem State.updCtx_routed (s : State) (c : Nat) (f : Ctx → Ctx) : (s.updCtx c f).routed = s.routed := rfl
@[simp] theorem State.updCtx_links (s : State) (c : Nat) (f : Ctx → Ctx) : (s.updCtx c f).links = s.links := rfl
@[simp] theorem State.updCtx_scribes (s : State) (c : Nat) (f : Ctx → Ctx) : (s.updCtx c f).scribes = s.scribes := rfl
@[simp] theorem State.updCtx_scribeWait (s : State) (c : Nat) (f : Ctx → Ctx) : (s.updCtx c f).scribeWait = s.scribeWait := rfl
@[simp] theorem State.updCtx_scribeTurn (s : State) (c : Nat) (f : Ctx → Ctx) : (s.updCtx c f).scribeTurn = s.scribeTurn := rfl
@[simp] theorem State.updCtx_sfuUntil (s : State) (c : Nat) (f : Ctx → Ctx) : (s.updCtx c f).sfuUntil = s.sfuUntil := rfl
@[simp] theorem State.updCtx_sqs (s : State) (c : Nat) (f : Ctx → Ctx) : (s.updCtx c f).sqs = s.sqs := rfl
@[simp] theorem State.updCtx_rr (s : State) (c : Nat) (f : Ctx → Ctx) : (s.updCtx c f).rr = s.rr := rfl
@[simp] theorem State.updCtx_graphs (s : State) (c : Nat) (f : Ctx → Ctx) : (s.updCtx c f).graphs = s.graphs := rfl
@[simp] theorem State.updCtx_acceptOrder (s : State) (c : Nat) (f : Ctx → Ctx) : (s.updCtx c f).acceptOrder = s.acceptOrder := rfl
@[simp] theorem State.updCtx_placeHold (s : State) (c : Nat) (f : Ctx → Ctx) : (s.updCtx c f).placeHold = s.placeHold := rfl
@[simp] theorem State.updCtx_posted (s : State) (c : Nat) (f : Ctx → Ctx) : (s.updCtx c f).posted = s.posted := rfl
@[simp] theorem State.updCtx_hoopRecs (s : State) (c : Nat) (f : Ctx → Ctx) : (s.updCtx c f).hoopRecs = s.hoopRecs := rfl
@[simp] theorem State.updCtx_ruling (s : State) (c : Nat) (f : Ctx → Ctx) : (s.updCtx c f).ruling = s.ruling := rfl
@[simp] theorem State.updCtx_images (s : State) (c : Nat) (f : Ctx → Ctx) : (s.updCtx c f).images = s.images := rfl
@[simp] theorem State.updCtx_saves (s : State) (c : Nat) (f : Ctx → Ctx) : (s.updCtx c f).saves = s.saves := rfl
@[simp] theorem State.updCtx_rooms (s : State) (c : Nat) (f : Ctx → Ctx) : (s.updCtx c f).rooms = s.rooms := rfl
@[simp] theorem State.updCtx_faults (s : State) (c : Nat) (f : Ctx → Ctx) : (s.updCtx c f).faults = s.faults := rfl
@[simp] theorem State.updCtx_seq (s : State) (c : Nat) (f : Ctx → Ctx) : (s.updCtx c f).seq = s.seq := rfl
@[simp] theorem State.updCtx_msix (s : State) (c : Nat) (f : Ctx → Ctx) : (s.updCtx c f).msix = s.msix := rfl
@[simp] theorem State.updCtx_winReply (s : State) (c : Nat) (f : Ctx → Ctx) : (s.updCtx c f).winReply = s.winReply := rfl
@[simp] theorem State.updCtx_streams (s : State) (c : Nat) (f : Ctx → Ctx) : (s.updCtx c f).streams = s.streams := rfl
@[simp] theorem State.updCtx_keySlots (s : State) (c : Nat) (f : Ctx → Ctx) : (s.updCtx c f).keySlots = s.keySlots := rfl
@[simp] theorem State.updCtx_salts (s : State) (c : Nat) (f : Ctx → Ctx) : (s.updCtx c f).salts = s.salts := rfl
@[simp] theorem State.updCtx_frames (s : State) (c : Nat) (f : Ctx → Ctx) : (s.updCtx c f).frames = s.frames := rfl
@[simp] theorem State.updCtx_mgmt (s : State) (c : Nat) (f : Ctx → Ctx) : (s.updCtx c f).mgmt = s.mgmt := rfl
@[simp] theorem State.updCtx_iagar (s : State) (c : Nat) (f : Ctx → Ctx) : (s.updCtx c f).iagar = s.iagar := rfl
@[simp] theorem State.updCtx_team? (s : State) (c : Nat) (f : Ctx → Ctx) (g1 i1 : Nat) : (s.updCtx c f).team? g1 i1 = s.team? g1 i1 := rfl
@[simp] theorem State.updCtx_grid? (s : State) (c : Nat) (f : Ctx → Ctx) (g1 : Nat) : (s.updCtx c f).grid? g1 = s.grid? g1 := rfl
@[simp] theorem State.updCtx_bundle? (s : State) (c : Nat) (f : Ctx → Ctx) (b1 : Nat) : (s.updCtx c f).bundle? b1 = s.bundle? b1 := rfl
@[simp] theorem State.updCtx_op? (s : State) (c : Nat) (f : Ctx → Ctx) (n1 : Nat) : (s.updCtx c f).op? n1 = s.op? n1 := rfl
@[simp] theorem State.updCtx_req? (s : State) (c : Nat) (f : Ctx → Ctx) (n1 : Nat) : (s.updCtx c f).req? n1 = s.req? n1 := rfl
@[simp] theorem State.updCtx_packet? (s : State) (c : Nat) (f : Ctx → Ctx) (n1 : Nat) : (s.updCtx c f).packet? n1 = s.packet? n1 := rfl
@[simp] theorem State.updCtx_sq (s : State) (c : Nat) (f : Ctx → Ctx) (q1 : Nat) : (s.updCtx c f).sq q1 = s.sq q1 := rfl
@[simp] theorem State.updCtx_memOf (s : State) (c : Nat) (f : Ctx → Ctx) (k1 : Nat) : (s.updCtx c f).memOf k1 = s.memOf k1 := by rcases k1 with _ | _ | _ <;> rfl
@[simp] theorem State.updCtx_physByte (s : State) (c : Nat) (f : Ctx → Ctx) (k1 a1 : Nat) : (s.updCtx c f).physByte k1 a1 = s.physByte k1 a1 := by rcases k1 with _ | _ | _ <;> rfl
@[simp] theorem State.updCtx_physBytes (s : State) (c : Nat) (f : Ctx → Ctx) (k1 a1 n1 : Nat) : (s.updCtx c f).physBytes k1 a1 n1 = s.physBytes k1 a1 n1 := by rcases k1 with _ | _ | _ <;> rfl

/-! ## State.updSq -/

@[simp] theorem State.updSq_fc (s : State) (q : Nat) (f : Sq → Sq) : (s.updSq q f).fc = s.fc := rfl
@[simp] theorem State.updSq_cc (s : State) (q : Nat) (f : Sq → Sq) : (s.updSq q f).cc = s.cc := rfl
@[simp] theorem State.updSq_mhz (s : State) (q : Nat) (f : Sq → Sq) : (s.updSq q f).mhz = s.mhz := rfl
@[simp] theorem State.updSq_clkAcc (s : State) (q : Nat) (f : Sq → Sq) : (s.updSq q f).clkAcc = s.clkAcc := rfl
@[simp] theorem State.updSq_agenda (s : State) (q : Nat) (f : Sq → Sq) : (s.updSq q f).agenda = s.agenda := rfl
@[simp] theorem State.updSq_free (s : State) (q : Nat) (f : Sq → Sq) : (s.updSq q f).free = s.free := rfl
@[simp] theorem State.updSq_nextId (s : State) (q : Nat) (f : Sq → Sq) : (s.updSq q f).nextId = s.nextId := rfl
@[simp] theorem State.updSq_cur (s : State) (q : Nat) (f : Sq → Sq) : (s.updSq q f).cur = s.cur := rfl
@[simp] theorem State.updSq_quadIssued (s : State) (q : Nat) (f : Sq → Sq) : (s.updSq q f).quadIssued = s.quadIssued := rfl
@[simp] theorem State.updSq_issued (s : State) (q : Nat) (f : Sq → Sq) : (s.updSq q f).issued = s.issued := rfl
@[simp] theorem State.updSq_deflects (s : State) (q : Nat) (f : Sq → Sq) : (s.updSq q f).deflects = s.deflects := rfl
@[simp] theorem State.updSq_teams (s : State) (q : Nat) (f : Sq → Sq) : (s.updSq q f).teams = s.teams := rfl
@[simp] theorem State.updSq_grids (s : State) (q : Nat) (f : Sq → Sq) : (s.updSq q f).grids = s.grids := rfl
@[simp] theorem State.updSq_bundles (s : State) (q : Nat) (f : Sq → Sq) : (s.updSq q f).bundles = s.bundles := rfl
@[simp] theorem State.updSq_ops (s : State) (q : Nat) (f : Sq → Sq) : (s.updSq q f).ops = s.ops := rfl
@[simp] theorem State.updSq_reqs (s : State) (q : Nat) (f : Sq → Sq) : (s.updSq q f).reqs = s.reqs := rfl
@[simp] theorem State.updSq_mem (s : State) (q : Nat) (f : Sq → Sq) : (s.updSq q f).mem = s.mem := rfl
@[simp] theorem State.updSq_hostMem (s : State) (q : Nat) (f : Sq → Sq) : (s.updSq q f).hostMem = s.hostMem := rfl
@[simp] theorem State.updSq_peerMem (s : State) (q : Nat) (f : Sq → Sq) : (s.updSq q f).peerMem = s.peerMem := rfl
@[simp] theorem State.updSq_poison (s : State) (q : Nat) (f : Sq → Sq) : (s.updSq q f).poison = s.poison := rfl
@[simp] theorem State.updSq_l1 (s : State) (q : Nat) (f : Sq → Sq) : (s.updSq q f).l1 = s.l1 := rfl
@[simp] theorem State.updSq_tlb (s : State) (q : Nat) (f : Sq → Sq) : (s.updSq q f).tlb = s.tlb := rfl
@[simp] theorem State.updSq_regions (s : State) (q : Nat) (f : Sq → Sq) : (s.updSq q f).regions = s.regions := rfl
@[simp] theorem State.updSq_regionCache (s : State) (q : Nat) (f : Sq → Sq) : (s.updSq q f).regionCache = s.regionCache := rfl
@[simp] theorem State.updSq_locks (s : State) (q : Nat) (f : Sq → Sq) : (s.updSq q f).locks = s.locks := rfl
@[simp] theorem State.updSq_hints (s : State) (q : Nat) (f : Sq → Sq) : (s.updSq q f).hints = s.hints := rfl
@[simp] theorem State.updSq_errors (s : State) (q : Nat) (f : Sq → Sq) : (s.updSq q f).errors = s.errors := rfl
@[simp] theorem State.updSq_failing (s : State) (q : Nat) (f : Sq → Sq) : (s.updSq q f).failing = s.failing := rfl
@[simp] theorem State.updSq_pressureAt (s : State) (q : Nat) (f : Sq → Sq) : (s.updSq q f).pressureAt = s.pressureAt := rfl
@[simp] theorem State.updSq_epochAt (s : State) (q : Nat) (f : Sq → Sq) : (s.updSq q f).epochAt = s.epochAt := rfl
@[simp] theorem State.updSq_lastSep (s : State) (q : Nat) (f : Sq → Sq) : (s.updSq q f).lastSep = s.lastSep := rfl
@[simp] theorem State.updSq_waited (s : State) (q : Nat) (f : Sq → Sq) : (s.updSq q f).waited = s.waited := rfl
@[simp] theorem State.updSq_injected (s : State) (q : Nat) (f : Sq → Sq) : (s.updSq q f).injected = s.injected := rfl
@[simp] theorem State.updSq_oseqSent (s : State) (q : Nat) (f : Sq → Sq) : (s.updSq q f).oseqSent = s.oseqSent := rfl
@[simp] theorem State.updSq_oseqDone (s : State) (q : Nat) (f : Sq → Sq) : (s.updSq q f).oseqDone = s.oseqDone := rfl
@[simp] theorem State.updSq_press (s : State) (q : Nat) (f : Sq → Sq) : (s.updSq q f).press = s.press := rfl
@[simp] theorem State.updSq_counters (s : State) (q : Nat) (f : Sq → Sq) : (s.updSq q f).counters = s.counters := rfl
@[simp] theorem State.updSq_packets (s : State) (q : Nat) (f : Sq → Sq) : (s.updSq q f).packets = s.packets := rfl
@[simp] theorem State.updSq_flits (s : State) (q : Nat) (f : Sq → Sq) : (s.updSq q f).flits = s.flits := rfl
@[simp] theorem State.updSq_hoops (s : State) (q : Nat) (f : Sq → Sq) : (s.updSq q f).hoops = s.hoops := rfl
@[simp] theorem State.updSq_pressure (s : State) (q : Nat) (f : Sq → Sq) : (s.updSq q f).pressure = s.pressure := rfl
@[simp] theorem State.updSq_waits (s : State) (q : Nat) (f : Sq → Sq) : (s.updSq q f).waits = s.waits := rfl
@[simp] theorem State.updSq_lastBegin (s : State) (q : Nat) (f : Sq → Sq) : (s.updSq q f).lastBegin = s.lastBegin := rfl
@[simp] theorem State.updSq_routed (s : State) (q : Nat) (f : Sq → Sq) : (s.updSq q f).routed = s.routed := rfl
@[simp] theorem State.updSq_links (s : State) (q : Nat) (f : Sq → Sq) : (s.updSq q f).links = s.links := rfl
@[simp] theorem State.updSq_scribes (s : State) (q : Nat) (f : Sq → Sq) : (s.updSq q f).scribes = s.scribes := rfl
@[simp] theorem State.updSq_scribeWait (s : State) (q : Nat) (f : Sq → Sq) : (s.updSq q f).scribeWait = s.scribeWait := rfl
@[simp] theorem State.updSq_scribeTurn (s : State) (q : Nat) (f : Sq → Sq) : (s.updSq q f).scribeTurn = s.scribeTurn := rfl
@[simp] theorem State.updSq_sfuUntil (s : State) (q : Nat) (f : Sq → Sq) : (s.updSq q f).sfuUntil = s.sfuUntil := rfl
@[simp] theorem State.updSq_rr (s : State) (q : Nat) (f : Sq → Sq) : (s.updSq q f).rr = s.rr := rfl
@[simp] theorem State.updSq_graphs (s : State) (q : Nat) (f : Sq → Sq) : (s.updSq q f).graphs = s.graphs := rfl
@[simp] theorem State.updSq_acceptOrder (s : State) (q : Nat) (f : Sq → Sq) : (s.updSq q f).acceptOrder = s.acceptOrder := rfl
@[simp] theorem State.updSq_placeHold (s : State) (q : Nat) (f : Sq → Sq) : (s.updSq q f).placeHold = s.placeHold := rfl
@[simp] theorem State.updSq_posted (s : State) (q : Nat) (f : Sq → Sq) : (s.updSq q f).posted = s.posted := rfl
@[simp] theorem State.updSq_hoopRecs (s : State) (q : Nat) (f : Sq → Sq) : (s.updSq q f).hoopRecs = s.hoopRecs := rfl
@[simp] theorem State.updSq_ruling (s : State) (q : Nat) (f : Sq → Sq) : (s.updSq q f).ruling = s.ruling := rfl
@[simp] theorem State.updSq_images (s : State) (q : Nat) (f : Sq → Sq) : (s.updSq q f).images = s.images := rfl
@[simp] theorem State.updSq_saves (s : State) (q : Nat) (f : Sq → Sq) : (s.updSq q f).saves = s.saves := rfl
@[simp] theorem State.updSq_rooms (s : State) (q : Nat) (f : Sq → Sq) : (s.updSq q f).rooms = s.rooms := rfl
@[simp] theorem State.updSq_ctxs (s : State) (q : Nat) (f : Sq → Sq) : (s.updSq q f).ctxs = s.ctxs := rfl
@[simp] theorem State.updSq_faults (s : State) (q : Nat) (f : Sq → Sq) : (s.updSq q f).faults = s.faults := rfl
@[simp] theorem State.updSq_seq (s : State) (q : Nat) (f : Sq → Sq) : (s.updSq q f).seq = s.seq := rfl
@[simp] theorem State.updSq_msix (s : State) (q : Nat) (f : Sq → Sq) : (s.updSq q f).msix = s.msix := rfl
@[simp] theorem State.updSq_winReply (s : State) (q : Nat) (f : Sq → Sq) : (s.updSq q f).winReply = s.winReply := rfl
@[simp] theorem State.updSq_streams (s : State) (q : Nat) (f : Sq → Sq) : (s.updSq q f).streams = s.streams := rfl
@[simp] theorem State.updSq_keySlots (s : State) (q : Nat) (f : Sq → Sq) : (s.updSq q f).keySlots = s.keySlots := rfl
@[simp] theorem State.updSq_salts (s : State) (q : Nat) (f : Sq → Sq) : (s.updSq q f).salts = s.salts := rfl
@[simp] theorem State.updSq_frames (s : State) (q : Nat) (f : Sq → Sq) : (s.updSq q f).frames = s.frames := rfl
@[simp] theorem State.updSq_mgmt (s : State) (q : Nat) (f : Sq → Sq) : (s.updSq q f).mgmt = s.mgmt := rfl
@[simp] theorem State.updSq_iagar (s : State) (q : Nat) (f : Sq → Sq) : (s.updSq q f).iagar = s.iagar := rfl
@[simp] theorem State.updSq_team? (s : State) (q : Nat) (f : Sq → Sq) (g1 i1 : Nat) : (s.updSq q f).team? g1 i1 = s.team? g1 i1 := rfl
@[simp] theorem State.updSq_grid? (s : State) (q : Nat) (f : Sq → Sq) (g1 : Nat) : (s.updSq q f).grid? g1 = s.grid? g1 := rfl
@[simp] theorem State.updSq_bundle? (s : State) (q : Nat) (f : Sq → Sq) (b1 : Nat) : (s.updSq q f).bundle? b1 = s.bundle? b1 := rfl
@[simp] theorem State.updSq_op? (s : State) (q : Nat) (f : Sq → Sq) (n1 : Nat) : (s.updSq q f).op? n1 = s.op? n1 := rfl
@[simp] theorem State.updSq_req? (s : State) (q : Nat) (f : Sq → Sq) (n1 : Nat) : (s.updSq q f).req? n1 = s.req? n1 := rfl
@[simp] theorem State.updSq_packet? (s : State) (q : Nat) (f : Sq → Sq) (n1 : Nat) : (s.updSq q f).packet? n1 = s.packet? n1 := rfl
@[simp] theorem State.updSq_ctx (s : State) (q : Nat) (f : Sq → Sq) (c1 : Nat) : (s.updSq q f).ctx c1 = s.ctx c1 := rfl
@[simp] theorem State.updSq_memOf (s : State) (q : Nat) (f : Sq → Sq) (k1 : Nat) : (s.updSq q f).memOf k1 = s.memOf k1 := by rcases k1 with _ | _ | _ <;> rfl
@[simp] theorem State.updSq_physByte (s : State) (q : Nat) (f : Sq → Sq) (k1 a1 : Nat) : (s.updSq q f).physByte k1 a1 = s.physByte k1 a1 := by rcases k1 with _ | _ | _ <;> rfl
@[simp] theorem State.updSq_physBytes (s : State) (q : Nat) (f : Sq → Sq) (k1 a1 n1 : Nat) : (s.updSq q f).physBytes k1 a1 n1 = s.physBytes k1 a1 n1 := by rcases k1 with _ | _ | _ <;> rfl

/-! ## State.updMgmt -/

@[simp] theorem State.updMgmt_fc (s : State) (f : Mgmt → Mgmt) : (s.updMgmt f).fc = s.fc := rfl
@[simp] theorem State.updMgmt_cc (s : State) (f : Mgmt → Mgmt) : (s.updMgmt f).cc = s.cc := rfl
@[simp] theorem State.updMgmt_mhz (s : State) (f : Mgmt → Mgmt) : (s.updMgmt f).mhz = s.mhz := rfl
@[simp] theorem State.updMgmt_clkAcc (s : State) (f : Mgmt → Mgmt) : (s.updMgmt f).clkAcc = s.clkAcc := rfl
@[simp] theorem State.updMgmt_agenda (s : State) (f : Mgmt → Mgmt) : (s.updMgmt f).agenda = s.agenda := rfl
@[simp] theorem State.updMgmt_free (s : State) (f : Mgmt → Mgmt) : (s.updMgmt f).free = s.free := rfl
@[simp] theorem State.updMgmt_nextId (s : State) (f : Mgmt → Mgmt) : (s.updMgmt f).nextId = s.nextId := rfl
@[simp] theorem State.updMgmt_cur (s : State) (f : Mgmt → Mgmt) : (s.updMgmt f).cur = s.cur := rfl
@[simp] theorem State.updMgmt_quadIssued (s : State) (f : Mgmt → Mgmt) : (s.updMgmt f).quadIssued = s.quadIssued := rfl
@[simp] theorem State.updMgmt_issued (s : State) (f : Mgmt → Mgmt) : (s.updMgmt f).issued = s.issued := rfl
@[simp] theorem State.updMgmt_deflects (s : State) (f : Mgmt → Mgmt) : (s.updMgmt f).deflects = s.deflects := rfl
@[simp] theorem State.updMgmt_teams (s : State) (f : Mgmt → Mgmt) : (s.updMgmt f).teams = s.teams := rfl
@[simp] theorem State.updMgmt_grids (s : State) (f : Mgmt → Mgmt) : (s.updMgmt f).grids = s.grids := rfl
@[simp] theorem State.updMgmt_bundles (s : State) (f : Mgmt → Mgmt) : (s.updMgmt f).bundles = s.bundles := rfl
@[simp] theorem State.updMgmt_ops (s : State) (f : Mgmt → Mgmt) : (s.updMgmt f).ops = s.ops := rfl
@[simp] theorem State.updMgmt_reqs (s : State) (f : Mgmt → Mgmt) : (s.updMgmt f).reqs = s.reqs := rfl
@[simp] theorem State.updMgmt_mem (s : State) (f : Mgmt → Mgmt) : (s.updMgmt f).mem = s.mem := rfl
@[simp] theorem State.updMgmt_hostMem (s : State) (f : Mgmt → Mgmt) : (s.updMgmt f).hostMem = s.hostMem := rfl
@[simp] theorem State.updMgmt_peerMem (s : State) (f : Mgmt → Mgmt) : (s.updMgmt f).peerMem = s.peerMem := rfl
@[simp] theorem State.updMgmt_poison (s : State) (f : Mgmt → Mgmt) : (s.updMgmt f).poison = s.poison := rfl
@[simp] theorem State.updMgmt_l1 (s : State) (f : Mgmt → Mgmt) : (s.updMgmt f).l1 = s.l1 := rfl
@[simp] theorem State.updMgmt_tlb (s : State) (f : Mgmt → Mgmt) : (s.updMgmt f).tlb = s.tlb := rfl
@[simp] theorem State.updMgmt_regions (s : State) (f : Mgmt → Mgmt) : (s.updMgmt f).regions = s.regions := rfl
@[simp] theorem State.updMgmt_regionCache (s : State) (f : Mgmt → Mgmt) : (s.updMgmt f).regionCache = s.regionCache := rfl
@[simp] theorem State.updMgmt_locks (s : State) (f : Mgmt → Mgmt) : (s.updMgmt f).locks = s.locks := rfl
@[simp] theorem State.updMgmt_hints (s : State) (f : Mgmt → Mgmt) : (s.updMgmt f).hints = s.hints := rfl
@[simp] theorem State.updMgmt_errors (s : State) (f : Mgmt → Mgmt) : (s.updMgmt f).errors = s.errors := rfl
@[simp] theorem State.updMgmt_failing (s : State) (f : Mgmt → Mgmt) : (s.updMgmt f).failing = s.failing := rfl
@[simp] theorem State.updMgmt_pressureAt (s : State) (f : Mgmt → Mgmt) : (s.updMgmt f).pressureAt = s.pressureAt := rfl
@[simp] theorem State.updMgmt_epochAt (s : State) (f : Mgmt → Mgmt) : (s.updMgmt f).epochAt = s.epochAt := rfl
@[simp] theorem State.updMgmt_lastSep (s : State) (f : Mgmt → Mgmt) : (s.updMgmt f).lastSep = s.lastSep := rfl
@[simp] theorem State.updMgmt_waited (s : State) (f : Mgmt → Mgmt) : (s.updMgmt f).waited = s.waited := rfl
@[simp] theorem State.updMgmt_injected (s : State) (f : Mgmt → Mgmt) : (s.updMgmt f).injected = s.injected := rfl
@[simp] theorem State.updMgmt_oseqSent (s : State) (f : Mgmt → Mgmt) : (s.updMgmt f).oseqSent = s.oseqSent := rfl
@[simp] theorem State.updMgmt_oseqDone (s : State) (f : Mgmt → Mgmt) : (s.updMgmt f).oseqDone = s.oseqDone := rfl
@[simp] theorem State.updMgmt_press (s : State) (f : Mgmt → Mgmt) : (s.updMgmt f).press = s.press := rfl
@[simp] theorem State.updMgmt_counters (s : State) (f : Mgmt → Mgmt) : (s.updMgmt f).counters = s.counters := rfl
@[simp] theorem State.updMgmt_packets (s : State) (f : Mgmt → Mgmt) : (s.updMgmt f).packets = s.packets := rfl
@[simp] theorem State.updMgmt_flits (s : State) (f : Mgmt → Mgmt) : (s.updMgmt f).flits = s.flits := rfl
@[simp] theorem State.updMgmt_hoops (s : State) (f : Mgmt → Mgmt) : (s.updMgmt f).hoops = s.hoops := rfl
@[simp] theorem State.updMgmt_pressure (s : State) (f : Mgmt → Mgmt) : (s.updMgmt f).pressure = s.pressure := rfl
@[simp] theorem State.updMgmt_waits (s : State) (f : Mgmt → Mgmt) : (s.updMgmt f).waits = s.waits := rfl
@[simp] theorem State.updMgmt_lastBegin (s : State) (f : Mgmt → Mgmt) : (s.updMgmt f).lastBegin = s.lastBegin := rfl
@[simp] theorem State.updMgmt_routed (s : State) (f : Mgmt → Mgmt) : (s.updMgmt f).routed = s.routed := rfl
@[simp] theorem State.updMgmt_links (s : State) (f : Mgmt → Mgmt) : (s.updMgmt f).links = s.links := rfl
@[simp] theorem State.updMgmt_scribes (s : State) (f : Mgmt → Mgmt) : (s.updMgmt f).scribes = s.scribes := rfl
@[simp] theorem State.updMgmt_scribeWait (s : State) (f : Mgmt → Mgmt) : (s.updMgmt f).scribeWait = s.scribeWait := rfl
@[simp] theorem State.updMgmt_scribeTurn (s : State) (f : Mgmt → Mgmt) : (s.updMgmt f).scribeTurn = s.scribeTurn := rfl
@[simp] theorem State.updMgmt_sfuUntil (s : State) (f : Mgmt → Mgmt) : (s.updMgmt f).sfuUntil = s.sfuUntil := rfl
@[simp] theorem State.updMgmt_sqs (s : State) (f : Mgmt → Mgmt) : (s.updMgmt f).sqs = s.sqs := rfl
@[simp] theorem State.updMgmt_rr (s : State) (f : Mgmt → Mgmt) : (s.updMgmt f).rr = s.rr := rfl
@[simp] theorem State.updMgmt_graphs (s : State) (f : Mgmt → Mgmt) : (s.updMgmt f).graphs = s.graphs := rfl
@[simp] theorem State.updMgmt_acceptOrder (s : State) (f : Mgmt → Mgmt) : (s.updMgmt f).acceptOrder = s.acceptOrder := rfl
@[simp] theorem State.updMgmt_placeHold (s : State) (f : Mgmt → Mgmt) : (s.updMgmt f).placeHold = s.placeHold := rfl
@[simp] theorem State.updMgmt_posted (s : State) (f : Mgmt → Mgmt) : (s.updMgmt f).posted = s.posted := rfl
@[simp] theorem State.updMgmt_hoopRecs (s : State) (f : Mgmt → Mgmt) : (s.updMgmt f).hoopRecs = s.hoopRecs := rfl
@[simp] theorem State.updMgmt_ruling (s : State) (f : Mgmt → Mgmt) : (s.updMgmt f).ruling = s.ruling := rfl
@[simp] theorem State.updMgmt_images (s : State) (f : Mgmt → Mgmt) : (s.updMgmt f).images = s.images := rfl
@[simp] theorem State.updMgmt_saves (s : State) (f : Mgmt → Mgmt) : (s.updMgmt f).saves = s.saves := rfl
@[simp] theorem State.updMgmt_rooms (s : State) (f : Mgmt → Mgmt) : (s.updMgmt f).rooms = s.rooms := rfl
@[simp] theorem State.updMgmt_ctxs (s : State) (f : Mgmt → Mgmt) : (s.updMgmt f).ctxs = s.ctxs := rfl
@[simp] theorem State.updMgmt_faults (s : State) (f : Mgmt → Mgmt) : (s.updMgmt f).faults = s.faults := rfl
@[simp] theorem State.updMgmt_seq (s : State) (f : Mgmt → Mgmt) : (s.updMgmt f).seq = s.seq := rfl
@[simp] theorem State.updMgmt_msix (s : State) (f : Mgmt → Mgmt) : (s.updMgmt f).msix = s.msix := rfl
@[simp] theorem State.updMgmt_winReply (s : State) (f : Mgmt → Mgmt) : (s.updMgmt f).winReply = s.winReply := rfl
@[simp] theorem State.updMgmt_streams (s : State) (f : Mgmt → Mgmt) : (s.updMgmt f).streams = s.streams := rfl
@[simp] theorem State.updMgmt_keySlots (s : State) (f : Mgmt → Mgmt) : (s.updMgmt f).keySlots = s.keySlots := rfl
@[simp] theorem State.updMgmt_salts (s : State) (f : Mgmt → Mgmt) : (s.updMgmt f).salts = s.salts := rfl
@[simp] theorem State.updMgmt_frames (s : State) (f : Mgmt → Mgmt) : (s.updMgmt f).frames = s.frames := rfl
@[simp] theorem State.updMgmt_iagar (s : State) (f : Mgmt → Mgmt) : (s.updMgmt f).iagar = s.iagar := rfl
@[simp] theorem State.updMgmt_team? (s : State) (f : Mgmt → Mgmt) (g1 i1 : Nat) : (s.updMgmt f).team? g1 i1 = s.team? g1 i1 := rfl
@[simp] theorem State.updMgmt_grid? (s : State) (f : Mgmt → Mgmt) (g1 : Nat) : (s.updMgmt f).grid? g1 = s.grid? g1 := rfl
@[simp] theorem State.updMgmt_bundle? (s : State) (f : Mgmt → Mgmt) (b1 : Nat) : (s.updMgmt f).bundle? b1 = s.bundle? b1 := rfl
@[simp] theorem State.updMgmt_op? (s : State) (f : Mgmt → Mgmt) (n1 : Nat) : (s.updMgmt f).op? n1 = s.op? n1 := rfl
@[simp] theorem State.updMgmt_req? (s : State) (f : Mgmt → Mgmt) (n1 : Nat) : (s.updMgmt f).req? n1 = s.req? n1 := rfl
@[simp] theorem State.updMgmt_packet? (s : State) (f : Mgmt → Mgmt) (n1 : Nat) : (s.updMgmt f).packet? n1 = s.packet? n1 := rfl
@[simp] theorem State.updMgmt_ctx (s : State) (f : Mgmt → Mgmt) (c1 : Nat) : (s.updMgmt f).ctx c1 = s.ctx c1 := rfl
@[simp] theorem State.updMgmt_sq (s : State) (f : Mgmt → Mgmt) (q1 : Nat) : (s.updMgmt f).sq q1 = s.sq q1 := rfl
@[simp] theorem State.updMgmt_memOf (s : State) (f : Mgmt → Mgmt) (k1 : Nat) : (s.updMgmt f).memOf k1 = s.memOf k1 := by rcases k1 with _ | _ | _ <;> rfl
@[simp] theorem State.updMgmt_physByte (s : State) (f : Mgmt → Mgmt) (k1 a1 : Nat) : (s.updMgmt f).physByte k1 a1 = s.physByte k1 a1 := by rcases k1 with _ | _ | _ <;> rfl
@[simp] theorem State.updMgmt_physBytes (s : State) (f : Mgmt → Mgmt) (k1 a1 n1 : Nat) : (s.updMgmt f).physBytes k1 a1 n1 = s.physBytes k1 a1 n1 := by rcases k1 with _ | _ | _ <;> rfl

/-! ## State.updOp -/

@[simp] theorem State.updOp_fc (s : State) (n : Nat) (f : Op → Op) : (s.updOp n f).fc = s.fc := rfl
@[simp] theorem State.updOp_cc (s : State) (n : Nat) (f : Op → Op) : (s.updOp n f).cc = s.cc := rfl
@[simp] theorem State.updOp_mhz (s : State) (n : Nat) (f : Op → Op) : (s.updOp n f).mhz = s.mhz := rfl
@[simp] theorem State.updOp_clkAcc (s : State) (n : Nat) (f : Op → Op) : (s.updOp n f).clkAcc = s.clkAcc := rfl
@[simp] theorem State.updOp_agenda (s : State) (n : Nat) (f : Op → Op) : (s.updOp n f).agenda = s.agenda := rfl
@[simp] theorem State.updOp_free (s : State) (n : Nat) (f : Op → Op) : (s.updOp n f).free = s.free := rfl
@[simp] theorem State.updOp_nextId (s : State) (n : Nat) (f : Op → Op) : (s.updOp n f).nextId = s.nextId := rfl
@[simp] theorem State.updOp_cur (s : State) (n : Nat) (f : Op → Op) : (s.updOp n f).cur = s.cur := rfl
@[simp] theorem State.updOp_quadIssued (s : State) (n : Nat) (f : Op → Op) : (s.updOp n f).quadIssued = s.quadIssued := rfl
@[simp] theorem State.updOp_issued (s : State) (n : Nat) (f : Op → Op) : (s.updOp n f).issued = s.issued := rfl
@[simp] theorem State.updOp_deflects (s : State) (n : Nat) (f : Op → Op) : (s.updOp n f).deflects = s.deflects := rfl
@[simp] theorem State.updOp_teams (s : State) (n : Nat) (f : Op → Op) : (s.updOp n f).teams = s.teams := rfl
@[simp] theorem State.updOp_grids (s : State) (n : Nat) (f : Op → Op) : (s.updOp n f).grids = s.grids := rfl
@[simp] theorem State.updOp_bundles (s : State) (n : Nat) (f : Op → Op) : (s.updOp n f).bundles = s.bundles := rfl
@[simp] theorem State.updOp_reqs (s : State) (n : Nat) (f : Op → Op) : (s.updOp n f).reqs = s.reqs := rfl
@[simp] theorem State.updOp_mem (s : State) (n : Nat) (f : Op → Op) : (s.updOp n f).mem = s.mem := rfl
@[simp] theorem State.updOp_hostMem (s : State) (n : Nat) (f : Op → Op) : (s.updOp n f).hostMem = s.hostMem := rfl
@[simp] theorem State.updOp_peerMem (s : State) (n : Nat) (f : Op → Op) : (s.updOp n f).peerMem = s.peerMem := rfl
@[simp] theorem State.updOp_poison (s : State) (n : Nat) (f : Op → Op) : (s.updOp n f).poison = s.poison := rfl
@[simp] theorem State.updOp_l1 (s : State) (n : Nat) (f : Op → Op) : (s.updOp n f).l1 = s.l1 := rfl
@[simp] theorem State.updOp_tlb (s : State) (n : Nat) (f : Op → Op) : (s.updOp n f).tlb = s.tlb := rfl
@[simp] theorem State.updOp_regions (s : State) (n : Nat) (f : Op → Op) : (s.updOp n f).regions = s.regions := rfl
@[simp] theorem State.updOp_regionCache (s : State) (n : Nat) (f : Op → Op) : (s.updOp n f).regionCache = s.regionCache := rfl
@[simp] theorem State.updOp_locks (s : State) (n : Nat) (f : Op → Op) : (s.updOp n f).locks = s.locks := rfl
@[simp] theorem State.updOp_hints (s : State) (n : Nat) (f : Op → Op) : (s.updOp n f).hints = s.hints := rfl
@[simp] theorem State.updOp_errors (s : State) (n : Nat) (f : Op → Op) : (s.updOp n f).errors = s.errors := rfl
@[simp] theorem State.updOp_failing (s : State) (n : Nat) (f : Op → Op) : (s.updOp n f).failing = s.failing := rfl
@[simp] theorem State.updOp_pressureAt (s : State) (n : Nat) (f : Op → Op) : (s.updOp n f).pressureAt = s.pressureAt := rfl
@[simp] theorem State.updOp_epochAt (s : State) (n : Nat) (f : Op → Op) : (s.updOp n f).epochAt = s.epochAt := rfl
@[simp] theorem State.updOp_lastSep (s : State) (n : Nat) (f : Op → Op) : (s.updOp n f).lastSep = s.lastSep := rfl
@[simp] theorem State.updOp_waited (s : State) (n : Nat) (f : Op → Op) : (s.updOp n f).waited = s.waited := rfl
@[simp] theorem State.updOp_injected (s : State) (n : Nat) (f : Op → Op) : (s.updOp n f).injected = s.injected := rfl
@[simp] theorem State.updOp_oseqSent (s : State) (n : Nat) (f : Op → Op) : (s.updOp n f).oseqSent = s.oseqSent := rfl
@[simp] theorem State.updOp_oseqDone (s : State) (n : Nat) (f : Op → Op) : (s.updOp n f).oseqDone = s.oseqDone := rfl
@[simp] theorem State.updOp_press (s : State) (n : Nat) (f : Op → Op) : (s.updOp n f).press = s.press := rfl
@[simp] theorem State.updOp_counters (s : State) (n : Nat) (f : Op → Op) : (s.updOp n f).counters = s.counters := rfl
@[simp] theorem State.updOp_packets (s : State) (n : Nat) (f : Op → Op) : (s.updOp n f).packets = s.packets := rfl
@[simp] theorem State.updOp_flits (s : State) (n : Nat) (f : Op → Op) : (s.updOp n f).flits = s.flits := rfl
@[simp] theorem State.updOp_hoops (s : State) (n : Nat) (f : Op → Op) : (s.updOp n f).hoops = s.hoops := rfl
@[simp] theorem State.updOp_pressure (s : State) (n : Nat) (f : Op → Op) : (s.updOp n f).pressure = s.pressure := rfl
@[simp] theorem State.updOp_waits (s : State) (n : Nat) (f : Op → Op) : (s.updOp n f).waits = s.waits := rfl
@[simp] theorem State.updOp_lastBegin (s : State) (n : Nat) (f : Op → Op) : (s.updOp n f).lastBegin = s.lastBegin := rfl
@[simp] theorem State.updOp_routed (s : State) (n : Nat) (f : Op → Op) : (s.updOp n f).routed = s.routed := rfl
@[simp] theorem State.updOp_links (s : State) (n : Nat) (f : Op → Op) : (s.updOp n f).links = s.links := rfl
@[simp] theorem State.updOp_scribes (s : State) (n : Nat) (f : Op → Op) : (s.updOp n f).scribes = s.scribes := rfl
@[simp] theorem State.updOp_scribeWait (s : State) (n : Nat) (f : Op → Op) : (s.updOp n f).scribeWait = s.scribeWait := rfl
@[simp] theorem State.updOp_scribeTurn (s : State) (n : Nat) (f : Op → Op) : (s.updOp n f).scribeTurn = s.scribeTurn := rfl
@[simp] theorem State.updOp_sfuUntil (s : State) (n : Nat) (f : Op → Op) : (s.updOp n f).sfuUntil = s.sfuUntil := rfl
@[simp] theorem State.updOp_sqs (s : State) (n : Nat) (f : Op → Op) : (s.updOp n f).sqs = s.sqs := rfl
@[simp] theorem State.updOp_rr (s : State) (n : Nat) (f : Op → Op) : (s.updOp n f).rr = s.rr := rfl
@[simp] theorem State.updOp_graphs (s : State) (n : Nat) (f : Op → Op) : (s.updOp n f).graphs = s.graphs := rfl
@[simp] theorem State.updOp_acceptOrder (s : State) (n : Nat) (f : Op → Op) : (s.updOp n f).acceptOrder = s.acceptOrder := rfl
@[simp] theorem State.updOp_placeHold (s : State) (n : Nat) (f : Op → Op) : (s.updOp n f).placeHold = s.placeHold := rfl
@[simp] theorem State.updOp_posted (s : State) (n : Nat) (f : Op → Op) : (s.updOp n f).posted = s.posted := rfl
@[simp] theorem State.updOp_hoopRecs (s : State) (n : Nat) (f : Op → Op) : (s.updOp n f).hoopRecs = s.hoopRecs := rfl
@[simp] theorem State.updOp_ruling (s : State) (n : Nat) (f : Op → Op) : (s.updOp n f).ruling = s.ruling := rfl
@[simp] theorem State.updOp_images (s : State) (n : Nat) (f : Op → Op) : (s.updOp n f).images = s.images := rfl
@[simp] theorem State.updOp_saves (s : State) (n : Nat) (f : Op → Op) : (s.updOp n f).saves = s.saves := rfl
@[simp] theorem State.updOp_rooms (s : State) (n : Nat) (f : Op → Op) : (s.updOp n f).rooms = s.rooms := rfl
@[simp] theorem State.updOp_ctxs (s : State) (n : Nat) (f : Op → Op) : (s.updOp n f).ctxs = s.ctxs := rfl
@[simp] theorem State.updOp_faults (s : State) (n : Nat) (f : Op → Op) : (s.updOp n f).faults = s.faults := rfl
@[simp] theorem State.updOp_seq (s : State) (n : Nat) (f : Op → Op) : (s.updOp n f).seq = s.seq := rfl
@[simp] theorem State.updOp_msix (s : State) (n : Nat) (f : Op → Op) : (s.updOp n f).msix = s.msix := rfl
@[simp] theorem State.updOp_winReply (s : State) (n : Nat) (f : Op → Op) : (s.updOp n f).winReply = s.winReply := rfl
@[simp] theorem State.updOp_streams (s : State) (n : Nat) (f : Op → Op) : (s.updOp n f).streams = s.streams := rfl
@[simp] theorem State.updOp_keySlots (s : State) (n : Nat) (f : Op → Op) : (s.updOp n f).keySlots = s.keySlots := rfl
@[simp] theorem State.updOp_salts (s : State) (n : Nat) (f : Op → Op) : (s.updOp n f).salts = s.salts := rfl
@[simp] theorem State.updOp_frames (s : State) (n : Nat) (f : Op → Op) : (s.updOp n f).frames = s.frames := rfl
@[simp] theorem State.updOp_mgmt (s : State) (n : Nat) (f : Op → Op) : (s.updOp n f).mgmt = s.mgmt := rfl
@[simp] theorem State.updOp_iagar (s : State) (n : Nat) (f : Op → Op) : (s.updOp n f).iagar = s.iagar := rfl
@[simp] theorem State.updOp_team? (s : State) (n : Nat) (f : Op → Op) (g1 i1 : Nat) : (s.updOp n f).team? g1 i1 = s.team? g1 i1 := rfl
@[simp] theorem State.updOp_grid? (s : State) (n : Nat) (f : Op → Op) (g1 : Nat) : (s.updOp n f).grid? g1 = s.grid? g1 := rfl
@[simp] theorem State.updOp_bundle? (s : State) (n : Nat) (f : Op → Op) (b1 : Nat) : (s.updOp n f).bundle? b1 = s.bundle? b1 := rfl
@[simp] theorem State.updOp_req? (s : State) (n : Nat) (f : Op → Op) (n1 : Nat) : (s.updOp n f).req? n1 = s.req? n1 := rfl
@[simp] theorem State.updOp_packet? (s : State) (n : Nat) (f : Op → Op) (n1 : Nat) : (s.updOp n f).packet? n1 = s.packet? n1 := rfl
@[simp] theorem State.updOp_ctx (s : State) (n : Nat) (f : Op → Op) (c1 : Nat) : (s.updOp n f).ctx c1 = s.ctx c1 := rfl
@[simp] theorem State.updOp_sq (s : State) (n : Nat) (f : Op → Op) (q1 : Nat) : (s.updOp n f).sq q1 = s.sq q1 := rfl
@[simp] theorem State.updOp_memOf (s : State) (n : Nat) (f : Op → Op) (k1 : Nat) : (s.updOp n f).memOf k1 = s.memOf k1 := by rcases k1 with _ | _ | _ <;> rfl
@[simp] theorem State.updOp_physByte (s : State) (n : Nat) (f : Op → Op) (k1 a1 : Nat) : (s.updOp n f).physByte k1 a1 = s.physByte k1 a1 := by rcases k1 with _ | _ | _ <;> rfl
@[simp] theorem State.updOp_physBytes (s : State) (n : Nat) (f : Op → Op) (k1 a1 n1 : Nat) : (s.updOp n f).physBytes k1 a1 n1 = s.physBytes k1 a1 n1 := by rcases k1 with _ | _ | _ <;> rfl

/-! ## State.updReq -/

@[simp] theorem State.updReq_fc (s : State) (n : Nat) (f : Req → Req) : (s.updReq n f).fc = s.fc := rfl
@[simp] theorem State.updReq_cc (s : State) (n : Nat) (f : Req → Req) : (s.updReq n f).cc = s.cc := rfl
@[simp] theorem State.updReq_mhz (s : State) (n : Nat) (f : Req → Req) : (s.updReq n f).mhz = s.mhz := rfl
@[simp] theorem State.updReq_clkAcc (s : State) (n : Nat) (f : Req → Req) : (s.updReq n f).clkAcc = s.clkAcc := rfl
@[simp] theorem State.updReq_agenda (s : State) (n : Nat) (f : Req → Req) : (s.updReq n f).agenda = s.agenda := rfl
@[simp] theorem State.updReq_free (s : State) (n : Nat) (f : Req → Req) : (s.updReq n f).free = s.free := rfl
@[simp] theorem State.updReq_nextId (s : State) (n : Nat) (f : Req → Req) : (s.updReq n f).nextId = s.nextId := rfl
@[simp] theorem State.updReq_cur (s : State) (n : Nat) (f : Req → Req) : (s.updReq n f).cur = s.cur := rfl
@[simp] theorem State.updReq_quadIssued (s : State) (n : Nat) (f : Req → Req) : (s.updReq n f).quadIssued = s.quadIssued := rfl
@[simp] theorem State.updReq_issued (s : State) (n : Nat) (f : Req → Req) : (s.updReq n f).issued = s.issued := rfl
@[simp] theorem State.updReq_deflects (s : State) (n : Nat) (f : Req → Req) : (s.updReq n f).deflects = s.deflects := rfl
@[simp] theorem State.updReq_teams (s : State) (n : Nat) (f : Req → Req) : (s.updReq n f).teams = s.teams := rfl
@[simp] theorem State.updReq_grids (s : State) (n : Nat) (f : Req → Req) : (s.updReq n f).grids = s.grids := rfl
@[simp] theorem State.updReq_bundles (s : State) (n : Nat) (f : Req → Req) : (s.updReq n f).bundles = s.bundles := rfl
@[simp] theorem State.updReq_ops (s : State) (n : Nat) (f : Req → Req) : (s.updReq n f).ops = s.ops := rfl
@[simp] theorem State.updReq_mem (s : State) (n : Nat) (f : Req → Req) : (s.updReq n f).mem = s.mem := rfl
@[simp] theorem State.updReq_hostMem (s : State) (n : Nat) (f : Req → Req) : (s.updReq n f).hostMem = s.hostMem := rfl
@[simp] theorem State.updReq_peerMem (s : State) (n : Nat) (f : Req → Req) : (s.updReq n f).peerMem = s.peerMem := rfl
@[simp] theorem State.updReq_poison (s : State) (n : Nat) (f : Req → Req) : (s.updReq n f).poison = s.poison := rfl
@[simp] theorem State.updReq_l1 (s : State) (n : Nat) (f : Req → Req) : (s.updReq n f).l1 = s.l1 := rfl
@[simp] theorem State.updReq_tlb (s : State) (n : Nat) (f : Req → Req) : (s.updReq n f).tlb = s.tlb := rfl
@[simp] theorem State.updReq_regions (s : State) (n : Nat) (f : Req → Req) : (s.updReq n f).regions = s.regions := rfl
@[simp] theorem State.updReq_regionCache (s : State) (n : Nat) (f : Req → Req) : (s.updReq n f).regionCache = s.regionCache := rfl
@[simp] theorem State.updReq_locks (s : State) (n : Nat) (f : Req → Req) : (s.updReq n f).locks = s.locks := rfl
@[simp] theorem State.updReq_hints (s : State) (n : Nat) (f : Req → Req) : (s.updReq n f).hints = s.hints := rfl
@[simp] theorem State.updReq_errors (s : State) (n : Nat) (f : Req → Req) : (s.updReq n f).errors = s.errors := rfl
@[simp] theorem State.updReq_failing (s : State) (n : Nat) (f : Req → Req) : (s.updReq n f).failing = s.failing := rfl
@[simp] theorem State.updReq_pressureAt (s : State) (n : Nat) (f : Req → Req) : (s.updReq n f).pressureAt = s.pressureAt := rfl
@[simp] theorem State.updReq_epochAt (s : State) (n : Nat) (f : Req → Req) : (s.updReq n f).epochAt = s.epochAt := rfl
@[simp] theorem State.updReq_lastSep (s : State) (n : Nat) (f : Req → Req) : (s.updReq n f).lastSep = s.lastSep := rfl
@[simp] theorem State.updReq_waited (s : State) (n : Nat) (f : Req → Req) : (s.updReq n f).waited = s.waited := rfl
@[simp] theorem State.updReq_injected (s : State) (n : Nat) (f : Req → Req) : (s.updReq n f).injected = s.injected := rfl
@[simp] theorem State.updReq_oseqSent (s : State) (n : Nat) (f : Req → Req) : (s.updReq n f).oseqSent = s.oseqSent := rfl
@[simp] theorem State.updReq_oseqDone (s : State) (n : Nat) (f : Req → Req) : (s.updReq n f).oseqDone = s.oseqDone := rfl
@[simp] theorem State.updReq_press (s : State) (n : Nat) (f : Req → Req) : (s.updReq n f).press = s.press := rfl
@[simp] theorem State.updReq_counters (s : State) (n : Nat) (f : Req → Req) : (s.updReq n f).counters = s.counters := rfl
@[simp] theorem State.updReq_packets (s : State) (n : Nat) (f : Req → Req) : (s.updReq n f).packets = s.packets := rfl
@[simp] theorem State.updReq_flits (s : State) (n : Nat) (f : Req → Req) : (s.updReq n f).flits = s.flits := rfl
@[simp] theorem State.updReq_hoops (s : State) (n : Nat) (f : Req → Req) : (s.updReq n f).hoops = s.hoops := rfl
@[simp] theorem State.updReq_pressure (s : State) (n : Nat) (f : Req → Req) : (s.updReq n f).pressure = s.pressure := rfl
@[simp] theorem State.updReq_waits (s : State) (n : Nat) (f : Req → Req) : (s.updReq n f).waits = s.waits := rfl
@[simp] theorem State.updReq_lastBegin (s : State) (n : Nat) (f : Req → Req) : (s.updReq n f).lastBegin = s.lastBegin := rfl
@[simp] theorem State.updReq_routed (s : State) (n : Nat) (f : Req → Req) : (s.updReq n f).routed = s.routed := rfl
@[simp] theorem State.updReq_links (s : State) (n : Nat) (f : Req → Req) : (s.updReq n f).links = s.links := rfl
@[simp] theorem State.updReq_scribes (s : State) (n : Nat) (f : Req → Req) : (s.updReq n f).scribes = s.scribes := rfl
@[simp] theorem State.updReq_scribeWait (s : State) (n : Nat) (f : Req → Req) : (s.updReq n f).scribeWait = s.scribeWait := rfl
@[simp] theorem State.updReq_scribeTurn (s : State) (n : Nat) (f : Req → Req) : (s.updReq n f).scribeTurn = s.scribeTurn := rfl
@[simp] theorem State.updReq_sfuUntil (s : State) (n : Nat) (f : Req → Req) : (s.updReq n f).sfuUntil = s.sfuUntil := rfl
@[simp] theorem State.updReq_sqs (s : State) (n : Nat) (f : Req → Req) : (s.updReq n f).sqs = s.sqs := rfl
@[simp] theorem State.updReq_rr (s : State) (n : Nat) (f : Req → Req) : (s.updReq n f).rr = s.rr := rfl
@[simp] theorem State.updReq_graphs (s : State) (n : Nat) (f : Req → Req) : (s.updReq n f).graphs = s.graphs := rfl
@[simp] theorem State.updReq_acceptOrder (s : State) (n : Nat) (f : Req → Req) : (s.updReq n f).acceptOrder = s.acceptOrder := rfl
@[simp] theorem State.updReq_placeHold (s : State) (n : Nat) (f : Req → Req) : (s.updReq n f).placeHold = s.placeHold := rfl
@[simp] theorem State.updReq_posted (s : State) (n : Nat) (f : Req → Req) : (s.updReq n f).posted = s.posted := rfl
@[simp] theorem State.updReq_hoopRecs (s : State) (n : Nat) (f : Req → Req) : (s.updReq n f).hoopRecs = s.hoopRecs := rfl
@[simp] theorem State.updReq_ruling (s : State) (n : Nat) (f : Req → Req) : (s.updReq n f).ruling = s.ruling := rfl
@[simp] theorem State.updReq_images (s : State) (n : Nat) (f : Req → Req) : (s.updReq n f).images = s.images := rfl
@[simp] theorem State.updReq_saves (s : State) (n : Nat) (f : Req → Req) : (s.updReq n f).saves = s.saves := rfl
@[simp] theorem State.updReq_rooms (s : State) (n : Nat) (f : Req → Req) : (s.updReq n f).rooms = s.rooms := rfl
@[simp] theorem State.updReq_ctxs (s : State) (n : Nat) (f : Req → Req) : (s.updReq n f).ctxs = s.ctxs := rfl
@[simp] theorem State.updReq_faults (s : State) (n : Nat) (f : Req → Req) : (s.updReq n f).faults = s.faults := rfl
@[simp] theorem State.updReq_seq (s : State) (n : Nat) (f : Req → Req) : (s.updReq n f).seq = s.seq := rfl
@[simp] theorem State.updReq_msix (s : State) (n : Nat) (f : Req → Req) : (s.updReq n f).msix = s.msix := rfl
@[simp] theorem State.updReq_winReply (s : State) (n : Nat) (f : Req → Req) : (s.updReq n f).winReply = s.winReply := rfl
@[simp] theorem State.updReq_streams (s : State) (n : Nat) (f : Req → Req) : (s.updReq n f).streams = s.streams := rfl
@[simp] theorem State.updReq_keySlots (s : State) (n : Nat) (f : Req → Req) : (s.updReq n f).keySlots = s.keySlots := rfl
@[simp] theorem State.updReq_salts (s : State) (n : Nat) (f : Req → Req) : (s.updReq n f).salts = s.salts := rfl
@[simp] theorem State.updReq_frames (s : State) (n : Nat) (f : Req → Req) : (s.updReq n f).frames = s.frames := rfl
@[simp] theorem State.updReq_mgmt (s : State) (n : Nat) (f : Req → Req) : (s.updReq n f).mgmt = s.mgmt := rfl
@[simp] theorem State.updReq_iagar (s : State) (n : Nat) (f : Req → Req) : (s.updReq n f).iagar = s.iagar := rfl
@[simp] theorem State.updReq_team? (s : State) (n : Nat) (f : Req → Req) (g1 i1 : Nat) : (s.updReq n f).team? g1 i1 = s.team? g1 i1 := rfl
@[simp] theorem State.updReq_grid? (s : State) (n : Nat) (f : Req → Req) (g1 : Nat) : (s.updReq n f).grid? g1 = s.grid? g1 := rfl
@[simp] theorem State.updReq_bundle? (s : State) (n : Nat) (f : Req → Req) (b1 : Nat) : (s.updReq n f).bundle? b1 = s.bundle? b1 := rfl
@[simp] theorem State.updReq_op? (s : State) (n : Nat) (f : Req → Req) (n1 : Nat) : (s.updReq n f).op? n1 = s.op? n1 := rfl
@[simp] theorem State.updReq_packet? (s : State) (n : Nat) (f : Req → Req) (n1 : Nat) : (s.updReq n f).packet? n1 = s.packet? n1 := rfl
@[simp] theorem State.updReq_ctx (s : State) (n : Nat) (f : Req → Req) (c1 : Nat) : (s.updReq n f).ctx c1 = s.ctx c1 := rfl
@[simp] theorem State.updReq_sq (s : State) (n : Nat) (f : Req → Req) (q1 : Nat) : (s.updReq n f).sq q1 = s.sq q1 := rfl
@[simp] theorem State.updReq_memOf (s : State) (n : Nat) (f : Req → Req) (k1 : Nat) : (s.updReq n f).memOf k1 = s.memOf k1 := by rcases k1 with _ | _ | _ <;> rfl
@[simp] theorem State.updReq_physByte (s : State) (n : Nat) (f : Req → Req) (k1 a1 : Nat) : (s.updReq n f).physByte k1 a1 = s.physByte k1 a1 := by rcases k1 with _ | _ | _ <;> rfl
@[simp] theorem State.updReq_physBytes (s : State) (n : Nat) (f : Req → Req) (k1 a1 n1 : Nat) : (s.updReq n f).physBytes k1 a1 n1 = s.physBytes k1 a1 n1 := by rcases k1 with _ | _ | _ <;> rfl

/-! ## State.updPacket -/

@[simp] theorem State.updPacket_fc (s : State) (n : Nat) (f : Packet → Packet) : (s.updPacket n f).fc = s.fc := rfl
@[simp] theorem State.updPacket_cc (s : State) (n : Nat) (f : Packet → Packet) : (s.updPacket n f).cc = s.cc := rfl
@[simp] theorem State.updPacket_mhz (s : State) (n : Nat) (f : Packet → Packet) : (s.updPacket n f).mhz = s.mhz := rfl
@[simp] theorem State.updPacket_clkAcc (s : State) (n : Nat) (f : Packet → Packet) : (s.updPacket n f).clkAcc = s.clkAcc := rfl
@[simp] theorem State.updPacket_agenda (s : State) (n : Nat) (f : Packet → Packet) : (s.updPacket n f).agenda = s.agenda := rfl
@[simp] theorem State.updPacket_free (s : State) (n : Nat) (f : Packet → Packet) : (s.updPacket n f).free = s.free := rfl
@[simp] theorem State.updPacket_nextId (s : State) (n : Nat) (f : Packet → Packet) : (s.updPacket n f).nextId = s.nextId := rfl
@[simp] theorem State.updPacket_cur (s : State) (n : Nat) (f : Packet → Packet) : (s.updPacket n f).cur = s.cur := rfl
@[simp] theorem State.updPacket_quadIssued (s : State) (n : Nat) (f : Packet → Packet) : (s.updPacket n f).quadIssued = s.quadIssued := rfl
@[simp] theorem State.updPacket_issued (s : State) (n : Nat) (f : Packet → Packet) : (s.updPacket n f).issued = s.issued := rfl
@[simp] theorem State.updPacket_deflects (s : State) (n : Nat) (f : Packet → Packet) : (s.updPacket n f).deflects = s.deflects := rfl
@[simp] theorem State.updPacket_teams (s : State) (n : Nat) (f : Packet → Packet) : (s.updPacket n f).teams = s.teams := rfl
@[simp] theorem State.updPacket_grids (s : State) (n : Nat) (f : Packet → Packet) : (s.updPacket n f).grids = s.grids := rfl
@[simp] theorem State.updPacket_bundles (s : State) (n : Nat) (f : Packet → Packet) : (s.updPacket n f).bundles = s.bundles := rfl
@[simp] theorem State.updPacket_ops (s : State) (n : Nat) (f : Packet → Packet) : (s.updPacket n f).ops = s.ops := rfl
@[simp] theorem State.updPacket_reqs (s : State) (n : Nat) (f : Packet → Packet) : (s.updPacket n f).reqs = s.reqs := rfl
@[simp] theorem State.updPacket_mem (s : State) (n : Nat) (f : Packet → Packet) : (s.updPacket n f).mem = s.mem := rfl
@[simp] theorem State.updPacket_hostMem (s : State) (n : Nat) (f : Packet → Packet) : (s.updPacket n f).hostMem = s.hostMem := rfl
@[simp] theorem State.updPacket_peerMem (s : State) (n : Nat) (f : Packet → Packet) : (s.updPacket n f).peerMem = s.peerMem := rfl
@[simp] theorem State.updPacket_poison (s : State) (n : Nat) (f : Packet → Packet) : (s.updPacket n f).poison = s.poison := rfl
@[simp] theorem State.updPacket_l1 (s : State) (n : Nat) (f : Packet → Packet) : (s.updPacket n f).l1 = s.l1 := rfl
@[simp] theorem State.updPacket_tlb (s : State) (n : Nat) (f : Packet → Packet) : (s.updPacket n f).tlb = s.tlb := rfl
@[simp] theorem State.updPacket_regions (s : State) (n : Nat) (f : Packet → Packet) : (s.updPacket n f).regions = s.regions := rfl
@[simp] theorem State.updPacket_regionCache (s : State) (n : Nat) (f : Packet → Packet) : (s.updPacket n f).regionCache = s.regionCache := rfl
@[simp] theorem State.updPacket_locks (s : State) (n : Nat) (f : Packet → Packet) : (s.updPacket n f).locks = s.locks := rfl
@[simp] theorem State.updPacket_hints (s : State) (n : Nat) (f : Packet → Packet) : (s.updPacket n f).hints = s.hints := rfl
@[simp] theorem State.updPacket_errors (s : State) (n : Nat) (f : Packet → Packet) : (s.updPacket n f).errors = s.errors := rfl
@[simp] theorem State.updPacket_failing (s : State) (n : Nat) (f : Packet → Packet) : (s.updPacket n f).failing = s.failing := rfl
@[simp] theorem State.updPacket_pressureAt (s : State) (n : Nat) (f : Packet → Packet) : (s.updPacket n f).pressureAt = s.pressureAt := rfl
@[simp] theorem State.updPacket_epochAt (s : State) (n : Nat) (f : Packet → Packet) : (s.updPacket n f).epochAt = s.epochAt := rfl
@[simp] theorem State.updPacket_lastSep (s : State) (n : Nat) (f : Packet → Packet) : (s.updPacket n f).lastSep = s.lastSep := rfl
@[simp] theorem State.updPacket_waited (s : State) (n : Nat) (f : Packet → Packet) : (s.updPacket n f).waited = s.waited := rfl
@[simp] theorem State.updPacket_injected (s : State) (n : Nat) (f : Packet → Packet) : (s.updPacket n f).injected = s.injected := rfl
@[simp] theorem State.updPacket_oseqSent (s : State) (n : Nat) (f : Packet → Packet) : (s.updPacket n f).oseqSent = s.oseqSent := rfl
@[simp] theorem State.updPacket_oseqDone (s : State) (n : Nat) (f : Packet → Packet) : (s.updPacket n f).oseqDone = s.oseqDone := rfl
@[simp] theorem State.updPacket_press (s : State) (n : Nat) (f : Packet → Packet) : (s.updPacket n f).press = s.press := rfl
@[simp] theorem State.updPacket_counters (s : State) (n : Nat) (f : Packet → Packet) : (s.updPacket n f).counters = s.counters := rfl
@[simp] theorem State.updPacket_flits (s : State) (n : Nat) (f : Packet → Packet) : (s.updPacket n f).flits = s.flits := rfl
@[simp] theorem State.updPacket_hoops (s : State) (n : Nat) (f : Packet → Packet) : (s.updPacket n f).hoops = s.hoops := rfl
@[simp] theorem State.updPacket_pressure (s : State) (n : Nat) (f : Packet → Packet) : (s.updPacket n f).pressure = s.pressure := rfl
@[simp] theorem State.updPacket_waits (s : State) (n : Nat) (f : Packet → Packet) : (s.updPacket n f).waits = s.waits := rfl
@[simp] theorem State.updPacket_lastBegin (s : State) (n : Nat) (f : Packet → Packet) : (s.updPacket n f).lastBegin = s.lastBegin := rfl
@[simp] theorem State.updPacket_routed (s : State) (n : Nat) (f : Packet → Packet) : (s.updPacket n f).routed = s.routed := rfl
@[simp] theorem State.updPacket_links (s : State) (n : Nat) (f : Packet → Packet) : (s.updPacket n f).links = s.links := rfl
@[simp] theorem State.updPacket_scribes (s : State) (n : Nat) (f : Packet → Packet) : (s.updPacket n f).scribes = s.scribes := rfl
@[simp] theorem State.updPacket_scribeWait (s : State) (n : Nat) (f : Packet → Packet) : (s.updPacket n f).scribeWait = s.scribeWait := rfl
@[simp] theorem State.updPacket_scribeTurn (s : State) (n : Nat) (f : Packet → Packet) : (s.updPacket n f).scribeTurn = s.scribeTurn := rfl
@[simp] theorem State.updPacket_sfuUntil (s : State) (n : Nat) (f : Packet → Packet) : (s.updPacket n f).sfuUntil = s.sfuUntil := rfl
@[simp] theorem State.updPacket_sqs (s : State) (n : Nat) (f : Packet → Packet) : (s.updPacket n f).sqs = s.sqs := rfl
@[simp] theorem State.updPacket_rr (s : State) (n : Nat) (f : Packet → Packet) : (s.updPacket n f).rr = s.rr := rfl
@[simp] theorem State.updPacket_graphs (s : State) (n : Nat) (f : Packet → Packet) : (s.updPacket n f).graphs = s.graphs := rfl
@[simp] theorem State.updPacket_acceptOrder (s : State) (n : Nat) (f : Packet → Packet) : (s.updPacket n f).acceptOrder = s.acceptOrder := rfl
@[simp] theorem State.updPacket_placeHold (s : State) (n : Nat) (f : Packet → Packet) : (s.updPacket n f).placeHold = s.placeHold := rfl
@[simp] theorem State.updPacket_posted (s : State) (n : Nat) (f : Packet → Packet) : (s.updPacket n f).posted = s.posted := rfl
@[simp] theorem State.updPacket_hoopRecs (s : State) (n : Nat) (f : Packet → Packet) : (s.updPacket n f).hoopRecs = s.hoopRecs := rfl
@[simp] theorem State.updPacket_ruling (s : State) (n : Nat) (f : Packet → Packet) : (s.updPacket n f).ruling = s.ruling := rfl
@[simp] theorem State.updPacket_images (s : State) (n : Nat) (f : Packet → Packet) : (s.updPacket n f).images = s.images := rfl
@[simp] theorem State.updPacket_saves (s : State) (n : Nat) (f : Packet → Packet) : (s.updPacket n f).saves = s.saves := rfl
@[simp] theorem State.updPacket_rooms (s : State) (n : Nat) (f : Packet → Packet) : (s.updPacket n f).rooms = s.rooms := rfl
@[simp] theorem State.updPacket_ctxs (s : State) (n : Nat) (f : Packet → Packet) : (s.updPacket n f).ctxs = s.ctxs := rfl
@[simp] theorem State.updPacket_faults (s : State) (n : Nat) (f : Packet → Packet) : (s.updPacket n f).faults = s.faults := rfl
@[simp] theorem State.updPacket_seq (s : State) (n : Nat) (f : Packet → Packet) : (s.updPacket n f).seq = s.seq := rfl
@[simp] theorem State.updPacket_msix (s : State) (n : Nat) (f : Packet → Packet) : (s.updPacket n f).msix = s.msix := rfl
@[simp] theorem State.updPacket_winReply (s : State) (n : Nat) (f : Packet → Packet) : (s.updPacket n f).winReply = s.winReply := rfl
@[simp] theorem State.updPacket_streams (s : State) (n : Nat) (f : Packet → Packet) : (s.updPacket n f).streams = s.streams := rfl
@[simp] theorem State.updPacket_keySlots (s : State) (n : Nat) (f : Packet → Packet) : (s.updPacket n f).keySlots = s.keySlots := rfl
@[simp] theorem State.updPacket_salts (s : State) (n : Nat) (f : Packet → Packet) : (s.updPacket n f).salts = s.salts := rfl
@[simp] theorem State.updPacket_frames (s : State) (n : Nat) (f : Packet → Packet) : (s.updPacket n f).frames = s.frames := rfl
@[simp] theorem State.updPacket_mgmt (s : State) (n : Nat) (f : Packet → Packet) : (s.updPacket n f).mgmt = s.mgmt := rfl
@[simp] theorem State.updPacket_iagar (s : State) (n : Nat) (f : Packet → Packet) : (s.updPacket n f).iagar = s.iagar := rfl
@[simp] theorem State.updPacket_team? (s : State) (n : Nat) (f : Packet → Packet) (g1 i1 : Nat) : (s.updPacket n f).team? g1 i1 = s.team? g1 i1 := rfl
@[simp] theorem State.updPacket_grid? (s : State) (n : Nat) (f : Packet → Packet) (g1 : Nat) : (s.updPacket n f).grid? g1 = s.grid? g1 := rfl
@[simp] theorem State.updPacket_bundle? (s : State) (n : Nat) (f : Packet → Packet) (b1 : Nat) : (s.updPacket n f).bundle? b1 = s.bundle? b1 := rfl
@[simp] theorem State.updPacket_op? (s : State) (n : Nat) (f : Packet → Packet) (n1 : Nat) : (s.updPacket n f).op? n1 = s.op? n1 := rfl
@[simp] theorem State.updPacket_req? (s : State) (n : Nat) (f : Packet → Packet) (n1 : Nat) : (s.updPacket n f).req? n1 = s.req? n1 := rfl
@[simp] theorem State.updPacket_ctx (s : State) (n : Nat) (f : Packet → Packet) (c1 : Nat) : (s.updPacket n f).ctx c1 = s.ctx c1 := rfl
@[simp] theorem State.updPacket_sq (s : State) (n : Nat) (f : Packet → Packet) (q1 : Nat) : (s.updPacket n f).sq q1 = s.sq q1 := rfl
@[simp] theorem State.updPacket_memOf (s : State) (n : Nat) (f : Packet → Packet) (k1 : Nat) : (s.updPacket n f).memOf k1 = s.memOf k1 := by rcases k1 with _ | _ | _ <;> rfl
@[simp] theorem State.updPacket_physByte (s : State) (n : Nat) (f : Packet → Packet) (k1 a1 : Nat) : (s.updPacket n f).physByte k1 a1 = s.physByte k1 a1 := by rcases k1 with _ | _ | _ <;> rfl
@[simp] theorem State.updPacket_physBytes (s : State) (n : Nat) (f : Packet → Packet) (k1 a1 n1 : Nat) : (s.updPacket n f).physBytes k1 a1 n1 = s.physBytes k1 a1 n1 := by rcases k1 with _ | _ | _ <;> rfl

/-! ## countTelemetry -/

@[simp] theorem countTelemetry_fc (s : State) (o n : Nat) : (countTelemetry s o n).fc = s.fc := rfl
@[simp] theorem countTelemetry_cc (s : State) (o n : Nat) : (countTelemetry s o n).cc = s.cc := rfl
@[simp] theorem countTelemetry_mhz (s : State) (o n : Nat) : (countTelemetry s o n).mhz = s.mhz := rfl
@[simp] theorem countTelemetry_clkAcc (s : State) (o n : Nat) : (countTelemetry s o n).clkAcc = s.clkAcc := rfl
@[simp] theorem countTelemetry_agenda (s : State) (o n : Nat) : (countTelemetry s o n).agenda = s.agenda := rfl
@[simp] theorem countTelemetry_free (s : State) (o n : Nat) : (countTelemetry s o n).free = s.free := rfl
@[simp] theorem countTelemetry_nextId (s : State) (o n : Nat) : (countTelemetry s o n).nextId = s.nextId := rfl
@[simp] theorem countTelemetry_cur (s : State) (o n : Nat) : (countTelemetry s o n).cur = s.cur := rfl
@[simp] theorem countTelemetry_quadIssued (s : State) (o n : Nat) : (countTelemetry s o n).quadIssued = s.quadIssued := rfl
@[simp] theorem countTelemetry_issued (s : State) (o n : Nat) : (countTelemetry s o n).issued = s.issued := rfl
@[simp] theorem countTelemetry_deflects (s : State) (o n : Nat) : (countTelemetry s o n).deflects = s.deflects := rfl
@[simp] theorem countTelemetry_teams (s : State) (o n : Nat) : (countTelemetry s o n).teams = s.teams := rfl
@[simp] theorem countTelemetry_grids (s : State) (o n : Nat) : (countTelemetry s o n).grids = s.grids := rfl
@[simp] theorem countTelemetry_bundles (s : State) (o n : Nat) : (countTelemetry s o n).bundles = s.bundles := rfl
@[simp] theorem countTelemetry_ops (s : State) (o n : Nat) : (countTelemetry s o n).ops = s.ops := rfl
@[simp] theorem countTelemetry_reqs (s : State) (o n : Nat) : (countTelemetry s o n).reqs = s.reqs := rfl
@[simp] theorem countTelemetry_mem (s : State) (o n : Nat) : (countTelemetry s o n).mem = s.mem := rfl
@[simp] theorem countTelemetry_hostMem (s : State) (o n : Nat) : (countTelemetry s o n).hostMem = s.hostMem := rfl
@[simp] theorem countTelemetry_peerMem (s : State) (o n : Nat) : (countTelemetry s o n).peerMem = s.peerMem := rfl
@[simp] theorem countTelemetry_poison (s : State) (o n : Nat) : (countTelemetry s o n).poison = s.poison := rfl
@[simp] theorem countTelemetry_l1 (s : State) (o n : Nat) : (countTelemetry s o n).l1 = s.l1 := rfl
@[simp] theorem countTelemetry_tlb (s : State) (o n : Nat) : (countTelemetry s o n).tlb = s.tlb := rfl
@[simp] theorem countTelemetry_regions (s : State) (o n : Nat) : (countTelemetry s o n).regions = s.regions := rfl
@[simp] theorem countTelemetry_regionCache (s : State) (o n : Nat) : (countTelemetry s o n).regionCache = s.regionCache := rfl
@[simp] theorem countTelemetry_locks (s : State) (o n : Nat) : (countTelemetry s o n).locks = s.locks := rfl
@[simp] theorem countTelemetry_hints (s : State) (o n : Nat) : (countTelemetry s o n).hints = s.hints := rfl
@[simp] theorem countTelemetry_errors (s : State) (o n : Nat) : (countTelemetry s o n).errors = s.errors := rfl
@[simp] theorem countTelemetry_failing (s : State) (o n : Nat) : (countTelemetry s o n).failing = s.failing := rfl
@[simp] theorem countTelemetry_pressureAt (s : State) (o n : Nat) : (countTelemetry s o n).pressureAt = s.pressureAt := rfl
@[simp] theorem countTelemetry_epochAt (s : State) (o n : Nat) : (countTelemetry s o n).epochAt = s.epochAt := rfl
@[simp] theorem countTelemetry_lastSep (s : State) (o n : Nat) : (countTelemetry s o n).lastSep = s.lastSep := rfl
@[simp] theorem countTelemetry_waited (s : State) (o n : Nat) : (countTelemetry s o n).waited = s.waited := rfl
@[simp] theorem countTelemetry_injected (s : State) (o n : Nat) : (countTelemetry s o n).injected = s.injected := rfl
@[simp] theorem countTelemetry_oseqSent (s : State) (o n : Nat) : (countTelemetry s o n).oseqSent = s.oseqSent := rfl
@[simp] theorem countTelemetry_oseqDone (s : State) (o n : Nat) : (countTelemetry s o n).oseqDone = s.oseqDone := rfl
@[simp] theorem countTelemetry_press (s : State) (o n : Nat) : (countTelemetry s o n).press = s.press := rfl
@[simp] theorem countTelemetry_counters (s : State) (o n : Nat) : (countTelemetry s o n).counters = s.counters := rfl
@[simp] theorem countTelemetry_packets (s : State) (o n : Nat) : (countTelemetry s o n).packets = s.packets := rfl
@[simp] theorem countTelemetry_flits (s : State) (o n : Nat) : (countTelemetry s o n).flits = s.flits := rfl
@[simp] theorem countTelemetry_hoops (s : State) (o n : Nat) : (countTelemetry s o n).hoops = s.hoops := rfl
@[simp] theorem countTelemetry_pressure (s : State) (o n : Nat) : (countTelemetry s o n).pressure = s.pressure := rfl
@[simp] theorem countTelemetry_waits (s : State) (o n : Nat) : (countTelemetry s o n).waits = s.waits := rfl
@[simp] theorem countTelemetry_lastBegin (s : State) (o n : Nat) : (countTelemetry s o n).lastBegin = s.lastBegin := rfl
@[simp] theorem countTelemetry_routed (s : State) (o n : Nat) : (countTelemetry s o n).routed = s.routed := rfl
@[simp] theorem countTelemetry_links (s : State) (o n : Nat) : (countTelemetry s o n).links = s.links := rfl
@[simp] theorem countTelemetry_scribes (s : State) (o n : Nat) : (countTelemetry s o n).scribes = s.scribes := rfl
@[simp] theorem countTelemetry_scribeWait (s : State) (o n : Nat) : (countTelemetry s o n).scribeWait = s.scribeWait := rfl
@[simp] theorem countTelemetry_scribeTurn (s : State) (o n : Nat) : (countTelemetry s o n).scribeTurn = s.scribeTurn := rfl
@[simp] theorem countTelemetry_sfuUntil (s : State) (o n : Nat) : (countTelemetry s o n).sfuUntil = s.sfuUntil := rfl
@[simp] theorem countTelemetry_sqs (s : State) (o n : Nat) : (countTelemetry s o n).sqs = s.sqs := rfl
@[simp] theorem countTelemetry_rr (s : State) (o n : Nat) : (countTelemetry s o n).rr = s.rr := rfl
@[simp] theorem countTelemetry_graphs (s : State) (o n : Nat) : (countTelemetry s o n).graphs = s.graphs := rfl
@[simp] theorem countTelemetry_acceptOrder (s : State) (o n : Nat) : (countTelemetry s o n).acceptOrder = s.acceptOrder := rfl
@[simp] theorem countTelemetry_placeHold (s : State) (o n : Nat) : (countTelemetry s o n).placeHold = s.placeHold := rfl
@[simp] theorem countTelemetry_posted (s : State) (o n : Nat) : (countTelemetry s o n).posted = s.posted := rfl
@[simp] theorem countTelemetry_hoopRecs (s : State) (o n : Nat) : (countTelemetry s o n).hoopRecs = s.hoopRecs := rfl
@[simp] theorem countTelemetry_ruling (s : State) (o n : Nat) : (countTelemetry s o n).ruling = s.ruling := rfl
@[simp] theorem countTelemetry_images (s : State) (o n : Nat) : (countTelemetry s o n).images = s.images := rfl
@[simp] theorem countTelemetry_saves (s : State) (o n : Nat) : (countTelemetry s o n).saves = s.saves := rfl
@[simp] theorem countTelemetry_rooms (s : State) (o n : Nat) : (countTelemetry s o n).rooms = s.rooms := rfl
@[simp] theorem countTelemetry_ctxs (s : State) (o n : Nat) : (countTelemetry s o n).ctxs = s.ctxs := rfl
@[simp] theorem countTelemetry_faults (s : State) (o n : Nat) : (countTelemetry s o n).faults = s.faults := rfl
@[simp] theorem countTelemetry_seq (s : State) (o n : Nat) : (countTelemetry s o n).seq = s.seq := rfl
@[simp] theorem countTelemetry_msix (s : State) (o n : Nat) : (countTelemetry s o n).msix = s.msix := rfl
@[simp] theorem countTelemetry_winReply (s : State) (o n : Nat) : (countTelemetry s o n).winReply = s.winReply := rfl
@[simp] theorem countTelemetry_streams (s : State) (o n : Nat) : (countTelemetry s o n).streams = s.streams := rfl
@[simp] theorem countTelemetry_keySlots (s : State) (o n : Nat) : (countTelemetry s o n).keySlots = s.keySlots := rfl
@[simp] theorem countTelemetry_salts (s : State) (o n : Nat) : (countTelemetry s o n).salts = s.salts := rfl
@[simp] theorem countTelemetry_frames (s : State) (o n : Nat) : (countTelemetry s o n).frames = s.frames := rfl
@[simp] theorem countTelemetry_iagar (s : State) (o n : Nat) : (countTelemetry s o n).iagar = s.iagar := rfl
@[simp] theorem countTelemetry_team? (s : State) (o n : Nat) (g1 i1 : Nat) : (countTelemetry s o n).team? g1 i1 = s.team? g1 i1 := rfl
@[simp] theorem countTelemetry_grid? (s : State) (o n : Nat) (g1 : Nat) : (countTelemetry s o n).grid? g1 = s.grid? g1 := rfl
@[simp] theorem countTelemetry_bundle? (s : State) (o n : Nat) (b1 : Nat) : (countTelemetry s o n).bundle? b1 = s.bundle? b1 := rfl
@[simp] theorem countTelemetry_op? (s : State) (o n : Nat) (n1 : Nat) : (countTelemetry s o n).op? n1 = s.op? n1 := rfl
@[simp] theorem countTelemetry_req? (s : State) (o n : Nat) (n1 : Nat) : (countTelemetry s o n).req? n1 = s.req? n1 := rfl
@[simp] theorem countTelemetry_packet? (s : State) (o n : Nat) (n1 : Nat) : (countTelemetry s o n).packet? n1 = s.packet? n1 := rfl
@[simp] theorem countTelemetry_ctx (s : State) (o n : Nat) (c1 : Nat) : (countTelemetry s o n).ctx c1 = s.ctx c1 := rfl
@[simp] theorem countTelemetry_sq (s : State) (o n : Nat) (q1 : Nat) : (countTelemetry s o n).sq q1 = s.sq q1 := rfl
@[simp] theorem countTelemetry_memOf (s : State) (o n : Nat) (k1 : Nat) : (countTelemetry s o n).memOf k1 = s.memOf k1 := by rcases k1 with _ | _ | _ <;> rfl
@[simp] theorem countTelemetry_physByte (s : State) (o n : Nat) (k1 a1 : Nat) : (countTelemetry s o n).physByte k1 a1 = s.physByte k1 a1 := by rcases k1 with _ | _ | _ <;> rfl
@[simp] theorem countTelemetry_physBytes (s : State) (o n : Nat) (k1 a1 n1 : Nat) : (countTelemetry s o n).physBytes k1 a1 n1 = s.physBytes k1 a1 n1 := by rcases k1 with _ | _ | _ <;> rfl

/-! ## dissolve -/

@[simp] theorem dissolve_fc (s : State) (g t : Nat) : (dissolve s g t).fc = s.fc := rfl
@[simp] theorem dissolve_cc (s : State) (g t : Nat) : (dissolve s g t).cc = s.cc := rfl
@[simp] theorem dissolve_mhz (s : State) (g t : Nat) : (dissolve s g t).mhz = s.mhz := rfl
@[simp] theorem dissolve_clkAcc (s : State) (g t : Nat) : (dissolve s g t).clkAcc = s.clkAcc := rfl
@[simp] theorem dissolve_agenda (s : State) (g t : Nat) : (dissolve s g t).agenda = s.agenda := rfl
@[simp] theorem dissolve_free (s : State) (g t : Nat) : (dissolve s g t).free = s.free := rfl
@[simp] theorem dissolve_nextId (s : State) (g t : Nat) : (dissolve s g t).nextId = s.nextId := rfl
@[simp] theorem dissolve_cur (s : State) (g t : Nat) : (dissolve s g t).cur = s.cur := rfl
@[simp] theorem dissolve_quadIssued (s : State) (g t : Nat) : (dissolve s g t).quadIssued = s.quadIssued := rfl
@[simp] theorem dissolve_issued (s : State) (g t : Nat) : (dissolve s g t).issued = s.issued := rfl
@[simp] theorem dissolve_deflects (s : State) (g t : Nat) : (dissolve s g t).deflects = s.deflects := rfl
@[simp] theorem dissolve_grids (s : State) (g t : Nat) : (dissolve s g t).grids = s.grids := rfl
@[simp] theorem dissolve_ops (s : State) (g t : Nat) : (dissolve s g t).ops = s.ops := rfl
@[simp] theorem dissolve_reqs (s : State) (g t : Nat) : (dissolve s g t).reqs = s.reqs := rfl
@[simp] theorem dissolve_mem (s : State) (g t : Nat) : (dissolve s g t).mem = s.mem := rfl
@[simp] theorem dissolve_hostMem (s : State) (g t : Nat) : (dissolve s g t).hostMem = s.hostMem := rfl
@[simp] theorem dissolve_peerMem (s : State) (g t : Nat) : (dissolve s g t).peerMem = s.peerMem := rfl
@[simp] theorem dissolve_poison (s : State) (g t : Nat) : (dissolve s g t).poison = s.poison := rfl
@[simp] theorem dissolve_l1 (s : State) (g t : Nat) : (dissolve s g t).l1 = s.l1 := rfl
@[simp] theorem dissolve_tlb (s : State) (g t : Nat) : (dissolve s g t).tlb = s.tlb := rfl
@[simp] theorem dissolve_regions (s : State) (g t : Nat) : (dissolve s g t).regions = s.regions := rfl
@[simp] theorem dissolve_regionCache (s : State) (g t : Nat) : (dissolve s g t).regionCache = s.regionCache := rfl
@[simp] theorem dissolve_locks (s : State) (g t : Nat) : (dissolve s g t).locks = s.locks := rfl
@[simp] theorem dissolve_hints (s : State) (g t : Nat) : (dissolve s g t).hints = s.hints := rfl
@[simp] theorem dissolve_errors (s : State) (g t : Nat) : (dissolve s g t).errors = s.errors := rfl
@[simp] theorem dissolve_failing (s : State) (g t : Nat) : (dissolve s g t).failing = s.failing := rfl
@[simp] theorem dissolve_pressureAt (s : State) (g t : Nat) : (dissolve s g t).pressureAt = s.pressureAt := rfl
@[simp] theorem dissolve_epochAt (s : State) (g t : Nat) : (dissolve s g t).epochAt = s.epochAt := rfl
@[simp] theorem dissolve_lastSep (s : State) (g t : Nat) : (dissolve s g t).lastSep = s.lastSep := rfl
@[simp] theorem dissolve_waited (s : State) (g t : Nat) : (dissolve s g t).waited = s.waited := rfl
@[simp] theorem dissolve_injected (s : State) (g t : Nat) : (dissolve s g t).injected = s.injected := rfl
@[simp] theorem dissolve_oseqSent (s : State) (g t : Nat) : (dissolve s g t).oseqSent = s.oseqSent := rfl
@[simp] theorem dissolve_oseqDone (s : State) (g t : Nat) : (dissolve s g t).oseqDone = s.oseqDone := rfl
@[simp] theorem dissolve_press (s : State) (g t : Nat) : (dissolve s g t).press = s.press := rfl
@[simp] theorem dissolve_counters (s : State) (g t : Nat) : (dissolve s g t).counters = s.counters := rfl
@[simp] theorem dissolve_packets (s : State) (g t : Nat) : (dissolve s g t).packets = s.packets := rfl
@[simp] theorem dissolve_flits (s : State) (g t : Nat) : (dissolve s g t).flits = s.flits := rfl
@[simp] theorem dissolve_hoops (s : State) (g t : Nat) : (dissolve s g t).hoops = s.hoops := rfl
@[simp] theorem dissolve_pressure (s : State) (g t : Nat) : (dissolve s g t).pressure = s.pressure := rfl
@[simp] theorem dissolve_waits (s : State) (g t : Nat) : (dissolve s g t).waits = s.waits := rfl
@[simp] theorem dissolve_lastBegin (s : State) (g t : Nat) : (dissolve s g t).lastBegin = s.lastBegin := rfl
@[simp] theorem dissolve_routed (s : State) (g t : Nat) : (dissolve s g t).routed = s.routed := rfl
@[simp] theorem dissolve_links (s : State) (g t : Nat) : (dissolve s g t).links = s.links := rfl
@[simp] theorem dissolve_scribes (s : State) (g t : Nat) : (dissolve s g t).scribes = s.scribes := rfl
@[simp] theorem dissolve_scribeWait (s : State) (g t : Nat) : (dissolve s g t).scribeWait = s.scribeWait := rfl
@[simp] theorem dissolve_scribeTurn (s : State) (g t : Nat) : (dissolve s g t).scribeTurn = s.scribeTurn := rfl
@[simp] theorem dissolve_sfuUntil (s : State) (g t : Nat) : (dissolve s g t).sfuUntil = s.sfuUntil := rfl
@[simp] theorem dissolve_sqs (s : State) (g t : Nat) : (dissolve s g t).sqs = s.sqs := rfl
@[simp] theorem dissolve_rr (s : State) (g t : Nat) : (dissolve s g t).rr = s.rr := rfl
@[simp] theorem dissolve_graphs (s : State) (g t : Nat) : (dissolve s g t).graphs = s.graphs := rfl
@[simp] theorem dissolve_acceptOrder (s : State) (g t : Nat) : (dissolve s g t).acceptOrder = s.acceptOrder := rfl
@[simp] theorem dissolve_placeHold (s : State) (g t : Nat) : (dissolve s g t).placeHold = s.placeHold := rfl
@[simp] theorem dissolve_posted (s : State) (g t : Nat) : (dissolve s g t).posted = s.posted := rfl
@[simp] theorem dissolve_hoopRecs (s : State) (g t : Nat) : (dissolve s g t).hoopRecs = s.hoopRecs := rfl
@[simp] theorem dissolve_ruling (s : State) (g t : Nat) : (dissolve s g t).ruling = s.ruling := rfl
@[simp] theorem dissolve_images (s : State) (g t : Nat) : (dissolve s g t).images = s.images := rfl
@[simp] theorem dissolve_saves (s : State) (g t : Nat) : (dissolve s g t).saves = s.saves := rfl
@[simp] theorem dissolve_rooms (s : State) (g t : Nat) : (dissolve s g t).rooms = s.rooms := rfl
@[simp] theorem dissolve_ctxs (s : State) (g t : Nat) : (dissolve s g t).ctxs = s.ctxs := rfl
@[simp] theorem dissolve_faults (s : State) (g t : Nat) : (dissolve s g t).faults = s.faults := rfl
@[simp] theorem dissolve_seq (s : State) (g t : Nat) : (dissolve s g t).seq = s.seq := rfl
@[simp] theorem dissolve_msix (s : State) (g t : Nat) : (dissolve s g t).msix = s.msix := rfl
@[simp] theorem dissolve_winReply (s : State) (g t : Nat) : (dissolve s g t).winReply = s.winReply := rfl
@[simp] theorem dissolve_streams (s : State) (g t : Nat) : (dissolve s g t).streams = s.streams := rfl
@[simp] theorem dissolve_keySlots (s : State) (g t : Nat) : (dissolve s g t).keySlots = s.keySlots := rfl
@[simp] theorem dissolve_salts (s : State) (g t : Nat) : (dissolve s g t).salts = s.salts := rfl
@[simp] theorem dissolve_frames (s : State) (g t : Nat) : (dissolve s g t).frames = s.frames := rfl
@[simp] theorem dissolve_mgmt (s : State) (g t : Nat) : (dissolve s g t).mgmt = s.mgmt := rfl
@[simp] theorem dissolve_iagar (s : State) (g t : Nat) : (dissolve s g t).iagar = s.iagar := rfl
@[simp] theorem dissolve_grid? (s : State) (g t : Nat) (g1 : Nat) : (dissolve s g t).grid? g1 = s.grid? g1 := rfl
@[simp] theorem dissolve_op? (s : State) (g t : Nat) (n1 : Nat) : (dissolve s g t).op? n1 = s.op? n1 := rfl
@[simp] theorem dissolve_req? (s : State) (g t : Nat) (n1 : Nat) : (dissolve s g t).req? n1 = s.req? n1 := rfl
@[simp] theorem dissolve_packet? (s : State) (g t : Nat) (n1 : Nat) : (dissolve s g t).packet? n1 = s.packet? n1 := rfl
@[simp] theorem dissolve_ctx (s : State) (g t : Nat) (c1 : Nat) : (dissolve s g t).ctx c1 = s.ctx c1 := rfl
@[simp] theorem dissolve_sq (s : State) (g t : Nat) (q1 : Nat) : (dissolve s g t).sq q1 = s.sq q1 := rfl
@[simp] theorem dissolve_memOf (s : State) (g t : Nat) (k1 : Nat) : (dissolve s g t).memOf k1 = s.memOf k1 := by rcases k1 with _ | _ | _ <;> rfl
@[simp] theorem dissolve_physByte (s : State) (g t : Nat) (k1 a1 : Nat) : (dissolve s g t).physByte k1 a1 = s.physByte k1 a1 := by rcases k1 with _ | _ | _ <;> rfl
@[simp] theorem dissolve_physBytes (s : State) (g t : Nat) (k1 a1 n1 : Nat) : (dissolve s g t).physBytes k1 a1 n1 = s.physBytes k1 a1 n1 := by rcases k1 with _ | _ | _ <;> rfl

/-! ## finishWord -/

@[simp] theorem finishWord_fc (s : State) (e : Env) (t : Team) (kw : List KWrite) : (finishWord s e t kw).fc = s.fc := rfl
@[simp] theorem finishWord_cc (s : State) (e : Env) (t : Team) (kw : List KWrite) : (finishWord s e t kw).cc = s.cc := rfl
@[simp] theorem finishWord_mhz (s : State) (e : Env) (t : Team) (kw : List KWrite) : (finishWord s e t kw).mhz = s.mhz := rfl
@[simp] theorem finishWord_clkAcc (s : State) (e : Env) (t : Team) (kw : List KWrite) : (finishWord s e t kw).clkAcc = s.clkAcc := rfl
@[simp] theorem finishWord_agenda (s : State) (e : Env) (t : Team) (kw : List KWrite) : (finishWord s e t kw).agenda = s.agenda := rfl
@[simp] theorem finishWord_quadIssued (s : State) (e : Env) (t : Team) (kw : List KWrite) : (finishWord s e t kw).quadIssued = s.quadIssued := rfl
@[simp] theorem finishWord_deflects (s : State) (e : Env) (t : Team) (kw : List KWrite) : (finishWord s e t kw).deflects = s.deflects := rfl
@[simp] theorem finishWord_grids (s : State) (e : Env) (t : Team) (kw : List KWrite) : (finishWord s e t kw).grids = s.grids := rfl
@[simp] theorem finishWord_ops (s : State) (e : Env) (t : Team) (kw : List KWrite) : (finishWord s e t kw).ops = s.ops := rfl
@[simp] theorem finishWord_reqs (s : State) (e : Env) (t : Team) (kw : List KWrite) : (finishWord s e t kw).reqs = s.reqs := rfl
@[simp] theorem finishWord_mem (s : State) (e : Env) (t : Team) (kw : List KWrite) : (finishWord s e t kw).mem = s.mem := rfl
@[simp] theorem finishWord_hostMem (s : State) (e : Env) (t : Team) (kw : List KWrite) : (finishWord s e t kw).hostMem = s.hostMem := rfl
@[simp] theorem finishWord_peerMem (s : State) (e : Env) (t : Team) (kw : List KWrite) : (finishWord s e t kw).peerMem = s.peerMem := rfl
@[simp] theorem finishWord_poison (s : State) (e : Env) (t : Team) (kw : List KWrite) : (finishWord s e t kw).poison = s.poison := rfl
@[simp] theorem finishWord_l1 (s : State) (e : Env) (t : Team) (kw : List KWrite) : (finishWord s e t kw).l1 = s.l1 := rfl
@[simp] theorem finishWord_tlb (s : State) (e : Env) (t : Team) (kw : List KWrite) : (finishWord s e t kw).tlb = s.tlb := rfl
@[simp] theorem finishWord_regions (s : State) (e : Env) (t : Team) (kw : List KWrite) : (finishWord s e t kw).regions = s.regions := rfl
@[simp] theorem finishWord_regionCache (s : State) (e : Env) (t : Team) (kw : List KWrite) : (finishWord s e t kw).regionCache = s.regionCache := rfl
@[simp] theorem finishWord_locks (s : State) (e : Env) (t : Team) (kw : List KWrite) : (finishWord s e t kw).locks = s.locks := rfl
@[simp] theorem finishWord_hints (s : State) (e : Env) (t : Team) (kw : List KWrite) : (finishWord s e t kw).hints = s.hints := rfl
@[simp] theorem finishWord_errors (s : State) (e : Env) (t : Team) (kw : List KWrite) : (finishWord s e t kw).errors = s.errors := rfl
@[simp] theorem finishWord_failing (s : State) (e : Env) (t : Team) (kw : List KWrite) : (finishWord s e t kw).failing = s.failing := rfl
@[simp] theorem finishWord_pressureAt (s : State) (e : Env) (t : Team) (kw : List KWrite) : (finishWord s e t kw).pressureAt = s.pressureAt := rfl
@[simp] theorem finishWord_epochAt (s : State) (e : Env) (t : Team) (kw : List KWrite) : (finishWord s e t kw).epochAt = s.epochAt := rfl
@[simp] theorem finishWord_lastSep (s : State) (e : Env) (t : Team) (kw : List KWrite) : (finishWord s e t kw).lastSep = s.lastSep := rfl
@[simp] theorem finishWord_waited (s : State) (e : Env) (t : Team) (kw : List KWrite) : (finishWord s e t kw).waited = s.waited := rfl
@[simp] theorem finishWord_injected (s : State) (e : Env) (t : Team) (kw : List KWrite) : (finishWord s e t kw).injected = s.injected := rfl
@[simp] theorem finishWord_oseqSent (s : State) (e : Env) (t : Team) (kw : List KWrite) : (finishWord s e t kw).oseqSent = s.oseqSent := rfl
@[simp] theorem finishWord_oseqDone (s : State) (e : Env) (t : Team) (kw : List KWrite) : (finishWord s e t kw).oseqDone = s.oseqDone := rfl
@[simp] theorem finishWord_press (s : State) (e : Env) (t : Team) (kw : List KWrite) : (finishWord s e t kw).press = s.press := rfl
@[simp] theorem finishWord_counters (s : State) (e : Env) (t : Team) (kw : List KWrite) : (finishWord s e t kw).counters = s.counters := rfl
@[simp] theorem finishWord_packets (s : State) (e : Env) (t : Team) (kw : List KWrite) : (finishWord s e t kw).packets = s.packets := rfl
@[simp] theorem finishWord_flits (s : State) (e : Env) (t : Team) (kw : List KWrite) : (finishWord s e t kw).flits = s.flits := rfl
@[simp] theorem finishWord_hoops (s : State) (e : Env) (t : Team) (kw : List KWrite) : (finishWord s e t kw).hoops = s.hoops := rfl
@[simp] theorem finishWord_pressure (s : State) (e : Env) (t : Team) (kw : List KWrite) : (finishWord s e t kw).pressure = s.pressure := rfl
@[simp] theorem finishWord_waits (s : State) (e : Env) (t : Team) (kw : List KWrite) : (finishWord s e t kw).waits = s.waits := rfl
@[simp] theorem finishWord_lastBegin (s : State) (e : Env) (t : Team) (kw : List KWrite) : (finishWord s e t kw).lastBegin = s.lastBegin := rfl
@[simp] theorem finishWord_routed (s : State) (e : Env) (t : Team) (kw : List KWrite) : (finishWord s e t kw).routed = s.routed := rfl
@[simp] theorem finishWord_links (s : State) (e : Env) (t : Team) (kw : List KWrite) : (finishWord s e t kw).links = s.links := rfl
@[simp] theorem finishWord_scribes (s : State) (e : Env) (t : Team) (kw : List KWrite) : (finishWord s e t kw).scribes = s.scribes := rfl
@[simp] theorem finishWord_scribeWait (s : State) (e : Env) (t : Team) (kw : List KWrite) : (finishWord s e t kw).scribeWait = s.scribeWait := rfl
@[simp] theorem finishWord_scribeTurn (s : State) (e : Env) (t : Team) (kw : List KWrite) : (finishWord s e t kw).scribeTurn = s.scribeTurn := rfl
@[simp] theorem finishWord_sfuUntil (s : State) (e : Env) (t : Team) (kw : List KWrite) : (finishWord s e t kw).sfuUntil = s.sfuUntil := rfl
@[simp] theorem finishWord_sqs (s : State) (e : Env) (t : Team) (kw : List KWrite) : (finishWord s e t kw).sqs = s.sqs := rfl
@[simp] theorem finishWord_rr (s : State) (e : Env) (t : Team) (kw : List KWrite) : (finishWord s e t kw).rr = s.rr := rfl
@[simp] theorem finishWord_graphs (s : State) (e : Env) (t : Team) (kw : List KWrite) : (finishWord s e t kw).graphs = s.graphs := rfl
@[simp] theorem finishWord_acceptOrder (s : State) (e : Env) (t : Team) (kw : List KWrite) : (finishWord s e t kw).acceptOrder = s.acceptOrder := rfl
@[simp] theorem finishWord_placeHold (s : State) (e : Env) (t : Team) (kw : List KWrite) : (finishWord s e t kw).placeHold = s.placeHold := rfl
@[simp] theorem finishWord_posted (s : State) (e : Env) (t : Team) (kw : List KWrite) : (finishWord s e t kw).posted = s.posted := rfl
@[simp] theorem finishWord_hoopRecs (s : State) (e : Env) (t : Team) (kw : List KWrite) : (finishWord s e t kw).hoopRecs = s.hoopRecs := rfl
@[simp] theorem finishWord_ruling (s : State) (e : Env) (t : Team) (kw : List KWrite) : (finishWord s e t kw).ruling = s.ruling := rfl
@[simp] theorem finishWord_images (s : State) (e : Env) (t : Team) (kw : List KWrite) : (finishWord s e t kw).images = s.images := rfl
@[simp] theorem finishWord_saves (s : State) (e : Env) (t : Team) (kw : List KWrite) : (finishWord s e t kw).saves = s.saves := rfl
@[simp] theorem finishWord_rooms (s : State) (e : Env) (t : Team) (kw : List KWrite) : (finishWord s e t kw).rooms = s.rooms := rfl
@[simp] theorem finishWord_ctxs (s : State) (e : Env) (t : Team) (kw : List KWrite) : (finishWord s e t kw).ctxs = s.ctxs := rfl
@[simp] theorem finishWord_faults (s : State) (e : Env) (t : Team) (kw : List KWrite) : (finishWord s e t kw).faults = s.faults := rfl
@[simp] theorem finishWord_seq (s : State) (e : Env) (t : Team) (kw : List KWrite) : (finishWord s e t kw).seq = s.seq := rfl
@[simp] theorem finishWord_msix (s : State) (e : Env) (t : Team) (kw : List KWrite) : (finishWord s e t kw).msix = s.msix := rfl
@[simp] theorem finishWord_winReply (s : State) (e : Env) (t : Team) (kw : List KWrite) : (finishWord s e t kw).winReply = s.winReply := rfl
@[simp] theorem finishWord_streams (s : State) (e : Env) (t : Team) (kw : List KWrite) : (finishWord s e t kw).streams = s.streams := rfl
@[simp] theorem finishWord_keySlots (s : State) (e : Env) (t : Team) (kw : List KWrite) : (finishWord s e t kw).keySlots = s.keySlots := rfl
@[simp] theorem finishWord_salts (s : State) (e : Env) (t : Team) (kw : List KWrite) : (finishWord s e t kw).salts = s.salts := rfl
@[simp] theorem finishWord_frames (s : State) (e : Env) (t : Team) (kw : List KWrite) : (finishWord s e t kw).frames = s.frames := rfl
@[simp] theorem finishWord_mgmt (s : State) (e : Env) (t : Team) (kw : List KWrite) : (finishWord s e t kw).mgmt = s.mgmt := rfl
@[simp] theorem finishWord_iagar (s : State) (e : Env) (t : Team) (kw : List KWrite) : (finishWord s e t kw).iagar = s.iagar := rfl
@[simp] theorem finishWord_grid? (s : State) (e : Env) (t : Team) (kw : List KWrite) (g1 : Nat) : (finishWord s e t kw).grid? g1 = s.grid? g1 := rfl
@[simp] theorem finishWord_op? (s : State) (e : Env) (t : Team) (kw : List KWrite) (n1 : Nat) : (finishWord s e t kw).op? n1 = s.op? n1 := rfl
@[simp] theorem finishWord_req? (s : State) (e : Env) (t : Team) (kw : List KWrite) (n1 : Nat) : (finishWord s e t kw).req? n1 = s.req? n1 := rfl
@[simp] theorem finishWord_packet? (s : State) (e : Env) (t : Team) (kw : List KWrite) (n1 : Nat) : (finishWord s e t kw).packet? n1 = s.packet? n1 := rfl
@[simp] theorem finishWord_ctx (s : State) (e : Env) (t : Team) (kw : List KWrite) (c1 : Nat) : (finishWord s e t kw).ctx c1 = s.ctx c1 := rfl
@[simp] theorem finishWord_sq (s : State) (e : Env) (t : Team) (kw : List KWrite) (q1 : Nat) : (finishWord s e t kw).sq q1 = s.sq q1 := rfl
@[simp] theorem finishWord_memOf (s : State) (e : Env) (t : Team) (kw : List KWrite) (k1 : Nat) : (finishWord s e t kw).memOf k1 = s.memOf k1 := by rcases k1 with _ | _ | _ <;> rfl
@[simp] theorem finishWord_physByte (s : State) (e : Env) (t : Team) (kw : List KWrite) (k1 a1 : Nat) : (finishWord s e t kw).physByte k1 a1 = s.physByte k1 a1 := by rcases k1 with _ | _ | _ <;> rfl
@[simp] theorem finishWord_physBytes (s : State) (e : Env) (t : Team) (kw : List KWrite) (k1 a1 n1 : Nat) : (finishWord s e t kw).physBytes k1 a1 n1 = s.physBytes k1 a1 n1 := by rcases k1 with _ | _ | _ <;> rfl

/-! ## raiseAt -/

@[simp] theorem raiseAt_fc (s : State) (e : Env) (w : Nat) (tr : Trap) (l : List (Nat × Trap)) (u : Bool) : (raiseAt s e w tr l u).fc = s.fc := by simp only [raiseAt, State.updGrid, dissolve, State.updTeam]
@[simp] theorem raiseAt_cc (s : State) (e : Env) (w : Nat) (tr : Trap) (l : List (Nat × Trap)) (u : Bool) : (raiseAt s e w tr l u).cc = s.cc := by simp only [raiseAt, State.updGrid, dissolve, State.updTeam]
@[simp] theorem raiseAt_mhz (s : State) (e : Env) (w : Nat) (tr : Trap) (l : List (Nat × Trap)) (u : Bool) : (raiseAt s e w tr l u).mhz = s.mhz := by simp only [raiseAt, State.updGrid, dissolve, State.updTeam]
@[simp] theorem raiseAt_clkAcc (s : State) (e : Env) (w : Nat) (tr : Trap) (l : List (Nat × Trap)) (u : Bool) : (raiseAt s e w tr l u).clkAcc = s.clkAcc := by simp only [raiseAt, State.updGrid, dissolve, State.updTeam]
@[simp] theorem raiseAt_agenda (s : State) (e : Env) (w : Nat) (tr : Trap) (l : List (Nat × Trap)) (u : Bool) : (raiseAt s e w tr l u).agenda = s.agenda := by simp only [raiseAt, State.updGrid, dissolve, State.updTeam]
@[simp] theorem raiseAt_nextId (s : State) (e : Env) (w : Nat) (tr : Trap) (l : List (Nat × Trap)) (u : Bool) : (raiseAt s e w tr l u).nextId = s.nextId := by simp only [raiseAt, State.updGrid, dissolve, State.updTeam]
@[simp] theorem raiseAt_quadIssued (s : State) (e : Env) (w : Nat) (tr : Trap) (l : List (Nat × Trap)) (u : Bool) : (raiseAt s e w tr l u).quadIssued = s.quadIssued := by simp only [raiseAt, State.updGrid, dissolve, State.updTeam]
@[simp] theorem raiseAt_issued (s : State) (e : Env) (w : Nat) (tr : Trap) (l : List (Nat × Trap)) (u : Bool) : (raiseAt s e w tr l u).issued = s.issued := by simp only [raiseAt, State.updGrid, dissolve, State.updTeam]
@[simp] theorem raiseAt_deflects (s : State) (e : Env) (w : Nat) (tr : Trap) (l : List (Nat × Trap)) (u : Bool) : (raiseAt s e w tr l u).deflects = s.deflects := by simp only [raiseAt, State.updGrid, dissolve, State.updTeam]
@[simp] theorem raiseAt_ops (s : State) (e : Env) (w : Nat) (tr : Trap) (l : List (Nat × Trap)) (u : Bool) : (raiseAt s e w tr l u).ops = s.ops := by simp only [raiseAt, State.updGrid, dissolve, State.updTeam]
@[simp] theorem raiseAt_reqs (s : State) (e : Env) (w : Nat) (tr : Trap) (l : List (Nat × Trap)) (u : Bool) : (raiseAt s e w tr l u).reqs = s.reqs := by simp only [raiseAt, State.updGrid, dissolve, State.updTeam]
@[simp] theorem raiseAt_mem (s : State) (e : Env) (w : Nat) (tr : Trap) (l : List (Nat × Trap)) (u : Bool) : (raiseAt s e w tr l u).mem = s.mem := by simp only [raiseAt, State.updGrid, dissolve, State.updTeam]
@[simp] theorem raiseAt_hostMem (s : State) (e : Env) (w : Nat) (tr : Trap) (l : List (Nat × Trap)) (u : Bool) : (raiseAt s e w tr l u).hostMem = s.hostMem := by simp only [raiseAt, State.updGrid, dissolve, State.updTeam]
@[simp] theorem raiseAt_peerMem (s : State) (e : Env) (w : Nat) (tr : Trap) (l : List (Nat × Trap)) (u : Bool) : (raiseAt s e w tr l u).peerMem = s.peerMem := by simp only [raiseAt, State.updGrid, dissolve, State.updTeam]
@[simp] theorem raiseAt_poison (s : State) (e : Env) (w : Nat) (tr : Trap) (l : List (Nat × Trap)) (u : Bool) : (raiseAt s e w tr l u).poison = s.poison := by simp only [raiseAt, State.updGrid, dissolve, State.updTeam]
@[simp] theorem raiseAt_l1 (s : State) (e : Env) (w : Nat) (tr : Trap) (l : List (Nat × Trap)) (u : Bool) : (raiseAt s e w tr l u).l1 = s.l1 := by simp only [raiseAt, State.updGrid, dissolve, State.updTeam]
@[simp] theorem raiseAt_tlb (s : State) (e : Env) (w : Nat) (tr : Trap) (l : List (Nat × Trap)) (u : Bool) : (raiseAt s e w tr l u).tlb = s.tlb := by simp only [raiseAt, State.updGrid, dissolve, State.updTeam]
@[simp] theorem raiseAt_regions (s : State) (e : Env) (w : Nat) (tr : Trap) (l : List (Nat × Trap)) (u : Bool) : (raiseAt s e w tr l u).regions = s.regions := by simp only [raiseAt, State.updGrid, dissolve, State.updTeam]
@[simp] theorem raiseAt_regionCache (s : State) (e : Env) (w : Nat) (tr : Trap) (l : List (Nat × Trap)) (u : Bool) : (raiseAt s e w tr l u).regionCache = s.regionCache := by simp only [raiseAt, State.updGrid, dissolve, State.updTeam]
@[simp] theorem raiseAt_locks (s : State) (e : Env) (w : Nat) (tr : Trap) (l : List (Nat × Trap)) (u : Bool) : (raiseAt s e w tr l u).locks = s.locks := by simp only [raiseAt, State.updGrid, dissolve, State.updTeam]
@[simp] theorem raiseAt_hints (s : State) (e : Env) (w : Nat) (tr : Trap) (l : List (Nat × Trap)) (u : Bool) : (raiseAt s e w tr l u).hints = s.hints := by simp only [raiseAt, State.updGrid, dissolve, State.updTeam]
@[simp] theorem raiseAt_errors (s : State) (e : Env) (w : Nat) (tr : Trap) (l : List (Nat × Trap)) (u : Bool) : (raiseAt s e w tr l u).errors = s.errors := by simp only [raiseAt, State.updGrid, dissolve, State.updTeam]
@[simp] theorem raiseAt_failing (s : State) (e : Env) (w : Nat) (tr : Trap) (l : List (Nat × Trap)) (u : Bool) : (raiseAt s e w tr l u).failing = s.failing := by simp only [raiseAt, State.updGrid, dissolve, State.updTeam]
@[simp] theorem raiseAt_pressureAt (s : State) (e : Env) (w : Nat) (tr : Trap) (l : List (Nat × Trap)) (u : Bool) : (raiseAt s e w tr l u).pressureAt = s.pressureAt := by simp only [raiseAt, State.updGrid, dissolve, State.updTeam]
@[simp] theorem raiseAt_epochAt (s : State) (e : Env) (w : Nat) (tr : Trap) (l : List (Nat × Trap)) (u : Bool) : (raiseAt s e w tr l u).epochAt = s.epochAt := by simp only [raiseAt, State.updGrid, dissolve, State.updTeam]
@[simp] theorem raiseAt_lastSep (s : State) (e : Env) (w : Nat) (tr : Trap) (l : List (Nat × Trap)) (u : Bool) : (raiseAt s e w tr l u).lastSep = s.lastSep := by simp only [raiseAt, State.updGrid, dissolve, State.updTeam]
@[simp] theorem raiseAt_waited (s : State) (e : Env) (w : Nat) (tr : Trap) (l : List (Nat × Trap)) (u : Bool) : (raiseAt s e w tr l u).waited = s.waited := by simp only [raiseAt, State.updGrid, dissolve, State.updTeam]
@[simp] theorem raiseAt_injected (s : State) (e : Env) (w : Nat) (tr : Trap) (l : List (Nat × Trap)) (u : Bool) : (raiseAt s e w tr l u).injected = s.injected := by simp only [raiseAt, State.updGrid, dissolve, State.updTeam]
@[simp] theorem raiseAt_oseqSent (s : State) (e : Env) (w : Nat) (tr : Trap) (l : List (Nat × Trap)) (u : Bool) : (raiseAt s e w tr l u).oseqSent = s.oseqSent := by simp only [raiseAt, State.updGrid, dissolve, State.updTeam]
@[simp] theorem raiseAt_oseqDone (s : State) (e : Env) (w : Nat) (tr : Trap) (l : List (Nat × Trap)) (u : Bool) : (raiseAt s e w tr l u).oseqDone = s.oseqDone := by simp only [raiseAt, State.updGrid, dissolve, State.updTeam]
@[simp] theorem raiseAt_press (s : State) (e : Env) (w : Nat) (tr : Trap) (l : List (Nat × Trap)) (u : Bool) : (raiseAt s e w tr l u).press = s.press := by simp only [raiseAt, State.updGrid, dissolve, State.updTeam]
@[simp] theorem raiseAt_counters (s : State) (e : Env) (w : Nat) (tr : Trap) (l : List (Nat × Trap)) (u : Bool) : (raiseAt s e w tr l u).counters = s.counters := by simp only [raiseAt, State.updGrid, dissolve, State.updTeam]
@[simp] theorem raiseAt_packets (s : State) (e : Env) (w : Nat) (tr : Trap) (l : List (Nat × Trap)) (u : Bool) : (raiseAt s e w tr l u).packets = s.packets := by simp only [raiseAt, State.updGrid, dissolve, State.updTeam]
@[simp] theorem raiseAt_flits (s : State) (e : Env) (w : Nat) (tr : Trap) (l : List (Nat × Trap)) (u : Bool) : (raiseAt s e w tr l u).flits = s.flits := by simp only [raiseAt, State.updGrid, dissolve, State.updTeam]
@[simp] theorem raiseAt_hoops (s : State) (e : Env) (w : Nat) (tr : Trap) (l : List (Nat × Trap)) (u : Bool) : (raiseAt s e w tr l u).hoops = s.hoops := by simp only [raiseAt, State.updGrid, dissolve, State.updTeam]
@[simp] theorem raiseAt_pressure (s : State) (e : Env) (w : Nat) (tr : Trap) (l : List (Nat × Trap)) (u : Bool) : (raiseAt s e w tr l u).pressure = s.pressure := by simp only [raiseAt, State.updGrid, dissolve, State.updTeam]
@[simp] theorem raiseAt_waits (s : State) (e : Env) (w : Nat) (tr : Trap) (l : List (Nat × Trap)) (u : Bool) : (raiseAt s e w tr l u).waits = s.waits := by simp only [raiseAt, State.updGrid, dissolve, State.updTeam]
@[simp] theorem raiseAt_lastBegin (s : State) (e : Env) (w : Nat) (tr : Trap) (l : List (Nat × Trap)) (u : Bool) : (raiseAt s e w tr l u).lastBegin = s.lastBegin := by simp only [raiseAt, State.updGrid, dissolve, State.updTeam]
@[simp] theorem raiseAt_routed (s : State) (e : Env) (w : Nat) (tr : Trap) (l : List (Nat × Trap)) (u : Bool) : (raiseAt s e w tr l u).routed = s.routed := by simp only [raiseAt, State.updGrid, dissolve, State.updTeam]
@[simp] theorem raiseAt_links (s : State) (e : Env) (w : Nat) (tr : Trap) (l : List (Nat × Trap)) (u : Bool) : (raiseAt s e w tr l u).links = s.links := by simp only [raiseAt, State.updGrid, dissolve, State.updTeam]
@[simp] theorem raiseAt_scribes (s : State) (e : Env) (w : Nat) (tr : Trap) (l : List (Nat × Trap)) (u : Bool) : (raiseAt s e w tr l u).scribes = s.scribes := by simp only [raiseAt, State.updGrid, dissolve, State.updTeam]
@[simp] theorem raiseAt_scribeWait (s : State) (e : Env) (w : Nat) (tr : Trap) (l : List (Nat × Trap)) (u : Bool) : (raiseAt s e w tr l u).scribeWait = s.scribeWait := by simp only [raiseAt, State.updGrid, dissolve, State.updTeam]
@[simp] theorem raiseAt_scribeTurn (s : State) (e : Env) (w : Nat) (tr : Trap) (l : List (Nat × Trap)) (u : Bool) : (raiseAt s e w tr l u).scribeTurn = s.scribeTurn := by simp only [raiseAt, State.updGrid, dissolve, State.updTeam]
@[simp] theorem raiseAt_sfuUntil (s : State) (e : Env) (w : Nat) (tr : Trap) (l : List (Nat × Trap)) (u : Bool) : (raiseAt s e w tr l u).sfuUntil = s.sfuUntil := by simp only [raiseAt, State.updGrid, dissolve, State.updTeam]
@[simp] theorem raiseAt_sqs (s : State) (e : Env) (w : Nat) (tr : Trap) (l : List (Nat × Trap)) (u : Bool) : (raiseAt s e w tr l u).sqs = s.sqs := by simp only [raiseAt, State.updGrid, dissolve, State.updTeam]
@[simp] theorem raiseAt_rr (s : State) (e : Env) (w : Nat) (tr : Trap) (l : List (Nat × Trap)) (u : Bool) : (raiseAt s e w tr l u).rr = s.rr := by simp only [raiseAt, State.updGrid, dissolve, State.updTeam]
@[simp] theorem raiseAt_graphs (s : State) (e : Env) (w : Nat) (tr : Trap) (l : List (Nat × Trap)) (u : Bool) : (raiseAt s e w tr l u).graphs = s.graphs := by simp only [raiseAt, State.updGrid, dissolve, State.updTeam]
@[simp] theorem raiseAt_acceptOrder (s : State) (e : Env) (w : Nat) (tr : Trap) (l : List (Nat × Trap)) (u : Bool) : (raiseAt s e w tr l u).acceptOrder = s.acceptOrder := by simp only [raiseAt, State.updGrid, dissolve, State.updTeam]
@[simp] theorem raiseAt_placeHold (s : State) (e : Env) (w : Nat) (tr : Trap) (l : List (Nat × Trap)) (u : Bool) : (raiseAt s e w tr l u).placeHold = s.placeHold := by simp only [raiseAt, State.updGrid, dissolve, State.updTeam]
@[simp] theorem raiseAt_posted (s : State) (e : Env) (w : Nat) (tr : Trap) (l : List (Nat × Trap)) (u : Bool) : (raiseAt s e w tr l u).posted = s.posted := by simp only [raiseAt, State.updGrid, dissolve, State.updTeam]
@[simp] theorem raiseAt_hoopRecs (s : State) (e : Env) (w : Nat) (tr : Trap) (l : List (Nat × Trap)) (u : Bool) : (raiseAt s e w tr l u).hoopRecs = s.hoopRecs := by simp only [raiseAt, State.updGrid, dissolve, State.updTeam]
@[simp] theorem raiseAt_ruling (s : State) (e : Env) (w : Nat) (tr : Trap) (l : List (Nat × Trap)) (u : Bool) : (raiseAt s e w tr l u).ruling = s.ruling := by simp only [raiseAt, State.updGrid, dissolve, State.updTeam]
@[simp] theorem raiseAt_images (s : State) (e : Env) (w : Nat) (tr : Trap) (l : List (Nat × Trap)) (u : Bool) : (raiseAt s e w tr l u).images = s.images := by simp only [raiseAt, State.updGrid, dissolve, State.updTeam]
@[simp] theorem raiseAt_saves (s : State) (e : Env) (w : Nat) (tr : Trap) (l : List (Nat × Trap)) (u : Bool) : (raiseAt s e w tr l u).saves = s.saves := by simp only [raiseAt, State.updGrid, dissolve, State.updTeam]
@[simp] theorem raiseAt_rooms (s : State) (e : Env) (w : Nat) (tr : Trap) (l : List (Nat × Trap)) (u : Bool) : (raiseAt s e w tr l u).rooms = s.rooms := by simp only [raiseAt, State.updGrid, dissolve, State.updTeam]
@[simp] theorem raiseAt_ctxs (s : State) (e : Env) (w : Nat) (tr : Trap) (l : List (Nat × Trap)) (u : Bool) : (raiseAt s e w tr l u).ctxs = s.ctxs := by simp only [raiseAt, State.updGrid, dissolve, State.updTeam]
@[simp] theorem raiseAt_msix (s : State) (e : Env) (w : Nat) (tr : Trap) (l : List (Nat × Trap)) (u : Bool) : (raiseAt s e w tr l u).msix = s.msix := by simp only [raiseAt, State.updGrid, dissolve, State.updTeam]
@[simp] theorem raiseAt_winReply (s : State) (e : Env) (w : Nat) (tr : Trap) (l : List (Nat × Trap)) (u : Bool) : (raiseAt s e w tr l u).winReply = s.winReply := by simp only [raiseAt, State.updGrid, dissolve, State.updTeam]
@[simp] theorem raiseAt_streams (s : State) (e : Env) (w : Nat) (tr : Trap) (l : List (Nat × Trap)) (u : Bool) : (raiseAt s e w tr l u).streams = s.streams := by simp only [raiseAt, State.updGrid, dissolve, State.updTeam]
@[simp] theorem raiseAt_keySlots (s : State) (e : Env) (w : Nat) (tr : Trap) (l : List (Nat × Trap)) (u : Bool) : (raiseAt s e w tr l u).keySlots = s.keySlots := by simp only [raiseAt, State.updGrid, dissolve, State.updTeam]
@[simp] theorem raiseAt_salts (s : State) (e : Env) (w : Nat) (tr : Trap) (l : List (Nat × Trap)) (u : Bool) : (raiseAt s e w tr l u).salts = s.salts := by simp only [raiseAt, State.updGrid, dissolve, State.updTeam]
@[simp] theorem raiseAt_frames (s : State) (e : Env) (w : Nat) (tr : Trap) (l : List (Nat × Trap)) (u : Bool) : (raiseAt s e w tr l u).frames = s.frames := by simp only [raiseAt, State.updGrid, dissolve, State.updTeam]
@[simp] theorem raiseAt_mgmt (s : State) (e : Env) (w : Nat) (tr : Trap) (l : List (Nat × Trap)) (u : Bool) : (raiseAt s e w tr l u).mgmt = s.mgmt := by simp only [raiseAt, State.updGrid, dissolve, State.updTeam]
@[simp] theorem raiseAt_iagar (s : State) (e : Env) (w : Nat) (tr : Trap) (l : List (Nat × Trap)) (u : Bool) : (raiseAt s e w tr l u).iagar = s.iagar := by simp only [raiseAt, State.updGrid, dissolve, State.updTeam]
@[simp] theorem raiseAt_op? (s : State) (e : Env) (w : Nat) (tr : Trap) (l : List (Nat × Trap)) (u : Bool) (n1 : Nat) : (raiseAt s e w tr l u).op? n1 = s.op? n1 := by simp [State.op?]
@[simp] theorem raiseAt_req? (s : State) (e : Env) (w : Nat) (tr : Trap) (l : List (Nat × Trap)) (u : Bool) (n1 : Nat) : (raiseAt s e w tr l u).req? n1 = s.req? n1 := by simp [State.req?]
@[simp] theorem raiseAt_packet? (s : State) (e : Env) (w : Nat) (tr : Trap) (l : List (Nat × Trap)) (u : Bool) (n1 : Nat) : (raiseAt s e w tr l u).packet? n1 = s.packet? n1 := by simp [State.packet?]
@[simp] theorem raiseAt_ctx (s : State) (e : Env) (w : Nat) (tr : Trap) (l : List (Nat × Trap)) (u : Bool) (c1 : Nat) : (raiseAt s e w tr l u).ctx c1 = s.ctx c1 := by simp [State.ctx]
@[simp] theorem raiseAt_sq (s : State) (e : Env) (w : Nat) (tr : Trap) (l : List (Nat × Trap)) (u : Bool) (q1 : Nat) : (raiseAt s e w tr l u).sq q1 = s.sq q1 := by simp [State.sq]
@[simp] theorem raiseAt_memOf (s : State) (e : Env) (w : Nat) (tr : Trap) (l : List (Nat × Trap)) (u : Bool) (k1 : Nat) : (raiseAt s e w tr l u).memOf k1 = s.memOf k1 := by rcases k1 with _ | _ | _ <;> simp [State.memOf]
@[simp] theorem raiseAt_physByte (s : State) (e : Env) (w : Nat) (tr : Trap) (l : List (Nat × Trap)) (u : Bool) (k1 a1 : Nat) : (raiseAt s e w tr l u).physByte k1 a1 = s.physByte k1 a1 := by simp [State.physByte]
@[simp] theorem raiseAt_physBytes (s : State) (e : Env) (w : Nat) (tr : Trap) (l : List (Nat × Trap)) (u : Bool) (k1 a1 n1 : Nat) : (raiseAt s e w tr l u).physBytes k1 a1 n1 = s.physBytes k1 a1 n1 := by simp [State.physBytes]

/-! ## stallWord -/

@[simp] theorem stallWord_fc (s : State) : (stallWord s).fc = s.fc := rfl
@[simp] theorem stallWord_cc (s : State) : (stallWord s).cc = s.cc := rfl
@[simp] theorem stallWord_mhz (s : State) : (stallWord s).mhz = s.mhz := rfl
@[simp] theorem stallWord_clkAcc (s : State) : (stallWord s).clkAcc = s.clkAcc := rfl
@[simp] theorem stallWord_agenda (s : State) : (stallWord s).agenda = s.agenda := rfl
@[simp] theorem stallWord_nextId (s : State) : (stallWord s).nextId = s.nextId := rfl
@[simp] theorem stallWord_issued (s : State) : (stallWord s).issued = s.issued := rfl
@[simp] theorem stallWord_deflects (s : State) : (stallWord s).deflects = s.deflects := rfl
@[simp] theorem stallWord_teams (s : State) : (stallWord s).teams = s.teams := rfl
@[simp] theorem stallWord_grids (s : State) : (stallWord s).grids = s.grids := rfl
@[simp] theorem stallWord_ops (s : State) : (stallWord s).ops = s.ops := rfl
@[simp] theorem stallWord_reqs (s : State) : (stallWord s).reqs = s.reqs := rfl
@[simp] theorem stallWord_mem (s : State) : (stallWord s).mem = s.mem := rfl
@[simp] theorem stallWord_hostMem (s : State) : (stallWord s).hostMem = s.hostMem := rfl
@[simp] theorem stallWord_peerMem (s : State) : (stallWord s).peerMem = s.peerMem := rfl
@[simp] theorem stallWord_poison (s : State) : (stallWord s).poison = s.poison := rfl
@[simp] theorem stallWord_l1 (s : State) : (stallWord s).l1 = s.l1 := rfl
@[simp] theorem stallWord_tlb (s : State) : (stallWord s).tlb = s.tlb := rfl
@[simp] theorem stallWord_regions (s : State) : (stallWord s).regions = s.regions := rfl
@[simp] theorem stallWord_regionCache (s : State) : (stallWord s).regionCache = s.regionCache := rfl
@[simp] theorem stallWord_locks (s : State) : (stallWord s).locks = s.locks := rfl
@[simp] theorem stallWord_hints (s : State) : (stallWord s).hints = s.hints := rfl
@[simp] theorem stallWord_errors (s : State) : (stallWord s).errors = s.errors := rfl
@[simp] theorem stallWord_failing (s : State) : (stallWord s).failing = s.failing := rfl
@[simp] theorem stallWord_pressureAt (s : State) : (stallWord s).pressureAt = s.pressureAt := rfl
@[simp] theorem stallWord_epochAt (s : State) : (stallWord s).epochAt = s.epochAt := rfl
@[simp] theorem stallWord_lastSep (s : State) : (stallWord s).lastSep = s.lastSep := rfl
@[simp] theorem stallWord_waited (s : State) : (stallWord s).waited = s.waited := rfl
@[simp] theorem stallWord_injected (s : State) : (stallWord s).injected = s.injected := rfl
@[simp] theorem stallWord_oseqSent (s : State) : (stallWord s).oseqSent = s.oseqSent := rfl
@[simp] theorem stallWord_oseqDone (s : State) : (stallWord s).oseqDone = s.oseqDone := rfl
@[simp] theorem stallWord_press (s : State) : (stallWord s).press = s.press := rfl
@[simp] theorem stallWord_counters (s : State) : (stallWord s).counters = s.counters := rfl
@[simp] theorem stallWord_packets (s : State) : (stallWord s).packets = s.packets := rfl
@[simp] theorem stallWord_flits (s : State) : (stallWord s).flits = s.flits := rfl
@[simp] theorem stallWord_hoops (s : State) : (stallWord s).hoops = s.hoops := rfl
@[simp] theorem stallWord_pressure (s : State) : (stallWord s).pressure = s.pressure := rfl
@[simp] theorem stallWord_waits (s : State) : (stallWord s).waits = s.waits := rfl
@[simp] theorem stallWord_lastBegin (s : State) : (stallWord s).lastBegin = s.lastBegin := rfl
@[simp] theorem stallWord_routed (s : State) : (stallWord s).routed = s.routed := rfl
@[simp] theorem stallWord_links (s : State) : (stallWord s).links = s.links := rfl
@[simp] theorem stallWord_scribes (s : State) : (stallWord s).scribes = s.scribes := rfl
@[simp] theorem stallWord_scribeWait (s : State) : (stallWord s).scribeWait = s.scribeWait := rfl
@[simp] theorem stallWord_scribeTurn (s : State) : (stallWord s).scribeTurn = s.scribeTurn := rfl
@[simp] theorem stallWord_sfuUntil (s : State) : (stallWord s).sfuUntil = s.sfuUntil := rfl
@[simp] theorem stallWord_sqs (s : State) : (stallWord s).sqs = s.sqs := rfl
@[simp] theorem stallWord_rr (s : State) : (stallWord s).rr = s.rr := rfl
@[simp] theorem stallWord_graphs (s : State) : (stallWord s).graphs = s.graphs := rfl
@[simp] theorem stallWord_acceptOrder (s : State) : (stallWord s).acceptOrder = s.acceptOrder := rfl
@[simp] theorem stallWord_placeHold (s : State) : (stallWord s).placeHold = s.placeHold := rfl
@[simp] theorem stallWord_posted (s : State) : (stallWord s).posted = s.posted := rfl
@[simp] theorem stallWord_hoopRecs (s : State) : (stallWord s).hoopRecs = s.hoopRecs := rfl
@[simp] theorem stallWord_ruling (s : State) : (stallWord s).ruling = s.ruling := rfl
@[simp] theorem stallWord_images (s : State) : (stallWord s).images = s.images := rfl
@[simp] theorem stallWord_saves (s : State) : (stallWord s).saves = s.saves := rfl
@[simp] theorem stallWord_rooms (s : State) : (stallWord s).rooms = s.rooms := rfl
@[simp] theorem stallWord_ctxs (s : State) : (stallWord s).ctxs = s.ctxs := rfl
@[simp] theorem stallWord_faults (s : State) : (stallWord s).faults = s.faults := rfl
@[simp] theorem stallWord_seq (s : State) : (stallWord s).seq = s.seq := rfl
@[simp] theorem stallWord_msix (s : State) : (stallWord s).msix = s.msix := rfl
@[simp] theorem stallWord_winReply (s : State) : (stallWord s).winReply = s.winReply := rfl
@[simp] theorem stallWord_streams (s : State) : (stallWord s).streams = s.streams := rfl
@[simp] theorem stallWord_keySlots (s : State) : (stallWord s).keySlots = s.keySlots := rfl
@[simp] theorem stallWord_salts (s : State) : (stallWord s).salts = s.salts := rfl
@[simp] theorem stallWord_frames (s : State) : (stallWord s).frames = s.frames := rfl
@[simp] theorem stallWord_mgmt (s : State) : (stallWord s).mgmt = s.mgmt := rfl
@[simp] theorem stallWord_iagar (s : State) : (stallWord s).iagar = s.iagar := rfl
@[simp] theorem stallWord_team? (s : State) (g1 i1 : Nat) : (stallWord s).team? g1 i1 = s.team? g1 i1 := rfl
@[simp] theorem stallWord_grid? (s : State) (g1 : Nat) : (stallWord s).grid? g1 = s.grid? g1 := rfl
@[simp] theorem stallWord_op? (s : State) (n1 : Nat) : (stallWord s).op? n1 = s.op? n1 := rfl
@[simp] theorem stallWord_req? (s : State) (n1 : Nat) : (stallWord s).req? n1 = s.req? n1 := rfl
@[simp] theorem stallWord_packet? (s : State) (n1 : Nat) : (stallWord s).packet? n1 = s.packet? n1 := rfl
@[simp] theorem stallWord_ctx (s : State) (c1 : Nat) : (stallWord s).ctx c1 = s.ctx c1 := rfl
@[simp] theorem stallWord_sq (s : State) (q1 : Nat) : (stallWord s).sq q1 = s.sq q1 := rfl
@[simp] theorem stallWord_memOf (s : State) (k1 : Nat) : (stallWord s).memOf k1 = s.memOf k1 := by rcases k1 with _ | _ | _ <;> rfl
@[simp] theorem stallWord_physByte (s : State) (k1 a1 : Nat) : (stallWord s).physByte k1 a1 = s.physByte k1 a1 := by rcases k1 with _ | _ | _ <;> rfl
@[simp] theorem stallWord_physBytes (s : State) (k1 a1 n1 : Nat) : (stallWord s).physBytes k1 a1 n1 = s.physBytes k1 a1 n1 := by rcases k1 with _ | _ | _ <;> rfl

/-! ## What an update writes -/

@[simp] theorem State.updMgmt_mgmt (s : State) (f : Mgmt → Mgmt) : (s.updMgmt f).mgmt = f s.mgmt := rfl
@[simp] theorem finishWord_cur (s : State) (e : Env) (t : Team) (kw : List KWrite) : (finishWord s e t kw).cur = none := rfl
@[simp] theorem finishWord_free (s : State) (e : Env) (t : Team) (kw : List KWrite) : (finishWord s e t kw).free = s.free + 1 := rfl
@[simp] theorem finishWord_nextId (s : State) (e : Env) (t : Team) (kw : List KWrite) : (finishWord s e t kw).nextId = s.nextId + 1 := rfl
@[simp] theorem stallWord_cur (s : State) : (stallWord s).cur = none := rfl
@[simp] theorem stallWord_free (s : State) : (stallWord s).free = s.free + 1 := rfl

end Sys2Proof.Machine
end

