-- ==== Sys2Proof/Laws/Words.lean ====
section
/-! SUPPORT. What the shared operations behind instruction words can do: lookups after updates, register checks of a free word, the
end of a word. -/

namespace Sys2Proof.Machine

/-! ## Lookups -/

theorem find_map_same {α : Type} (p : α → Bool) (g : α → α) (l : List α) (h : ∀ x, p (g x) = p x) :
    (l.map g).find? p = (l.find? p).map g := by
  induction l with
  | nil => rfl
  | cons a l ih =>
    simp only [List.map_cons, List.find?_cons, h]
    cases p a <;> simp [ih]

theorem team?_spec {s : State} {g i : Nat} {t : Team} (h : s.team? g i = some t) : t.grid = g ∧ t.index = i := by
  have := List.find?_some h
  simpa using this

theorem bundle?_spec {s : State} {n : Nat} {b : Bundle} (h : s.bundle? n = some b) : b.id = n := by
  have := List.find?_some h
  simpa using this

theorem thread?_spec {t : Team} {n : Nat} {x : Thread} (h : t.thread? n = some x) : x.tid = n := by
  have := List.find?_some h
  simpa using this

/-- What the environment of an issuing bundle is. -/
theorem env?_spec {s : State} {e : Env} (h : s.env? = some e) :
    s.cur = some e.b.id ∧ s.bundle? e.b.id = some e.b ∧ s.team? e.b.grid e.b.team = some e.t ∧ s.grid? e.b.grid = some e.g ∧
    e.c = s.ctx e.g.ctx := by
  unfold State.env? at h
  split at h
  · cases h
  · rename_i n hc
    split at h
    · cases h
    · rename_i b hb
      unfold State.envOf at h
      split at h
      · rename_i t g ht hg
        cases h
        have := bundle?_spec hb
        simp_all
      · cases h

theorem env?_team {s : State} {e : Env} (h : s.env? = some e) :
    s.team? e.t.grid e.t.index = some e.t ∧ e.t.grid = e.b.grid ∧ e.t.index = e.b.team := by
  have ht := (env?_spec h).2.2.1
  have := team?_spec ht
  simp_all

theorem mem_exec {e : Env} {g : Guard} {x : Thread} (h : x ∈ e.exec g) : e.t.thread? x.tid = some x ∧ x.tid ∈ e.b.members := by
  simp only [Env.exec, Env.threads, List.mem_filter, List.mem_filterMap] at h
  obtain ⟨⟨m, hm, hx⟩, -⟩ := h
  have := thread?_spec hx
  simp_all

/-- Looking a team up after a team has been replaced. -/
theorem setTeam_team? (s : State) (t : Team) (g i : Nat) :
    (s.setTeam t).team? g i = if g = t.grid ∧ i = t.index then (s.team? g i).map fun _ => t else s.team? g i := by
  unfold State.setTeam State.team?
  rw [find_map_same]
  · split
    · rename_i h
      cases hf : s.teams.find? fun x => x.grid == g && x.index == i with
      | none => rfl
      | some y =>
        have := List.find?_some hf
        simp_all
    · rename_i h
      cases hf : s.teams.find? fun x => x.grid == g && x.index == i with
      | none => rfl
      | some y =>
        have := List.find?_some hf
        simp only [Option.map_some, Option.some.injEq]
        simp only [Bool.and_eq_true, beq_iff_eq] at this
        rw [if_neg]
        simp only [Bool.and_eq_true, beq_iff_eq]
        rintro ⟨h1, h2⟩
        exact h ⟨this.1.symm.trans h1, this.2.symm.trans h2⟩
  · intro x
    split
    · rename_i h
      simp only [Bool.and_eq_true, beq_iff_eq] at h
      rw [h.1, h.2]
    · rfl

theorem updBundle_bundle? (s : State) (n b : Nat) (f : Bundle → Bundle) (hf : ∀ x, (f x).id = x.id) :
    (s.updBundle n f).bundle? b = if b = n then (s.bundle? b).map f else s.bundle? b := by
  unfold State.updBundle State.bundle?
  rw [find_map_same]
  · cases h : s.bundles.find? fun x => x.id == b with
    | none => simp
    | some y =>
      have := List.find?_some h
      simp only [beq_iff_eq] at this
      simp only [Option.map_some, this, beq_iff_eq]
      split <;> rfl
  · intro x
    split <;> simp [hf]

/-- Threads put into a team: those of the list at their number, the others as before. -/
theorem putThreads_thread? (t : Team) (l : List Thread) (n : Nat) :
    (t.putThreads l).thread? n = (t.thread? n).map fun x => (l.find? fun y => y.tid == n).getD x := by
  unfold Team.putThreads Team.thread?
  simp only
  rw [find_map_same]
  · cases h : t.threads.find? fun x => x.tid == n with
    | none => rfl
    | some x =>
      have := List.find?_some h
      simp_all
  · intro x
    cases h : l.find? fun y => y.tid == x.tid with
    | none => rfl
    | some y =>
      have := List.find?_some h
      simp_all

/-- Results put into their own threads. -/
theorem put_exec {e : Env} {g : Guard} (f : Thread → Thread) (hf : ∀ x ∈ e.exec g, (f x).tid = x.tid) :
    (∀ x ∈ e.exec g, (e.t.putThreads ((e.exec g).map f)).thread? x.tid = some (f x)) ∧
    (∀ n, (∀ x ∈ e.exec g, x.tid ≠ n) → (e.t.putThreads ((e.exec g).map f)).thread? n = e.t.thread? n) := by
  constructor
  · intro x hx
    rw [putThreads_thread?, (mem_exec hx).1]
    simp only [Option.map_some, Option.some.injEq]
    cases h : ((e.exec g).map f).find? fun y => y.tid == x.tid with
    | none =>
      have := List.find?_eq_none.mp h (f x) (List.mem_map_of_mem hx)
      simp [hf x hx] at this
    | some y =>
      have hy := List.find?_some h
      obtain ⟨z, hz, rfl⟩ := List.mem_map.mp (List.mem_of_find?_eq_some h)
      simp only [beq_iff_eq, hf z hz] at hy
      have := (mem_exec hz).1
      rw [hy, (mem_exec hx).1] at this
      cases this
      rfl
  · intro n hn
    rw [putThreads_thread?]
    have : ((e.exec g).map f).find? (fun y => y.tid == n) = none := by
      rw [List.find?_eq_none]
      intro y hy
      obtain ⟨z, hz, rfl⟩ := List.mem_map.mp hy
      simp [hf z hz, hn z hz]
    rw [this]
    cases e.t.thread? n <;> rfl

/-! ## Register checks -/

/-- A free word raises nothing at its registers and does not stall at its flag. -/
theorem regsFree_checks {e : Env} {f : Body} {u : Use} (h : RegsFree e f u) :
    regTraps e u (e.flag f.fl) (e.exec f.grd) = [] ∧ flagFull u (e.flag f.fl) (e.exec f.grd) = false := by
  obtain ⟨hp, hv, hl⟩ := h
  constructor
  · have h1 : (e.threads.filterMap fun x => (hazardOf u (e.flag f.fl) x).map fun t => (x.tid, t)) = [] := by
      rw [List.filterMap_eq_nil_iff]
      intro x hx
      have hx' := hp x hx
      have hr : u.reads.find? (fun n => (x.pend.get none n).isSome) = none := by
        rw [List.find?_eq_none]; intro r hr; simp [hx' r (List.mem_append_left _ hr)]
      have hw : u.writes.find? (fun n => (x.pend.get none n).isSome) = none := by
        rw [List.find?_eq_none]; intro r hr; simp [hx' r (List.mem_append_right _ hr)]
      unfold hazardOf
      simp only [hr, hw]
      by_cases hu : u.long = true
      · rcases (hl hu).1 with h0 | h0
        · simp [h0]
        · cases hfl : e.flag f.fl <;> simp_all
      · simp [hu]
    unfold regTraps
    rw [h1]
    simp only [List.filterMap_eq_nil_iff]
    intro x hx
    cases hd : u.drops with
    | true => simp [regPoison, hd]
    | false =>
      have : u.reads.any (fun r => x.vpoison.contains r) = false := by
        rw [List.any_eq_false]; intro r hr; simpa using hv hd x hx r hr
      simp [regPoison, this]
  · unfold flagFull
    split
    · rename_i n hn
      by_cases hu : u.long = true
      · simp only [hu, Bool.true_and, List.any_eq_false, decide_eq_true_eq]
        intro x hx
        have := (hl hu).2 n (by simp [hn]) x hx
        omega
      · simp [hu]
    · rfl

/-! ## The end of a word -/

/-- Every word that finishes hands its bundle on. -/
theorem finishWord_advanced {s s0 : State} {e : Env} (t : Team) (kw : List KWrite) (h : s0.env? = some e) (hb : s.bundle? e.b.id = s0.bundle? e.b.id) :
    Advanced (finishWord s e t kw) e := by
  have hs := (env?_spec h).2.1
  refine ⟨rfl, ?_⟩
  have hb' : (s.setTeam t).bundle? e.b.id = some e.b := by rw [← hs, ← hb]; rfl
  have := updBundle_bundle? (s.setTeam t) e.b.id e.b.id (fun b => { b with idx := b.idx + 1, kw := kw, missed := 0, overdue := false, yielded := (e.b.members.filterMap t.thread?).any (·.yielded), since := s.cc, issuedAt := s.cc + 1 }) (fun _ => rfl)
  simp only [if_true] at this
  show ((((s.setTeam t).updBundle e.b.id _).bundle? e.b.id).map (·.idx)) = _
  simp only [State.setTeam] at this hb' ⊢
  rw [this, hb']
  rfl

/-- The end of a short word over its executing threads. -/
theorem finish_short {s : State} {e : Env} {f : Body} (h : s.env? = some e) (g : Thread → Thread)
    (hg : ∀ x ∈ e.exec f.grd, (g x).tid = x.tid) (kw : List KWrite) :
    ShortEnd s (finishWord s e (e.t.putThreads ((e.exec f.grd).map g)) kw) e f g kw := by
  obtain ⟨hc, hb, ht, -, -⟩ := env?_spec h
  obtain ⟨ht', hg1, hg2⟩ := env?_team h
  have hput := put_exec (g := f.grd) g hg
  have hteam : ∀ a b, (finishWord s e (e.t.putThreads ((e.exec f.grd).map g)) kw).team? a b =
      if a = e.t.grid ∧ b = e.t.index then some (e.t.putThreads ((e.exec f.grd).map g)) else s.team? a b := by
    intro a b
    have := setTeam_team? s (e.t.putThreads ((e.exec f.grd).map g)) a b
    show (s.setTeam _).team? a b = _
    rw [this]
    show (if a = e.t.grid ∧ b = e.t.index then _ else _) = _
    split
    · rename_i hab
      rw [hab.1, hab.2, ht']; rfl
    · rfl
  refine ⟨rfl, rfl, ⟨rfl, fun kind a => ?_, fun a b hab => ?_, ⟨(e.t.putThreads ((e.exec f.grd).map g)).threads, ?_⟩, fun n hn => ?_, fun b hbn => ?_⟩, fun x hx => ?_, ?_⟩
  · rcases kind with _ | _ | _ <;> rfl
  · rw [hteam, if_neg]
    rintro ⟨rfl, rfl⟩
    exact hab rfl
  · rw [hteam, if_pos ⟨rfl, rfl⟩]
    rfl
  · unfold State.threadOf
    rw [hteam, if_pos ⟨rfl, rfl⟩]
    exact hput.2 n hn
  · have := updBundle_bundle? (s.setTeam (e.t.putThreads ((e.exec f.grd).map g))) e.b.id b (fun b => { b with idx := b.idx + 1, kw := kw, missed := 0, overdue := false, yielded := (e.b.members.filterMap (e.t.putThreads ((e.exec f.grd).map g)).thread?).any (·.yielded), since := s.cc, issuedAt := s.cc + 1 }) (fun _ => rfl)
    rw [if_neg hbn] at this
    exact this
  · unfold State.threadOf
    rw [hteam, if_pos ⟨rfl, rfl⟩]
    exact hput.1 x hx
  · have := updBundle_bundle? (s.setTeam (e.t.putThreads ((e.exec f.grd).map g))) e.b.id e.b.id (fun b => { b with idx := b.idx + 1, kw := kw, missed := 0, overdue := false, yielded := (e.b.members.filterMap (e.t.putThreads ((e.exec f.grd).map g)).thread?).any (·.yielded), since := s.cc, issuedAt := s.cc + 1 }) (fun _ => rfl)
    simp only [if_true] at this
    refine this.trans ?_
    have hlow : (finishWord s e (e.t.putThreads ((e.exec f.grd).map g)) kw).lowered e =
        (e.b.members.filterMap (e.t.putThreads ((e.exec f.grd).map g)).thread?).any (·.yielded) := by
      unfold State.lowered
      congr 2
      funext n
      unfold State.threadOf
      rw [hteam, if_pos ⟨rfl, rfl⟩]
    rw [hlow]
    show (s.bundle? e.b.id).map _ = _
    rw [hb]
    rfl

/-- Per-thread outcomes that are all results have no traps among them. -/
theorem splitOuts_ok (l : List Thread) (eff : Thread → Except Trap Out) (out : Thread → Out) (h : ∀ x ∈ l, eff x = .ok (out x)) :
    splitOuts (l.map fun x => (x.tid, eff x)) = ([], l.map out) := by
  induction l with
  | nil => rfl
  | cons a l ih =>
    have ha := h a (by simp)
    have hl := ih fun x hx => h x (by simp [hx])
    simp only [splitOuts, List.map_cons, Prod.mk.injEq] at hl ⊢
    simp [ha, hl.1, hl.2]

/-- Results without flags raise no FP_TRAP. -/
theorem fpTraps_nil (e : Env) (outs : List Out) (h : ∀ o ∈ outs, o.efl = 0) : fpTraps e outs = [] := by
  unfold fpTraps
  simp only
  rw [if_pos]
  simp only [Bool.not_eq_true', List.any_eq_false]
  intro o ho
  simp [h o ho]

/-- A per-thread short word that is free and raises nothing finishes with the results of its executing threads. -/
theorem regWord_short {s : State} {e : Env} {f : Body} {u : Use} {uni : Bool} {eff : Env → Thread → Except Trap Out}
    (h : Issues s e f u) (hl : u.long = false) (out : Thread → Out) (hok : ∀ x ∈ e.exec f.grd, eff e x = .ok (out x))
    (hefl : ∀ x ∈ e.exec f.grd, (out x).efl = 0) :
    regWord s f u uni eff = .next (finishWord s e (e.t.putThreads ((e.exec f.grd).map fun x => shortThread (resultIn f u).d (out x)))
      (kwAfter e (resultIn f u).d ((e.exec f.grd).map out))) := by
  obtain ⟨he, hf, -⟩ := h
  obtain ⟨h1, h2⟩ := regsFree_checks hf
  unfold regWord
  simp only [he, h1, h2, splitOuts_ok _ (eff e) out hok, commitOuts, hl, Bool.false_eq_true, if_false]
  rw [fpTraps_nil e _ (by simpa using hefl)]
  simp [Function.comp_def]

theorem putRegs_one (x : Thread) (n : Nat) (v : W64) : x.putRegs n [v] = x.write n v := by
  unfold Thread.putRegs Thread.write
  congr 1
  apply List.filter_congr
  intro r _
  rw [Bool.eq_iff_iff]
  simp <;> omega

theorem shortThread_deliver (d : Operand) (y : Thread) (v : W64) : shortThread d { th := y, vals := [v] } = y.deliver d v := by
  unfold shortThread Thread.deliver
  cases d <;> simp [putRegs_one]

/-- A free short word that gives every executing thread one value delivers it. -/
theorem regWord_delivers {i : Instr} {s : State} {e : Env} {f : Body} {u : Use} {uni : Bool} {eff : Env → Thread → Except Trap Out}
    (hi : exec i s = regWord s f u uni eff) (h : Issues s e f u) (hl : u.long = false) (hw : u.writes = regsOf f.d)
    (g : Thread → Thread) (val : Thread → W64) (hg : ∀ x ∈ e.exec f.grd, (g x).tid = x.tid)
    (hok : ∀ x ∈ e.exec f.grd, eff e x = .ok { th := g x, vals := [val x] }) : Delivers i s e f g val := by
  have hd : (resultIn f u).d = f.d := by
    unfold resultIn
    cases hd : f.d <;> simp [hw, hd, regsOf]
  refine ⟨_, hi.trans (regWord_short h hl (fun x => { th := g x, vals := [val x] }) hok fun _ _ => rfl), ?_⟩
  rw [hd]
  have hk : kwAfter e f.d ((e.exec f.grd).map fun x => { th := g x, vals := [val x] }) = kwGives e f val := by
    unfold kwAfter kwGives
    rw [List.getLast?_map]
    cases hd : f.d <;> cases hx : (e.exec f.grd).getLast? <;> simp only [Option.map_none, Option.map_some]
    rename_i x
    rw [hg x (List.mem_of_getLast? hx)]
  rw [hk]
  simp only [shortThread_deliver]
  exact finish_short h.1 _ (fun x hx => by
    have := hg x hx
    cases hd : f.d <;> simpa [Thread.deliver, Thread.write] using this) _

/-- A free short word without a result turns every executing thread. -/
theorem regWord_turns {i : Instr} {s : State} {e : Env} {f : Body} {u : Use} {uni : Bool} {eff : Env → Thread → Except Trap Out}
    (hi : exec i s = regWord s f u uni eff) (h : Issues s e f u) (hl : u.long = false) (hw : u.writes = [])
    (g : Thread → Thread) (hg : ∀ x ∈ e.exec f.grd, (g x).tid = x.tid)
    (hok : ∀ x ∈ e.exec f.grd, eff e x = .ok { th := g x }) : Turns i s e f g := by
  refine ⟨_, hi.trans (regWord_short h hl (fun x => { th := g x }) hok fun _ _ => rfl), ?_⟩
  have hk : kwAfter e (resultIn f u).d ((e.exec f.grd).map fun x => { th := g x }) = e.b.kw := by
    unfold kwAfter
    rw [List.getLast?_map]
    cases (resultIn f u).d <;> cases (e.exec f.grd).getLast? <;> rfl
  have hs : ∀ x, shortThread (resultIn f u).d { th := g x } = g x := by
    intro x
    unfold resultIn
    rw [hw]
    cases hd : f.d <;> simp [shortThread, hd]
  rw [hk]
  simp only [hs]
  exact finish_short h.1 g hg _

end Sys2Proof.Machine
end

