-- ==== Sys2Proof/Laws/Map.lean ====
section
/-! SUPPORT. Sparse maps: reading after a write, and that a write keeps the canonical form. -/

namespace Sys2Proof.SMap

/-- A map whose keys all lie at `lo` or above also has them above any lower bound. -/
theorem wfFrom_mono {α : Type} [DecidableEq α] {d : α} {m : SMap α} {lo lo' : Nat} (h : wfFrom d lo m = true) (hl : lo' ≤ lo) :
    wfFrom d lo' m = true := by
  cases m with
  | nil => rfl
  | cons p r =>
    simp only [wfFrom, Bool.and_eq_true, decide_eq_true_eq] at h ⊢
    exact ⟨⟨by omega, h.1.2⟩, h.2⟩

/-- Below its first key a map holds the default. -/
theorem get_below {α : Type} [DecidableEq α] {d : α} {m : SMap α} {lo k : Nat} (h : wfFrom d lo m = true) (hk : k < lo) :
    get d m k = d := by
  cases m with
  | nil => rfl
  | cons p r =>
    simp only [wfFrom, Bool.and_eq_true, decide_eq_true_eq] at h
    simp only [get]
    rw [if_pos (by omega)]

/-- Reading a key after a write of one in a map in canonical form. -/
theorem get_set_from {α : Type} [DecidableEq α] {d : α} {m : SMap α} {lo : Nat} (h : wfFrom d lo m = true) (k j : Nat) (x : α) :
    get d (set d m k x) j = if j = k then x else get d m j := by
  induction m generalizing lo with
  | nil =>
    simp only [set, get]
    split
    · rename_i hx; subst hx; simp [get]
    · simp only [get]
      split
      · rw [if_neg (by omega)]
      · rfl
  | cons p r ih =>
    obtain ⟨a, y⟩ := p
    simp only [wfFrom, Bool.and_eq_true, decide_eq_true_eq] at h
    obtain ⟨⟨-, hy⟩, hr⟩ := h
    simp only [set]
    split
    · rename_i hka
      split
      · rename_i hx
        split
        · rename_i hj
          subst hj
          simp only [get]
          rw [if_pos hka, hx]
        · rfl
      · simp only [get]
        by_cases hj : j = k
        · simp [hj]
        · by_cases hlt : j < k
          · simp [hj, hlt, show j < a by omega]
          · simp [hj, hlt]
    · split
      · rename_i hka
        subst hka
        split
        · rename_i hx
          split
          · rename_i hj
            subst hj
            rw [get_below hr (by omega), hx]
          · rename_i hj
            simp only [get]
            split
            · exact get_below hr (by omega)
            · rfl
        · simp only [get]
          by_cases hj : j = k
          · simp [hj]
          · simp [hj]
      · simp only [get]
        rw [ih hr]
        split
        · rw [if_neg (by omega)]
        · split
          · rw [if_neg (by omega)]
          · rfl

/-- A write keeps the canonical form, from any bound that the written key meets. -/
theorem wfFrom_set {α : Type} [DecidableEq α] {d : α} {m : SMap α} {lo : Nat} (h : wfFrom d lo m = true) {k : Nat} (hk : lo ≤ k) (x : α) :
    wfFrom d lo (set d m k x) = true := by
  induction m generalizing lo with
  | nil =>
    simp only [set]
    split
    · rfl
    · simp_all [wfFrom]
  | cons p r ih =>
    obtain ⟨a, y⟩ := p
    have h' := h
    simp only [wfFrom, Bool.and_eq_true, decide_eq_true_eq] at h
    obtain ⟨⟨hlo, hy⟩, hr⟩ := h
    simp only [set]
    split
    · rename_i hka
      split
      · exact h'
      · rename_i hx
        simp only [wfFrom, Bool.and_eq_true, decide_eq_true_eq]
        exact ⟨⟨hk, hx⟩, ⟨by omega, hy⟩, hr⟩
    · split
      · split
        · exact wfFrom_mono hr (by omega)
        · rename_i hx
          simp only [wfFrom, Bool.and_eq_true, decide_eq_true_eq]
          exact ⟨⟨hlo, hx⟩, hr⟩
      · simp only [wfFrom, Bool.and_eq_true, decide_eq_true_eq]
        exact ⟨⟨hlo, hy⟩, ih hr (by omega)⟩

theorem wf_nil {α : Type} [DecidableEq α] (d : α) : wf d [] = true := rfl

theorem wf_set {α : Type} [DecidableEq α] {d : α} {m : SMap α} (h : wf d m = true) (k : Nat) (x : α) : wf d (set d m k x) = true :=
  wfFrom_set h (Nat.zero_le k) x

theorem get_set {α : Type} [DecidableEq α] {d : α} {m : SMap α} (h : wf d m = true) (k j : Nat) (x : α) :
    get d (set d m k x) j = if j = k then x else get d m j :=
  get_set_from h k j x

theorem get_set_same {α : Type} [DecidableEq α] {d : α} {m : SMap α} (h : wf d m = true) (k : Nat) (x : α) : get d (set d m k x) k = x := by
  rw [get_set h, if_pos rfl]

theorem get_set_other {α : Type} [DecidableEq α] {d : α} {m : SMap α} (h : wf d m = true) {k j : Nat} (x : α) (hj : j ≠ k) :
    get d (set d m k x) j = get d m j := by
  rw [get_set h, if_neg hj]

/-- Writing the value that already stands leaves a map in canonical form as it is. -/
theorem set_get_from {α : Type} [DecidableEq α] {d : α} {m : SMap α} {lo : Nat} (h : wfFrom d lo m = true) (k : Nat) :
    set d m k (get d m k) = m := by
  induction m generalizing lo with
  | nil => simp [set, get]
  | cons p r ih =>
    obtain ⟨a, y⟩ := p
    simp only [wfFrom, Bool.and_eq_true, decide_eq_true_eq] at h
    obtain ⟨⟨-, hy⟩, hr⟩ := h
    simp only [set, get]
    split
    · simp
    · split
      · simp_all
      · rw [ih hr]

/-- Two maps in canonical form that read alike are the same map. -/
theorem ext_from {α : Type} [DecidableEq α] {d : α} {m n : SMap α} {lo : Nat} (hm : wfFrom d lo m = true) (hn : wfFrom d lo n = true)
    (h : ∀ k, get d m k = get d n k) : m = n := by
  induction m generalizing n lo with
  | nil =>
    cases n with
    | nil => rfl
    | cons q r =>
      obtain ⟨b, z⟩ := q
      simp only [wfFrom, Bool.and_eq_true, decide_eq_true_eq] at hn
      have := h b
      simp [get] at this
      exact absurd this.symm hn.1.2
  | cons p m ih =>
    obtain ⟨a, y⟩ := p
    have hm' := hm
    simp only [wfFrom, Bool.and_eq_true, decide_eq_true_eq] at hm
    cases n with
    | nil =>
      have := h a
      simp [get] at this
      exact absurd this hm.1.2
    | cons q r =>
      obtain ⟨b, z⟩ := q
      have hn' := hn
      simp only [wfFrom, Bool.and_eq_true, decide_eq_true_eq] at hn
      have hab : a = b := by
        rcases Nat.lt_trichotomy a b with hlt | heq | hgt
        · have := h a
          simp only [get] at this
          rw [if_neg (by omega), if_pos trivial, if_pos hlt] at this
          exact absurd this hm.1.2
        · exact heq
        · have := h b
          simp only [get] at this
          rw [if_pos hgt, if_neg (by omega), if_pos trivial] at this
          exact absurd this.symm hn.1.2
      subst hab
      have hyz : y = z := by
        have := h a
        simpa [get] using this
      subst hyz
      rw [ih hm.2 hn.2]
      intro k
      by_cases hk : k < a + 1
      · rw [get_below hm.2 hk, get_below hn.2 hk]
      · have := h k
        simp only [get] at this
        rwa [if_neg (by omega), if_neg (by omega), if_neg (by omega), if_neg (by omega)] at this

theorem ext {α : Type} [DecidableEq α] {d : α} {m n : SMap α} (hm : wf d m = true) (hn : wf d n = true) (h : ∀ k, get d m k = get d n k) :
    m = n :=
  ext_from hm hn h

/-- Writing consecutive values: the new values at their keys, the others as before, in canonical form. -/
theorem foldl_set {α : Type} [DecidableEq α] {d : α} {m : SMap α} (h : wf d m = true) (a : Nat) (xs : List α) (i0 : Nat) :
    let n := ((List.range' i0 xs.length).zip xs).foldl (fun m p => set d m (a + p.1) p.2) m
    wf d n = true ∧ ∀ k, get d n k = if a + i0 ≤ k ∧ k < a + i0 + xs.length then xs.getD (k - (a + i0)) d else get d m k := by
  induction xs generalizing m i0 with
  | nil => exact ⟨h, fun k => by simp <;> omega⟩
  | cons x xs ih =>
    simp only [List.length_cons, List.range'_succ, List.zip_cons_cons, List.foldl_cons]
    obtain ⟨h1, h2⟩ := ih (wf_set h (a + i0) x) (i0 + 1)
    refine ⟨h1, fun k => ?_⟩
    rw [h2, get_set h]
    by_cases hk : k = a + i0
    · subst hk
      rw [if_neg (by omega), if_pos rfl, if_pos (by omega)]
      simp
    · rw [if_neg hk]
      by_cases hr : a + i0 ≤ k ∧ k < a + i0 + (xs.length + 1)
      · rw [if_pos (by omega), if_pos hr]
        obtain ⟨j, rfl⟩ : ∃ j, k = a + i0 + (j + 1) := ⟨k - (a + i0) - 1, by omega⟩
        rw [show a + i0 + (j + 1) - (a + (i0 + 1)) = j by omega, show a + i0 + (j + 1) - (a + i0) = j + 1 by omega]
        rfl
      · rw [if_neg (by omega), if_neg hr]

end Sys2Proof.SMap
end

