-- ==== Sys2Proof/Laws/Memory.lean ====
section
/-! SUPPORT. Physical memory and the scratchpad: what a write leaves, and that memory keeps its canonical form. -/

namespace Sys2Proof.Machine

theorem memWf_iff (s : State) : s.memWf = true ↔ SMap.wf 0 s.mem = true ∧ SMap.wf 0 s.hostMem = true ∧ SMap.wf 0 s.peerMem = true := by
  simp [State.memWf, and_assoc]

theorem memWf_memOf {s : State} (h : s.memWf = true) (k : Nat) : SMap.wf 0 (s.memOf k) = true := by
  rw [memWf_iff] at h
  rcases k with _ | _ | _ <;> simp_all [State.memOf]

/-- Canonical form depends on the three memories alone. -/
theorem memWf_of_eq {s t : State} (hs : s.memWf = true) (h0 : t.mem = s.mem) (h1 : t.hostMem = s.hostMem) (h2 : t.peerMem = s.peerMem) :
    t.memWf = true := by
  simpa [State.memWf, h0, h1, h2] using hs

theorem setPhysByte_memWf {s : State} (h : s.memWf = true) (k a : Nat) (b : Byte) : (s.setPhysByte k a b).memWf = true := by
  rw [memWf_iff] at h ⊢
  obtain ⟨h0, h1, h2⟩ := h
  rcases k with _ | _ | k
  · exact ⟨SMap.wf_set h0 a b, h1, h2⟩
  · exact ⟨h0, SMap.wf_set h1 a b, h2⟩
  · exact ⟨h0, h1, SMap.wf_set h2 a b⟩

/-- Reading a byte after one byte has been written. Every kind from 2 on is the peer's memory. -/
theorem setPhysByte_physByte {s : State} (h : s.memWf = true) (k a : Nat) (b : Byte) (m c : Nat) :
    (s.setPhysByte k a b).physByte m c = if min m 2 = min k 2 ∧ c = a then b else s.physByte m c := by
  rw [memWf_iff] at h
  obtain ⟨h0, h1, h2⟩ := h
  rcases k with _ | _ | k <;> rcases m with _ | _ | m <;> try (rw [if_neg (by omega)]; rfl)
  · refine (SMap.get_set h0 a c b).trans ?_
    simp only [true_and]
    rfl
  · refine (SMap.get_set h1 a c b).trans ?_
    simp only [true_and]
    rfl
  · refine (SMap.get_set h2 a c b).trans ?_
    by_cases hc : c = a
    · rw [if_pos hc, if_pos ⟨by omega, hc⟩]
    · rw [if_neg hc, if_neg fun h => hc h.2]
      rfl

/-- A write of bytes changes the memories and the poison of device sectors alone. -/
theorem setPhysByte_rest (s : State) (k a : Nat) (b : Byte) :
    s.setPhysByte k a b =
      { s with mem := (s.setPhysByte k a b).mem, hostMem := (s.setPhysByte k a b).hostMem, peerMem := (s.setPhysByte k a b).peerMem } := by
  rcases k with _ | _ | k <;> rfl

theorem foldBytes_spec {s : State} (h : s.memWf = true) (k a : Nat) (bs : List Byte) (i0 : Nat) :
    let t := ((List.range' i0 bs.length).zip bs).foldl (fun s p => s.setPhysByte k (a + p.1) p.2) s
    t.memWf = true ∧ ∀ m c, t.physByte m c =
      if min m 2 = min k 2 ∧ a + i0 ≤ c ∧ c < a + i0 + bs.length then bs.getD (c - (a + i0)) 0 else s.physByte m c := by
  induction bs generalizing s i0 with
  | nil => exact ⟨h, fun m c => by simp <;> omega⟩
  | cons b bs ih =>
    simp only [List.length_cons, List.range'_succ, List.zip_cons_cons, List.foldl_cons]
    obtain ⟨h1, h2⟩ := ih (setPhysByte_memWf h k (a + i0) b) (i0 + 1)
    refine ⟨h1, fun m c => ?_⟩
    rw [h2, setPhysByte_physByte h]
    by_cases hm : min m 2 = min k 2
    · simp only [hm, true_and]
      by_cases hc : c = a + i0
      · subst hc
        rw [if_neg (by omega), if_pos rfl, if_pos (by omega)]
        simp
      · rw [if_neg hc]
        by_cases hr : a + i0 ≤ c ∧ c < a + i0 + (bs.length + 1)
        · rw [if_pos (by omega), if_pos hr]
          obtain ⟨j, rfl⟩ : ∃ j, c = a + i0 + (j + 1) := ⟨c - (a + i0) - 1, by omega⟩
          rw [show a + i0 + (j + 1) - (a + (i0 + 1)) = j by omega, show a + i0 + (j + 1) - (a + i0) = j + 1 by omega]
          rfl
        · rw [if_neg (by omega), if_neg hr]
    · simp [hm]

theorem foldBytes_rest (s : State) (k a : Nat) (l : List (Nat × Byte)) :
    let t := l.foldl (fun s p => s.setPhysByte k (a + p.1) p.2) s
    t = { s with mem := t.mem, hostMem := t.hostMem, peerMem := t.peerMem } := by
  induction l generalizing s with
  | nil => rfl
  | cons p l ih =>
    simp only [List.foldl_cons]
    have h1 := ih (s.setPhysByte k (a + p.1) p.2)
    have h2 := setPhysByte_rest s k (a + p.1) p.2
    simp only at h1
    rw [h2] at h1 ⊢
    exact h1

theorem setPhysBytes_memWf {s : State} (h : s.memWf = true) (k a : Nat) (bs : List Byte) : (s.setPhysBytes k a bs).memWf = true := by
  have := (foldBytes_spec h k a bs 0).1
  unfold State.setPhysBytes
  rw [← List.range_eq_range'] at this
  simp only
  split
  · exact memWf_of_eq this rfl rfl rfl
  · exact this

theorem setPhysBytes_physByte {s : State} (h : s.memWf = true) (k a : Nat) (bs : List Byte) (m c : Nat) :
    (s.setPhysBytes k a bs).physByte m c =
      if min m 2 = min k 2 ∧ a ≤ c ∧ c < a + bs.length then bs.getD (c - a) 0 else s.physByte m c := by
  have := (foldBytes_spec h k a bs 0).2 m c
  unfold State.setPhysBytes
  rw [← List.range_eq_range'] at this
  simp only [Nat.add_zero] at this
  simp only
  rw [← this]
  split
  · rcases m with _ | _ | m <;> rfl
  · rfl

theorem setPhysBytes_rest (s : State) (k a : Nat) (bs : List Byte) :
    let t := s.setPhysBytes k a bs
    t = { s with mem := t.mem, hostMem := t.hostMem, peerMem := t.peerMem, poison := t.poison } := by
  have := foldBytes_rest s k a ((List.range bs.length).zip bs)
  simp only at this
  unfold State.setPhysBytes
  simp only
  split
  · rw [this]
  · rw [this]

/-! ## Scratchpad -/

theorem setSpad_wf {t : Team} (h : SMap.wf 0 t.spad = true) (o : Nat) (bs : List Byte) : SMap.wf 0 (t.setSpad o bs).spad = true := by
  have := (SMap.foldl_set h o bs 0).1
  rwa [← List.range_eq_range'] at this

/-- Reading a byte of the scratchpad after bytes have been written. -/
theorem setSpad_get {t : Team} (h : SMap.wf 0 t.spad = true) (o : Nat) (bs : List Byte) (c : Nat) :
    (t.setSpad o bs).spad.get 0 c = if o ≤ c ∧ c < o + bs.length then bs.getD (c - o) 0 else t.spad.get 0 c := by
  have := (SMap.foldl_set h o bs 0).2 c
  rw [← List.range_eq_range'] at this
  simp only [Nat.add_zero] at this
  exact this

theorem setSpad_rest (t : Team) (o : Nat) (bs : List Byte) :
    t.setSpad o bs = { t with spad := (t.setSpad o bs).spad, spadPoison := (t.setSpad o bs).spadPoison } := rfl

/-! ## Reset and clearing -/

/-- Nothing is listed in memory after reset or power-down of the device. -/
theorem reset_mem : State.reset.mem = [] ∧ State.reset.hostMem = [] ∧ State.reset.peerMem = [] := ⟨rfl, rfl, rfl⟩

end Sys2Proof.Machine
end

