-- ==== Sys2Proof/Laws/Work.lean ====
section
/-! SUPPORT. What memory work can do. Requests performing, drains, fences and moves of regions act on memory, queues and operations
alone: `Work s t` says so once, with the canonical form of memory kept. -/

namespace Sys2Proof.Machine

/-- An operation without what memory work fills in. -/
def Op.still (o : Op) : Op := { o with wait := .ready, dst := [], poison := none, popq := none, via := none }

/-- A thread without its fences. -/
def Thread.still (x : Thread) : Thread := { x with fences := [] }

/-- A team without its queues, scratchpad bytes and the stores it has seen. -/
def Team.still (t : Team) : Team :=
  { t with queues := [], spad := [], spadPoison := [], seen := [], threads := t.threads.map Thread.still }

/-- The state without what memory work may change. -/
def State.still (s : State) : State :=
  { s with teams := s.teams.map Team.still, ops := s.ops.map Op.still, reqs := [], mem := [], hostMem := [], peerMem := []
           poison := [], l1 := [], regions := [], regionCache := [], locks := [], hints := [], press := []
           counters := [], ctxs := [], posted := [], nextId := 0, packets := [], tlb := [], mgmt := { s.mgmt with telemetry := [] } }

/-- `t` follows from `s` by memory work. -/
structure Work (s t : State) : Prop where
  still : t.still = s.still
  memWf : s.memWf = true → t.memWf = true

namespace Work

theorem refl (s : State) : Work s s := ⟨rfl, id⟩

theorem trans {s t u : State} (h : Work s t) (h' : Work t u) : Work s u := ⟨h'.still.trans h.still, h'.memWf ∘ h.memWf⟩

theorem after {s t u : State} (h' : Work t u) (h : Work s t) : Work s u := h.trans h'

/-- A change that touches no memory. -/
theorem of_same {s t : State} (h : t.still = s.still) (h0 : t.mem = s.mem) (h1 : t.hostMem = s.hostMem) (h2 : t.peerMem = s.peerMem) :
    Work s t :=
  ⟨h, fun hs => memWf_of_eq hs h0 h1 h2⟩

/-- Work done again and again. -/
theorem foldl {α : Type} (f : State → α → State) (hf : ∀ s a, Work s (f s a)) (l : List α) (s : State) : Work s (l.foldl f s) := by
  induction l generalizing s with
  | nil => exact refl s
  | cons a l ih => exact (hf s a).trans (ih (f s a))

variable {s t : State} (h : Work s t)
include h

/-! ## What stays -/

theorem bundles : t.bundles = s.bundles := by have := congrArg State.bundles h.still; exact this
theorem grids : t.grids = s.grids := by have := congrArg State.grids h.still; exact this
theorem cur : t.cur = s.cur := by have := congrArg State.cur h.still; exact this
theorem cc : t.cc = s.cc := by have := congrArg State.cc h.still; exact this
theorem fc : t.fc = s.fc := by have := congrArg State.fc h.still; exact this
theorem agenda : t.agenda = s.agenda := by have := congrArg State.agenda h.still; exact this
theorem free : t.free = s.free := by have := congrArg State.free h.still; exact this
theorem faults : t.faults = s.faults := by have := congrArg State.faults h.still; exact this
theorem scribes : t.scribes = s.scribes := by have := congrArg State.scribes h.still; exact this
theorem sqs : t.sqs = s.sqs := by have := congrArg State.sqs h.still; exact this
theorem graphs : t.graphs = s.graphs := by have := congrArg State.graphs h.still; exact this
theorem saves : t.saves = s.saves := by have := congrArg State.saves h.still; exact this
theorem streams : t.streams = s.streams := by have := congrArg State.streams h.still; exact this
theorem msix : t.msix = s.msix := by have := congrArg State.msix h.still; exact this
theorem seq : t.seq = s.seq := by have := congrArg State.seq h.still; exact this
theorem iagar : t.iagar = s.iagar := by have := congrArg State.iagar h.still; exact this
theorem sfuUntil : t.sfuUntil = s.sfuUntil := by have := congrArg State.sfuUntil h.still; exact this
theorem issued : t.issued = s.issued := by have := congrArg State.issued h.still; exact this
theorem quadIssued : t.quadIssued = s.quadIssued := by have := congrArg State.quadIssued h.still; exact this

theorem bundle? (b : Nat) : t.bundle? b = s.bundle? b := by unfold State.bundle?; rw [h.bundles]
theorem grid? (g : Nat) : t.grid? g = s.grid? g := by unfold State.grid?; rw [h.grids]

/-- The management registers stay, but for the telemetry counters. -/
theorem mgmt : t.mgmt = { s.mgmt with telemetry := t.mgmt.telemetry } := by
  have : { t.mgmt with telemetry := [] } = { s.mgmt with telemetry := [] } := by have := congrArg State.mgmt h.still; exact this
  calc t.mgmt = { ({ t.mgmt with telemetry := [] } : Mgmt) with telemetry := t.mgmt.telemetry } := rfl
    _ = _ := by rw [this]

theorem teams : t.teams.map Team.still = s.teams.map Team.still := by have := congrArg State.teams h.still; exact this
theorem ops : t.ops.map Op.still = s.ops.map Op.still := by have := congrArg State.ops h.still; exact this

omit h in
theorem find_still (l : List Team) (g i : Nat) :
    ((l.map Team.still).find? fun x => x.grid == g && x.index == i) = (l.find? fun x => x.grid == g && x.index == i).map Team.still := by
  induction l with
  | nil => rfl
  | cons a l ih =>
    simp only [List.map_cons, List.find?_cons]
    rw [ih]
    show (match a.grid == g && a.index == i with | true => _ | false => _) = _
    cases a.grid == g && a.index == i <;> rfl

/-- A team stays what it was but for its queues, scratchpad bytes, and the fences of its threads. -/
theorem team? (g i : Nat) : (t.team? g i).map Team.still = (s.team? g i).map Team.still := by
  unfold State.team?
  rw [← find_still, ← find_still, h.teams]

theorem team?_isSome (g i : Nat) : (t.team? g i).isSome = (s.team? g i).isSome := by
  have := congrArg Option.isSome (h.team? g i)
  simpa using this

end Work

/-! ## Updates -/

/-- A step that may or may not be taken. -/
theorem ite_work (p : Prop) [Decidable p] {s t u : State} (ht : Work s t) (hu : Work s u) : Work s (if p then t else u) := by
  split
  · exact ht
  · exact hu

theorem map_still {α β : Type} (st : α → β) (p : α → Bool) (f : α → α) (hf : ∀ x, st (f x) = st x) (l : List α) :
    (l.map fun x => if p x then f x else x).map st = l.map st := by
  rw [List.map_map]
  apply List.map_congr_left
  intro x _
  simp only [Function.comp]
  split
  · exact hf x
  · rfl

theorem updTeam_work (s : State) (g i : Nat) (f : Team → Team) (hf : ∀ x, (f x).still = x.still) : Work s (s.updTeam g i f) := by
  refine .of_same ?_ rfl rfl rfl
  unfold State.still
  have := map_still Team.still (fun x => x.grid == g && x.index == i) f hf s.teams
  simp only [State.updTeam]
  rw [this]

theorem updOp_work (s : State) (n : Nat) (f : Op → Op) (hf : ∀ x, (f x).still = x.still) : Work s (s.updOp n f) := by
  refine .of_same ?_ rfl rfl rfl
  unfold State.still
  have := map_still Op.still (fun x => x.id == n) f hf s.ops
  simp only [State.updOp]
  rw [this]

theorem setPhysByte_work (s : State) (k a : Nat) (b : Byte) : Work s (s.setPhysByte k a b) :=
  ⟨by rw [setPhysByte_rest]; rfl, fun h => setPhysByte_memWf h k a b⟩

theorem setPhysBytes_work (s : State) (k a : Nat) (bs : List Byte) : Work s (s.setPhysBytes k a bs) :=
  ⟨by rw [setPhysBytes_rest]; rfl, fun h => setPhysBytes_memWf h k a bs⟩

theorem setSegBytes_work (s : State) (segs : List (Nat × Nat × Nat)) (bs : List Byte) : Work s (setSegBytes s segs bs) := by
  induction segs generalizing s bs with
  | nil => exact .refl s
  | cons p r ih => exact (setPhysBytes_work s p.1 p.2.1 (bs.take p.2.2)).trans (ih _ _)

theorem countTelemetry_work (s : State) (o n : Nat) : Work s (countTelemetry s o n) := .of_same rfl rfl rfl rfl

theorem updQueue_still (t : Team) (q : Nat) (f : Queue → Queue) : (t.updQueue q f).still = t.still := rfl

theorem setSpad_still (t : Team) (o : Nat) (bs : List Byte) : (t.setSpad o bs).still = t.still := rfl

theorem updThread_still (t : Team) (n : Nat) (f : Thread → Thread) (hf : ∀ x, (f x).still = x.still) : (t.updThread n f).still = t.still := by
  unfold Team.still Team.updThread
  simp only
  rw [map_still Thread.still (fun x => x.tid == n) f hf]

/-! ## Dirty marks and requests -/

theorem dirtyPage_work (s : State) (c va : Nat) : Work s (dirtyPage s c va) := by
  unfold dirtyPage
  split
  · exact .of_same rfl rfl rfl rfl
  · exact setPhysByte_work ..

theorem markDirty_work (s : State) (c va n : Nat) : Work s (markDirty s c va n) := by
  unfold markDirty
  split
  · exact .refl s
  · exact .foldl _ (fun _ _ => dirtyPage_work ..) _ s

theorem markWrite_work (s : State) (r : Req) : Work s (markWrite s r) := by
  unfold markWrite
  split
  · exact markDirty_work ..
  · exact .refl s

/-! ## Answers -/

theorem sendNew_work (s : State) (p : Packet) : Work s (sendNew s p) := .of_same rfl rfl rfl rfl

theorem sendAll_work (s : State) (l : List Packet) : Work s (sendAll s l) := .foldl _ (fun _ _ => sendNew_work ..) _ s

theorem answer_work (s : State) (p : Packet) : Work s (answer s p) := .of_same rfl rfl rfl rfl

theorem answerReq_work (s : State) (n : Nat) : Work s (answerReq s n) := by
  exact .foldl _ (fun _ _ => (answer_work ..).trans (sendAll_work ..)) _ s

theorem sendReq_work (s : State) (r : Req) (l : List (Nat × Nat × Nat)) : Work s (sendReq s r l) :=
  ite_work _ (.refl s) (.after (sendAll_work ..) (.of_same rfl rfl rfl rfl))

theorem sendTraffic_work (s : State) (src sep : Nat) (w : Bool) (l : List (Nat × Nat × Nat)) : Work s (sendTraffic s src sep w l) :=
  sendAll_work ..

theorem ioTraffic_work (s : State) (io : Nat) (w : Bool) (n : Nat) (g : Nat × Nat × Nat) : Work s (ioTraffic s io w n g) := sendTraffic_work ..

theorem dropReq_work (s : State) (r : Req) : Work s (dropReq s r) := by
  unfold dropReq
  simp only
  refine .trans (t := answerReq { s with reqs := s.reqs.filter fun x => x.id != r.id } r.id)
    (.after (answerReq_work ..) (.of_same rfl rfl rfl rfl)) ?_
  generalize answerReq { s with reqs := s.reqs.filter fun x => x.id != r.id } r.id = s
  cases r.op with
  | none =>
    simp only
    split
    · exact updTeam_work _ _ _ _ fun x => updQueue_still ..
    · exact .refl _
  | some o =>
    refine .trans (updOp_work _ o (fun o => if o.wait == .req then { o with wait := .ready } else o) fun x => ?_) ?_
    · split <;> rfl
    · simp only
      split
      · exact updTeam_work _ _ _ _ fun x => updQueue_still ..
      · exact .refl _

theorem firstTouch_work (s : State) (reg n : Nat) : Work s (firstTouch s reg n) := .of_same rfl rfl rfl rfl

theorem sliceTouch_work (s : State) (n : Nat) (l : List (Nat × Nat × Nat)) : Work s (sliceTouch s n l) :=
  .foldl _ (fun s _ => ite_work _ (firstTouch_work ..) (.refl s)) _ s

theorem writeUnits_work (s : State) (n c : Nat) (u : List Nat) (bs : List Byte) : Work s (writeUnits s n c u bs) :=
  (sliceTouch_work ..).trans (setSegBytes_work ..)

theorem writeCounter_work (s : State) (n : Nat) (c : Counter) : Work s (writeCounter s n c) := ite_work _ (writeUnits_work ..) (.refl s)

theorem bumpSeq_work (s : State) (g st b : Nat) : Work s (bumpSeq s g st b) := by
  unfold bumpSeq
  simp only
  split <;> exact .after (writeCounter_work ..) (.of_same rfl rfl rfl rfl)

theorem applyAtomic_work (s : State) (g va : Nat) (segs : List (Nat × Nat × Nat)) (op n x cmp : Nat) (fmt : W64) :
    Work s (applyAtomic s g va segs op n x cmp fmt).1 :=
  (setSegBytes_work ..).trans (.foldl _ (fun _ _ => bumpSeq_work ..) _ _)

theorem raiseHint_work (s : State) (h : Nat) (segs : List (Nat × Nat × Nat)) : Work s (raiseHint s h segs) := .of_same rfl rfl rfl rfl
theorem setL1_work (s : State) (x : L1Word) : Work s (s.setL1 x) := .of_same rfl rfl rfl rfl
theorem markStale_work (s : State) (c : Nat) : Work s (markStale s c) := .of_same rfl rfl rfl rfl
theorem meetPosted_work (s : State) (c : Nat) (segs : List (Nat × Nat × Nat)) : Work s (meetPosted s c segs) :=
  ite_work _ (markStale_work ..) (.refl s)
theorem dropL1_work (s : State) (c : Nat) (ws : List Nat) : Work s (dropL1 s c ws) := .of_same rfl rfl rfl rfl

theorem performRed_work (s : State) (r : Req) : Work s (performRed s r) := by
  unfold performRed
  split
  · simp only
    generalize hd : dropL1 s r.core _ = s0
    have h0 : Work s s0 := by rw [← hd]; exact dropL1_work ..
    generalize hh : raiseHint s0 r.hint r.segs = s1
    have h1 : Work s s1 := by rw [← hh]; exact h0.trans (raiseHint_work ..)
    generalize ha : (if (segPoison s1 r.segs != 0) = true then s1 else _) = s2
    have h2 : Work s s2 := by rw [← ha]; exact ite_work _ h1 (h1.trans (applyAtomic_work ..))
    have h3 := h2.trans ((markWrite_work s2 r).trans (dropReq_work _ r))
    exact ite_work _ (h3.trans (markStale_work ..)) h3
  · exact .refl s

theorem recallLines_work (s : State) (l : List Nat) : Work s (recallLines s l) :=
  .foldl _ (fun _ _ => (sendReq_work ..).trans (performRed_work ..)) _ _

theorem bringL1_work (s : State) (c : Nat) (ws : List Nat) : Work s (bringL1 s c ws) := by
  unfold bringL1
  simp only
  exact (ite_work _ (markStale_work ..) (.refl s)).trans (.foldl _ (fun _ _ => setL1_work ..) _ _)

theorem fillL1_work (s : State) (c w n : Nat) : Work s (fillL1 s c w n) := bringL1_work ..

theorem readWord_work (s : State) (c i w : Nat) : Work s (readWord s c i w).1 := by
  unfold readWord
  simp only
  split
  · split
    · exact .refl s
    · exact fillL1_work ..
  · exact fillL1_work ..

theorem readSegs_work (s : State) (c : Nat) (segs : List (Nat × Nat × Nat)) : Work s (readSegs s c segs).1 := by
  unfold readSegs
  simp only
  generalize (List.range (segWords segs).length).zip (segWords segs) = l
  suffices h : ∀ (l : List (Nat × Nat)) (acc : State × List (Nat × List Byte)), Work s acc.1 →
      Work s (l.foldl (fun (acc : State × List (Nat × List Byte)) iw =>
        let q := readWord acc.1 c iw.1 iw.2
        (q.1, (iw.2, q.2) :: acc.2)) acc).1 from h l _ (.refl s)
  intro l
  induction l with
  | nil => exact fun _ h => h
  | cons p l ih => exact fun acc h => ih _ (h.trans (readWord_work ..))

theorem storeL1_work (s : State) (c : Nat) (segs : List (Nat × Nat × Nat)) (d m : List Byte) : Work s (storeL1 s c segs d m) := by
  unfold storeL1
  simp only
  refine .foldl _ (fun s w => ?_) _ _
  split
  · exact setL1_work ..
  · split
    · exact setL1_work ..
    · exact .refl _

theorem fillTeam_still (t : Team) (tid q slot n : Nat) (res : Except Trap (List Byte)) : (fillTeam t tid q slot n res).still = t.still := by
  unfold fillTeam
  split
  · rfl
  · split
    · rfl
    · rfl

theorem updTeamOp_work (s : State) (g t o : Nat) {f : Team → Team} {k : Op → Op} (hf : ∀ x, (f x).still = x.still) (hk : ∀ x, (k x).still = x.still) :
    Work s ((s.updTeam g t f).updOp o k) :=
  (updTeam_work s g t f hf).trans (updOp_work _ o k hk)

theorem settleFifo_work (g t tid q n : Nat) (s : State) : Work s (settleFifo g t tid q n s) := by
  induction n generalizing s with
  | zero => exact .refl s
  | succ n ih =>
    unfold settleFifo
    split
    · exact .refl s
    · split
      · exact updOp_work _ _ _ fun _ => rfl
      · refine .trans ?_ (ih _)
        exact updTeamOp_work _ _ _ _ (fun _ => rfl) fun _ => rfl

theorem fillEntry_work (s : State) (g t tid q slot n : Nat) (res : Except Trap (List Byte)) : Work s (fillEntry s g t tid q slot n res) := by
  unfold fillEntry
  exact (updTeam_work s g t (fun t => fillTeam t tid q slot n res) fun x => fillTeam_still ..).trans (settleFifo_work ..)

/-! ## Locks, hints, homes -/

theorem lockLine_work (s : State) (c l : Nat) (m r : Bool) : Work s (lockLine s c l m r).1 := by
  unfold lockLine
  simp only
  split
  · split
    · exact .of_same rfl rfl rfl rfl
    · exact .refl s
  · split
    · exact .refl s
    · split
      · exact .refl s
      · split
        · exact .refl s
        · exact .of_same rfl rfl rfl rfl

theorem settleLocks_work (s : State) (reg : Nat) : Work s (settleLocks s reg) := by
  unfold settleLocks
  simp only
  refine .trans (t := { s with locks := s.locks.filter fun l => l.msc || !inRegion reg (l.line * 128) }) (.of_same rfl rfl rfl rfl) ?_
  refine .foldl _ (fun s l => ?_) _ _
  split
  · exact .refl s
  · exact .of_same rfl rfl rfl rfl

/-! ## The press -/

theorem writeRun_work (s : State) (pick : Press → Bool) : Work s (writeRun s pick) :=
  .after (writeUnits_work ..) (.of_same rfl rfl rfl rfl)

theorem spillPress_work (s : State) (held : Press → Bool) : Work s (spillPress s held) := .foldl _ (fun _ _ => writeRun_work ..) _ s

theorem movePress_work (home : Nat) (s : State) (p : Press) : Work s (movePress home s p) := by
  unfold movePress
  exact (ite_work _ ((countTelemetry_work ..).trans (spillPress_work ..)) (.refl s)).trans (.of_same rfl rfl rfl rfl)

theorem settleRegion_work (s : State) (reg : Nat) : Work s (settleRegion s reg) := by
  unfold settleRegion
  simp only
  split
  · exact .of_same rfl rfl rfl rfl
  · generalize hs : settleLocks _ reg = s1
    have h1 : Work s s1 := by rw [← hs]; exact .after (settleLocks_work ..) (.of_same rfl rfl rfl rfl)
    exact h1.trans (.foldl _ (fun _ _ => movePress_work ..) _ _)

theorem performDred_work (s : State) (r : Req) : Work s (performDred s r) := by
  unfold performDred
  split
  · simp only
    generalize hh : raiseHint _ r.hint r.segs = s1
    have h1 : Work s s1 := by
      rw [← hh]
      exact (ite_work _ ((countTelemetry_work ..).trans (spillPress_work ..)) (.refl s)).trans (raiseHint_work ..)
    exact .after (dropReq_work ..) (ite_work _ h1 (h1.trans (.of_same rfl rfl rfl rfl)))
  · exact .refl s

theorem pressOne_work (s : State) (p : Press) : Work s (pressOne s p) := by
  unfold pressOne
  simp only
  refine .trans (t := pressReach s p) ((ite_work _ (settleRegion_work ..) (.refl s)).trans (sliceTouch_work ..)) ?_
  split
  · exact .refl _
  · split
    · exact .of_same rfl rfl rfl rfl
    · exact (applyAtomic_work ..).trans (markDirty_work ..)

theorem applyPress_work (s : State) (g : Nat) : Work s (applyPress s g) := by
  unfold applyPress
  simp only
  refine .trans (recallLines_work s ((sortBy (fun p => p.g * 2 ^ 32 + p.seq) (s.press.filter (·.grid == g))).map (·.pa / 128)).eraseDups) ?_
  exact .trans (.foldl _ pressOne_work _ _) (.of_same rfl rfl rfl rfl)

/-! ## Performing -/

theorem observe_work (s : State) (r : Req) (ids : List Nat) : Work s (observe s r ids) := by
  unfold observe
  split
  · split
    · exact .refl s
    · exact updTeam_work _ _ _ _ fun x => rfl
  · exact .refl s

theorem passObserved_work (s : State) (r : Req) (ids : List Nat) : Work s (passObserved s r ids) := by
  unfold passObserved
  simp only
  split
  · exact .after (updTeam_work _ _ _ _ fun tm => updThread_still _ _ _ fun x => rfl) (.of_same rfl rfl rfl rfl)
  · exact .of_same rfl rfl rfl rfl

theorem cacheTranslation_work (s : State) (u c va : Nat) : Work s (cacheTranslation s u c va) := by
  unfold cacheTranslation
  split
  · exact .refl s
  · exact .of_same rfl rfl rfl rfl

theorem performLoad_work (s : State) (r : Req) (q slot tid : Nat) : Work s (performLoad s r q slot tid) := by
  unfold performLoad
  simp only
  split
  · exact (fillEntry_work ..).trans (dropReq_work ..)
  · rename_i segs _
    refine .trans ((cacheTranslation_work s r.core r.ctx r.va).trans ((raiseHint_work _ r.hint segs).trans (recallLines_work _ (segLines segs)))) ?_
    split
    · exact (fillEntry_work ..).trans (dropReq_work ..)
    · exact (readSegs_work ..).trans ((observe_work ..).trans ((passObserved_work ..).trans ((fillEntry_work ..).trans (dropReq_work ..))))

theorem maskSegBytes_work (s : State) (segs : List (Nat × Nat × Nat)) (d m : List Byte) : Work s (maskSegBytes s segs d m) := by
  unfold maskSegBytes
  exact (setSegBytes_work ..).trans (.of_same rfl rfl rfl rfl)

theorem unpost_work (s : State) (segs : List (Nat × Nat × Nat)) (m : List Byte) : Work s (unpost s segs m) :=
  ite_work _ (.refl s) (.of_same rfl rfl rfl rfl)

theorem performStore_work (s : State) (r : Req) (d m : List Byte) : Work s (performStore s r d m) := by
  unfold performStore
  simp only
  generalize storeBytes s r d = d
  have h1 := (recallLines_work s (segLines r.segs)).trans (maskSegBytes_work _ r.segs d m)
  generalize maskSegBytes (recallLines s (segLines r.segs)) r.segs d m = s1 at h1
  exact (h1.trans (ite_work _ (.refl s1) (storeL1_work ..))).trans
    ((unpost_work ..).trans ((raiseHint_work ..).trans ((markWrite_work ..).trans (dropReq_work ..))))

theorem atomResult_work (s : State) (op : Option Nat) (n old : Nat) : Work s (atomResult s op n old) := by
  unfold atomResult
  split
  · exact .refl s
  · exact updOp_work _ _ _ fun x => rfl

theorem poisonOp_work (s : State) (op : Option Nat) (c : Nat) : Work s (poisonOp s op c) := by
  unfold poisonOp
  split
  · exact updOp_work _ _ _ fun x => rfl
  · exact .refl s

theorem performAtom_work (s : State) (r : Req) (op n x cmp : Nat) (fmt : W64) : Work s (performAtom s r op n x cmp fmt) := by
  unfold performAtom
  simp only
  refine .trans ((raiseHint_work s r.hint r.segs).trans (recallLines_work _ (segLines r.segs))) ?_
  split
  · exact (poisonOp_work ..).trans (dropReq_work ..)
  · exact (applyAtomic_work ..).trans ((dropL1_work ..).trans ((meetPosted_work ..).trans ((passObserved_work ..).trans
      ((markWrite_work ..).trans ((atomResult_work ..).trans (dropReq_work ..))))))

theorem performLock_work (s : State) (r : Req) (m rel : Bool) : Work s (performLock s r m rel) :=
  ite_work _ ((poisonOp_work ..).trans (dropReq_work ..)) ((lockLine_work ..).trans ((atomResult_work ..).trans (dropReq_work ..)))

theorem poisonSegs_work (s : State) (l : List (Nat × Nat × Nat)) : Work s (poisonSegs s l) := by
  refine .foldl _ (fun s g => ?_) _ s
  split
  · exact .refl s
  · refine .foldl _ (fun s i => ?_) _ s
    exact .of_same rfl rfl rfl rfl

theorem performBad_work (s : State) (r : Req) : Work s (performBad s r) := by
  unfold performBad
  split
  · exact (poisonOp_work ..).trans (dropReq_work ..)
  · exact (performStore_work ..).trans (poisonSegs_work ..)
  · exact dropReq_work ..

theorem cacheRegion_work (s : State) (w reg : Nat) (h : Nat × Nat) : Work s (cacheRegion s w reg h) := .of_same rfl rfl rfl rfl

theorem reachHomes_work (s : State) (w n : Nat) (segs : List (Nat × Nat × Nat)) : Work s (reachHomes s w n segs) := by
  unfold reachHomes
  refine .foldl _ (fun s reg => ?_) _ _
  simp only
  generalize hs : (if ((s.regions.get {} reg).st == 2) = true then countTelemetry (settleRegion s reg) 0x108 1 else s) = s1
  have h1 : Work s s1 := by rw [← hs]; exact ite_work _ ((settleRegion_work ..).trans (countTelemetry_work ..)) (.refl s)
  generalize ht : (if ((s1.regions.get {} reg).st == 0) = true then firstTouch s1 reg n else s1) = s2
  have h2 : Work s s2 := by rw [← ht]; exact ite_work _ (h1.trans (firstTouch_work ..)) h1
  exact .after (cacheRegion_work ..) (ite_work _ (h2.trans (countTelemetry_work ..)) h2)

theorem homeFor_work (s : State) (r : Req) : Work s (homeFor s r) := by
  unfold homeFor
  split
  · split
    · exact .refl s
    · exact ite_work _ (.refl s) (reachHomes_work ..)
  · exact reachHomes_work ..

theorem ioTouch_work (s : State) (io : Nat) (w : Bool) (segs : List (Nat × Nat × Nat)) : Work s (ioTouch s io w segs) :=
  .foldl _ (fun _ _ => (reachHomes_work ..).trans (ioTraffic_work ..)) _ s

theorem ioReach_work (s : State) (io : Nat) (w : Bool) (segs : List (Nat × Nat × Nat)) : Work s (ioReach s io w segs) :=
  (ioTouch_work ..).trans (recallLines_work ..)

/-- Everything that a request can do at its home. -/
theorem performAt_work (s : State) (r : Req) : Work s (performAt s r) := by
  unfold performAt
  simp only
  have key : ∀ u, Work s u → Work s (if r.marks then markStale u r.core else u) := fun u h => ite_work _ (h.trans (markStale_work ..)) h
  apply key
  refine ite_work _ (performBad_work ..) ?_
  split
  · exact performLoad_work ..
  · exact performStore_work ..
  · exact performAtom_work ..
  · exact performRed_work ..
  · exact performDred_work ..
  · exact performLock_work ..

/-- Everything that performing one request can do. -/
theorem performReq_work (s : State) (r : Req) : Work s (performReq s r) := (homeFor_work ..).trans (performAt_work ..)

theorem drainReqs_work (s : State) (ids : List Nat) : Work s (drainReqs s ids) := by
  unfold drainReqs
  simp only
  refine .foldl _ (fun s n => ?_) _ _
  split
  · exact .after (performReq_work ..) (ite_work _ (.refl s) (sendReq_work ..))
  · exact .refl s

/-! ## Payloads -/

theorem setSpadMask_still (t : Team) (o : Nat) (bs m : List Byte) : (t.setSpadMask o bs m).still = t.still := rfl

theorem landSpad_still (p : Packet) (lo hi : Nat) (bad : List Nat) (t : Team) : (landSpad p lo hi bad t).still = t.still := rfl

theorem landSegs_work (s : State) (p : Packet) (k lo hi : Nat) (bad : List Nat) : Work s (landSegs s p k lo hi bad) := by
  unfold landSegs
  simp only
  have h := (reachHomes_work s (384 + nodeDie p.src) p.src [(k, lo, hi - lo)]).trans (recallLines_work _ (segLines [(k, lo, hi - lo)]))
  have h := h.trans (maskSegBytes_work _ [(k, lo, hi - lo)] (p.slice lo hi p.data) (p.slice lo hi p.mask))
  generalize maskSegBytes _ _ _ _ = s1 at h
  have key : ∀ s2, Work s s2 → Work s (if k < 2 then markDirty s2 p.ctx (p.va + lo - p.first) (hi - lo) else s2) :=
    fun _ h => ite_work _ (h.trans (markDirty_work ..)) h
  exact key _ (h.trans ((dropL1_work s1 ..).trans ((unpost_work ..).trans (poisonSegs_work ..))))

theorem landFlits_work (s : State) (p : Packet) (l : List Nat) (m n : Nat) (bad : List Nat) : Work s (landFlits s p l m n bad) := by
  unfold landFlits
  simp only
  refine ite_work _ (.refl s) ?_
  split
  · exact landSegs_work ..
  · exact .foldl _ (fun _ _ => updTeam_work _ _ _ _ fun _ => landSpad_still ..) _ s

theorem landNow_work (s : State) (p : Packet) (m : Nat) (bad : List Nat) : Work s (landNow s p m bad) :=
  (landFlits_work s p [p.team] m (flitCount p) bad).trans (.of_same rfl rfl rfl rfl)

theorem landStores_work (s : State) (pick : Packet → Bool) : Work s (landStores s pick) := .foldl _ (fun _ _ => landNow_work ..) _ s

theorem landThread_work (s : State) (g t tid : Nat) : Work s (landThread s g t tid) := landStores_work ..

/-! ## Releases, acquires, fences, moves -/

theorem addFence_still (x : Thread) (p : Path) (ids : List Nat) : (addFence x p ids).still = x.still := by
  unfold addFence
  split <;> rfl

theorem foldl_still {α : Type} (f : Thread → α → Thread) (hf : ∀ x a, (f x a).still = x.still) (l : List α) (x : Thread) :
    (l.foldl f x).still = x.still := by
  induction l generalizing x with
  | nil => rfl
  | cons a l ih => exact (ih (f x a)).trans (hf x a)

theorem markOn_work (s : State) (ids : List Nat) : Work s (markOn s ids) := .of_same rfl rfl rfl rfl

theorem passOn_still (t : Team) (l : List Req) : (passOn t l).still = t.still := rfl

theorem releaseThread_work (s : State) (g t tid : Nat) (teamOnly : Bool) : Work s (releaseThread s g t tid teamOnly) := by
  unfold releaseThread
  simp only
  have h0 := landThread_work s g t tid
  generalize landThread s g t tid = s0 at h0
  split
  · exact .after (updTeam_work _ _ _ _ fun _ => passOn_still ..) (h0.trans (drainReqs_work ..))
  · exact .after (updTeam_work _ _ _ _ fun _ => rfl) (h0.trans ((drainReqs_work ..).trans (drainReqs_work ..)))

theorem acquireThread_work (s : State) (g t tid core : Nat) (wide : Bool) : Work s (acquireThread s g t tid core wide) := by
  unfold acquireThread
  simp only
  generalize hs : s.updTeam g t _ = s1
  have h1 : Work s s1 := by
    rw [← hs]
    refine updTeam_work _ _ _ _ fun tm => updThread_still _ _ _ fun x => ?_
    exact (addFence_still ..).trans (foldl_still _ (fun _ _ => addFence_still ..) _ _)
  exact ite_work _ (h1.trans ((markOn_work ..).trans (markStale_work ..))) h1

theorem passAfter_work (s : State) (g t tid : Nat) (kind : FenceKind) (ps : List Path) : Work s (passAfter s g t tid kind ps) :=
  .of_same rfl rfl rfl rfl

theorem fenceThread_work (s : State) (g t tid core : Nat) (kind : FenceKind) (scope : Nat) (groups : List (List Path)) :
    Work s (fenceThread s g t tid core kind scope groups) := by
  unfold fenceThread
  simp only
  generalize hp : (if (kind != .acq && homeScope s g t scope) = true then groups.foldl (fun s ps => passAfter s g t tid kind ps) s else s) = s0
  have h0 : Work s s0 := by rw [← hp]; exact ite_work _ (.foldl _ (fun _ _ => passAfter_work ..) _ s) (.refl s)
  generalize hl : (if (kind != .acq && groups.any (·.contains .t)) = true then landThread s0 g t tid else s0) = s2
  have h2 : Work s s2 := by rw [← hl]; exact ite_work _ (h0.trans (landThread_work ..)) h0
  have up : ∀ f : Team → Team, (∀ x, (f x).still = x.still) → Work s (s2.updTeam g t f) := fun f hf => h2.trans (updTeam_work _ _ _ _ hf)
  have h1 := up (fun tm => if kind == .acq then tm.updThread tid fun x => groups.foldl (fun x ps => ps.foldl (fun x p =>
      addFence x p (fenceIds s g t tid kind (homeScope s g t scope) ps p)) x) x
    else passOn (tm.updThread tid fun x => groups.foldl (fun x ps => ps.foldl (fun x p =>
      addFence x p (fenceIds s g t tid kind (homeScope s g t scope) ps p)) x) x) ((threadReqs s g t tid).filter (·.taken))) fun tm => by
    split
    · refine updThread_still tm tid _ fun x => ?_
      exact foldl_still _ (fun _ _ => foldl_still _ (fun _ _ => addFence_still ..) _ _) _ _
    · refine (passOn_still ..).trans (updThread_still tm tid _ fun x => ?_)
      exact foldl_still _ (fun _ _ => foldl_still _ (fun _ _ => addFence_still ..) _ _) _ _
  exact ite_work _ (h1.trans ((markOn_work ..).trans (markStale_work ..))) h1

theorem issueReq_work (s : State) (e : Env) (x : Thread) (r : Req) : Work s (issueReq s e x r) := by
  unfold issueReq
  generalize placedReq s e x r = r
  have h0 : Work s { s with reqs := s.reqs ++ [r] } := .of_same rfl rfl rfl rfl
  simp only
  split
  · exact ite_work _ (h0.trans (storeL1_work ..)) h0
  · exact h0

theorem startMove_work (s : State) (reg : Nat) (release : Bool) : Work s (startMove s reg release) := by
  unfold startMove
  simp only
  generalize hb : ({ s with regions := s.regions.set {} reg { s.regions.get {} reg with st := 2, release } } : State) = s0
  have h0 : Work s s0 := by rw [← hb]; exact .of_same rfl rfl rfl rfl
  generalize hd : List.foldl performAt s0 _ = s1
  have h1 : Work s s1 := by rw [← hd]; exact h0.trans (.foldl _ performAt_work _ _)
  generalize hr : recallLines s1 _ = s2
  have h2 : Work s s2 := by rw [← hr]; exact h1.trans (recallLines_work ..)
  split
  · generalize hs : spillPress s2 _ = s3
    have h3 : Work s s3 := by rw [← hs]; exact h2.trans (spillPress_work ..)
    exact h3.trans (.of_same rfl rfl rfl rfl)
  · exact h2

theorem arrive_work (s : State) (r : Req) (reg : Nat) : Work s (arrive s r reg).1 := by
  have ha : ∀ (s : State) (h : Option (Nat × Nat)), Work s (answerRehome s r reg h).1 := fun s h =>
    .trans (t := s.updReq r.id fun q => { q with rehome := some h, rehomeReg := reg, rehomeAt := s.fc }) (.of_same rfl rfl rfl rfl)
      (countTelemetry_work ..)
  have hc : ∀ (s : State) (h : Nat × Nat), Work s (cacheRegion s r.core reg h) := fun s h => cacheRegion_work ..
  unfold arrive
  simp only
  have h1 : Work s (if ((s.regions.get {} reg).st == 2 && Config.freeChoice s.free % 2 == 0) = true then settleRegion s reg else s) := by
    split
    · exact settleRegion_work ..
    · exact .refl s
  refine .trans h1 ?_
  generalize (if ((s.regions.get {} reg).st == 2 && Config.freeChoice s.free % 2 == 0) = true then settleRegion s reg else s) = s1
  split
  · split
    · exact .after (hc ..) (firstTouch_work ..)
    · exact ha ..
  · split
    · exact hc ..
    · split
      · exact ha ..
      · refine .after (ha ..) ?_
        split
        · exact firstTouch_work ..
        · exact .refl _

theorem arriveAll_work (s : State) (r : Req) (l : List Nat) : Work s (arriveAll s r l).1 := by
  induction l generalizing s with
  | nil => exact .refl s
  | cons reg rest ih =>
    have := arrive_work s r reg
    unfold arriveAll
    split
    · rename_i s1 h
      rw [h] at this
      exact this.trans (ih s1)
    · exact this

end Sys2Proof.Machine
end

