-- ==== Sys2Proof/Laws/Outcomes.lean ====
section
/-! SUPPORT. What the shared forms of words can answer: one inversion lemma for each form, the memory each outcome leaves, and when a
word of a form that acts on the state completes. -/

namespace Sys2Proof.Machine

/-! ## Outcomes leave memory alone -/

theorem setTeam_memWf {s : State} (h : s.memWf = true) (t : Team) : (s.setTeam t).memWf = true := memWf_of_eq h rfl rfl rfl

theorem finishWord_memWf {s : State} (h : s.memWf = true) (e : Env) (t : Team) (kw : List KWrite) : (finishWord s e t kw).memWf = true :=
  memWf_of_eq h rfl rfl rfl

theorem stallWord_memWf {s : State} (h : s.memWf = true) : (stallWord s).memWf = true := memWf_of_eq h rfl rfl rfl

theorem raiseAt_memWf {s : State} (h : s.memWf = true) (e : Env) (n : Nat) (tr : Trap) (l : List (Nat × Trap)) (u : Bool) :
    (raiseAt s e n tr l u).memWf = true := memWf_of_eq h (by simp) (by simp) (by simp)

theorem raiseWord_memWf {s : State} (h : s.memWf = true) (e : Env) (l : List (Nat × Trap)) (u : Bool) : (raiseWord s e l u).memWf = true := by
  cases l with
  | nil => exact h
  | cons p r => exact raiseAt_memWf h ..

theorem commitOuts_memWf {s : State} (h : s.memWf = true) (e : Env) (f : Body) (long u : Bool) (n : Nat) (outs : List Out) :
    (commitOuts s e f long u n outs).memWf = true := by
  unfold commitOuts
  split
  · exact memWf_of_eq h rfl rfl rfl
  · split
    · exact finishWord_memWf h ..
    · exact raiseWord_memWf (setTeam_memWf h _) ..

theorem commitActs_memWf {s : State} (h : s.memWf = true) (e : Env) (f : Body) (long : Bool) (n : Nat) (outs : List (Nat × Out)) :
    (commitActs s e f long n outs).memWf = true := by
  unfold commitActs
  simp only
  split
  · exact memWf_of_eq h rfl rfl rfl
  · exact finishWord_memWf h ..

theorem retireClause_memWf {s : State} (h : s.memWf = true) (e : Env) (t : Team) (l : List Thread) : (retireClause s e t l).memWf = true :=
  memWf_of_eq h rfl rfl rfl

theorem releaseTeam_memWf {s : State} (h : s.memWf = true) (t : Team) : (releaseTeam s t).memWf = true := memWf_of_eq h rfl rfl rfl

/-! ## What a word of each form answers -/

theorem regWord_next {s t : State} {f : Body} {u : Use} {uni : Bool} {eff : Env → Thread → Except Trap Out}
    (h : regWord s f u uni eff = .next t) :
    ∃ e, s.env? = some e ∧ ((∃ l b, l ≠ [] ∧ t = raiseWord s e l b) ∨ t = stallWord s ∨
      ∃ outs, t = commitOuts s e (resultIn f u) u.long uni (max 1 u.writes.length) outs) := by
  unfold regWord at h
  split at h
  · cases h
  · rename_i e he
    refine ⟨e, he, ?_⟩
    simp only at h
    split at h
    · cases h
      exact .inl ⟨_, _, by simp, rfl⟩
    · split at h
      · cases h
        exact .inr (.inl rfl)
      · split at h
        · cases h
          rename_i p r _ hs
          refine .inl ⟨_, _, ?_, rfl⟩
          have : (splitOuts ((e.exec f.grd).map fun x => (x.tid, eff e x))).1 ≠ [] := by rw [hs]; simp
          split
          · intro h0
            simp only [List.map_eq_nil_iff] at h0
            simp [h0, splitOuts] at this
          · simp
        · cases h
          exact .inr (.inr ⟨_, rfl⟩)

theorem regWord_memWf {s t : State} {f : Body} {u : Use} {uni : Bool} {eff : Env → Thread → Except Trap Out}
    (h : regWord s f u uni eff = .next t) (hs : s.memWf = true) : t.memWf = true := by
  obtain ⟨e, -, ⟨l, b, -, rfl⟩ | rfl | ⟨outs, rfl⟩⟩ := regWord_next h
  · exact raiseWord_memWf hs ..
  · exact stallWord_memWf hs
  · exact commitOuts_memWf hs ..

theorem groupWord_next {s t : State} {f : Body} {u : Use} {uni : Bool}
    {eff : Env → List Thread → Except (List (Nat × Trap)) (Team × List Out)} (h : groupWord s f u uni eff = .next t) :
    ∃ e, s.env? = some e ∧ ((∃ l, t = raiseWord s e l) ∨ t = stallWord s ∨
      ∃ m outs, eff e (e.exec f.grd) = .ok (m, outs) ∧
        t = commitOuts s { e with t := m } (resultIn f u) u.long uni (max 1 u.writes.length) outs) := by
  unfold groupWord at h
  split at h
  · cases h
  · rename_i e he
    refine ⟨e, he, ?_⟩
    simp only at h
    split at h
    · cases h
      exact .inl ⟨_, rfl⟩
    · split at h
      · cases h
        exact .inr (.inl rfl)
      · split at h
        · cases h
          exact .inl ⟨_, rfl⟩
        · rename_i hm
          cases h
          exact .inr (.inr ⟨_, _, hm, rfl⟩)

theorem groupWord_memWf {s t : State} {f : Body} {u : Use} {uni : Bool}
    {eff : Env → List Thread → Except (List (Nat × Trap)) (Team × List Out)} (h : groupWord s f u uni eff = .next t) (hs : s.memWf = true) :
    t.memWf = true := by
  obtain ⟨e, -, ⟨l, rfl⟩ | rfl | ⟨m, outs, -, rfl⟩⟩ := groupWord_next h
  · exact raiseWord_memWf hs ..
  · exact stallWord_memWf hs
  · exact commitOuts_memWf hs ..

theorem memWord_next {s t : State} {f : Body} {u : Use} {chk : Env → Thread → Option Trap} {stall : Env → Thread → Bool}
    {act : Env → State → Thread → Nat → State × Out} (h : memWord s f u chk stall act = .next t) :
    ∃ e, s.env? = some e ∧ ((∃ l, l ≠ [] ∧ t = raiseWord s e l) ∨ t = stallWord s ∨
      ((∀ x ∈ e.exec f.grd, chk e x = none ∧ stall e x = false) ∧
        t = commitActs (actAll e act (e.exec f.grd) s).1 e (resultIn f u) u.long (max 1 u.writes.length) (actAll e act (e.exec f.grd) s).2)) := by
  unfold memWord at h
  split at h
  · cases h
  · rename_i e he
    refine ⟨e, he, ?_⟩
    simp only at h
    split at h
    · cases h
      exact .inl ⟨_, by simp, rfl⟩
    · split at h
      · cases h
        exact .inl ⟨_, by simp, rfl⟩
      · rename_i hc
        split at h
        · cases h
          exact .inr (.inl rfl)
        · rename_i hst
          cases h
          refine .inr (.inr ⟨fun x hx => ⟨?_, ?_⟩, rfl⟩)
          · have := List.filterMap_eq_nil_iff.mp hc x hx
            simpa using this
          · simp only [Bool.or_eq_true, not_or, Bool.not_eq_true] at hst
            exact List.any_eq_false.mp hst.2 x hx |> Bool.eq_false_iff.mpr

/-- Acts done in turn keep what each keeps. -/
theorem actAll_keeps {e : Env} {act : Env → State → Thread → Nat → State × Out} (P : State → State → Prop) (hr : ∀ s, P s s)
    (ht : ∀ {s t u}, P s t → P t u → P s u) (hn : ∀ s : State, P s { s with nextId := s.nextId + 1 })
    (ha : ∀ s x n, P s (act e s x n).1) (l : List Thread) (s : State) : P s (actAll e act l s).1 := by
  induction l generalizing s with
  | nil => exact hr s
  | cons x r ih => exact ht (ht (hn s) (ha _ x s.nextId)) (ih _)

theorem actAll_memWf {e : Env} {act : Env → State → Thread → Nat → State × Out}
    (ha : ∀ s x n, s.memWf = true → (act e s x n).1.memWf = true) (l : List Thread) {s : State} (h : s.memWf = true) :
    (actAll e act l s).1.memWf = true :=
  actAll_keeps (fun s t => s.memWf = true → t.memWf = true) (fun _ => id) (fun h h' => h' ∘ h) (fun _ h => memWf_of_eq h rfl rfl rfl) ha l s h

theorem memWord_memWf {s t : State} {f : Body} {u : Use} {chk : Env → Thread → Option Trap} {stall : Env → Thread → Bool}
    {act : Env → State → Thread → Nat → State × Out} (h : memWord s f u chk stall act = .next t) (hs : s.memWf = true)
    (ha : ∀ e s x n, s.memWf = true → (act e s x n).1.memWf = true) : t.memWf = true := by
  obtain ⟨e, -, ⟨l, -, rfl⟩ | rfl | ⟨-, rfl⟩⟩ := memWord_next h
  · exact raiseWord_memWf hs ..
  · exact stallWord_memWf hs
  · exact commitActs_memWf (actAll_memWf (ha e) _ hs) ..

theorem onceWord_next {s t : State} {f : Body} {u : Use} {idle : Env → State → State}
    {eff : Env → State → Thread → Except Trap (State × (Thread → Out))} (h : onceWord s f u idle eff = .next t) :
    ∃ e, s.env? = some e ∧ ((∃ l, t = raiseWord s e l) ∨ t = stallWord s ∨
      (e.exec f.grd = [] ∧ t = finishWord (idle e s) e (((idle e s).team? e.t.grid e.t.index).getD e.t) e.b.kw) ∨
      ∃ x s1 out outs, (e.exec f.grd).getLast? = some x ∧ eff e s x = .ok (s1, out) ∧
        t = commitActs { s1 with nextId := s1.nextId + (e.exec f.grd).length } e (resultIn f u) u.long (max 1 u.writes.length) outs) := by
  unfold onceWord at h
  split at h
  · cases h
  · rename_i e he
    refine ⟨e, he, ?_⟩
    simp only at h
    split at h
    · cases h
      exact .inl ⟨_, rfl⟩
    · split at h
      · rename_i hl
        cases h
        exact .inr (.inr (.inl ⟨by simpa using hl, rfl⟩))
      · rename_i x hx
        split at h
        · cases h
          exact .inr (.inl rfl)
        · split at h
          · cases h
            exact .inl ⟨_, rfl⟩
          · rename_i hm
            cases h
            exact .inr (.inr (.inr ⟨x, _, _, _, hx, hm, rfl⟩))

theorem onceWord_memWf {s t : State} {f : Body} {u : Use} {idle : Env → State → State}
    {eff : Env → State → Thread → Except Trap (State × (Thread → Out))} (h : onceWord s f u idle eff = .next t) (hs : s.memWf = true)
    (hi : ∀ e, (idle e s).memWf = true) (he : ∀ e x s1 out, eff e s x = .ok (s1, out) → s1.memWf = true) : t.memWf = true := by
  obtain ⟨e, -, ⟨l, rfl⟩ | rfl | ⟨-, rfl⟩ | ⟨x, s1, out, outs, -, hx, rfl⟩⟩ := onceWord_next h
  · exact raiseWord_memWf hs ..
  · exact stallWord_memWf hs
  · exact finishWord_memWf (hi e) ..
  · refine commitActs_memWf ?_ ..
    exact memWf_of_eq (he e x s1 out hx) rfl rfl rfl

theorem terminalWith_next {s t : State} {pre : Env → Team × List Thread} {nxt : Env → Thread → Except Trap Thread}
    (h : terminalWith s pre nxt = .next t) :
    ∃ e, s.env? = some e ∧ ((∃ (tr : Trap) (l : List (Nat × Trap)), l ≠ [] ∧ t = raiseAt s e 0 { tr with kind := 2 } l) ∨ ∃ m l, t = retireClause s e m l) := by
  unfold terminalWith at h
  split at h
  · cases h
  · rename_i e he
    refine ⟨e, he, ?_⟩
    simp only at h
    split at h
    · cases h
      exact .inl ⟨_, _, by simp, rfl⟩
    · cases h
      exact .inr ⟨_, _, rfl⟩

theorem terminalWith_memWf {s t : State} {pre : Env → Team × List Thread} {nxt : Env → Thread → Except Trap Thread}
    (h : terminalWith s pre nxt = .next t) (hs : s.memWf = true) : t.memWf = true := by
  obtain ⟨e, -, ⟨tr, l, -, rfl⟩ | ⟨m, l, rfl⟩⟩ := terminalWith_next h
  · exact raiseAt_memWf hs ..
  · exact retireClause_memWf hs ..

/-- Memory that an engine command leaves in canonical form before its reply is left so by the command. -/
theorem xcmdWord_memWf {s t : State} {f : XBody} {args : List Operand} {chk : Env → W64 → W64 → W64 → Option Trap}
    {act : Env → State → Nat → W64 → W64 → W64 → State × Reply} {engine : Env → Option (Nat × Nat)}
    (h : xcmdWord s f args chk act engine = .next t) (hs : s.memWf = true)
    (ha : ∀ e s n a b c, s.memWf = true → (act e s n a b c).1.memWf = true) : t.memWf = true := by
  unfold xcmdWord at h
  refine onceWord_memWf h hs (fun _ => hs) fun e x s1 out he => ?_
  simp only at he
  split at he
  · cases he
  · cases he
    have hr := (Work.foldl _ (fun s (y : Thread) => releaseThread_work s e.t.grid e.t.index y.tid false) (e.exec f.grd) s).memWf hs
    generalize (e.exec f.grd).foldl _ s = s0 at hr
    have hp := ha e _ s0.nextId (readOp s e 0 x f.a) (readOp s e 0 x f.b) (readOp s e 0 x f.c)
      (memWf_of_eq (t := { s0 with nextId := s0.nextId + 1 }) hr rfl rfl rfl)
    split
    · exact memWf_of_eq hp rfl rfl rfl
    · exact hp

/-! ## Completion -/

/-- A word that finishes by `commitActs` hands its bundle on, whatever its acts did, if the bundle stands as before them. -/
theorem commitActs_advanced {s s0 : State} {e : Env} (h : s0.env? = some e) (hb : s.bundle? e.b.id = s0.bundle? e.b.id) (f : Body)
    (long : Bool) (n : Nat) (outs : List (Nat × Out)) : Advanced (commitActs s e f long n outs) e := by
  unfold commitActs
  simp only
  split
  · exact finishWord_advanced _ _ h hb
  · exact finishWord_advanced _ _ h hb

/-- A word that acts on memory thread by thread completes where its checks pass and nothing stalls it. -/
theorem memWord_completes {s : State} {e : Env} {f : Body} {u : Use} {chk : Env → Thread → Option Trap} {stall : Env → Thread → Bool}
    {act : Env → State → Thread → Nat → State × Out} (h : Issues s e f u)
    (hc : ∀ x ∈ e.exec f.grd, chk e x = none ∧ stall e x = false) :
    memWord s f u chk stall act = .next (commitActs (actAll e act (e.exec f.grd) s).1 e (resultIn f u) u.long (max 1 u.writes.length)
      (actAll e act (e.exec f.grd) s).2) := by
  obtain ⟨he, hf, hb⟩ := h
  obtain ⟨h1, h2⟩ := regsFree_checks hf
  have h5 : (u.bank && (e.exec f.grd).any (bankHeld s)) = false := by
    cases hu : u.bank with
    | false => rfl
    | true =>
      simp only [Bool.true_and, List.any_eq_false]
      intro x hx
      simp [hb hu x hx]
  have h3 : ((e.exec f.grd).filterMap fun x => (chk e x).map fun t => (x.tid, t)) = [] := by
    rw [List.filterMap_eq_nil_iff]
    intro x hx
    simp [(hc x hx).1]
  have h4 : (e.exec f.grd).any (stall e) = false := by
    rw [List.any_eq_false]
    intro x hx
    simp [(hc x hx).2]
  unfold memWord
  simp only [he, h1, h2, h3, h4, h5, Bool.or_self, Bool.false_eq_true, if_false]

/-- A word whose check fails in a thread raises the faults of the threads where it fails. -/
theorem memWord_raises {s : State} {e : Env} {f : Body} {u : Use} {chk : Env → Thread → Option Trap} {stall : Env → Thread → Bool}
    {act : Env → State → Thread → Nat → State × Out} (h : Issues s e f u) {x : Thread} (hx : x ∈ e.exec f.grd) (hc : chk e x ≠ none) :
    memWord s f u chk stall act =
      .next (raiseWord s e ((e.exec f.grd).filterMap fun x => (chk e x).map fun t => (x.tid, t))) := by
  obtain ⟨he, hf, -⟩ := h
  obtain ⟨h1, -⟩ := regsFree_checks hf
  unfold memWord
  simp only [he, h1]
  split
  · rename_i hm
    rw [hm]
  · rename_i hm
    have := List.filterMap_eq_nil_iff.mp hm x hx
    simp only [Option.map_eq_none_iff] at this
    exact absurd this hc

/-- A word that acts once completes where its effect answers, or where no thread executes it. -/
theorem onceWord_completes {s : State} {e : Env} {f : Body} {u : Use} {idle : Env → State → State}
    {eff : Env → State → Thread → Except Trap (State × (Thread → Out))} (h : Issues s e f u) {x : Thread}
    (hx : (e.exec f.grd).getLast? = some x) {s1 : State} {out : Thread → Out} (he : eff e s x = .ok (s1, out)) :
    ∃ outs, onceWord s f u idle eff =
      .next (commitActs { s1 with nextId := s1.nextId + (e.exec f.grd).length } e (resultIn f u) u.long (max 1 u.writes.length) outs) := by
  obtain ⟨h0, hf, -⟩ := h
  obtain ⟨h1, h2⟩ := regsFree_checks hf
  unfold onceWord
  simp only [h0, h1, hx, h2, Bool.false_eq_true, if_false, he]
  exact ⟨_, rfl⟩

/-- A word that acts once raises what its effect raises, in every executing thread. -/
theorem onceWord_raises {s : State} {e : Env} {f : Body} {u : Use} {idle : Env → State → State}
    {eff : Env → State → Thread → Except Trap (State × (Thread → Out))} (h : Issues s e f u) {x : Thread}
    (hx : (e.exec f.grd).getLast? = some x) {tr : Trap} (he : eff e s x = .error tr) :
    onceWord s f u idle eff = .next (raiseWord s e ((e.exec f.grd).map fun y => (y.tid, tr))) := by
  obtain ⟨h0, hf, -⟩ := h
  obtain ⟨h1, h2⟩ := regsFree_checks hf
  unfold onceWord
  simp only [h0, h1, hx, h2, Bool.false_eq_true, if_false, he]

/-- A terminal whose threads all have a next address retires the clause with them. -/
theorem terminalWith_retires {s : State} {e : Env} {pre : Env → Team × List Thread} {nxt : Env → Thread → Except Trap Thread}
    (h : s.env? = some e) (out : Thread → Thread) (hok : ∀ x ∈ (pre e).2, boundary s e (nxt e) x = .ok (out x)) :
    terminalWith s pre nxt = .next (retireClause s e (pre e).1 (((pre e).2.map out).map (retireThread s.cc))) := by
  have hs : ∀ l : List Thread, (∀ x ∈ l, boundary s e (nxt e) x = .ok (out x)) →
      splitThreads (l.map fun x => (x.tid, boundary s e (nxt e) x)) = ([], l.map out) := by
    intro l
    induction l with
    | nil => exact fun _ => rfl
    | cons a l ih =>
      intro hl
      have ha := hl a (by simp)
      have := ih fun x hx => hl x (by simp [hx])
      simp only [splitThreads, Prod.mk.injEq] at this
      simp [splitThreads, ha, this.1, this.2]
  unfold terminalWith
  simp only [h, hs _ hok]

end Sys2Proof.Machine
end

