-- ==== Sys2Proof/Laws/Faults.lean ====
section
/-! SUPPORT. Taking a fault, and the end of a long word, said once in the terms that claims use. -/

namespace Sys2Proof.Machine

/-- Looking a team up after one has been updated. -/
theorem updTeam_team? (s : State) (g i : Nat) (f : Team → Team) (hf : ∀ x, (f x).grid = x.grid ∧ (f x).index = x.index) (a b : Nat) :
    (s.updTeam g i f).team? a b = if a = g ∧ b = i then (s.team? a b).map f else s.team? a b := by
  unfold State.updTeam State.team?
  rw [find_map_same]
  · cases h : s.teams.find? fun x => x.grid == a && x.index == b with
    | none => simp
    | some y =>
      have hy := List.find?_some h
      simp only [Bool.and_eq_true, beq_iff_eq] at hy
      simp only [Option.map_some, hy.1, hy.2, Bool.and_eq_true, beq_iff_eq]
      split <;> rfl
  · intro x
    split
    · rw [(hf x).1, (hf x).2]
    · rfl

/-- A thread of a team whose threads have all been turned, each keeping its number. -/
theorem thread?_map (t : Team) (f : Thread → Thread) (hf : ∀ x, (f x).tid = x.tid) (n : Nat) :
    ({ t with threads := t.threads.map f } : Team).thread? n = (t.thread? n).map f := by
  unfold Team.thread?
  simp only
  rw [find_map_same]
  intro x
  rw [hf]

theorem mem_threads {e : Env} {x : Thread} (h : x ∈ e.threads) : e.t.thread? x.tid = some x ∧ x.tid ∈ e.b.members := by
  simp only [Env.threads, List.mem_filterMap] at h
  obtain ⟨m, hm, hx⟩ := h
  have := thread?_spec hx
  simp_all

theorem leBytes_length (n v : Nat) : (leBytes n v).length = n := by
  induction n generalizing v with
  | zero => rfl
  | succ n ih => simp [leBytes, ih]

theorem recordBytes_spec (s : State) (e : Env) (w n : Nat) (tr : Trap) (a b : Nat) (l u : Bool) :
    (recordBytes s e w n tr a b l u).length = 64 ∧
    (recordBytes s e w n tr a b l u).take 2 = [BitVec.ofNat 8 tr.code, BitVec.ofNat 8 tr.kind] := by
  constructor
  · unfold recordBytes
    simp only [List.length_append, leBytes_length]
  · have h2 : leBytes 1 tr.code ++ leBytes 1 tr.kind = [BitVec.ofNat 8 tr.code, BitVec.ofNat 8 tr.kind] := rfl
    unfold recordBytes
    rw [h2]
    simp only [List.append_assoc, List.cons_append, List.take_succ_cons, List.take_zero]

/-- R370: the records of a fault. -/
theorem faultRecords_spec (s : State) (e : Env) (n : Nat) (tr : Trap) (l : List (Nat × Trap)) (u : Bool) :
    (faultRecords s e n tr l u).length = ((e.b.members.map (· / 32)).eraseDups).length ∧
    ∀ r ∈ faultRecords s e n tr l u, r.bytes.length = 64 ∧ r.bytes.take 2 = [BitVec.ofNat 8 tr.code, BitVec.ofNat 8 tr.kind] := by
  constructor
  · simp [faultRecords]
  · intro r hr
    simp only [faultRecords, List.mem_map] at hr
    obtain ⟨w, -, rfl⟩ := hr
    exact recordBytes_spec ..

/-- A team keeps its number and index where only its threads change. -/
theorem dissolve_team? (s : State) (g t a b : Nat) :
    ∃ back : Thread → Thread, (∀ x, (back x).tid = x.tid) ∧ (∀ x, x.place = .held → back x = x) ∧
      (dissolve s g t).team? a b =
        if a = g ∧ b = t then (s.team? a b).map fun m => { m with threads := m.threads.map back } else s.team? a b := by
  refine ⟨fun x => match x.place with
    | .bundle b => if ((s.bundles.filter fun b => b.grid == g && b.team == t && !b.decoded).map (·.id)).contains b then
        { x with place := .boundary } else x
    | _ => x, fun x => ?_, fun x hx => ?_, ?_⟩
  · simp only
    split
    · split <;> rfl
    · rfl
  · simp [hx]
  · refine Eq.trans ?_ (updTeam_team? s g t (fun m => { m with threads := m.threads.map fun x => match x.place with
      | .bundle b => if ((s.bundles.filter fun b => b.grid == g && b.team == t && !b.decoded).map (·.id)).contains b then
          { x with place := .boundary } else x
      | _ => x }) (fun _ => ⟨rfl, rfl⟩) a b)
    rfl

theorem stopThread_tid (e : Env) (n : Nat) (tr : Trap) (l : List (Nat × Trap)) (x : Thread) : (stopThread e n tr l x).tid = x.tid := by
  unfold stopThread
  split <;> rfl

/-- The team after a fault of one of its bundles. -/
theorem raiseAt_team? {s : State} {e : Env} (h : s.team? e.t.grid e.t.index = some e.t) (n : Nat) (tr : Trap) (l : List (Nat × Trap)) (u : Bool) :
    ∃ back : Thread → Thread, (∀ x, (back x).tid = x.tid) ∧ (∀ x, x.place = .held → back x = x) ∧
      (raiseAt s e n tr l u).team? e.t.grid e.t.index = some { e.t with
        threads := (e.t.threads.map (stopThread e n tr l)).map back
        k := commitK s.cc e.b.members e.t.k e.b.kw
        phase := match e.t.phase with
          | .running => .holding
          | p => p } := by
  let f : Team → Team := fun t =>
    { t with threads := t.threads.map (stopThread e n tr l), k := commitK s.cc e.b.members t.k e.b.kw
             phase := match t.phase with
               | .running => .holding
               | p => p }
  obtain ⟨back, hb1, hb2, hb⟩ := dissolve_team? (s.updTeam e.t.grid e.t.index f) e.t.grid e.t.index e.t.grid e.t.index
  refine ⟨back, hb1, hb2, ?_⟩
  have hu := updTeam_team? s e.t.grid e.t.index f (fun _ => ⟨rfl, rfl⟩) e.t.grid e.t.index
  rw [if_pos ⟨rfl, rfl⟩, h] at hu
  rw [if_pos ⟨rfl, rfl⟩, hu] at hb
  have : (raiseAt s e n tr l u).teams = (dissolve (s.updTeam e.t.grid e.t.index f) e.t.grid e.t.index).teams := by
    simp only [raiseAt, State.updGrid]
    rfl
  unfold State.team? at hb ⊢
  rw [this]
  exact hb

/-- R368 to R371: taking a fault, whatever raised it. -/
theorem raiseAt_faulted {s : State} {e : Env} (h : s.team? e.t.grid e.t.index = some e.t) (n : Nat) (tr : Trap) (l : List (Nat × Trap)) (u : Bool) :
    Faulted s (raiseAt s e n tr l u) e tr.code tr.kind := by
  obtain ⟨back, hb1, hb2, ht⟩ := raiseAt_team? h n tr l u
  refine ⟨by simp only [raiseAt], ?_, by simp only [raiseAt, State.updGrid, dissolve, State.updTeam], fun x hx => ?_, fun hp => ?_,
    ⟨faultRecords s e n tr l u, ?_, (faultRecords_spec s e n tr l u).1, (faultRecords_spec s e n tr l u).2⟩, fun m a => ?_, ?_⟩
  · simp only [State.bundle?, raiseAt]
    rw [List.find?_eq_none]
    intro b hb
    simp only [List.mem_filter] at hb
    simpa using hb.2
  · obtain ⟨hx1, hx2⟩ := mem_threads hx
    refine ⟨stopThread e n tr l x, ?_, ?_⟩
    · unfold State.threadOf
      rw [ht]
      simp only [Team.thread?, List.map_map]
      rw [find_map_same _ _ _ (fun y => by simp only [Function.comp, hb1, stopThread_tid])]
      have := hx1
      unfold Team.thread? at this
      rw [this]
      simp only [Option.map_some, Function.comp]
      rw [hb2]
      unfold stopThread
      rw [if_pos (by simpa using hx2)]
    · unfold stopThread
      rw [if_pos (by simpa using hx2)]
      exact ⟨rfl, rfl, rfl, rfl, rfl, rfl, rfl, rfl⟩
  · rw [ht]
    simp only [Option.map_some, hp]
  · simp only [raiseAt, State.updGrid, dissolve, State.updTeam]
  · simp
  · simp

/-- A fault at the word that the bundle of `e` executes. -/
theorem raiseWord_raises {s : State} {e : Env} {i : Instr} (h : s.env? = some e) {p : Nat × Trap} {l : List (Nat × Trap)} {u : Bool}
    (hi : exec i s = .next (raiseWord s e (p :: l) u)) (hk : p.2.kind = 1) : Raises i s e p.2.code := by
  refine ⟨_, hi, ?_⟩
  have := raiseAt_faulted (env?_team h).1 e.b.idx p.2 (p :: l) u
  rw [hk] at this
  exact this

/-! ## Long words -/

/-- The end of a long word over its executing threads: one operation for each, waiting as `out` says. -/
theorem commitOuts_long {s : State} {e : Env} {f : Body} (h : s.env? = some e) (g : Thread → Thread)
    (hg : ∀ x ∈ e.exec f.grd, (g x).tid = x.tid) (n : Nat) (u : Bool) (out : Thread → Out) (ho : ∀ x, (out x).th = g x) (d : Operand) :
    LongEnd s (commitOuts s e { f with d } true u n ((e.exec f.grd).map out)) e f (regsOf d n) g := by
  obtain ⟨hc, hb, ht, -, -⟩ := env?_spec h
  obtain ⟨ht', hg1, hg2⟩ := env?_team h
  let ops := ((List.range ((e.exec f.grd).map out).length).zip ((e.exec f.grd).map out)).map fun p =>
    longOp (s.nextId + p.1) e d n (e.flag f.fl) p.2
  let s1 : State := { s with ops := s.ops ++ ops, nextId := s.nextId + ((e.exec f.grd).map out).length }
  have hth : ∀ x, longThread d n (e.flag f.fl) (out x) = (g x).await (e.flag f.fl) (regsOf d n) := by
    intro x
    unfold longThread Thread.await
    cases e.flag f.fl <;> simp only [ho]
  have hmap : ((e.exec f.grd).map out).map (longThread d n (e.flag f.fl)) =
      (e.exec f.grd).map fun x => (g x).await (e.flag f.fl) (regsOf d n) := by
    rw [List.map_map]
    exact List.map_congr_left fun x _ => hth x
  have htid : ∀ x ∈ e.exec f.grd, ((g x).await (e.flag f.fl) (regsOf d n)).tid = x.tid := by
    intro x hx
    unfold Thread.await
    cases e.flag f.fl <;> exact hg x hx
  have h1 : s1.env? = some e := h
  have hs := finish_short (s := s1) (f := f) h1 (fun x => (g x).await (e.flag f.fl) (regsOf d n)) htid e.b.kw
  have heq : commitOuts s e { f with d } true u n ((e.exec f.grd).map out) =
      finishWord s1 e (e.t.putThreads ((e.exec f.grd).map fun x => (g x).await (e.flag f.fl) (regsOf d n))) e.b.kw := by
    unfold commitOuts
    simp only [if_true, hmap]
    rfl
  rw [heq]
  obtain ⟨hs1, hs2, ⟨hf1, hf2, hf3, hf4, hf5, hf6⟩, hs4, hs5⟩ := hs
  refine ⟨hs1, ⟨?_, ?_, hf3, hf4, hf5, hf6⟩, hs5, hs4, ops, ?_, ?_, ?_⟩
  · exact hf1
  · exact hf2
  · exact hs2
  · show (((List.range _).zip ((e.exec f.grd).map out)).map _).map _ = _
    rw [List.map_map]
    have : ∀ (l : List Thread) (k : Nat) , (∀ x ∈ l, (g x).tid = x.tid) →
        ((List.range' k (l.map out).length).zip (l.map out)).map (fun p => (longOp (s.nextId + p.1) e d n (e.flag f.fl) p.2).tid) =
          l.map (·.tid) := by
      intro l
      induction l with
      | nil => exact fun _ _ => rfl
      | cons a l ih =>
        intro k hl
        simp only [List.map_cons, List.length_cons, List.range'_succ, List.zip_cons_cons]
        rw [ih (k + 1) fun x hx => hl x (by simp [hx])]
        congr 1
        show (out a).th.tid = a.tid
        rw [ho]
        exact hl a (by simp)
    rw [List.range_eq_range']
    exact this _ 0 hg
  · intro o hop
    obtain ⟨p, -, rfl⟩ := List.mem_map.mp hop
    exact ⟨rfl, rfl, rfl⟩

/-- A per-thread long word that is free and raises nothing ends with the operations of its executing threads. -/
theorem regWord_long {s : State} {e : Env} {f : Body} {u : Use} {uni : Bool} {eff : Env → Thread → Except Trap Out}
    (h : Issues s e f u) (hl : u.long = true) (out : Thread → Out) (hok : ∀ x ∈ e.exec f.grd, eff e x = .ok (out x)) :
    regWord s f u uni eff = .next (commitOuts s e (resultIn f u) true uni (max 1 u.writes.length) ((e.exec f.grd).map out)) := by
  obtain ⟨he, hf, -⟩ := h
  obtain ⟨h1, h2⟩ := regsFree_checks hf
  unfold regWord
  simp only [he, h1, h2, splitOuts_ok _ (eff e) out hok, hl, Bool.false_eq_true, if_false]

end Sys2Proof.Machine
end

