-- ==== Sys2Proof/Laws/PerInstr.lean ====
section
/-! SUPPORT. Instruction by instruction: the decoder's tables read back, from the encoding of an instruction, that instruction with
every field. -/

namespace Sys2Proof.Laws.Enc

/-- What the tables read from the word of an instruction is the instruction: a terminal from its header, any other word by its opcode
and function code. Events have no word, and a function code that names a command encodes that command. -/
def Statement : Instr → Prop
  | .fall h => buildTerm (.of (h.bits 0)) (termOf (h.bits 0)) = .fall h
  | .jmp h => buildTerm (.of (h.bits 1)) (termOf (h.bits 1)) = .jmp h
  | .brp h => buildTerm (.of (h.bits 2)) (termOf (h.bits 2)) = .brp h
  | .brx h => buildTerm (.of (h.bits 3)) (termOf (h.bits 3)) = .brx h
  | .call h => buildTerm (.of (h.bits 4)) (termOf (h.bits 4)) = .call h
  | .ret h => buildTerm (.of (h.bits 5)) (termOf (h.bits 5)) = .ret h
  | .exit h => buildTerm (.of (h.bits 6)) (termOf (h.bits 6)) = .exit h
  | .endl h => buildTerm (.of (h.bits 7)) (termOf (h.bits 7)) = .endl h
  | .xcmdUnassignedCode f func => funcListed func.toNat = false → buildWord (f.bits func) = some (.xcmdUnassignedCode f func)
  | i => ∀ w, encode i = some w → buildWord w = some i

/-! ## One lemma for each group of words -/

theorem word {w : W128} {opc : BitVec 10} (h : fieldOf 10 118 w = opc) (hh : (opc.extractLsb' 6 4 == 0b1110#4) = false) :
    isHint w = false ∧ (fieldOf 10 118 w).toNat = opc.toNat := by
  rw [hint_of_opc h, h]
  exact ⟨hh, rfl⟩

theorem sWord (f : SBody) (opc : BitVec 10) (i : Instr) (hh : (opc.extractLsb' 6 4 == 0b1110#4) = false)
    (hb : ∀ w : W128, isHint w = false → (fieldOf 10 118 w).toNat = opc.toNat → SBody.of w = f → buildWord w = some i) :
    buildWord (f.bits opc) = some i :=
  hb _ (word (sbody_bits f opc).2 hh).1 (word (sbody_bits f opc).2 hh).2 (sbody_bits f opc).1

theorem vWord (f : VBody) (opc : BitVec 10) (i : Instr) (hh : (opc.extractLsb' 6 4 == 0b1110#4) = false)
    (hb : ∀ w : W128, isHint w = false → (fieldOf 10 118 w).toNat = opc.toNat → VBody.of w = f → buildWord w = some i) :
    buildWord (f.bits opc) = some i :=
  hb _ (word (vbody_bits f opc).2 hh).1 (word (vbody_bits f opc).2 hh).2 (vbody_bits f opc).1

theorem lWord (f : LBody) (opc : BitVec 10) (i : Instr) (hh : (opc.extractLsb' 6 4 == 0b1110#4) = false)
    (hb : ∀ w : W128, isHint w = false → (fieldOf 10 118 w).toNat = opc.toNat → LBody.of w = f → buildWord w = some i) :
    buildWord (f.bits opc) = some i :=
  hb _ (word (lbody_bits f opc).2 hh).1 (word (lbody_bits f opc).2 hh).2 (lbody_bits f opc).1

theorem mWord (f : MBody) (opc : BitVec 10) (i : Instr) (hh : (opc.extractLsb' 6 4 == 0b1110#4) = false)
    (hb : ∀ w : W128, isHint w = false → (fieldOf 10 118 w).toNat = opc.toNat → MBody.of w = f → buildWord w = some i) :
    buildWord (f.bits opc) = some i :=
  hb _ (word (mbody_bits f opc).2 hh).1 (word (mbody_bits f opc).2 hh).2 (mbody_bits f opc).1

theorem command (f : XBody) (func : BitVec 7) : buildWord (f.bits func) = some (buildX f func) := by
  obtain ⟨h1, h2, h3⟩ := xbody_bits f func
  obtain ⟨h4, h5⟩ := word h2 (by decide)
  unfold buildWord
  rw [if_neg (by simp [h4]), h5, h1, h3]
  rfl

theorem terminal (h : Header) (t : BitVec 3) : buildTerm (.of (h.bits t)) (termOf (h.bits t)) = buildTerm h t.toNat := by
  obtain ⟨h1, -, h3⟩ := header_bits h t
  unfold termOf
  rw [h1, h3]

/-! ## Every instruction -/

theorem nop (f : SBody) : Statement (.nop f) := fun _ h => by cases h; exact sWord f 0x000 _ (by decide) fun w h1 h2 h3 => by unfold buildWord; rw [if_neg (by simp [h1]), h2, h3]; rfl
theorem meet (f : SBody) : Statement (.meet f) := fun _ h => by cases h; exact sWord f 0x001 _ (by decide) fun w h1 h2 h3 => by unfold buildWord; rw [if_neg (by simp [h1]), h2, h3]; rfl
theorem meetx (f : SBody) : Statement (.meetx f) := fun _ h => by cases h; exact sWord f 0x002 _ (by decide) fun w h1 h2 h3 => by unfold buildWord; rw [if_neg (by simp [h1]), h2, h3]; rfl
theorem loop (f : SBody) : Statement (.loop f) := fun _ h => by cases h; exact sWord f 0x003 _ (by decide) fun w h1 h2 h3 => by unfold buildWord; rw [if_neg (by simp [h1]), h2, h3]; rfl
theorem lbrk (f : SBody) : Statement (.lbrk f) := fun _ h => by cases h; exact sWord f 0x004 _ (by decide) fun w h1 h2 h3 => by unfold buildWord; rw [if_neg (by simp [h1]), h2, h3]; rfl
theorem yield (f : SBody) : Statement (.yield f) := fun _ h => by cases h; exact sWord f 0x005 _ (by decide) fun w h1 h2 h3 => by unfold buildWord; rw [if_neg (by simp [h1]), h2, h3]; rfl
theorem nap (f : SBody) : Statement (.nap f) := fun _ h => by cases h; exact sWord f 0x006 _ (by decide) fun w h1 h2 h3 => by unfold buildWord; rw [if_neg (by simp [h1]), h2, h3]; rfl
theorem trap (f : SBody) : Statement (.trap f) := fun _ h => by cases h; exact sWord f 0x007 _ (by decide) fun w h1 h2 h3 => by unfold buildWord; rw [if_neg (by simp [h1]), h2, h3]; rfl
theorem spawn (f : SBody) : Statement (.spawn f) := fun _ h => by cases h; exact sWord f 0x008 _ (by decide) fun w h1 h2 h3 => by unfold buildWord; rw [if_neg (by simp [h1]), h2, h3]; rfl
theorem joinc (f : SBody) : Statement (.joinc f) := fun _ h => by cases h; exact sWord f 0x009 _ (by decide) fun w h1 h2 h3 => by unfold buildWord; rw [if_neg (by simp [h1]), h2, h3]; rfl
theorem post (f : SBody) : Statement (.post f) := fun _ h => by cases h; exact sWord f 0x00a _ (by decide) fun w h1 h2 h3 => by unfold buildWord; rw [if_neg (by simp [h1]), h2, h3]; rfl
theorem sysrd (f : SBody) : Statement (.sysrd f) := fun _ h => by cases h; exact sWord f 0x00b _ (by decide) fun w h1 h2 h3 => by unfold buildWord; rw [if_neg (by simp [h1]), h2, h3]; rfl
theorem syswr (f : SBody) : Statement (.syswr f) := fun _ h => by cases h; exact sWord f 0x00c _ (by decide) fun w h1 h2 h3 => by unfold buildWord; rw [if_neg (by simp [h1]), h2, h3]; rfl
theorem snap (f : SBody) : Statement (.snap f) := fun _ h => by cases h; exact sWord f 0x00d _ (by decide) fun w h1 h2 h3 => by unfold buildWord; rw [if_neg (by simp [h1]), h2, h3]; rfl
theorem seed (f : SBody) : Statement (.seed f) := fun _ h => by cases h; exact sWord f 0x00e _ (by decide) fun w h1 h2 h3 => by unfold buildWord; rw [if_neg (by simp [h1]), h2, h3]; rfl
theorem flagrd (f : SBody) : Statement (.flagrd f) := fun _ h => by cases h; exact sWord f 0x00f _ (by decide) fun w h1 h2 h3 => by unfold buildWord; rw [if_neg (by simp [h1]), h2, h3]; rfl
theorem flagclr (f : SBody) : Statement (.flagclr f) := fun _ h => by cases h; exact sWord f 0x010 _ (by decide) fun w h1 h2 h3 => by unfold buildWord; rw [if_neg (by simp [h1]), h2, h3]; rfl
theorem wfmt (f : SBody) : Statement (.wfmt f) := fun _ h => by cases h; exact sWord f 0x011 _ (by decide) fun w h1 h2 h3 => by unfold buildWord; rw [if_neg (by simp [h1]), h2, h3]; rfl
theorem rfmt (f : SBody) : Statement (.rfmt f) := fun _ h => by cases h; exact sWord f 0x012 _ (by decide) fun w h1 h2 h3 => by unfold buildWord; rw [if_neg (by simp [h1]), h2, h3]; rfl
theorem segrd (f : SBody) : Statement (.segrd f) := fun _ h => by cases h; exact sWord f 0x013 _ (by decide) fun w h1 h2 h3 => by unfold buildWord; rw [if_neg (by simp [h1]), h2, h3]; rfl
theorem iadd (f : VBody) : Statement (.iadd f) := fun _ h => by cases h; exact vWord f 0x040 _ (by decide) fun w h1 h2 h3 => by unfold buildWord; rw [if_neg (by simp [h1]), h2, h3]; rfl
theorem isub (f : VBody) : Statement (.isub f) := fun _ h => by cases h; exact vWord f 0x041 _ (by decide) fun w h1 h2 h3 => by unfold buildWord; rw [if_neg (by simp [h1]), h2, h3]; rfl
theorem imul (f : VBody) : Statement (.imul f) := fun _ h => by cases h; exact vWord f 0x042 _ (by decide) fun w h1 h2 h3 => by unfold buildWord; rw [if_neg (by simp [h1]), h2, h3]; rfl
theorem imulh (f : VBody) : Statement (.imulh f) := fun _ h => by cases h; exact vWord f 0x043 _ (by decide) fun w h1 h2 h3 => by unfold buildWord; rw [if_neg (by simp [h1]), h2, h3]; rfl
theorem imad (f : VBody) : Statement (.imad f) := fun _ h => by cases h; exact vWord f 0x044 _ (by decide) fun w h1 h2 h3 => by unfold buildWord; rw [if_neg (by simp [h1]), h2, h3]; rfl
theorem iabs (f : VBody) : Statement (.iabs f) := fun _ h => by cases h; exact vWord f 0x045 _ (by decide) fun w h1 h2 h3 => by unfold buildWord; rw [if_neg (by simp [h1]), h2, h3]; rfl
theorem ineg (f : VBody) : Statement (.ineg f) := fun _ h => by cases h; exact vWord f 0x046 _ (by decide) fun w h1 h2 h3 => by unfold buildWord; rw [if_neg (by simp [h1]), h2, h3]; rfl
theorem imin (f : VBody) : Statement (.imin f) := fun _ h => by cases h; exact vWord f 0x047 _ (by decide) fun w h1 h2 h3 => by unfold buildWord; rw [if_neg (by simp [h1]), h2, h3]; rfl
theorem imax (f : VBody) : Statement (.imax f) := fun _ h => by cases h; exact vWord f 0x048 _ (by decide) fun w h1 h2 h3 => by unfold buildWord; rw [if_neg (by simp [h1]), h2, h3]; rfl
theorem iaddw (f : VBody) : Statement (.iaddw f) := fun _ h => by cases h; exact vWord f 0x049 _ (by decide) fun w h1 h2 h3 => by unfold buildWord; rw [if_neg (by simp [h1]), h2, h3]; rfl
theorem isubw (f : VBody) : Statement (.isubw f) := fun _ h => by cases h; exact vWord f 0x04a _ (by decide) fun w h1 h2 h3 => by unfold buildWord; rw [if_neg (by simp [h1]), h2, h3]; rfl
theorem shl (f : VBody) : Statement (.shl f) := fun _ h => by cases h; exact vWord f 0x050 _ (by decide) fun w h1 h2 h3 => by unfold buildWord; rw [if_neg (by simp [h1]), h2, h3]; rfl
theorem shr (f : VBody) : Statement (.shr f) := fun _ h => by cases h; exact vWord f 0x051 _ (by decide) fun w h1 h2 h3 => by unfold buildWord; rw [if_neg (by simp [h1]), h2, h3]; rfl
theorem sar (f : VBody) : Statement (.sar f) := fun _ h => by cases h; exact vWord f 0x052 _ (by decide) fun w h1 h2 h3 => by unfold buildWord; rw [if_neg (by simp [h1]), h2, h3]; rfl
theorem rot (f : VBody) : Statement (.rot f) := fun _ h => by cases h; exact vWord f 0x053 _ (by decide) fun w h1 h2 h3 => by unfold buildWord; rw [if_neg (by simp [h1]), h2, h3]; rfl
theorem fshf (f : VBody) : Statement (.fshf f) := fun _ h => by cases h; exact vWord f 0x054 _ (by decide) fun w h1 h2 h3 => by unfold buildWord; rw [if_neg (by simp [h1]), h2, h3]; rfl
theorem and (f : VBody) : Statement (.and f) := fun _ h => by cases h; exact vWord f 0x058 _ (by decide) fun w h1 h2 h3 => by unfold buildWord; rw [if_neg (by simp [h1]), h2, h3]; rfl
theorem or (f : VBody) : Statement (.or f) := fun _ h => by cases h; exact vWord f 0x059 _ (by decide) fun w h1 h2 h3 => by unfold buildWord; rw [if_neg (by simp [h1]), h2, h3]; rfl
theorem xor (f : VBody) : Statement (.xor f) := fun _ h => by cases h; exact vWord f 0x05a _ (by decide) fun w h1 h2 h3 => by unfold buildWord; rw [if_neg (by simp [h1]), h2, h3]; rfl
theorem andn (f : VBody) : Statement (.andn f) := fun _ h => by cases h; exact vWord f 0x05b _ (by decide) fun w h1 h2 h3 => by unfold buildWord; rw [if_neg (by simp [h1]), h2, h3]; rfl
theorem lop3 (f : VBody) : Statement (.lop3 f) := fun _ h => by cases h; exact vWord f 0x05c _ (by decide) fun w h1 h2 h3 => by unfold buildWord; rw [if_neg (by simp [h1]), h2, h3]; rfl
theorem popc (f : VBody) : Statement (.popc f) := fun _ h => by cases h; exact vWord f 0x060 _ (by decide) fun w h1 h2 h3 => by unfold buildWord; rw [if_neg (by simp [h1]), h2, h3]; rfl
theorem clz (f : VBody) : Statement (.clz f) := fun _ h => by cases h; exact vWord f 0x061 _ (by decide) fun w h1 h2 h3 => by unfold buildWord; rw [if_neg (by simp [h1]), h2, h3]; rfl
theorem ctz (f : VBody) : Statement (.ctz f) := fun _ h => by cases h; exact vWord f 0x062 _ (by decide) fun w h1 h2 h3 => by unfold buildWord; rw [if_neg (by simp [h1]), h2, h3]; rfl
theorem brev (f : VBody) : Statement (.brev f) := fun _ h => by cases h; exact vWord f 0x063 _ (by decide) fun w h1 h2 h3 => by unfold buildWord; rw [if_neg (by simp [h1]), h2, h3]; rfl
theorem bfx (f : VBody) : Statement (.bfx f) := fun _ h => by cases h; exact vWord f 0x064 _ (by decide) fun w h1 h2 h3 => by unfold buildWord; rw [if_neg (by simp [h1]), h2, h3]; rfl
theorem bfi (f : VBody) : Statement (.bfi f) := fun _ h => by cases h; exact vWord f 0x065 _ (by decide) fun w h1 h2 h3 => by unfold buildWord; rw [if_neg (by simp [h1]), h2, h3]; rfl
theorem mov (f : VBody) : Statement (.mov f) := fun _ h => by cases h; exact vWord f 0x068 _ (by decide) fun w h1 h2 h3 => by unfold buildWord; rw [if_neg (by simp [h1]), h2, h3]; rfl
theorem movi (f : VBody) : Statement (.movi f) := fun _ h => by cases h; exact vWord f 0x069 _ (by decide) fun w h1 h2 h3 => by unfold buildWord; rw [if_neg (by simp [h1]), h2, h3]; rfl
theorem movh (f : VBody) : Statement (.movh f) := fun _ h => by cases h; exact vWord f 0x06a _ (by decide) fun w h1 h2 h3 => by unfold buildWord; rw [if_neg (by simp [h1]), h2, h3]; rfl
theorem sel (f : VBody) : Statement (.sel f) := fun _ h => by cases h; exact vWord f 0x06b _ (by decide) fun w h1 h2 h3 => by unfold buildWord; rw [if_neg (by simp [h1]), h2, h3]; rfl
theorem icmp (f : VBody) : Statement (.icmp f) := fun _ h => by cases h; exact vWord f 0x070 _ (by decide) fun w h1 h2 h3 => by unfold buildWord; rw [if_neg (by simp [h1]), h2, h3]; rfl
theorem ppop (f : VBody) : Statement (.ppop f) := fun _ h => by cases h; exact vWord f 0x078 _ (by decide) fun w h1 h2 h3 => by unfold buildWord; rw [if_neg (by simp [h1]), h2, h3]; rfl
theorem pdup (f : VBody) : Statement (.pdup f) := fun _ h => by cases h; exact vWord f 0x079 _ (by decide) fun w h1 h2 h3 => by unfold buildWord; rw [if_neg (by simp [h1]), h2, h3]; rfl
theorem pnot (f : VBody) : Statement (.pnot f) := fun _ h => by cases h; exact vWord f 0x07a _ (by decide) fun w h1 h2 h3 => by unfold buildWord; rw [if_neg (by simp [h1]), h2, h3]; rfl
theorem pand (f : VBody) : Statement (.pand f) := fun _ h => by cases h; exact vWord f 0x07b _ (by decide) fun w h1 h2 h3 => by unfold buildWord; rw [if_neg (by simp [h1]), h2, h3]; rfl
theorem por (f : VBody) : Statement (.por f) := fun _ h => by cases h; exact vWord f 0x07c _ (by decide) fun w h1 h2 h3 => by unfold buildWord; rw [if_neg (by simp [h1]), h2, h3]; rfl
theorem pxor (f : VBody) : Statement (.pxor f) := fun _ h => by cases h; exact vWord f 0x07d _ (by decide) fun w h1 h2 h3 => by unfold buildWord; rw [if_neg (by simp [h1]), h2, h3]; rfl
theorem pswap (f : VBody) : Statement (.pswap f) := fun _ h => by cases h; exact vWord f 0x07e _ (by decide) fun w h1 h2 h3 => by unfold buildWord; rw [if_neg (by simp [h1]), h2, h3]; rfl
theorem pset (f : VBody) : Statement (.pset f) := fun _ h => by cases h; exact vWord f 0x07f _ (by decide) fun w h1 h2 h3 => by unfold buildWord; rw [if_neg (by simp [h1]), h2, h3]; rfl
theorem ptov (f : VBody) : Statement (.ptov f) := fun _ h => by cases h; exact vWord f 0x080 _ (by decide) fun w h1 h2 h3 => by unfold buildWord; rw [if_neg (by simp [h1]), h2, h3]; rfl
theorem vtop (f : VBody) : Statement (.vtop f) := fun _ h => by cases h; exact vWord f 0x081 _ (by decide) fun w h1 h2 h3 => by unfold buildWord; rw [if_neg (by simp [h1]), h2, h3]; rfl
theorem shfl (f : VBody) : Statement (.shfl f) := fun _ h => by cases h; exact vWord f 0x088 _ (by decide) fun w h1 h2 h3 => by unfold buildWord; rw [if_neg (by simp [h1]), h2, h3]; rfl
theorem bcast (f : VBody) : Statement (.bcast f) := fun _ h => by cases h; exact vWord f 0x089 _ (by decide) fun w h1 h2 h3 => by unfold buildWord; rw [if_neg (by simp [h1]), h2, h3]; rfl
theorem vote (f : VBody) : Statement (.vote f) := fun _ h => by cases h; exact vWord f 0x08a _ (by decide) fun w h1 h2 h3 => by unfold buildWord; rw [if_neg (by simp [h1]), h2, h3]; rfl
theorem wred (f : VBody) : Statement (.wred f) := fun _ h => by cases h; exact vWord f 0x08b _ (by decide) fun w h1 h2 h3 => by unfold buildWord; rw [if_neg (by simp [h1]), h2, h3]; rfl
theorem eadd (f : VBody) : Statement (.eadd f) := fun _ h => by cases h; exact vWord f 0x0c0 _ (by decide) fun w h1 h2 h3 => by unfold buildWord; rw [if_neg (by simp [h1]), h2, h3]; rfl
theorem esub (f : VBody) : Statement (.esub f) := fun _ h => by cases h; exact vWord f 0x0c1 _ (by decide) fun w h1 h2 h3 => by unfold buildWord; rw [if_neg (by simp [h1]), h2, h3]; rfl
theorem emul (f : VBody) : Statement (.emul f) := fun _ h => by cases h; exact vWord f 0x0c2 _ (by decide) fun w h1 h2 h3 => by unfold buildWord; rw [if_neg (by simp [h1]), h2, h3]; rfl
theorem efma (f : VBody) : Statement (.efma f) := fun _ h => by cases h; exact vWord f 0x0c3 _ (by decide) fun w h1 h2 h3 => by unfold buildWord; rw [if_neg (by simp [h1]), h2, h3]; rfl
theorem emulz (f : VBody) : Statement (.emulz f) := fun _ h => by cases h; exact vWord f 0x0c4 _ (by decide) fun w h1 h2 h3 => by unfold buildWord; rw [if_neg (by simp [h1]), h2, h3]; rfl
theorem efmaz (f : VBody) : Statement (.efmaz f) := fun _ h => by cases h; exact vWord f 0x0c5 _ (by decide) fun w h1 h2 h3 => by unfold buildWord; rw [if_neg (by simp [h1]), h2, h3]; rfl
theorem emin (f : VBody) : Statement (.emin f) := fun _ h => by cases h; exact vWord f 0x0c6 _ (by decide) fun w h1 h2 h3 => by unfold buildWord; rw [if_neg (by simp [h1]), h2, h3]; rfl
theorem emax (f : VBody) : Statement (.emax f) := fun _ h => by cases h; exact vWord f 0x0c7 _ (by decide) fun w h1 h2 h3 => by unfold buildWord; rw [if_neg (by simp [h1]), h2, h3]; rfl
theorem eabs (f : VBody) : Statement (.eabs f) := fun _ h => by cases h; exact vWord f 0x0c8 _ (by decide) fun w h1 h2 h3 => by unfold buildWord; rw [if_neg (by simp [h1]), h2, h3]; rfl
theorem eneg (f : VBody) : Statement (.eneg f) := fun _ h => by cases h; exact vWord f 0x0c9 _ (by decide) fun w h1 h2 h3 => by unfold buildWord; rw [if_neg (by simp [h1]), h2, h3]; rfl
theorem ecpys (f : VBody) : Statement (.ecpys f) := fun _ h => by cases h; exact vWord f 0x0ca _ (by decide) fun w h1 h2 h3 => by unfold buildWord; rw [if_neg (by simp [h1]), h2, h3]; rfl
theorem eclass (f : VBody) : Statement (.eclass f) := fun _ h => by cases h; exact vWord f 0x0cb _ (by decide) fun w h1 h2 h3 => by unfold buildWord; rw [if_neg (by simp [h1]), h2, h3]; rfl
theorem escale (f : VBody) : Statement (.escale f) := fun _ h => by cases h; exact vWord f 0x0cc _ (by decide) fun w h1 h2 h3 => by unfold buildWord; rw [if_neg (by simp [h1]), h2, h3]; rfl
theorem eround (f : VBody) : Statement (.eround f) := fun _ h => by cases h; exact vWord f 0x0cd _ (by decide) fun w h1 h2 h3 => by unfold buildWord; rw [if_neg (by simp [h1]), h2, h3]; rfl
theorem ecmp (f : VBody) : Statement (.ecmp f) := fun _ h => by cases h; exact vWord f 0x0ce _ (by decide) fun w h1 h2 h3 => by unfold buildWord; rw [if_neg (by simp [h1]), h2, h3]; rfl
theorem ecmpm (f : VBody) : Statement (.ecmpm f) := fun _ h => by cases h; exact vWord f 0x0cf _ (by decide) fun w h1 h2 h3 => by unfold buildWord; rw [if_neg (by simp [h1]), h2, h3]; rfl
theorem eblend (f : VBody) : Statement (.eblend f) := fun _ h => by cases h; exact vWord f 0x0d0 _ (by decide) fun w h1 h2 h3 => by unfold buildWord; rw [if_neg (by simp [h1]), h2, h3]; rfl
theorem ecvt (f : VBody) : Statement (.ecvt f) := fun _ h => by cases h; exact vWord f 0x0d1 _ (by decide) fun w h1 h2 h3 => by unfold buildWord; rw [if_neg (by simp [h1]), h2, h3]; rfl
theorem edot (f : VBody) : Statement (.edot f) := fun _ h => by cases h; exact vWord f 0x0d2 _ (by decide) fun w h1 h2 h3 => by unfold buildWord; rw [if_neg (by simp [h1]), h2, h3]; rfl
theorem esumw (f : VBody) : Statement (.esumw f) := fun _ h => by cases h; exact vWord f 0x0d3 _ (by decide) fun w h1 h2 h3 => by unfold buildWord; rw [if_neg (by simp [h1]), h2, h3]; rfl
theorem rcp (f : VBody) : Statement (.rcp f) := fun _ h => by cases h; exact vWord f 0x100 _ (by decide) fun w h1 h2 h3 => by unfold buildWord; rw [if_neg (by simp [h1]), h2, h3]; rfl
theorem rsq (f : VBody) : Statement (.rsq f) := fun _ h => by cases h; exact vWord f 0x101 _ (by decide) fun w h1 h2 h3 => by unfold buildWord; rw [if_neg (by simp [h1]), h2, h3]; rfl
theorem sqrt (f : VBody) : Statement (.sqrt f) := fun _ h => by cases h; exact vWord f 0x102 _ (by decide) fun w h1 h2 h3 => by unfold buildWord; rw [if_neg (by simp [h1]), h2, h3]; rfl
theorem exp2 (f : VBody) : Statement (.exp2 f) := fun _ h => by cases h; exact vWord f 0x103 _ (by decide) fun w h1 h2 h3 => by unfold buildWord; rw [if_neg (by simp [h1]), h2, h3]; rfl
theorem log2 (f : VBody) : Statement (.log2 f) := fun _ h => by cases h; exact vWord f 0x104 _ (by decide) fun w h1 h2 h3 => by unfold buildWord; rw [if_neg (by simp [h1]), h2, h3]; rfl
theorem sin (f : VBody) : Statement (.sin f) := fun _ h => by cases h; exact vWord f 0x105 _ (by decide) fun w h1 h2 h3 => by unfold buildWord; rw [if_neg (by simp [h1]), h2, h3]; rfl
theorem cos (f : VBody) : Statement (.cos f) := fun _ h => by cases h; exact vWord f 0x106 _ (by decide) fun w h1 h2 h3 => by unfold buildWord; rw [if_neg (by simp [h1]), h2, h3]; rfl
theorem tanh (f : VBody) : Statement (.tanh f) := fun _ h => by cases h; exact vWord f 0x107 _ (by decide) fun w h1 h2 h3 => by unfold buildWord; rw [if_neg (by simp [h1]), h2, h3]; rfl
theorem sld (f : LBody) : Statement (.sld f) := fun _ h => by cases h; exact lWord f 0x140 _ (by decide) fun w h1 h2 h3 => by unfold buildWord; rw [if_neg (by simp [h1]), h2, h3]; rfl
theorem sst (f : LBody) : Statement (.sst f) := fun _ h => by cases h; exact lWord f 0x141 _ (by decide) fun w h1 h2 h3 => by unfold buildWord; rw [if_neg (by simp [h1]), h2, h3]; rfl
theorem sldw (f : LBody) : Statement (.sldw f) := fun _ h => by cases h; exact lWord f 0x142 _ (by decide) fun w h1 h2 h3 => by unfold buildWord; rw [if_neg (by simp [h1]), h2, h3]; rfl
theorem sstw (f : LBody) : Statement (.sstw f) := fun _ h => by cases h; exact lWord f 0x143 _ (by decide) fun w h1 h2 h3 => by unfold buildWord; rw [if_neg (by simp [h1]), h2, h3]; rfl
theorem sldp (f : LBody) : Statement (.sldp f) := fun _ h => by cases h; exact lWord f 0x144 _ (by decide) fun w h1 h2 h3 => by unfold buildWord; rw [if_neg (by simp [h1]), h2, h3]; rfl
theorem sstp (f : LBody) : Statement (.sstp f) := fun _ h => by cases h; exact lWord f 0x145 _ (by decide) fun w h1 h2 h3 => by unfold buildWord; rw [if_neg (by simp [h1]), h2, h3]; rfl
theorem cld (f : LBody) : Statement (.cld f) := fun _ h => by cases h; exact lWord f 0x148 _ (by decide) fun w h1 h2 h3 => by unfold buildWord; rw [if_neg (by simp [h1]), h2, h3]; rfl
theorem cst (f : LBody) : Statement (.cst f) := fun _ h => by cases h; exact lWord f 0x149 _ (by decide) fun w h1 h2 h3 => by unfold buildWord; rw [if_neg (by simp [h1]), h2, h3]; rfl
theorem catom (f : LBody) : Statement (.catom f) := fun _ h => by cases h; exact lWord f 0x14a _ (by decide) fun w h1 h2 h3 => by unfold buildWord; rw [if_neg (by simp [h1]), h2, h3]; rfl
theorem qld (f : LBody) : Statement (.qld f) := fun _ h => by cases h; exact lWord f 0x150 _ (by decide) fun w h1 h2 h3 => by unfold buildWord; rw [if_neg (by simp [h1]), h2, h3]; rfl
theorem qldp (f : LBody) : Statement (.qldp f) := fun _ h => by cases h; exact lWord f 0x151 _ (by decide) fun w h1 h2 h3 => by unfold buildWord; rw [if_neg (by simp [h1]), h2, h3]; rfl
theorem qst (f : LBody) : Statement (.qst f) := fun _ h => by cases h; exact lWord f 0x152 _ (by decide) fun w h1 h2 h3 => by unfold buildWord; rw [if_neg (by simp [h1]), h2, h3]; rfl
theorem qstp (f : LBody) : Statement (.qstp f) := fun _ h => by cases h; exact lWord f 0x153 _ (by decide) fun w h1 h2 h3 => by unfold buildWord; rw [if_neg (by simp [h1]), h2, h3]; rfl
theorem qpop (f : LBody) : Statement (.qpop f) := fun _ h => by cases h; exact lWord f 0x154 _ (by decide) fun w h1 h2 h3 => by unfold buildWord; rw [if_neg (by simp [h1]), h2, h3]; rfl
theorem qcfg (f : LBody) : Statement (.qcfg f) := fun _ h => by cases h; exact lWord f 0x155 _ (by decide) fun w h1 h2 h3 => by unfold buildWord; rw [if_neg (by simp [h1]), h2, h3]; rfl
theorem push (f : LBody) : Statement (.push f) := fun _ h => by cases h; exact lWord f 0x158 _ (by decide) fun w h1 h2 h3 => by unfold buildWord; rw [if_neg (by simp [h1]), h2, h3]; rfl
theorem pop (f : LBody) : Statement (.pop f) := fun _ h => by cases h; exact lWord f 0x159 _ (by decide) fun w h1 h2 h3 => by unfold buildWord; rw [if_neg (by simp [h1]), h2, h3]; rfl
theorem qtry (f : LBody) : Statement (.qtry f) := fun _ h => by cases h; exact lWord f 0x15a _ (by decide) fun w h1 h2 h3 => by unfold buildWord; rw [if_neg (by simp [h1]), h2, h3]; rfl
theorem qallow (f : LBody) : Statement (.qallow f) := fun _ h => by cases h; exact lWord f 0x15b _ (by decide) fun w h1 h2 h3 => by unfold buildWord; rw [if_neg (by simp [h1]), h2, h3]; rfl
theorem wellinit (f : LBody) : Statement (.wellinit f) := fun _ h => by cases h; exact lWord f 0x160 _ (by decide) fun w h1 h2 h3 => by unfold buildWord; rw [if_neg (by simp [h1]), h2, h3]; rfl
theorem arrive (f : LBody) : Statement (.arrive f) := fun _ h => by cases h; exact lWord f 0x161 _ (by decide) fun w h1 h2 h3 => by unfold buildWord; rw [if_neg (by simp [h1]), h2, h3]; rfl
theorem waitg (f : LBody) : Statement (.waitg f) := fun _ h => by cases h; exact lWord f 0x162 _ (by decide) fun w h1 h2 h3 => by unfold buildWord; rw [if_neg (by simp [h1]), h2, h3]; rfl
theorem atom (f : LBody) : Statement (.atom f) := fun _ h => by cases h; exact lWord f 0x1c0 _ (by decide) fun w h1 h2 h3 => by unfold buildWord; rw [if_neg (by simp [h1]), h2, h3]; rfl
theorem red (f : LBody) : Statement (.red f) := fun _ h => by cases h; exact lWord f 0x1c1 _ (by decide) fun w h1 h2 h3 => by unfold buildWord; rw [if_neg (by simp [h1]), h2, h3]; rfl
theorem dred (f : LBody) : Statement (.dred f) := fun _ h => by cases h; exact lWord f 0x1c2 _ (by decide) fun w h1 h2 h3 => by unfold buildWord; rw [if_neg (by simp [h1]), h2, h3]; rfl
theorem satom (f : LBody) : Statement (.satom f) := fun _ h => by cases h; exact lWord f 0x1c3 _ (by decide) fun w h1 h2 h3 => by unfold buildWord; rw [if_neg (by simp [h1]), h2, h3]; rfl
theorem fence (f : LBody) : Statement (.fence f) := fun _ h => by cases h; exact lWord f 0x1d0 _ (by decide) fun w h1 h2 h3 => by unfold buildWord; rw [if_neg (by simp [h1]), h2, h3]; rfl
theorem fenceX (f : LBody) : Statement (.fenceX f) := fun _ h => by cases h; exact lWord f 0x1d1 _ (by decide) fun w h1 h2 h3 => by unfold buildWord; rw [if_neg (by simp [h1]), h2, h3]; rfl
theorem clock (f : LBody) : Statement (.clock f) := fun _ h => by cases h; exact lWord f 0x1e0 _ (by decide) fun w h1 h2 h3 => by unfold buildWord; rw [if_neg (by simp [h1]), h2, h3]; rfl
theorem cunlock (f : LBody) : Statement (.cunlock f) := fun _ h => by cases h; exact lWord f 0x1e1 _ (by decide) fun w h1 h2 h3 => by unfold buildWord; rw [if_neg (by simp [h1]), h2, h3]; rfl
theorem pref (f : LBody) : Statement (.pref f) := fun _ h => by cases h; exact lWord f 0x1e2 _ (by decide) fun w h1 h2 h3 => by unfold buildWord; rw [if_neg (by simp [h1]), h2, h3]; rfl
theorem mma (f : MBody) : Statement (.mma f) := fun _ h => by cases h; exact mWord f 0x200 _ (by decide) fun w h1 h2 h3 => by unfold buildWord; rw [if_neg (by simp [h1]), h2, h3]; rfl
theorem mmas (f : MBody) : Statement (.mmas f) := fun _ h => by cases h; exact mWord f 0x201 _ (by decide) fun w h1 h2 h3 => by unfold buildWord; rw [if_neg (by simp [h1]), h2, h3]; rfl
theorem tld (f : MBody) : Statement (.tld f) := fun _ h => by cases h; exact mWord f 0x208 _ (by decide) fun w h1 h2 h3 => by unfold buildWord; rw [if_neg (by simp [h1]), h2, h3]; rfl
theorem tst (f : MBody) : Statement (.tst f) := fun _ h => by cases h; exact mWord f 0x209 _ (by decide) fun w h1 h2 h3 => by unfold buildWord; rw [if_neg (by simp [h1]), h2, h3]; rfl
theorem tzero (f : MBody) : Statement (.tzero f) := fun _ h => by cases h; exact mWord f 0x20a _ (by decide) fun w h1 h2 h3 => by unfold buildWord; rw [if_neg (by simp [h1]), h2, h3]; rfl
theorem accalloc (f : MBody) : Statement (.accalloc f) := fun _ h => by cases h; exact mWord f 0x210 _ (by decide) fun w h1 h2 h3 => by unfold buildWord; rw [if_neg (by simp [h1]), h2, h3]; rfl
theorem accfree (f : MBody) : Statement (.accfree f) := fun _ h => by cases h; exact mWord f 0x211 _ (by decide) fun w h1 h2 h3 => by unfold buildWord; rw [if_neg (by simp [h1]), h2, h3]; rfl
theorem acczero (f : MBody) : Statement (.acczero f) := fun _ h => by cases h; exact mWord f 0x212 _ (by decide) fun w h1 h2 h3 => by unfold buildWord; rw [if_neg (by simp [h1]), h2, h3]; rfl
theorem accalign (f : MBody) : Statement (.accalign f) := fun _ h => by cases h; exact mWord f 0x213 _ (by decide) fun w h1 h2 h3 => by unfold buildWord; rw [if_neg (by simp [h1]), h2, h3]; rfl
theorem accrd (f : MBody) : Statement (.accrd f) := fun _ h => by cases h; exact mWord f 0x214 _ (by decide) fun w h1 h2 h3 => by unfold buildWord; rw [if_neg (by simp [h1]), h2, h3]; rfl
theorem accwr (f : MBody) : Statement (.accwr f) := fun _ h => by cases h; exact mWord f 0x215 _ (by decide) fun w h1 h2 h3 => by unfold buildWord; rw [if_neg (by simp [h1]), h2, h3]; rfl
theorem accld (f : MBody) : Statement (.accld f) := fun _ h => by cases h; exact mWord f 0x216 _ (by decide) fun w h1 h2 h3 => by unfold buildWord; rw [if_neg (by simp [h1]), h2, h3]; rfl
theorem accst (f : MBody) : Statement (.accst f) := fun _ h => by cases h; exact mWord f 0x217 _ (by decide) fun w h1 h2 h3 => by unfold buildWord; rw [if_neg (by simp [h1]), h2, h3]; rfl
theorem pwset (f : MBody) : Statement (.pwset f) := fun _ h => by cases h; exact mWord f 0x220 _ (by decide) fun w h1 h2 h3 => by unfold buildWord; rw [if_neg (by simp [h1]), h2, h3]; rfl
theorem gang (f : MBody) : Statement (.gang f) := fun _ h => by cases h; exact mWord f 0x221 _ (by decide) fun w h1 h2 h3 => by unfold buildWord; rw [if_neg (by simp [h1]), h2, h3]; rfl
theorem xcmdSgo (f : XBody) : Statement (.xcmdSgo f) := fun _ h => by cases h; exact command f 0x00
theorem xcmdSstat (f : XBody) : Statement (.xcmdSstat f) := fun _ h => by cases h; exact command f 0x01
theorem xcmdSsusp (f : XBody) : Statement (.xcmdSsusp f) := fun _ h => by cases h; exact command f 0x02
theorem xcmdSres (f : XBody) : Statement (.xcmdSres f) := fun _ h => by cases h; exact command f 0x03
theorem xcmdSabort (f : XBody) : Statement (.xcmdSabort f) := fun _ h => by cases h; exact command f 0x04
theorem xcmdScreg (f : XBody) : Statement (.xcmdScreg f) := fun _ h => by cases h; exact command f 0x20
theorem xcmdScunreg (f : XBody) : Statement (.xcmdScunreg f) := fun _ h => by cases h; exact command f 0x21
theorem xcmdScdesc (f : XBody) : Statement (.xcmdScdesc f) := fun _ h => by cases h; exact command f 0x22
theorem xcmdScpref (f : XBody) : Statement (.xcmdScpref f) := fun _ h => by cases h; exact command f 0x23
theorem xcmdRparam (f : XBody) : Statement (.xcmdRparam f) := fun _ h => by cases h; exact command f 0x30
theorem xcmdRstat (f : XBody) : Statement (.xcmdRstat f) := fun _ h => by cases h; exact command f 0x31
theorem xcmdRhalt (f : XBody) : Statement (.xcmdRhalt f) := fun _ h => by cases h; exact command f 0x32
theorem xcmdRrate (f : XBody) : Statement (.xcmdRrate f) := fun _ h => by cases h; exact command f 0x33
theorem xcmdFmcast (f : XBody) : Statement (.xcmdFmcast f) := fun _ h => by cases h; exact command f 0x40
theorem xcmdFwarr (f : XBody) : Statement (.xcmdFwarr f) := fun _ h => by cases h; exact command f 0x41
theorem xcmdFmwarr (f : XBody) : Statement (.xcmdFmwarr f) := fun _ h => by cases h; exact command f 0x42
theorem xcmdMrel (f : XBody) : Statement (.xcmdMrel f) := fun _ h => by cases h; exact command f 0x50
theorem xcmdMsweep (f : XBody) : Statement (.xcmdMsweep f) := fun _ h => by cases h; exact command f 0x51
theorem xcmdMquota (f : XBody) : Statement (.xcmdMquota f) := fun _ h => by cases h; exact command f 0x52
theorem xcmdMquotard (f : XBody) : Statement (.xcmdMquotard f) := fun _ h => by cases h; exact command f 0x53
theorem xcmdYseed (f : XBody) : Statement (.xcmdYseed f) := fun _ h => by cases h; exact command f 0x60
theorem xcmdYsnap (f : XBody) : Statement (.xcmdYsnap f) := fun _ h => by cases h; exact command f 0x61
theorem xcmdYmigr (f : XBody) : Statement (.xcmdYmigr f) := fun _ h => by cases h; exact command f 0x62
theorem hintWord (opc : BitVec 6) (rest : BitVec 118) : Statement (.hintWord opc rest) := by
  intro w h
  cases h
  obtain ⟨h1, h2, h3⟩ := hint_bits opc rest
  unfold buildWord
  simp only [h1, h2, h3, if_true]
theorem fall (h : Header) : Statement (.fall h) := terminal h 0
theorem jmp (h : Header) : Statement (.jmp h) := terminal h 1
theorem brp (h : Header) : Statement (.brp h) := terminal h 2
theorem brx (h : Header) : Statement (.brx h) := terminal h 3
theorem call (h : Header) : Statement (.call h) := terminal h 4
theorem ret (h : Header) : Statement (.ret h) := terminal h 5
theorem exit (h : Header) : Statement (.exit h) := terminal h 6
theorem endl (h : Header) : Statement (.endl h) := terminal h 7
theorem clauseDecode (b : Nat) : Statement (.clauseDecode b) := fun _ h => nomatch h
theorem bundleFormation (core quad : Nat) : Statement (.bundleFormation core quad) := fun _ h => nomatch h
theorem overdue (b : Nat) : Statement (.overdue b) := fun _ h => nomatch h
theorem flagCompletion (op : Nat) : Statement (.flagCompletion op) := fun _ h => nomatch h
theorem napEnd (grid team tid : Nat) : Statement (.napEnd grid team tid) := fun _ h => nomatch h
theorem meetingRelease (grid team meeting : Nat) : Statement (.meetingRelease grid team meeting) := fun _ h => nomatch h
theorem rendezvousRelease (grid team : Nat) (addr : Addr) : Statement (.rendezvousRelease grid team addr) := fun _ h => nomatch h
theorem instanceRun (inst : Nat) : Statement (.instanceRun inst) := fun _ h => nomatch h
theorem epochBoundary : Statement (.epochBoundary) := fun _ h => nomatch h
theorem teamHeld (grid team : Nat) : Statement (.teamHeld grid team) := fun _ h => nomatch h
theorem faultRecordWrite : Statement (.faultRecordWrite) := fun _ h => nomatch h
theorem teamResourceRelease (grid team : Nat) : Statement (.teamResourceRelease grid team) := fun _ h => nomatch h
theorem teamRetirement (grid team : Nat) : Statement (.teamRetirement grid team) := fun _ h => nomatch h
theorem gridRetirement (grid : Nat) : Statement (.gridRetirement grid) := fun _ h => nomatch h
theorem liveGridNumberFree (grid : Nat) : Statement (.liveGridNumberFree grid) := fun _ h => nomatch h
theorem sqdb (q : Nat) (tail : BitVec 16) : Statement (.sqdb q tail) := fun _ h => nomatch h
theorem sqctlWrite (q : Nat) (value : W64) : Statement (.sqctlWrite q value) := fun _ h => nomatch h
theorem packetServe : Statement (.packetServe) := fun _ h => nomatch h
theorem launchPacket (q : Nat) : Statement (.launchPacket q) := fun _ h => nomatch h
theorem graphPacket (q : Nat) : Statement (.graphPacket q) := fun _ h => nomatch h
theorem graphNodeAdvance (q : Nat) : Statement (.graphNodeAdvance q) := fun _ h => nomatch h
theorem teamPlacement : Statement (.teamPlacement) := fun _ h => nomatch h
theorem placementWaitLimit : Statement (.placementWaitLimit) := fun _ h => nomatch h
theorem preemption (grid team : Nat) : Statement (.preemption grid team) := fun _ h => nomatch h
theorem preemptionSave (grid team : Nat) : Statement (.preemptionSave grid team) := fun _ h => nomatch h
theorem preemptionLimit (grid team : Nat) : Statement (.preemptionLimit grid team) := fun _ h => nomatch h
theorem resumption (grid team : Nat) : Statement (.resumption grid team) := fun _ h => nomatch h
theorem resume (grid team : Nat) : Statement (.resume grid team) := fun _ h => nomatch h
theorem endGrid (grid team : Nat) : Statement (.endGrid grid team) := fun _ h => nomatch h
theorem save (grid team : Nat) : Statement (.save grid team) := fun _ h => nomatch h
theorem frhead (value : BitVec 16) : Statement (.frhead value) := fun _ h => nomatch h
theorem invctlGo (value : W64) : Statement (.invctlGo value) := fun _ h => nomatch h
theorem invalidationComplete : Statement (.invalidationComplete) := fun _ h => nomatch h
theorem contextEn (ctx : Nat) (value : W64) : Statement (.contextEn ctx value) := fun _ h => nomatch h
theorem migctlGo : Statement (.migctlGo) := fun _ h => nomatch h
theorem snapctlArm : Statement (.snapctlArm) := fun _ h => nomatch h
theorem snapctlTrig : Statement (.snapctlTrig) := fun _ h => nomatch h
theorem devctlRst : Statement (.devctlRst) := fun _ h => nomatch h
theorem registerWrite (off : BitVec 28) (value : W64) : Statement (.registerWrite off value) := fun _ h => nomatch h
theorem stageFirmware (piece : BitVec 16) : Statement (.stageFirmware piece) := fun _ h => nomatch h
theorem powerCheck (watts : Nat) (dieTemps stackTemps : List Nat) : Statement (.powerCheck watts dieTemps stackTemps) := fun _ h => nomatch h
theorem thermalTrip (stack : Bool) (sensor temp : Nat) : Statement (.thermalTrip stack sensor temp) := fun _ h => nomatch h
theorem unitFence (unit : UnitKind) (n : Nat) : Statement (.unitFence unit n) := fun _ h => nomatch h
theorem l2Access (req : Nat) : Statement (.l2Access req) := fun _ h => nomatch h
theorem rehome (req : Nat) : Statement (.rehome req) := fun _ h => nomatch h
theorem rehomeRetry (req : Nat) : Statement (.rehomeRetry req) := fun _ h => nomatch h
theorem atomicAtHome (req : Nat) : Statement (.atomicAtHome req) := fun _ h => nomatch h
theorem redApplication (req : Nat) : Statement (.redApplication req) := fun _ h => nomatch h
theorem pressContribution (req : Nat) : Statement (.pressContribution req) := fun _ h => nomatch h
theorem wellArrival (pkt : Nat) : Statement (.wellArrival pkt) := fun _ h => nomatch h
theorem scribeArrival (die ch : Nat) : Statement (.scribeArrival die ch) := fun _ h => nomatch h
theorem scribeEarlyEnd (die ch : Nat) : Statement (.scribeEarlyEnd die ch) := fun _ h => nomatch h
theorem scribeContinue (die ch : Nat) : Statement (.scribeContinue die ch) := fun _ h => nomatch h
theorem accessClause (grid team tid : Nat) : Statement (.accessClause grid team tid) := fun _ h => nomatch h
theorem packetInjection (pkt : Nat) : Statement (.packetInjection pkt) := fun _ h => nomatch h
theorem flitArrival (die : Nat) (reply : Bool) (node : Nat) : Statement (.flitArrival die reply node) := fun _ h => nomatch h
theorem acknowledgement (pkt : Nat) : Statement (.acknowledgement pkt) := fun _ h => nomatch h
theorem hoopTimeout (hoop : Nat) : Statement (.hoopTimeout hoop) := fun _ h => nomatch h
theorem fabricPressureUpdate : Statement (.fabricPressureUpdate) := fun _ h => nomatch h
theorem linkRetry (link : Nat) : Statement (.linkRetry link) := fun _ h => nomatch h
theorem linkRetrain (link : Nat) : Statement (.linkRetrain link) := fun _ h => nomatch h
theorem linkTraining (link : Nat) (peers : List Nat) : Statement (.linkTraining link peers) := fun _ h => nomatch h
theorem hostWindowRequest (off : BitVec 40) (op : WindowOp) : Statement (.hostWindowRequest off op) := fun _ h => nomatch h
theorem peerWindowRequest (off : BitVec 40) (op : WindowOp) : Statement (.peerWindowRequest off op) := fun _ h => nomatch h
theorem migrationRound (port : Nat) : Statement (.migrationRound port) := fun _ h => nomatch h
theorem migrationFrameReceive (port : Nat) (frame : List Byte) : Statement (.migrationFrameReceive port frame) := fun _ h => nomatch h
theorem migrationTransportFailure (port : Nat) : Statement (.migrationTransportFailure port) := fun _ h => nomatch h
theorem softError (spot : Spot) (uncorrectable : Bool) : Statement (.softError spot uncorrectable) := fun _ h => nomatch h
theorem xcmdUnassignedCode (f : XBody) (func : BitVec 7) : Statement (.xcmdUnassignedCode f func) := by
  intro h
  rw [command]
  congr 1
  unfold buildX
  split
  all_goals first
    | rfl
    | (rename_i he
       rw [he] at h
       exact absurd h (by decide))
theorem supplyLoss : Statement (.supplyLoss) := fun _ h => nomatch h
theorem attest : Statement (.attest) := fun _ h => nomatch h
theorem loadKeySlot : Statement (.loadKeySlot) := fun _ h => nomatch h
theorem identityCertificate : Statement (.identityCertificate) := fun _ h => nomatch h
theorem clearFenceRecord : Statement (.clearFenceRecord) := fun _ h => nomatch h
theorem fullReset : Statement (.fullReset) := fun _ h => nomatch h
theorem d3hotEntry : Statement (.d3hotEntry) := fun _ h => nomatch h

end Sys2Proof.Laws.Enc
end

