-- ==== Sys2Proof/Laws/Translate.lean ====
section
/-! SUPPORT. Translation where nothing is cached: the walk alone decides, and no free choice is drawn. -/

namespace Sys2Proof.Machine

/-- Translation by the walk alone. -/
def freshTranslate (s : State) (c va : Nat) (acc : Access) : Except Trap PA :=
  let det (cause level : Nat) : Nat := acc.code + cause * 4 + level * 32
  if !canonical va then .error { code := fTranslation, detail := det 2 0, vaddr := va }
  else match walk s ((s.ctx c).root.toNat / 4096 * 4096 % 2 ^ 40) va 5 with
    | .inl (cause, level) => .error { code := fTranslation, detail := det cause level, vaddr := va }
    | .inr (leaf, level) =>
      if (acc == .read || acc == .atomic) && !leaf.testBit 2 then .error { code := fProtection, detail := det 1 level, vaddr := va }
      else if (acc == .write || acc == .atomic) && !leaf.testBit 3 then .error { code := fProtection, detail := det 2 level, vaddr := va }
      else if acc == .fetch && !leaf.testBit 4 then .error { code := fProtection, detail := det 3 level, vaddr := va }
      else if (leafPA leaf level va).kind == 2 && !peerReachable s (bitsOf leaf 40 10) then
        .error { code := fProtection, detail := det 4 level, vaddr := va }
      else .ok (leafPA leaf level va)

/-- With no cached entry that serves the address, the fresh walk is the one in force. -/
theorem translationOf_fresh {s : State} {c va : Nat} (u : Nat) (h : ∀ t ∈ s.tlb, t.serves c va = false) : translationOf s u c va = freshWalk s c va := by
  have : (s.tlb.filter fun t => seesUnit u t.unit && t.serves c va) = [] := List.filter_eq_nil_iff.mpr fun t ht => by simp [h t ht]
  unfold translationOf
  simp [this]

theorem translate_fresh {s : State} (h : s.tlb = []) (u c va : Nat) (acc : Access) : translate s u c va acc = freshTranslate s c va acc := by
  unfold translate freshTranslate
  rw [translationOf_fresh u (by simp [h])]
  unfold freshWalk
  all_goals rfl

/-- The pages of an access, translated by the walk alone. -/
def freshRange (s : State) (c va n : Nat) (acc : Access) : Except Trap (List (PA × Nat)) :=
  (List.range ((va + n - 1) / 4096 - va / 4096 + 1)).foldl (fun r i =>
    match r with
    | .error e => .error e
    | .ok l =>
      let lo := if i == 0 then va else (va / 4096 + i) * 4096
      let hi := min (va + n) ((va / 4096 + i + 1) * 4096)
      match freshTranslate s c (lo % 2 ^ 64) acc with
      | .error e => .error e
      | .ok pa => .ok (l ++ [(pa, hi - lo)])) (.ok [])

theorem translateRange_fresh {s : State} (h : s.tlb = []) (u c va n : Nat) (acc : Access) :
    translateRange s u c va n acc = freshRange s c va n acc := by
  unfold translateRange freshRange
  simp only [translate_fresh h]
  all_goals rfl

/-- An access whose every address translates is translated. -/
theorem translateRange_ok {s : State} {u c va n : Nat} {acc : Access} (hn : 0 < n)
    (h : ∀ v, va ≤ v → v < va + n → ∃ pa, translate s u c (v % 2 ^ 64) acc = .ok pa) : ∃ l, translateRange s u c va n acc = .ok l := by
  unfold translateRange
  simp only
  have key (k : Nat) (hk : k ≤ (va + n - 1) / 4096 - va / 4096 + 1) : ∃ l, (List.range k).foldl (fun r i =>
      match r with
      | .error e => .error e
      | .ok l =>
        match translate s u c ((if i == 0 then va else (va / 4096 + i) * 4096) % 2 ^ 64) acc with
        | .error e => .error e
        | .ok pa => .ok (l ++ [(pa, min (va + n) ((va / 4096 + i + 1) * 4096) - if i == 0 then va else (va / 4096 + i) * 4096)]))
      (.ok [] : Except Trap (List (PA × Nat))) = .ok l := by
    induction k with
    | zero => exact ⟨[], rfl⟩
    | succ k ih =>
      obtain ⟨l, hl⟩ := ih (by omega)
      obtain ⟨pa, hp⟩ := h (if k == 0 then va else (va / 4096 + k) * 4096) (by
          by_cases hk0 : k = 0
          · simp [hk0]
          · simp [hk0]; omega)
        (by
          by_cases hk0 : k = 0
          · simp [hk0]; omega
          · simp [hk0]; omega)
      rw [List.range_succ, List.foldl_append, hl]
      simp only [List.foldl_cons, List.foldl_nil, hp]
      exact ⟨_, rfl⟩
  exact key _ (Nat.le_refl _)

theorem fetchWord_fresh {s : State} (h : s.tlb = []) (hc : s.codeCopies = []) (u c va : Nat) :
    fetchWord s u c va = match freshTranslate s c va .fetch with
      | .error t => .error { t with kind := 0 }
      | .ok pa => .ok (BitVec.ofNat 128 (leNat (s.physBytes pa.kind pa.addr 16))) := by
  unfold fetchWord codeCopy
  rw [hc]
  simp only [List.find?_nil, Option.map_none]
  rw [translate_fresh h]
  all_goals rfl

end Sys2Proof.Machine
end

