-- ==== Sys2Proof/Tests/Slice0.lean ====
section
/-! SUPPORT. Tests: well-formedness, words of the spec's encoding tables, small steps of the manual's examples, and for each
statement of the certificate a state that meets its hypotheses. -/

namespace Sys2Proof.Machine.Test

/-! ## A small state -/

/-- A bundle 7 of thread 0 about to execute a word, on core 0, quadrant 0; its header names flags 0 and 1 and is a safepoint. -/
def bundle : Bundle :=
  { id := 7, members := [0], decoded := true, hdr := Header.bits { len := 1, setA := 0, setB := 1, safe := true } 0, words := [0], idx := 1 }

def launch : Launch := { vregs := 64, kregs := 8, tiles := 2, accg := 33, queues := 4, spad := 4096, sg := [(0x8000, 0x1000)] }

def thread : Thread := { tid := 0, place := .bundle 7, pred := [true], s0 := 3, s1 := 5 }

/-- Tables at 0x1000 to 0x3000 that map the first GiB onto itself for data, and the second onto the first for code. -/
def tables : SMap Byte := [(0x1000, 1), (0x1001, 0x20), (0x2000, 1), (0x2001, 0x30), (0x3000, 0x0F), (0x3008, 0x17)]

/-- One context, one grid, one team: its issuing thread and whatever else the team holds. -/
def state (x : Thread := thread) (m : Team := {}) (l : Launch := launch) (c : Ctx := { root := 0x1000 }) : State :=
  { State.reset with cc := 9, nextId := 50, cur := some 7, teams := [{ m with threads := x :: m.threads }], grids := [{ launch := l }],
                     bundles := [bundle], ctxs := [(0, c)], mem := tables }

def env (x : Thread := thread) (m : Team := {}) (l : Launch := launch) (c : Ctx := { root := 0x1000 }) : Env :=
  { b := bundle, t := { m with threads := x :: m.threads }, g := { launch := l }, c := c }

theorem test_state_env : state.env? = some env := by decide

theorem test_state_memWf : state.memWf = true := by decide

/-! ## Well-formed and ill-formed terms (R77 to R97) -/

/-- D = v5, A = v1, B = v2, C = v3. -/
def vbody : VBody := { d := .v 5, a := .v 1, b := .v 2, c := .v 3 }

theorem test_wf_iadd : (Instr.iadd { vbody with c := .unused }).wf {} false = true := by decide
/-- R78: C is unused. -/
theorem test_illformed_unused_operand : (Instr.iadd vbody).wf {} false = false := by decide
/-- R28: a register at or above VPW. -/
theorem test_illformed_register : (Instr.iadd { vbody with c := .unused }).wf { vpw := 5 } false = false := by decide
/-- Table 5-1: FS selects no lane width beyond 3. -/
theorem test_illformed_lane_width : (Instr.iadd { vbody with c := .unused, fs := 4 }).wf {} false = false := by decide
/-- R80: a tile operand names no value source. -/
theorem test_illformed_class : (Instr.iadd { vbody with a := .m 0, c := .unused }).wf {} false = false := by decide
/-- R82: the immediate field without an immediate operand. -/
theorem test_illformed_imm : (Instr.iadd { vbody with c := .unused, imm := 1 }).wf {} false = false := by decide
/-- R90: LEN 0. -/
theorem test_illformed_header : (Instr.fall { len := 0 }).wf {} false = false := by decide
/-- R90: flags 12 to 14 do not exist. -/
theorem test_illformed_flag : (Instr.fall { setA := 12 }).wf {} false = false := by decide
/-- Table 8-10: a function code that names a command is that command. -/
theorem test_illformed_func : (Instr.xcmdUnassignedCode {} 0).wf {} false = false := by decide

/-! ## Words of the encoding tables -/

/-- Table 3-25. -/
theorem test_decode_header : decodeTableWord 128 0xFFC8007FD00000000000C000C0000000 =
    some (.brp { len := 2, wait := 1, tgtb := 3, join := 3 }) := by decide
/-- Table 3-25. -/
theorem test_decode_iadd : decodeTableWord 128 0x1000002008CF80010000000100000000 =
    some (.iadd { d := .v 4, a := .v 4, b := .imm, mod3 := 1, imm := 1 }) := by decide
/-- Table 3-25. -/
theorem test_decode_icmp : decodeTableWord 128 0x1C00000008A100010000000000020000 =
    some (.icmp { a := .v 4, b := .k 2, mod3 := 1, subop := 2 }) := by decide
/-- Table 4-9. -/
theorem test_decode_meet : decodeTableWord 128 0x00400000000000000000000A00000000 = some (.meet { imm := 10 }) := by decide
/-- Table 4-9. -/
theorem test_decode_loop : decodeTableWord 128 0x00C00000060000000000000600000000 = some (.loop { a := .v 3, imm := 6 }) := by decide
/-- Table 4-9. -/
theorem test_decode_lbrk : decodeTableWord 128 0x01200000000000000000000000000000 = some (.lbrk { grd := .on 0 false }) := by decide
/-- Table 5-7. -/
theorem test_decode_shfl : decodeTableWord 128 0x2200401002CF80040000000100020000 =
    some (.shfl { fs := 2, d := .v 2, a := .v 1, b := .imm, mod3 := 4, imm := 1, subop := 2 }) := by decide
/-- Table 6-6. -/
theorem test_decode_ecvt : decodeTableWord 128 0x3440A020060000000000000000800000 =
    some (.ecvt { fs := 5, d := .v 4, a := .v 3, sel := 2 }) := by decide
/-- Table 10-2. -/
theorem test_decode_edot : decodeTableWord 128 0x3480A058040300000000000450000000 =
    some (.edot { fs := 5, d := .v 11, a := .v 2, b := .v 6, imm := 4, fs2 := 5 }) := by decide
/-- Table 7-8. -/
theorem test_decode_qldp : decodeTableWord 128 0x5440A000140580000000000010010000 =
    some (.qldp { fs := 5, a := .v 10, b := .v 11, seg := 1, opx := 1 }) := by decide
/-- Table 7-8. -/
theorem test_decode_pop : decodeTableWord 128 0x56400030000000000000000000000800 = some (.pop { d := .v 6, qn := 1 }) := by decide
/-- Table 10-12. -/
theorem test_decode_satom : decodeTableWord 128 0x70C00143301500000000180000090400 =
    some (.satom { d := .v 40, a := .zero, b := .v 42, imm := 0x1800, opx := 9, sz := 4 }) := by decide
/-- Table 17-6. -/
theorem test_decode_dred : decodeTableWord 128 0x70800000180580000000000020100200 =
    some (.dred { a := .v 12, b := .v 11, seg := 2, opx := 0x10, sz := 2 }) := by decide
/-- Table 8-14. -/
theorem test_decode_mma : decodeTableWord 128 0x80000C4040C000000000000010000000 =
    some (.mma { d := .a 0, a := .v 32, b := .m 0, kf := 16 }) := by decide
/-- Table 11-7. -/
theorem test_decode_mmas : decodeTableWord 128 0x80400C4040A228C10000000080000000 =
    some (.mmas { d := .a 0, a := .v 32, b := .k 4, c := .k 6, mod3 := 1, kf := 128 }) := by decide
/-- Table 11-7. -/
theorem test_decode_xcmd : decodeTableWord 128 0x902400D01A0880000000000000800000 =
    some (.xcmdSgo { grd := .on 2 false, d := .v 26, a := .v 13, b := .v 17, ch := 2 }) := by decide
/-- Chapter 9. -/
theorem test_decode_fence : decodeTableWord 128 0x74400000000000000000000008060000 = some (.fenceX { scope := 4, opx := 6 }) := by decide
/-- R96, R79, R9: an experimental opcode, a guard without its leading 1, and an opcode that no row has are refused by name. -/
theorem test_refused : checkWord {} false 0xC0000000000000000000000000000000 = some (.illegalOpcode 0x300) ∧
    checkWord {} false 0x00020000000000000000000000000000 = some (.reservedField 113) ∧
    checkWord {} false 0x0FC00000000000000000000000000000 = some (.illegalOpcode 0x3F) := by decide

/-! ## Single steps of the manual's examples -/

/-- D, EFL and the predicate register of thread 0 after an instruction. -/
def after (i : Instr) (s : State) : Option (W64 × BitVec 32 × List Bool) :=
  match exec i s with
  | .next t => (t.threadOf 0 0 0).map fun y => (y.v.get 0 5, y.efl, y.pred)
  | _ => none

def with2 (a b : W64) : State := state { thread with v := [(1, a), (2, b)] }

/-- R149, w = 8. -/
theorem test_iabs_min : after (.iabs { d := .v 5, a := .v 1, fs := 3, mod3 := 1 }) (with2 0x80 1) = some (0x80, 0, [true]) ∧
    after (.iabs { d := .v 5, a := .v 1, fs := 3, mod3 := 3 }) (with2 0x80 1) = some (0x7F, 0, [true]) := by decide
/-- R149, w = 8. -/
theorem test_ineg_sat : after (.ineg { d := .v 5, a := .v 1, fs := 3, mod3 := 2 }) (with2 5 1) = some (0, 0, [true]) := by decide
/-- R149, w = 8. -/
theorem test_iadd_sat : after (.iadd { d := .v 5, a := .v 1, b := .v 2, fs := 3, mod3 := 3 }) (with2 0x70 0x20) = some (0x7F, 0, [true]) ∧
    after (.iadd { d := .v 5, a := .v 1, b := .v 2, fs := 3, mod3 := 2 }) (with2 0x70 0x20) = some (0x90, 0, [true]) := by decide
/-- R156: pos = 60, len = 8. -/
theorem test_bfx : after (.bfx { d := .v 5, a := .v 1, b := .v 2, mod3 := 1 }) (with2 0xF000000000000000 0x83C) =
    some (0xFFFFFFFFFFFFFFFF, 0, [true]) := by decide
/-- R158. -/
theorem test_movh : after (.movh { d := .v 5, imm := 0x01234567 }) (state { thread with v := [(5, 0x89ABCDEF)] }) =
    some (0x0123456789ABCDEF, 0, [true]) := by decide
/-- R176: EABS of −128 in fd6 gives 127. -/
theorem test_eabs_int8 : (after (.eabs { d := .v 5, a := .v 1, fs := 6 }) (with2 0x80 1)).map (·.1) = some 0x7F := by decide
/-- R174: x − x is +0 in binary32, and 1 + 1 is 2. -/
theorem test_esub_zero : (after (.esub { d := .v 5, a := .v 1, b := .v 1 }) (with2 0x3F800000 1)).map (·.1) = some 0 ∧
    (after (.eadd { d := .v 5, a := .v 1, b := .v 1 }) (with2 0x3F800000 1)).map (·.1) = some 0x40000000 := by decide
/-- R151: a count of −1 at w = 8 is 255. -/
theorem test_shift_count : after (.sar { d := .v 5, a := .v 1, b := .imm, fs := 3, imm := 0xFFFFFFFF }) (with2 0x80 1) =
    some (0xFF, 0, [true]) := by decide

/-! ## Hypotheses of the statements, met

Each theorem names the statement whose hypotheses it meets, with a state and operands for every clause that has hypotheses of its own. -/

/-- The words of group V: reads, writes and no bounds, for a result, for a pair and for a source that is also written. -/
theorem witness_vector_words :
    Issues state env vbody.toBody { reads := regsOf (.v 1) ++ regsOf (.v 2) ++ regsOf (.v 3), writes := regsOf (.v 5) } ∧
    Issues state env vbody.toBody { reads := [Operand.v 1, .v 2, .v 3].flatMap regsOf, writes := regsOf (.v 5) } ∧
    Issues state env vbody.toBody { reads := [Operand.v 1, .v 2].flatMap regsOf, writes := regsOf (.v 5) } ∧
    Issues state env vbody.toBody { reads := [Operand.v 1].flatMap regsOf, writes := regsOf (.v 5) } ∧
    Issues state env vbody.toBody { reads := [Operand.v 5].flatMap regsOf, writes := regsOf (.v 5) } ∧
    Issues state env vbody.toBody { reads := [], writes := regsOf (.v 5) } ∧
    env.exec vbody.grd = [thread] := by and_intros <;> decide

theorem witness_Decode_of_encode :
    (Instr.nop {}).wf {} false = true ∧ encode (.nop {}) = some 0 ∧ (Instr.fall {}).wf {} false = true ∧
    (encode (.fall {})).isSome = true ∧ (Instr.hintWord 0 0).wf {} false = true ∧ (encode (.hintWord 0 0)).isSome = true := by and_intros <;> decide

theorem witness_Encode_of_decode : decodeTableWord 128 0 = some (.nop {}) ∧
    decodeTableWord 128 0xFFC8007FD00000000000C000C0000000 = some (.brp { len := 2, wait := 1, tgtb := 3, join := 3 }) := by and_intros <;> decide

/-- R96 at both ends of the space; R79 at GRD = 00001 and 01111 of an opcode in the map; and a guard that holds. -/
theorem witness_Guard_and_opcode_fields :
    opcOf 0xC0000000000000000000000000000000 = 0x300 ∧ opcOf 0xDFC00000000000000000000000000000 = 0x37F ∧
    (opcOf 0x00020000000000000000000000000000 ≠ 0x3FF ∧ isHint 0x00020000000000000000000000000000 = false ∧
      (rowOf {} 0x00020000000000000000000000000000).isSome = true ∧
      (0x00020000000000000000000000000000 : W128).getLsbD 117 = false ∧ fieldOf 4 113 0x00020000000000000000000000000000 ≠ 0) ∧
    ((0x001E0000000000000000000000000000 : W128).getLsbD 117 = false ∧ fieldOf 4 113 0x001E0000000000000000000000000000 = 15) ∧
    env.exec (.on 0 false) = [thread] ∧ env.exec (.on 0 true) = [] := by and_intros <;> decide

/-- A placed NOP, an event and a tick at the head of an agenda; a tick of either parity of the core clock. -/
theorem witness_Step_runs_decoded :
    ((State.reset.withFetchWord 128 0).agenda = [.issue 0 0] ∧ (State.reset.withFetchWord 128 0).quadIssued = [] ∧
      (chooseBundle { State.reset.withFetchWord 128 0 with agenda := [] } 0 0).map (·.decoded) = some true) ∧
    encode .epochBoundary = none ∧
    unrouted { State.reset with agenda := [] } = [] ∧
    (State.reset.mgmt.d3hot = false ∧ State.reset.clkAcc + State.reset.mhz < 2400) ∧
    2400 ≤ ({ State.reset with clkAcc := 1200 } : State).clkAcc + ({ State.reset with clkAcc := 1200 } : State).mhz := by and_intros <;> decide

/-- The next step runs the placed word. -/
theorem test_step_runs_nop : (match step (State.reset.withFetchWord 128 0) with
    | .next t => (t.bundles.map (·.idx), t.cur)
    | _ => ([], none)) = ([2], none) := by decide

/-- A pair of registers: R150's words. -/
theorem witness_Integer_arithmetic :
    Issues state env { vbody.toBody with d := .v 6, a := .v 2, b := .v 4 } { reads := regsOf (.v 2) 2 ++ regsOf (.v 4) 2, writes := [6, 7] } := by and_intros <;> decide

/-- A whole field, a field cut at bit 63, and the two that are not valid. -/
theorem witness_Bit_counts_and_fields : ((0x3C08 : Nat) / 256 % 256 ≠ 0 ∧ 0x3C08 % 256 < 64) ∧ 0x08 / 256 % 256 = 0 ∧ ¬ (0x0140 % 256 < 64) := by and_intros <;> decide

/-- The highest lane an ICMP may name at each width, with its reads; and the words without sources. -/
theorem witness_Predicate_words :
    Issues state env vbody.toBody { reads := [Operand.v 1, .v 2].flatMap regsOf } ∧ Issues state env vbody.toBody { reads := regsOf (.v 1) } ∧
    Issues state env vbody.toBody {} ∧ Issues state env vbody.toBody { reads := ([] : List Operand).flatMap regsOf } ∧
    Issues state env vbody.toBody { writes := regsOf (.v 5) } ∧ (7#6).toNat < 64 / laneWidth 3 ∧ (0#6).toNat < 64 / laneWidth 0 := by and_intros <;> decide

/-- A participant at lane 0 and none at lane 1; VOTE's two words without a result. -/
theorem witness_Lane_words :
    Issues state env vbody.toBody { reads := regsOf (.v 1) ++ regsOf .zero, writes := regsOf (.v 5) } ∧
    Issues state env vbody.toBody { reads := regsOf (.v 1), writes := regsOf (.v 5) } ∧ env.c.trapen = 0 ∧
    (readOp state env 0 thread .zero).toNat = thread.lane ∧ (readOp state env 1 thread .imm).toNat = 1 ∧
    (∀ y ∈ env.exec vbody.grd, y.lane ≠ 1) := by and_intros <;> decide

/-- A value of each default slot that is its own code (R47), binary32's 1.0 among them; and elements that fill a register. -/
theorem witness_Exact_values_round_to_themselves :
    (fmtValid 0x000000000501FEF1 = true ∧ 0x3F800000 < 2 ^ (Fmt.of 0x000000000501FEF1).width ∧ (Fmt.of 0x000000000501FEF1).sub ≠ 1 ∧
      (Fmt.of 0x000000000501FEF1).special 0x3F800000 = none ∧ ((Fmt.of 0x000000000501FEF1).decode 0x3F800000).2 = 0) ∧
    (fmtValid 0x00000030000000E1 = true ∧ (Fmt.of 0x00000030000000E1).int = true ∧ (Fmt.of 0x00000030000000E1).special 0x80 = none ∧
      ((Fmt.of 0x00000030000000E1).decode 0x80).2 = 0) ∧
    1 ≤ 64 ∧ [5].length * 64 ≤ 64 := by and_intros <;> decide

/-- Slot 0 (binary32) is signed, floating and not stochastic; no trap is enabled. -/
theorem witness_Element_words : env.c.trapen = 0 ∧ (Fmt.of (env.slot 0)).stochastic = false ∧ fmtValid (env.slot 0) = true ∧
    (Fmt.of (env.slot 0)).int = false ∧ (Fmt.of (env.slot 0)).sgn = true ∧ (Fmt.of (env.slot 0)).nan ≠ 3 ∧
    narrows state vbody = false ∧ narrows state { vbody with fs := 1, fs2 := 0 } = true ∧
    (Fmt.of (env.slot 6)).int = true ∧ (Fmt.of (env.slot 6)).stochastic = false ∧
    cvtSource 2 2 1 1 = some 1 ∧ cvtSource 1 2 1 0 = some 1 ∧ cvtSource 1 2 2 0 = none ∧ cvtSource 4 2 1 3 = some 1 ∧ cvtSource 4 2 1 1 = none ∧
    max (-16384) (min 16384 (0x4001 : W64).toInt) = 16384 := by and_intros <;> decide

/-- Long words with a free flag; the unit of the quadrant is free. -/
theorem witness_Long_element_words :
    Issues state env vbody.toBody { reads := regsOf (.v 1) 8 ++ regsOf (.v 2) 8 ++ regsOf (.v 3), writes := regsOf (.v 5), long := true } ∧
    Issues state env vbody.toBody { reads := regsOf (.v 1), writes := regsOf (.v 5), long := true } ∧
    Issues state env vbody.toBody { reads := regsOf (.v 1) ++ regsOf (.v 5), writes := regsOf (.v 5), long := true } ∧
    state.sfuUntil.get 0 (quadId env.b.core env.b.quad) ≤ state.cc := by and_intros <;> decide

/-- D = v5, A = v1. -/
def sbody : SBody := { d := .v 5, a := .v 1 }

theorem witness_Thread_state_words :
    Issues state env sbody.toBody {} ∧ Issues state env sbody.toBody { reads := regsOf (.v 1) 1 } ∧
    Issues state env sbody.toBody { reads := regsOf (.v 1) 2 } ∧ Issues state env sbody.toBody { writes := regsOf (.v 5) } := by and_intros <;> decide

/-- A level open on counter 0. -/
def looping : Thread := { thread with levels := [{ ctr := 0, start := 0x100, last := 0 }], lc := [(0, 2)] }

/-- LOOP's checks at the largest count, and each of its four faults; LBRK with an open level and without. -/
theorem witness_Loop_words :
    (Issues (state { thread with v := [(1, 0xFFFFFFFF)] }) (env { thread with v := [(1, 0xFFFFFFFF)] }) sbody.toBody { reads := regsOf (.v 1) } ∧
      (readOp (state { thread with v := [(1, 0xFFFFFFFF)] }) (env { thread with v := [(1, 0xFFFFFFFF)] }) 0 { thread with v := [(1, 0xFFFFFFFF)] } (.v 1)).toNat
        ≤ 0xFFFFFFFF ∧ thread.levels.length < 3 ∧
      (bundle.addr + BitVec.ofNat 57 32).toNat ≤ (bundle.addr + BitVec.ofInt 57 (16 * (2#32).toInt)).toNat) ∧
    ¬ ((0x100000000 : Nat) ≤ 0xFFFFFFFF) ∧ ¬ ((bundle.addr + BitVec.ofNat 57 32).toNat ≤ (bundle.addr + BitVec.ofInt 57 (16 * (1#32).toInt)).toNat) ∧
    (∃ l ∈ looping.levels, l.ctr = 0) ∧
    (Issues (state looping) (env looping) sbody.toBody {} ∧ ∀ x ∈ (env looping).exec .always, x.levels ≠ []) ∧
    ∃ x ∈ env.exec .always, x.levels = [] := by and_intros <;> decide

theorem witness_User_trap : Issues state env sbody.toBody {} ∧ env.exec .always ≠ [] ∧ env.exec (.on 0 true) = [] := by and_intros <;> decide

/-- A valid value for the slot, and one that is not (R32, R50). -/
theorem witness_Meet_and_wfmt :
    (∀ x ∈ (env { thread with v := [(1, 0x501FEF1)] }).exec .always, fmtValid (readOp state env 0 x (.v 1)) = true) ∧
    (∃ x ∈ env.exec .always, fmtValid (readOp state env 0 x (.v 1)) = false) ∧
    Issues state env sbody.toBody { reads := regsOf (.v 1) } := by and_intros <;> decide

/-- A user and a system register, of a grid with the attribute and of one without. -/
theorem witness_System_registers :
    Issues state env sbody.toBody { writes := regsOf (.v 5) } ∧ env.g.launch.sys = false ∧
    (Issues (state thread {} { launch with sys := true }) (env thread {} { launch with sys := true }) sbody.toBody { writes := regsOf (.v 5) } ∧
      (env thread {} { launch with sys := true }).g.launch.sys = true) ∧
    (0x0FF < 0x100 ∧ 0x100 ≤ 0x120) ∧
    (Issues (state thread {} launch { root := 0x1000, snapen := true }) (env thread {} launch { root := 0x1000, snapen := true }) sbody.toBody {} ∧
      (env thread {} launch { root := 0x1000, snapen := true }).c.snapen = true) ∧ env.c.snapen = false ∧ env.exec sbody.grd ≠ [] := by and_intros <;> decide

theorem witness_Branch_terminals : state.env? = some env ∧ ∀ x ∈ env.threads, x.lbrk = false ∧ x.newLevel = none := by and_intros <;> decide

/-- A call stack of 15 and of 16; a return that agrees, one from an empty stack and one with a level too many; the end of a loop's body. -/
theorem witness_Stack_terminals :
    (let x := { thread with calls := List.replicate 15 (0, 0) }
     (state x).env? = some (env x) ∧ ∀ y ∈ (env x).threads, y.calls.length < 16 ∧ (y.calls.head?).map (·.2) = some y.levels.length) ∧
    (let x := { thread with calls := List.replicate 16 (0, 0) }
     (state x).env? = some (env x) ∧ ∃ y ∈ (env x).threads, 16 ≤ y.calls.length) ∧
    (env.threads ≠ [] ∧ ∀ y ∈ env.threads, y.calls = []) ∧
    (let x := { looping with calls := [(0, 0)] }
     (state x).env? = some (env x) ∧ ∀ y ∈ (env x).threads, (y.calls.head?).map (·.2) ≠ some y.levels.length) ∧
    ((state looping).env? = some (env looping) ∧ ∀ x ∈ (env looping).threads, (x.levels.head?).map (·.last) = some (env looping).b.addr) ∧
    ∃ x ∈ env.threads, (x.levels.head?).map (·.last) ≠ some env.b.addr := by and_intros <;> decide

/-- A prepared level of a count, and of none; a mark; and a body end whose header can be fetched. -/
theorem witness_Loop_boundary :
    (let lv : Level := { ctr := 1, start := 0x20, last := 0x40000040 }
     let x := { thread with newLevel := some (lv, 2 ^ 32 - 1) }
     (state x).env? = some (env x) ∧ (∀ y ∈ (env x).threads, y.lbrk = false ∧ y.newLevel = some (lv, 2 ^ 32 - 1)) ∧ 2 ^ 32 - 1 < 2 ^ 32) ∧
    (let lv : Level := { ctr := 1, start := 0x20, last := 0x40000040 }
     let x := { thread with lbrk := true, levels := [lv] }
     (state x).env? = some (env x) ∧ ∀ y ∈ (env x).threads, y.lbrk = true ∧ y.levels.head? = some lv) := by and_intros <;> decide

theorem witness_fetch : ∃ w, fetchWord state 0 0 (vaOf 0x40000040) = .ok w := by
  rw [fetchWord_fresh rfl rfl]
  exact ⟨_, rfl⟩

/-- The register that the last word names, with an aligned value and one that is not. -/
theorem witness_Brx_and_exit :
    (let o := Operand.ofField (fieldOf 10 99 (env.b.words.getLastD 0))
     (∀ x ∈ env.threads, x.lbrk = false ∧ x.newLevel = none ∧ ∀ r ∈ regsOf o, x.pend.get none r = none) ∧
     (∀ x ∈ env.threads, (readOp state env 0 x o).toNat % 16 = 0 ∧
       canonical ((env.g.launch.code.signExtend 64 + readOp state env 0 x o).toNat) = true)) ∧
    (let y := { thread with v := [(0, 15)] }
     (state y).env? = some (env y) ∧ (env y).threads ≠ [] ∧
       ∀ x ∈ (env y).threads, (readOp (state y) (env y) 0 x (.v 0)).toNat % 16 ≠ 0) ∧
    Operand.ofField (fieldOf 10 99 (env.b.words.getLastD 0)) = .v 0 ∧ env.t.insts = [] := by and_intros <;> decide


/-! ### Memory words -/

/-- D = v5, address in v1, data in v2, rank in v3; 16 bytes. -/
def lbody : LBody := { d := .v 5, a := .v 1, b := .v 2, c := .v 3, sz := 4 }

/-- A thread with v1, v2 and v3. -/
def three (a b c : W64) : Thread := { thread with v := [(1, a), (2, b), (3, c)] }

/-- Sixteen bytes that end at the limit, that lie beyond it, and that are not aligned; 128 bytes and a packed word that end at it. -/
theorem witness_Scratchpad_loads :
    (lbody.sz.toNat ≤ 4 ∧ Issues (state (three 4080 0 0)) (env (three 4080 0 0)) lbody.toBody
        { reads := regsOf (.v 1), writes := regsOf (.v 5) 2, long := true, bank := true } ∧ spanOf 16 = 2 ∧
      (∀ x ∈ (env (three 4080 0 0)).exec .always, memOffset state env x lbody + 16 ≤ 4096 ∧ memOffset state env x lbody % 16 = 0) ∧
      env.t.spadPoisoned 4080 16 = false ∧ env.g.launch.spad = 4096) ∧
    ((env (three 4088 0 0)).exec .always = [three 4088 0 0] ∧ 4096 < memOffset state env (three 4088 0 0) lbody + 16) ∧
    (memOffset state env (three 4072 0 0) lbody + 16 ≤ 4096 ∧ memOffset state env (three 4072 0 0) lbody % 16 ≠ 0) ∧
    (let f : LBody := { lbody with opx := 15 }
     Issues (state (three 3968 0 0)) (env (three 3968 0 0)) f.toBody { reads := regsOf (.v 1), writes := regsOf (.v 5) 16, long := true, bank := true } ∧
     ∀ x ∈ (env (three 3968 0 0)).exec .always, memOffset state env x f + 8 * 16 ≤ 4096 ∧ memOffset state env x f % 8 = 0 ∧
       env.t.spadPoisoned (memOffset state env x f) (8 * 16) = false) ∧
    (Issues (state (three 4080 2 0)) (env (three 4080 2 0)) lbody.toBody
        { reads := regsOf (.v 1) ++ regsOf (.v 2), writes := regsOf (.v 5), long := true, bank := true } ∧
     ∀ x ∈ (env (three 4080 2 0)).exec .always, let p := packedOf state env x lbody
       memOffset state env x lbody + (p.first + p.len) ≤ 4096 ∧ env.t.spadPoisoned (memOffset state env x lbody + p.first) p.len = false) := by and_intros <;> decide

theorem witness_Scratchpad_stores :
    SMap.wf 0 env.t.spad = true ∧
    (Issues (state (three 4080 0 0)) (env (three 4080 0 0)) lbody.toBody { reads := regsOf (.v 1) ++ regsOf (.v 2) 2, bank := true } ∧
      ∀ x ∈ (env (three 4080 0 0)).exec .always, memOffset state env x lbody + 16 ≤ 4096 ∧ memOffset state env x lbody % 16 = 0) ∧
    4096 < memOffset state env (three 4088 0 0) lbody + 16 ∧
    (let f : LBody := { lbody with opx := 15 }
     Issues (state (three 3968 0 0)) (env (three 3968 0 0)) f.toBody { reads := regsOf (.v 1) ++ regsOf (.v 2) 16, bank := true } ∧
     ∀ x ∈ (env (three 3968 0 0)).exec .always, memOffset state env x f + 8 * 16 ≤ 4096 ∧ memOffset state env x f % 8 = 0) ∧
    (Issues (state (three 4080 2 0)) (env (three 4080 2 0)) lbody.toBody { reads := regsOf (.v 1) ++ regsOf (.v 2) ++ regsOf (.v 3), bank := true } ∧
     ∀ x ∈ (env (three 4080 2 0)).exec .always, let p := packedOf state env x lbody
       memOffset state env x lbody + (p.first + p.len) ≤ 4096) := by and_intros <;> decide

/-- Rank 0 of a cohort of one, and rank 1; rank 0 is the own team there, rank 1 of two a mate. -/
theorem witness_Cohort_and_bank_words :
    (let x := three 4080 7 0
     let e := env x
     Issues (state x) e lbody.toBody { reads := regsOf (.v 1) ++ regsOf (.v 3), writes := regsOf (.v 5) 2, long := true, bank := true } ∧
     Issues (state x) e lbody.toBody { reads := regsOf (.v 1) ++ regsOf (.v 2) 2 ++ regsOf (.v 3), bank := true } ∧
     Issues (state x) e lbody.toBody { atomUse lbody true with bank := true } ∧ Issues (state x) e lbody.toBody { atomUse lbody with bank := true } ∧
     (readOp (state x) e 0 x (.v 3)).toNat < e.g.launch.coh ∧ memOffset (state x) e x lbody + 16 ≤ e.g.launch.spad ∧
     memOffset (state x) e x lbody % 16 = 0 ∧ (peerNow (state x) e 0).spadPoisoned 4080 16 = false ∧ e.t.spadPoisoned 4080 16 = false) ∧
    (let x := three 4080 7 1
     (env x).exec .always = [x] ∧ (env x).g.launch.coh ≤ (readOp (state x) (env x) 0 x (.v 3)).toNat) ∧
    (let e := env (three 4080 7 1) {} { launch with coh := 2 }
     peerIndex env 0 = env.t.index ∧ peerIndex e 1 ≠ e.t.index ∧ e.g.launch.coh = 2 ∧ state.packets = [] ∧ SMap.wf 0 e.t.spad = true) ∧
    (let f : LBody := { lbody with sz := 3 }
     Issues (state (three 8 7 0)) (env (three 8 7 0)) f.toBody { atomUse f with bank := true } ∧ f.opx = 0 ∧ f.sz.toNat ≤ 3) := by and_intros <;> decide

/-- The last well that fits, with a target and with none. -/
theorem witness_Well_initialisation :
    (let x := three 4064 0xFFFFFFFF 0
     Issues (state x) (env x) lbody.toBody { reads := regsOf (.v 1) ++ regsOf (.v 2), bank := true } ∧ (env x).exec .always ≠ [] ∧
     (∀ y ∈ (env x).exec .always, memOffset (state x) (env x) y lbody = 4064 ∧
       (readOp (state x) (env x) lbody.imm y lbody.b).toNat % 2 ^ 32 = 0xFFFFFFFF) ∧ 4064 + 32 ≤ (env x).g.launch.spad ∧ 4064 % 32 = 0) ∧
    (let x := three 4064 0x100000000 0
     ∀ y ∈ (env x).exec .always, (readOp (state x) (env x) lbody.imm y lbody.b).toNat % 2 ^ 32 = 0) := by and_intros <;> decide

/-- A team whose well at 4064 is armed with target 2. -/
def armed : Team := ({} : Team).setWell 4064 { target := 2, armed := true }

/-- An arrival at the armed well, at one that is not, and at the peer's of rank 0. -/
theorem witness_Well_arrival_and_wait :
    (let x := three 4064 1 0
     Issues (state x armed) (env x armed) lbody.toBody { reads := regsOf (.v 1) ++ regsOf (.v 2), bank := true } ∧
     Issues (state x armed) (env x armed) lbody.toBody { reads := regsOf (.v 1) ++ regsOf (.v 2) ++ regsOf (.v 3), bank := true } ∧
     Issues (state x armed) (env x armed) lbody.toBody { reads := regsOf (.v 1) ++ regsOf (.v 2), writes := regsOf (.v 5), bank := true } ∧
     (∀ y ∈ (env x armed).exec .always, memOffset (state x armed) (env x armed) y lbody = 4064) ∧ (4064 + 32 ≤ 4096 ∧ 4064 % 32 = 0) ∧
     (env x armed).t.spadPoisoned 4064 32 = false ∧ ((env x armed).t.well 4064).armed = true ∧ ((env x armed).t.well 4064).target = 2 ∧
     (state x armed).reqs = [] ∧ SMap.wf 0 (env x armed).t.spad = true ∧ (readOp (state x armed) (env x armed) 0 x (.v 3)).toNat < 1) ∧
    ((env (three 4064 1 0)).exec .always = [three 4064 1 0] ∧ (env (three 4064 1 0)).t.spadPoisoned 4064 32 = false ∧
      ((env (three 4064 1 0)).t.well 4064).armed = false) ∧
    lbody.mod3.getLsbD 0 = false ∧ { lbody with mod3 := 1 }.mod3.getLsbD 0 = true := by and_intros <;> decide

/-- A team with queue 0 of kind `k`, depth 2, whose thread 0 has `l` entries. -/
def queued (k : Nat) (l : List QEntry) : Team := { queues := [{ n := 0, kind := k, depth := 2, allow := 2, fifos := [{ tid := 0, entries := l }] }] }

/-- A ready entry of 16 bytes. -/
def ripe : QEntry := { bytes := 16, ready := true }

/-- A LOAD and a STORE FIFO with one place left; the last aligned bytes of segment 0. -/
theorem witness_queue_room (k : Nat) (h : k = 1 ∨ k = 3) :
    let m := queued k [ripe]
    let x := three 4080 0 0
    let e := env x m
    Issues (state x m) e lbody.toBody { reads := regsOf (.v 1) } ∧ Issues (state x m) e lbody.toBody { reads := regsOf (.v 1) ++ regsOf (.v 2) } ∧
    Issues (state x m) e lbody.toBody { reads := regsOf (.v 1) ++ regsOf (.v 2) 2, long := true } ∧
    Issues (state x m) e lbody.toBody { reads := regsOf (.v 1) ++ regsOf (.v 2) ++ regsOf (.v 3), long := true } ∧
    lbody.qn.toNat < e.g.launch.queues ∧ (queueNow e.t lbody).kind = k ∧
    fifoHeld ((queueNow e.t lbody).fifo 0) < (queueNow e.t lbody).depth ∧
    ((queueNow e.t lbody).fifo 0).entries.length < (queueNow e.t lbody).depth ∧
    memOffset (state x m) e x lbody + 16 ≤ (e.g.seg 0).2.toNat ∧ ((e.g.seg 0).1.toNat + 4080) % 2 ^ 64 % 16 = 0 ∧
    memOffset (state x m) e x lbody + ((packedOf (state x m) e x lbody).first + (packedOf (state x m) e x lbody).len) ≤ 4096 := by
  rcases h with rfl | rfl <;> and_intros <;> decide

/-- An entry for a QPOP, an empty FIFO, and a queue that is not there. -/
theorem witness_Decoupling_queues :
    (let m := queued 1 [ripe]
     Issues (state thread m) (env thread m) lbody.toBody { writes := regsOf (.v 5) 2, long := true } ∧
     unclaimed ((queueNow (env thread m).t lbody).fifo 0) = [ripe] ∧ ripe.bytes = 2 ^ lbody.sz.toNat ∧ ripe.poison = none ∧
     ripe.claimed = none ∧ ripe.ready = true ∧ m.spadPoisoned (slotAddr (queueNow m lbody) 0 ripe.slot) 16 = false) ∧
    ((env thread (queued 2 [ripe])).exec .always = [thread] ∧ (queueNow (env thread (queued 2 [ripe])).t lbody).kind = 2) ∧
    (∀ b, let m := { queued 2 [] with accessEnded := b }
     Issues (state thread m) (env thread m) lbody.toBody { writes := regsOf (.v 5) 2, long := true } ∧ (env thread m).exec .always = [thread] ∧
     (queueNow (env thread m).t lbody).kind = 2 ∧ (env thread m).t.accessEnded = b ∧ unclaimed ((queueNow (env thread m).t lbody).fifo 0) = []) ∧
    ((queueNow (env thread (queued 1 [])).t lbody).kind = 1 ∧ unclaimed ((queueNow (env thread (queued 1 [])).t lbody).fifo 0) = []) ∧
    (let f : LBody := { lbody with qn := 4 }
     Issues state env f.toBody { writes := regsOf (.v 5) 2, long := true } ∧ env.g.launch.queues ≤ f.qn.toNat ∧ env.exec .always ≠ []) := by and_intros <;> decide

theorem witness_store_translates : ∃ l, translateRange (state (three 4080 0 0) (queued 3 [ripe])) 0 0 (0x8000 + 4080) 16 .write = .ok l := by
  rw [translateRange_fresh rfl]
  exact ⟨_, rfl⟩

/-- A named queue of 1 and of 512 values that ends at the limit; one with a value; an allowance that stays within the room, and one value more. -/
theorem witness_Named_queues :
    (∀ d ∈ [1, 512], let x := three 0 (BitVec.ofNat 64 d) 0
     let f : LBody := { lbody with mod3 := 4 }
     Issues (state x) (env x) f.toBody {} ∧ ((env x).exec .always).getLast? = some x ∧ f.qn.toNat < (env x).g.launch.queues ∧
     memOffset (state x) (env x) x f % 256 = 0 ∧ memOffset (state x) (env x) x f + (readOp (state x) (env x) 0 x (.v 2)).toNat * 8 ≤ 4096 ∧
     (readOp (state x) (env x) 0 x (.v 2)).toNat = d ∧ (env x).t.queues = [] ∧ queueBusy (state x) (env x).t (queueNow (env x).t f) = false) ∧
    (let x := three 0 2 0
     let m := { queued 4 [] with queues := [{ n := 0, kind := 4, depth := 4, occ := 1, allow := 1 }] }
     let e := env x m
     Issues (state x m) e lbody.toBody { reads := regsOf (.v 2) } ∧ Issues (state x m) e lbody.toBody { writes := regsOf (.v 5) } ∧
     lbody.qn.toNat < e.g.launch.queues ∧ (queueNow e.t lbody).kind = 4 ∧ (e.exec .always).getLast? = some x ∧ (state x m).reqs = [] ∧
     (reserved (state x m) e.t 0).1 < (queueNow e.t lbody).occ ∧
     (queueNow e.t lbody).allow + (readOp (state x m) e 0 x (.v 2)).toNat ≤ (queueNow e.t lbody).depth - (queueNow e.t lbody).occ) ∧
    (let x := three 0 3 0
     let m := queued 4 []
     let e := env x m
     (queueNow e.t lbody).occ ≤ (reserved (state x m) e.t 0).1 ∧
     (queueNow e.t lbody).depth - (queueNow e.t lbody).occ < (queueNow e.t lbody).allow + (readOp (state x m) e 0 x (.v 2)).toNat) := by and_intros <;> decide

/-- A bundle with a reservation for one pop and one push on queue 0, and one without; each kind of queue that fits, and a queue in use. -/
theorem witness_Named_queue_reservations :
    (let x := three 0 2 0
     let m : Team := { queues := [{ n := 0, kind := 4, depth := 4, occ := 1, allow := 1 }] }
     let b := { bundle with resv := [(0, 1, 1)] }
     let s := { state x m with bundles := [b] }
     let e := { env x m with b := b }
     Issues s e lbody.toBody { reads := regsOf (.v 2) } ∧ Issues s e lbody.toBody { writes := regsOf (.v 5) } ∧ s.quiet ∧
     (∃ r ∈ e.b.resv, r.1 = lbody.qn.toNat ∧ 0 < r.2.2) ∧ (∃ r ∈ e.b.resv, r.1 = lbody.qn.toNat ∧ 0 < r.2.1) ∧
     (¬ ∃ r ∈ (env x m).b.resv, r.1 = lbody.qn.toNat) ∧ SMap.wf 0 e.t.spad = true) ∧
    (∀ k ∈ [1, 2, 3], ∀ d ∈ [1, 8], let x := three 0 (BitVec.ofNat 64 d) 0
     let f : LBody := { lbody with mod3 := BitVec.ofNat 3 k }
     Issues (state x) (env x) f.toBody {} ∧ memOffset (state x) (env x) x f + 512 * (env x).g.launch.wpt * d ≤ (env x).g.launch.spad ∧
     f.mod3.toNat = k ∧ queueBusy (state x) (env x).t (queueNow (env x).t f) = false) ∧
    (let m := queued 1 [ripe]
     queueBusy (state thread m) (env thread m).t (queueNow (env thread m).t lbody) = true ∧ ({ lbody with mod3 := 0 } : LBody).mod3.toNat = 0) := by
  unfold State.quiet
  and_intros <;> decide

/-- Thread 0 of a grid of depth 0 with a packet at 0x8000; depth 10; another thread; a packet that is not aligned. -/
theorem witness_Nesting_words :
    (let x := three 0x8000 0 0
     Issues (state x) (env x) sbody.toBody { reads := regsOf (.v 1), writes := regsOf (.v 5), long := true } ∧
     (env x).exec .always = [x] ∧ (env x).g.depth < 10 ∧ x.tid = 0 ∧ (readOp (state x) (env x) 0 x (.v 1)).toNat % 64 = 0 ∧ (state x).reqs = [] ∧ (state x).memWf = true ∧
     (state x).packets = [] ∧
     (state x).regions = []) ∧
    (Issues { state with grids := [{ launch := launch, depth := 10 }] } { env with g := { launch := launch, depth := 10 } } sbody.toBody
      { reads := regsOf (.v 1), writes := regsOf (.v 5), long := true }) ∧
    (let x := { thread with tid := 1 }
     let s := { state x with bundles := [{ bundle with members := [1] }] }
     let e := { env x with b := { bundle with members := [1] } }
     Issues s e sbody.toBody { reads := regsOf (.v 1), writes := regsOf (.v 5), long := true } ∧ e.exec .always = [x] ∧ x.tid ≠ 0) ∧
    (let x := three 0x8020 0 0
     (env x).exec .always = [x] ∧ (readOp (state x) (env x) 0 x (.v 1)).toNat % 64 ≠ 0) := by and_intros <;> decide

theorem witness_packet_translates : ∃ l, translateRange (state (three 0x8000 0 0)) 0 0 0x8000 512 .read = .ok l ∧
    segPoison (state (three 0x8000 0 0)) (segsOf l) = 0 := by
  rw [translateRange_fresh rfl]
  exact ⟨_, rfl, by decide⟩

/-- With no access in flight, SPAWN's fence leaves the state as it is. -/
theorem witness_spawn_release : releaseThread (state (three 0x8000 0 0)) 0 0 0 false = state (three 0x8000 0 0) := by decide

/-- Segment 1 lies in host memory. -/
def hostSeg : Launch := { launch with sg := [(0x8000, 0x1000), (0x80000000, 0x1000)] }

/-- The tables with the third GiB in host memory. -/
def hostState (x : Thread) : State := { state x {} hostSeg with mem := tables ++ [(0x3010, 0x2F)] }

/-- The words of a global atomic on the last aligned bytes of segment 0. -/
theorem witness_Global_atomics :
    (let x := three 4080 1 0
     Issues (state x) (env x) lbody.toBody (atomUse lbody) ∧ Issues (state x) (env x) lbody.toBody { reads := regsOf (.v 1) ++ regsOf (.v 2) } ∧
     (env x).exec .always = [x] ∧ (state x).regions = []) ∧
    (let x := three 4080 1 0
     let f : LBody := { lbody with seg := 1, opx := 0x10, sz := 2 }
     Issues (hostState x) (env x {} hostSeg) f.toBody (atomUse f) ∧
     memOffset (hostState x) (env x {} hostSeg) x f + 4 ≤ ((env x {} hostSeg).g.seg 1).2.toNat ∧ globalVa (env x {} hostSeg) f 4080 % 4 = 0) := by and_intros <;> decide

theorem witness_atomics_pass (a d : Bool) : atomCheck (state (three 4080 1 0)) (env (three 4080 1 0)) lbody (three 4080 1 0) a d = none := by
  simp only [atomCheck, translateRange_fresh (s := state (three 4080 1 0)) rfl]
  cases a <;> cases d <;> decide

theorem witness_updates_fit (d : Bool) : updateRoom (state (three 4080 1 0)) (env (three 4080 1 0)) lbody d [three 4080 1 0] = true := by
  simp only [updateRoom, needOf, segsFor, translateRange_fresh (s := state (three 4080 1 0)) rfl, List.map]
  cases d <;> decide +kernel

/-- Host memory takes no operation 0x10. -/
theorem witness_atomics_rejected (a d : Bool) : ∃ l, translateRange (hostState thread) 0 0 (0x80000000 + 4080) 4 .atomic = .ok l ∧
    atomicAccepted (kindOf (segsOf l)) 0x10 4 a d = false := by
  rw [translateRange_fresh rfl]
  exact ⟨_, rfl, by cases a <;> cases d <;> decide⟩

/-- The bundle under a stochastic slot 0. -/
def noisy : Bundle := { bundle with fmt := [0x45501FEF1] }

/-- A 16-byte floating add. -/
def fadd : LBody := { lbody with opx := 0x10 }

def noisyEnv : Env := { env (three 4080 1 0) with b := noisy }

def crowded (c : List Counter) (r : List Req) : State := { state (three 4080 1 0) with bundles := [noisy], counters := c, reqs := r }

theorem crowded_range (c : List Counter) (r : List Req) (va n : Nat) (acc : Access) :
    freshRange (crowded c r) 0 va n acc = freshRange (state (three 4080 1 0)) 0 va n acc := rfl

theorem crowded_offset (c : List Counter) (r : List Req) :
    memOffset (crowded c r) noisyEnv (three 4080 1 0) fadd = memOffset (state (three 4080 1 0)) noisyEnv (three 4080 1 0) fadd := rfl

theorem crowded_stack (c : List Counter) (r : List Req) :
    (segsFor (crowded c r) noisyEnv (globalVa noisyEnv fadd (memOffset (crowded c r) noisyEnv (three 4080 1 0) fadd)) 1 .atomic).head?.map
      (·.2.1) = some 0x8FF0 := by
  rw [crowded_offset, show globalVa noisyEnv fadd (memOffset (state (three 4080 1 0)) noisyEnv (three 4080 1 0) fadd) = 0x8FF0 by decide]
  simp only [segsFor, translateRange_fresh (s := crowded c r) rfl, show noisyEnv.g.ctx = 0 by decide, crowded_range]
  decide

/-- `n` update numbers of another grid in the stack. -/
def fullCounters (n : Nat) : State := crowded (List.replicate n { grid := 1, stack := 15 }) []

theorem fullCounters_pool (n : Nat) : poolFree (fullCounters n) 0 = 0 := by
  have h : poolBytes (fullCounters n) 0 = 0 := by
    unfold poolBytes fullCounters crowded
    simp only [List.filter_replicate, Bool.false_and]
    rfl
  rw [poolFree, h]
  rfl

/-- The four elements of the update need a number each, for the other grid's serve none of them. -/
theorem fullCounters_need (n : Nat) (d : Bool) : ∃ h c, needOf (fullCounters n) noisyEnv fadd d (three 4080 1 0) =
    { ctx := 0, home := h, stack := 15, entry := d, counters := c } ∧ c.eraseDups.length = 4 := by
  have hs := crowded_stack (List.replicate n { grid := 1, stack := 15 }) []
  have hc (p : Nat) : ((fullCounters n).counters.any fun c => (c.bit, c.grid) == (p, 0)) = false := by
    rw [show (fullCounters n).counters = List.replicate n { grid := 1, stack := 15 } from rfl, List.any_eq_false]
    intro c h
    rw [(List.mem_replicate.mp h).2]
    simp
  refine ⟨(needAt (fullCounters n) 0x8FF0 0).home, (List.range 4).map fun i => (elemBit 0x8FF0 32 i, 0), ?_, by decide⟩
  unfold needOf newCounters countersFor
  simp only [fullCounters, hs, Option.getD]
  rw [crowded_offset, show globalVa noisyEnv fadd (memOffset (state (three 4080 1 0)) noisyEnv (three 4080 1 0) fadd) = 0x8FF0 by decide,
    show drawCount fadd.opx.toNat (accBytes fadd) (noisyEnv.slot fadd.fs.toNat) = 4 by decide,
    show (Fmt.of (noisyEnv.slot fadd.fs.toNat)).width = 32 by decide, show noisyEnv.g.num = 0 from rfl,
    List.filter_eq_self.mpr (fun p hp => ?_)]
  · rfl
  · obtain ⟨i, -, rfl⟩ := List.mem_map.mp hp
    exact congrArg (! ·) (hc _)

/-- A word whose counters find neither backing nor pool. -/
theorem updateRoom_exhausted {s : State} {e : Env} {f : LBody} {x : Thread} {d : Bool} {n : Need} (hn : needOf s e f d x = n)
    (hx : n.ctx = e.g.ctx) (hout : needsOut s = []) (hp : poolFree s e.g.ctx = 0) (hl : 65536 ≤ (s.counters.filter fun c => c.stack == n.stack && !c.pool).length)
    (hc : n.counters.eraseDups.length = 4) : updateRoom s e f d [x] = false := by
  have h0 : n.counters ≠ [] := fun h => by simp [h] at hc
  have he (k : Nat) : [k].eraseDups = [k] := rfl
  unfold updateRoom
  rw [hp, hout]
  simp only [List.nil_append, List.map_cons, List.map_nil, hn, he]
  simp [beyond, hc, h0, hx]
  omega

theorem witness_updates_exhausted (n : Nat) (hn : 65536 ≤ n) (d : Bool) :
    updateRoom (fullCounters n) noisyEnv fadd d [three 4080 1 0] = false := by
  obtain ⟨h, c, hneed, hc⟩ := fullCounters_need n d
  refine updateRoom_exhausted hneed rfl rfl (fullCounters_pool n) ?_ hc
  rw [show (fullCounters n).counters = List.replicate n { grid := 1, stack := 15 } from rfl, List.filter_replicate_of_pos rfl,
    List.length_replicate]
  exact hn

/-- A write to peer memory that a thread's system release waits for. -/
def peering : State := { state with reqs := [{ id := 60, path := .q, agent := .thread 0 0 0, kind := .store [1] [0xFF], segs := [(2, 0, 1)] }] }

theorem witness_Fences_locks_prefetch :
    Issues state env lbody.toBody {} ∧ env.exec .always ≠ [] ∧ 2 ≤ ({ lbody with scope := 2 } : LBody).scope.toNat ∧ lbody.mod3 ≠ 1 ∧
    (let f : LBody := { lbody with scope := 5, opx := 0x7F }
     (∀ x ∈ env.exec .always, peerHeld state env x f [[.q], [.a], [.m]] = false ∧ peerHeld state env x f [maskPaths f.opx] = false) ∧
     Issues peering env f.toBody {} ∧ peerHeld peering env thread f [[.q], [.a], [.m]] = true ∧ peerHeld peering env thread f [maskPaths f.opx] = true) ∧
    (let x := three 4095 0 0
     Issues (state x) (env x) lbody.toBody { reads := regsOf (.v 1), writes := regsOf (.v 5), long := true } ∧
     Issues (state x) (env x) lbody.toBody { reads := regsOf (.v 1), drops := true } ∧ (env x).exec .always = [x] ∧
     (state x).regions = [] ∧ ∀ r ∈ (state x).reqs, r.gathered = false) ∧
    (let x := { three 4095 0 0 with vpoison := [1] }
     Issues (state x) (env x) lbody.toBody { reads := regsOf (.v 1), drops := true }) := by and_intros <;> decide

/-- A lock of the last byte of a segment of device memory, and of one in host memory. -/
theorem witness_locks_pass (r : Bool) : lockCheck (state (three 4095 0 0)) (env (three 4095 0 0)) lbody r (three 4095 0 0) = none ∧
    isDevice (segsFor (state (three 4095 0 0)) (env (three 4095 0 0)) (globalVa (env (three 4095 0 0)) lbody 4095) 1 .read) = true := by
  simp only [lockCheck, segsFor, translateRange_fresh (s := state (three 4095 0 0)) rfl]
  cases r <;> decide

theorem witness_host_locks_pass (r : Bool) :
    lockCheck (hostState (three 4095 0 0)) (env (three 4095 0 0) {} hostSeg) { lbody with seg := 1 } r (three 4095 0 0) = none ∧
    isDevice (segsFor (hostState (three 4095 0 0)) (env (three 4095 0 0) {} hostSeg)
      (globalVa (env (three 4095 0 0) {} hostSeg) { lbody with seg := 1 } 4095) 1 .read) = false := by
  simp only [lockCheck, segsFor, translateRange_fresh (s := hostState (three 4095 0 0)) rfl]
  cases r <;> decide

/-! ### Matrix words -/

/-- D = m0, A = v1, B = m0, of the scratchpad. -/
def mbody : MBody := { d := .m 0, a := .v 1, b := .m 0, aux := 0x10 }

/-- A team with a warp and window 0 of four rows and four columns. -/
def windowed : Team := { warps := [{}], wins := [{ n := 0, rows := 4, cols := 4 }] }

/-- 64 bytes that end at the limit of the scratchpad. -/
theorem witness_Tile_words :
    (let x := three 4032 0 0
     let s := state x windowed
     let e := env x windowed
     Issues s e mbody.toBody { reads := regsOf (.v 1), long := true } ∧ Issues s e mbody.toBody {} ∧ e.exec .always = [x] ∧
     MBody.inSpad mbody = true ∧ (∀ y ∈ e.exec .always, tileCheck s e mbody (tileOffset s e y mbody) 64 16 .read = none ∧
       tileCheck s e mbody (tileOffset s e y mbody) 64 16 .write = none ∧ columnPoison e.t y (tileOf mbody.b) = none) ∧ fencedIds s x .m = [] ∧
     (e.t.warp? x.warp).isSome = true ∧ SMap.wf 0 e.t.spad = true ∧ ∀ w ∈ e.t.warps, SMap.wf 0 w.tiles = true) := by and_intros <;> decide

/-- 64 bytes that end at the limit of a segment. -/
theorem witness_tile_segment (acc : Access) (h : acc = .read ∨ acc = .write) :
    tileCheck (state (three 4032 0 0) windowed) (env (three 4032 0 0) windowed) { mbody with aux := 0 } 4032 64 16 acc = none := by
  simp only [tileCheck, translateRange_fresh (s := state (three 4032 0 0) windowed) rfl]
  rcases h with rfl | rfl <;> decide

/-- D = A0 and A = A0, B = v1. -/
def abody : MBody := { d := .a 0, a := .v 1, b := .v 2, c := .v 3 }

/-- The largest window; one without rows; a number or a region that is taken; alignments at and past both ends. -/
theorem witness_Window_words :
    (let x := three 0xB08000C000 0 0
     let v := readOp (state x) (env x) abody.imm x abody.a
     (env x).exec .always = [x] ∧ (∀ m ∈ (state x).teams, ∀ i ∈ m.insts, i.win ≠ winOf abody.d) ∧
     Issues (state x) (env x) abody.toBody { reads := regsOf (.v 1) } ∧ Issues (state x) (env x) abody.toBody { long := true } ∧
     Issues (state x) (env x) abody.toBody { reads := regsOf (.v 1), long := true } ∧
     descriptorOk (env x).g.launch.accg v (windowOf 0 v) = true ∧ (windowOf 0 v).rows = 192 ∧ (windowOf 0 v).cols = 128 ∧
     (windowOf 0 v).lanes = 11 ∧ (env x).t.wins = [] ∧ (env x).t.window? 0 = none) ∧
    descriptorOk 33 0xB080000000 (windowOf 0 0xB080000000) = false ∧
    (let x := three 0xB08000C000 0 0
     (env x windowed).exec .always = [x] ∧ (∃ w ∈ (env x windowed).t.wins, w.n = 0 ∨ overlaps w (windowOf 1 0xB08000C000) = true) ∧
     (∀ m ∈ (state x windowed).teams, ∀ i ∈ m.insts, i.win ≠ 0) ∧ (env x windowed).t.window? 0 = some { n := 0, rows := 4, cols := 4 } ∧
     Issues (state x windowed) (env x windowed) abody.toBody { reads := regsOf (.v 1), long := true } ∧
     Issues (state x windowed) (env x windowed) abody.toBody { long := true }) ∧
    (-8192 ≤ (0xFFFFFFFFFFFFE000 : W64).toInt ∧ (0x1FFF : W64).toInt ≤ 8191) ∧
    ((0xFFFFFFFFFFFFDFFF : W64).toInt < -8192 ∧ 8191 < (0x2000 : W64).toInt) := by and_intros <;> decide

/-- The last column of the window in either form; row 3 by operand. -/
theorem witness_Cell_words :
    (let x := three 3 3 3
     let s := state x windowed
     let e := env x windowed
     let raw : MBody := { d := .v 5, a := .a 0, b := .v 1, c := .v 3, mod3 := 3 }
     let el : MBody := { raw with mod3 := 2 }
     Issues s e raw.toBody { reads := regsOf (.v 1) ++ regsOf (.v 3), writes := regsOf (.v 5) 2, long := true } ∧
     Issues s e el.toBody { reads := regsOf (.v 1) ++ regsOf (.v 3), writes := regsOf (.v 5), long := true } ∧ e.exec .always = [x] ∧
     (∀ m ∈ s.teams, ∀ i ∈ m.insts, i.win ≠ 0) ∧ e.t.window? 0 = some { n := 0, rows := 4, cols := 4 } ∧
     cellCheck s e raw 0 x (colOf true 3) = none ∧ chunkCheck (e.t.window? 0) true 3 = none ∧ chunkOf 3 ≠ 15 ∧
     cellCheck s e el 0 x (colOf false 3) = none ∧ chunkCheck (e.t.window? 0) false 3 = none ∧
     cellPoison { n := 0, rows := 4, cols := 4 } 3 [3] = none ∧ SMap.wf {} ({ n := 0, rows := 4, cols := 4 } : Window).cells = true ∧
     Issues s e { raw.toBody with d := .a 0, a := .v 1, b := .v 2 } { reads := regsOf (.v 1) ++ regsOf (.v 2) 2 ++ regsOf (.v 3), long := true }) ∧
    (let x := three 4080 0 3
     let s := state x windowed
     let e := env x windowed
     let ld : MBody := { d := .a 0, a := .v 1, b := .a 0, c := .v 3, mod3 := 2, aux := 0x10 }
     Issues s e ld.toBody { reads := regsOf (.v 1) ++ regsOf (.v 3), long := true } ∧ cellCheck s e ld 0 x 0 = none ∧
     rowBytes e ld 0 = 16 ∧ tileCheck s e ld (tileOffset s e x ld) 16 1 .read = none ∧ tileCheck s e ld (tileOffset s e x ld) 16 1 .write = none ∧
     cellPoison { n := 0, rows := 4, cols := 4 } 3 (List.range 4) = none ∧ fencedIds s x .m = [] ∧ MBody.inSpad ld = true ∧
     MBody.inSpad { ld with aux := 0 } = false ∧ s.reqs = [] ∧ s.l1 = [] ∧ s.regions = []) ∧
    chunkOf 0xF03 = 15 ∧ colOf true 0xF03 = 3 ∧ chunkCheck (some { n := 0, rows := 4, cols := 4 }) true 0xF03 = none ∧
    1 ≤ ({ n := 0, rows := 4, cols := 4 } : Window).lanes ∧ (Fmt.of (env.slot 0)).stochastic = false := by and_intros <;> decide

/-- A window, a gang of warps 0 and 1, and a thread of warp 0 that has yet to come. -/
def grouped (l : List Inst) : Team := { windowed with threads := [{ tid := 1 }], gang := [0, 1], insts := l }

/-- A row group with a member to come, with an instance open and with none; no window; the gangs at the ends of R249's range. -/
theorem witness_Row_group_words :
    (let m := grouped [{ id := 60, group := [0], arrived := [0] }]
     let e := env thread m
     (state thread m).env? = some e ∧ (e.t.window? 0).isSome = true ∧
     (∀ x ∈ e.exec .always, e.t.gang.contains x.warp = true) ∧
     (∀ x ∈ e.threads, ∃ y ∈ e.t.threads, y.tid ∉ e.b.members ∧ (groupOf e false x).contains y.warp = true ∧
       (groupOf e true x).contains y.warp = true ∧ y.place ≠ .exited) ∧
     (∀ i ∈ e.t.insts, i.queued = false → ∃ y ∈ e.t.threads, y.tid ∉ e.b.members ∧ i.group.contains y.warp = true ∧ y.tid ∉ i.arrived ∧
       y.place ≠ .exited) ∧
     (∀ x ∈ e.threads, ∀ r ∈ aRange e 0 128 (.v 32) x, x.pend.get none r = none) ∧
     (∀ x ∈ e.exec .always, ∀ r ∈ aRange e 0 64 (.v 0) x, r < e.g.launch.vregs ∧ r ∉ x.vpoison) ∧
     (∀ n ∈ e.flag false, ∀ x ∈ e.exec .always, x.cf.get 0 n < 63)) ∧
    (state.env? = some env ∧ env.t.window? 0 = none ∧ env.exec .always ≠ [] ∧ abody.mod3.getLsbD 0 = false ∧ abody.aux.getLsbD 4 = false) ∧
    ([((0 : W64), true), (0x3, true), (0x3F, true), (0x1, false), (0x7F, false), (0xC0, false)].all (fun p =>
      let ws := (List.range 32).filter fun i => p.1.getLsbD i
      decide (ws = [] ∨ (2 ≤ ws.length ∧ ws.length ≤ 6 ∧ ∀ w ∈ ws, w < 6)) == p.2) = true) ∧
    Issues state env abody.toBody { reads := regsOf (.v 1) } ∧
    (let e := env thread (grouped [{ id := 60, group := [0, 1] }])
     e.t.gang ≠ [] ∧ ((∃ i ∈ e.t.insts, i.group = e.t.gang) ∨ ∃ r ∈ e.t.runs, r.group = e.t.gang ∧ (state thread).cc < r.ends)) := by
  and_intros <;> decide +kernel


/-! ### Engine commands -/

/-- Arguments in v1, v2 and v3, the reply in v5. -/
def xbody : XBody := { d := .v 5, a := .v 1, b := .v 2, c := .v 3 }

/-- A record at offset 0 that moves four words of 4 bytes from 0x8000 to offset 0, one at 64 without dimensions, and a registration at
4032 of one row of one scale. -/
def recorded : Team :=
  (({} : Team).setSpad 0 (leBytes 64 (0x8000 + 2 ^ 121 + 0x1600 * 2 ^ 128 + 4 * 2 ^ 192))).setSpad 4032
    (leBytes 64 (0x8000 + 2 ^ 128 + 2 ^ 160))

/-- A state in which channel 0 has the given status, held by team 0. -/
def held (st : Nat) (x : Thread := thread) (m : Team := {}) : State :=
  { state x m with scribes := [{ die := 0, ch := 0, status := st, holder := some (0, 0) }] }

/-- The last record that fits and one that does not; each status of .sgo, .screg and .scdesc; a channel of the team running, suspended,
and none; handles 63 and 64. -/
theorem witness_Scribe_handle_arguments :
    (let x := three 4032 4064 0
     let s := state x recorded
     let e := env x recorded
     (e.exec xbody.grd).getLast? = some x ∧
     Issues s e xbody.toBody { reads := [Operand.v 1, .v 2].flatMap regsOf, writes := regsOf (.v 5), long := true } ∧
     Issues s e xbody.toBody { reads := [Operand.v 1].flatMap regsOf, writes := regsOf (.v 5), long := true } ∧
     Issues s e xbody.toBody { reads := [Operand.v 1, .v 2, .v 3].flatMap regsOf, writes := regsOf (.v 5), long := true } ∧
     Issues s e xbody.toBody { reads := [], writes := regsOf (.v 5), long := true } ∧
     4032 + 64 ≤ e.g.launch.spad ∧ 4064 + 32 ≤ e.g.launch.spad ∧ e.t.spadPoisoned 4032 64 = false ∧ e.g.launch.spad < 4033 + 64 ∧
     s.reqs = []) ∧
    (let e := env thread recorded
     recordOk (e.t.spadBytes 0 64) e.g.launch.coh e.g.launch.spad (e.slot (xferOf (e.t.spadBytes 0 64)).sfs)
       (e.slot (xferOf (e.t.spadBytes 0 64)).dfs) = true ∧
     recordOk (e.t.spadBytes 64 64) e.g.launch.coh e.g.launch.spad (e.slot 0) (e.slot 0) = false ∧
     registrationOk (e.t.spadBytes 4032 64) = true ∧ registrationOk (e.t.spadBytes 64 64) = false) := by and_intros <;> decide

theorem witness_Scribe_and_handle_commands :
    (∀ k ∈ [0, 3], ((held k).scribe 0 0).held = false) ∧ (∀ k ∈ [1, 2], ((held k).scribe 0 0).held = true) ∧
    (4033 % 64 ≠ 0 ∧ 4065 % 32 ≠ 0) ∧ ownChannel state env 0 = none ∧ (ownChannel (held 1) env 0).map (·.status) = some 1 ∧
    (((held 2).scribe 0 0).holder = some (env.t.grid, env.t.index) ∧ ((held 2).scribe 0 0).status = 2) ∧
    (∀ c ∈ (held 1).scribeWait, c.holder ≠ some (0, 0)) ∧ waitingTransfer (held 2) env 0 = none ∧
    (let c : Scribe := { die := 0, ch := 0, status := 2, holder := some (0, 0) }
     waitingTransfer { state with scribeWait := [c] } env 0 = some c ∧ ({ state with scribeWait := [c] } : State).reqs = []) ∧
    scaleDescOk 0x2FE01 = true ∧ scaleDescOk 0xFF00 = false ∧ (handleOf { handles := [{ n := 63 }] } 63).isSome = true ∧
    (handleOf {} 63).isSome = false := by and_intros <;> decide

/-- The ends of each argument's range; a rank that the cohort has and one that it has not; both kinds of grid. -/
theorem witness_Other_engine_commands :
    (let x := three 0 1 0
     let s := state x
     let e := env x
     (e.exec xbody.grd).getLast? = some x ∧ s.reqs = [] ∧ e.g.launch.sys = false ∧ SMap.wf 0 e.t.params = true ∧ SMap.wf {} s.ctxs = true ∧
     Issues s e xbody.toBody { reads := [Operand.v 1, .v 2].flatMap regsOf, writes := regsOf (.v 5), long := true } ∧
     Issues s e xbody.toBody { reads := [Operand.v 1, .v 2, .v 3].flatMap regsOf, writes := regsOf (.v 5), long := true } ∧
     Issues s e xbody.toBody { reads := [Operand.v 1].flatMap regsOf, writes := regsOf (.v 5), long := true } ∧
     Issues s e xbody.toBody { reads := [], writes := regsOf (.v 5), long := true } ∧
     (∀ r < 64, (1 : W64).getLsbD r = true → r < e.g.launch.coh) ∧ ¬ (∀ r < 64, (2 : W64).getLsbD r = true → r < e.g.launch.coh) ∧
     (e.g.seg 0).2.toNat ≤ 0x1000 ∧ s.team? e.t.grid 1 = none ∧
     (3584 + 512 ≤ e.g.launch.spad ∧ 3584 % 16 = 0 ∧ 512 % 16 = 0) ∧ e.t.spadPoisoned 3584 512 = false) ∧
    (let l := { launch with sys := true }
     Issues (state thread {} l) (env thread {} l) xbody.toBody { reads := [], writes := regsOf (.v 5), long := true } ∧
     Issues (state thread {} l) (env thread {} l) xbody.toBody { reads := [Operand.v 1].flatMap regsOf, writes := regsOf (.v 5), long := true } ∧
     (env thread {} l).g.launch.sys = true) ∧
    ((15 : W64).toNat ≤ 15 ∧ 15 < (16 : W64).toNat ∧ ¬ (64 < (64 : W64).toNat) ∧ 64 < (65 : W64).toNat) ∧
    ((0x5F : Nat) < 0x60 ∧ 0x6F < (0x70 : Nat)) := by and_intros <;> decide


/-! ### Events -/

/-- Code words from physical address 0, which is virtual address 0x40000000. -/
def code (ws : List W128) : SMap Byte :=
  ((ws.flatMap fun w => leBytes 16 w.toNat).zipIdx.filter fun p => p.1 != 0).map fun p => (p.2, p.1)

/-- A bundle that has not begun the clause at `a`, and the clauses `ws` in memory. -/
def formed (a : Addr) (ws : List W128) (x : Thread := thread) : State :=
  { state { x with pc := a } with bundles := [{ bundle with addr := a, decoded := false, idx := 0 }], mem := code ws ++ tables }

/-- A clause that decodes; one that cannot be fetched; one whose word fails; a ready thread; a bundle passed over 48 times. -/
theorem witness_Clause_and_bundle_events :
    (let s := formed 0x40000000 [Header.bits {} 0, 0]
     (s.bundle? 7).isSome = true ∧ (s.bundle? 7).map (·.decoded) = some false ∧ s.quadIssued.contains (quadId 0 0) = false ∧
     (chooseBundle s 0 0).map (·.id) = some 7 ∧
     ∃ e, ((s.bundle? 7).bind s.envOf) = some e ∧ e.b.startAt = 0 ∧ (splitFormats s e).2.b.members ≠ [] ∧
       (∀ x ∈ (splitFormats s e).2.threads, breakTrap (splitFormats s e).2.c (splitFormats s e).2.g (splitFormats s e).2.t x = none ∧
         distanceTrap false x = none ∧ dueTraps (Header.bits {} 0) x = []) ∧
       fetchClause (splitFormats s e).1 0 (splitFormats s e).2.g (splitFormats s e).2.b.fmt 0x40000000 = .ok (Header.bits {} 0, [0])) ∧
    (∃ tr, fetchClause (formed 0 []) 0 { launch := launch } defaultFmt 0 = .error (0, tr)) ∧
    (∃ tr, fetchClause (formed 0x40000000 [Header.bits {} 0, 0xC0000000000000000000000000000000]) 0 { launch := launch } defaultFmt 0x40000000 =
      .error (1, tr)) ∧
    (let s := { state { thread with place := .boundary, pc := 0x40000000 } with bundles := [], mem := code [Header.bits {} 0, 0] ++ tables, cur := none }
     s.mgmt.fencedCores.contains 0 = false ∧ readyThreads s 0 0 = [(0, 0, 0)] ∧ ∃ e x, s.envOf { grid := 0, team := 0 } = some e ∧
       e.t.thread? 0 = some x ∧ threadNeeds s e x = [] ∧ s.bundles = []) ∧
    (let s := { state with bundles := [{ bundle with missed := 48 }] }
     (s.bundle? 7).map (fun b => decide (48 ≤ b.missed) && !b.overdue) = some true) := by
  refine ⟨⟨by decide, by decide, by decide, by decide, ⟨_, rfl, by decide, by decide, by decide, by rfl⟩⟩, ⟨_, by rfl⟩, ⟨_, by rfl⟩,
    ⟨by decide, by decide, ⟨_, _, rfl, by rfl, by decide, by decide⟩⟩, by decide⟩

/-- A thread at a boundary. -/
def atRest : Thread := { thread with place := .boundary }

/-- A team and its grid with nothing in flight. -/
def calm (x : Thread := atRest) (m : Team := {}) : State := { state x m with cur := none, bundles := [] }

/-- The MMA of Table 8-14 in a clause. -/
def mmaClause : List W128 := [Header.bits { setA := 1 } 0, 0x80000C4040C000000000000010000000]

theorem witness_Thread_events :
    (∀ x, x = atRest ∨ x = { atRest with place := .exited } → let o : Op := { id := 60, flag := some 0, dst := [(5, 7)] }
      ({ calm x with ops := [o] } : State).op? 60 = some o ∧ mayComplete { calm x with ops := [o] } o = true ∧
      (calm x).threadOf 0 0 0 = some x ∧ SMap.wf 0 x.cf = true ∧ o.poison = none ∧ o.efl = 0) ∧
    mayComplete (calm atRest) { id := 60, poison := some { code := 1 } } = true ∧
    ((calm { atRest with nap := some 9 }).threadOf 0 0 0).map (·.nap) = some (some 9) ∧ 9 ≤ (calm { atRest with nap := some 9 }).cc ∧
    (let x := { atRest with mrV := true, mrRef := 3 }
     let m : Meeting := { id := 3, addr := 0, members := [0] }
     let t : Team := { threads := [x], meetings := [m] }
     (calm x { meetings := [m] }).team? 0 0 = some t ∧ t.meetings.find? (·.id == 3) = some m ∧
     (∀ y ∈ m.members.filterMap t.thread?, doneWith m y = true) ∧ ∃ y ∈ m.members.filterMap t.thread?, waitsAt 3 y = true) ∧
    (let s := { calm { atRest with pc := 0x40000000 } windowed with mem := code mmaClause ++ tables }
     ∃ e, s.envOf { grid := 0, team := 0 } = some e ∧ e.t.phase = .running ∧ clauseAt s 0 e.g.ctx 0x40000000 = some (mmaClause.headD 0, mmaClause.drop 1) ∧
       rendezvous e.t (mmaClause.drop 1) 0x40000000 ≠ []) ∧
    (let i : Inst := { id := 61, queued := true, arg := { op := 2 } }
     let t : Team := { windowed with threads := [atRest], insts := [i] }
     (calm atRest { windowed with insts := [i] }).teams.find? (fun t => t.insts.any (·.id == 61)) = some t ∧
     t.insts.find? (·.id == 61) = some i ∧ instMayRun (calm atRest { windowed with insts := [i] }) t i = true ∧ (calm atRest { windowed with insts := [i] }).team? 0 0 = some t ∧
     (t.window? 0).isSome = true ∧ ∀ u ∈ (calm atRest { windowed with insts := [i] }).teams, ∀ j ∈ u.insts, j.queued = true) ∧
    (let i : Inst := { id := 61, queued := true, group := [0], rows := [{ tid := 0 }], cols := List.replicate 4 [0, 0] }
     let m : Team := { windowed with insts := [i] }
     let t : Team := { m with threads := [atRest] }
     (calm atRest m).teams.find? (fun t => t.insts.any (·.id == 61)) = some t ∧ t.insts.find? (·.id == 61) = some i ∧
     instMayRun (calm atRest m) t i = true ∧ i.arg.op < 2 ∧ i.applied = false ∧ (t.window? 0).isSome = true ∧ i.cols.length ≤ 128 ∧
     (i.rows.map fun r => rowOf? i.group ((t.thread? r.tid).getD { tid := r.tid })).Nodup) ∧
    (State.reset.cc % 65536 = 0 ∧ State.reset.epochAt ≠ State.reset.cc + 1) := by
  refine ⟨?_, by decide, by decide, by decide, ?_, ⟨_, rfl, by decide, by rfl, by decide⟩, by and_intros <;> decide, by and_intros <;> decide, by decide⟩
  · intro x hx
    rcases hx with rfl | rfl <;> and_intros <;> decide
  · and_intros <;> decide

/-- A ring of two records with room, and one that is full. -/
def ring (n : BitVec 16) : State :=
  { State.reset with mem := tables, faults := [{ grid := 0, team := 0, bytes := List.replicate 64 1 }],
                     mgmt := { State.reset.mgmt with frEn := true, frLog2n := 1, frTail := n } }

theorem witness_Fault_and_owner_events :
    ((calm atRest { phase := .holding }).team? 0 0 = some { phase := .holding, threads := [atRest] } ∧
      drainedBut (openInst { phase := .holding, threads := [atRest] }) (calm atRest { phase := .holding })
        { phase := .holding, threads := [atRest] } = true) ∧
    ((nextRecord (ring 1)).map (·.bytes.length) = some 64 ∧ (ring 1).mgmt.frEn = true ∧ ringFull (ring 1).mgmt = false ∧ (ring 1).memWf = true ∧
      (ring 1).reqs = [] ∧ (ring 1).regions = [] ∧ (ring 0).mgmt.frHead = (ring 0).mgmt.frTail ∧ ringFull (ring 0).mgmt = false) ∧
    ((nextRecord (ring 2)).isSome = true ∧ ringFull (ring 2).mgmt = true ∧ (ring 2).mgmt.frFull = false) ∧
    (let x := { atRest with place := .held }
     let s := calm x { phase := .held }
     s.mgmt.devstate = 1 ∧ s.team? 0 1 = none ∧ ∃ e, s.envOf { grid := 0, team := 0 } = some e ∧ e.t.phase = .held ∧ e.t.insts = [] ∧
       (e.t.threads.map (·.tid)).Nodup ∧ ∀ y ∈ e.t.threads, raisedEntries s e.g e.t y = [] ∧ y.deferred = []) ∧
    (teamNamed calm 0 0 = true ∧ teamNamed calm 0 1 = false ∧ (calm.grid? 0).map (·.ended) = some none) := by
  refine ⟨by decide, by decide, by decide, ⟨by decide, by decide, ⟨_, rfl, by decide, by decide, by decide, by decide⟩⟩, by decide⟩

theorem witness_Retirement_events :
    (let x := { atRest with place := .exited }
     (calm x).team? 0 0 = some { threads := [x] } ∧ (∀ c ∈ (calm x).scribes ++ (calm x).scribeWait, c.holder ≠ some (0, 0)) ∧
     drained (calm x) { threads := [x] } = true) ∧
    (let s := { calm with teams := [{ phase := .released }] }
     s.team? 0 0 = some { phase := .released } ∧ (s.grid? 0).isSome = true ∧ s.children 0 0 = []) ∧
    (let g : Grid := { launch := launch, done := 1 }
     ({ calm with grids := [g] } : State).grid? 0 = some g ∧ g.retired = false ∧ gridDone g = true) ∧
    (({ calm with grids := [{ launch := launch, retired := true }] } : State).grid? 0).map (·.retired) = some true := by and_intros <;> decide

/-- A preamble with one clause of a NOP, at the code base. -/
def kernel : SMap Byte := code ([0x00000000000000000000000143514B53, 0x00000000000000000000002000000040, 0, 0, Header.bits {} 0, 0] : List W128)

/-- A launch packet of that kernel: one team of one warp. -/
def packet (ent : Nat) : List Byte :=
  leBytes 4 0x10001 ++ leBytes 8 0x40000000 ++ leBytes 4 ent ++ leBytes 4 0xFFFFFFFF ++ leBytes 4 1 ++ leBytes 4 1 ++ leBytes 4 1 ++
  leBytes 2 0x0101 ++ leBytes 2 16 ++ leBytes 1 8 ++ List.replicate 475 0

/-- A graph packet of two nodes at 0x8000. -/
def graphPacket (steps : Nat) : List Byte := 
  leBytes 8 0x10002 ++ leBytes 8 0x8000 ++ leBytes 4 2 ++ leBytes 4 steps ++ List.replicate 488 0

/-- A queue 5 whose packet has been read. -/
def served (p : List Byte) : State :=
  { State.reset with sqs := [(5, { n := 5, en := true, log2n := 1, tail := 1, packet := some p })], mem := kernel ++ tables,
                     ctxs := [(0, { root := 0x1000 })] }

/-- A queue 5 with a packet submitted. -/
def waiting : State := { served [] with sqs := [(5, { n := 5, en := true, log2n := 1, tail := 1, base := 0x8000 })] }

theorem witness_Queue_events :
    (SMap.wf {} waiting.sqs = true ∧ waiting.mgmt.devstate = 1 ∧ (63 : Nat) < 64 ∧ 2 ^ 1 < ((3 : BitVec 16) - 0).toNat ∧
      ¬ 2 ^ 1 < ((2 : BitVec 16) - 0).toNat ∧ (waiting.sq 5).en = true ∧ (waiting.sq 4).en = false ∧
      (13 ≤ (0xD00000 : W64).toNat / 2 ^ 20 % 16 ∧ (0xC00000 : W64).toNat / 2 ^ 20 % 16 < 13)) ∧
    (nextQueue waiting = some 5 ∧ waiting.reqs = [] ∧ waiting.regions = []) ∧
    (let s := served (packet 64)
     (s.sq 5).packet = some (packet 64) ∧ SMap.wf {} s.sqs = true ∧ pkField (packet 64) 0 2 ≠ 2 ∧
     (match checkLaunch s 0 (packet 64) false true with
      | .ok l => mustWait s (s.sq 5) l.serial
      | .error _ => true) = false ∧ freeNumber s = some 0) ∧
    (let s := served (packet 80)
     (match checkLaunch s 0 (packet 80) false true with
      | .ok _ => 0
      | .error e => e.2) = 12 ∧ pkField (packet 80) 448 8 = 0) ∧
    (let s := served (graphPacket 1)
     (s.sq 5).packet = some (graphPacket 1) ∧ pkField (graphPacket 1) 0 2 = 2 ∧ graphFaults (graphPacket 1) = [] ∧
     graphFaults (graphPacket 0) ≠ []) ∧
    (let g : Graph := { queue := 5, node := 0xFFFF }
     ({ waiting with graphs := [g] } : State).graphs.find? (·.queue == 5) = some g ∧ g.grid = none ∧ g.result = none ∧ g.gwell = 0) := by
  and_intros <;> decide +kernel


/-! ### Placement and pre-emption -/

/-- A cohort of two that waits. -/
def cohort : State := { calm with teams := [], grids := [{ launch := { launch with gx := 2, coh := 2 } }] }

/-- Core 0 is full with a team of grid 1; grid 2 of priority 7 waits. -/
def crammedBy (mg : Mgmt) : State :=
  let l : Launch := { launch with spad := 4194304 }
  { calm with cc := 1200000
              teams := [{ grid := 1, threads := [atRest] }], grids := [{ num := 1, launch := l, started := 1 }, { num := 2, order := 1, launch := { l with prio := 7 } }],
              ctxs := [(0, { root := 0x1000, spool := 0x10000000, splen := 0x10000000 })],
              mgmt := mg }

/-- Every core but core 0 is fenced. -/
def crammed : State := crammedBy { State.reset.mgmt with fencedCores := List.range' 1 383 }

theorem walk_entry {s : State} {root va level e : Nat} (h : s.phys64 (root + 8 * bitsOf va (12 + 9 * level) 9) = e)
    (h0 : e.testBit 0 = true) (hb : pteBad e (level + 1) = false) :
    walk s root va (level + 1) = if e.testBit 1 then .inr (e, level + 1) else walk s (bitsOf e 12 28 * 4096) va level := by
  simp [walk, h, h0, hb]

theorem crammed_phys (mg : Mgmt) (a : Nat) : (crammedBy mg).phys64 a = crammed.phys64 a := rfl

theorem walk_first_GiB (mg : Mgmt) (va : Nat) (h : va < 2 ^ 30) : walk (crammedBy mg) 0x1000 va 5 = .inr (15, 3) := by
  have h5 : 0x1000 + 8 * bitsOf va (12 + 9 * 4) 9 = 0x1000 := by unfold bitsOf; omega
  have h4 : 0x2000 + 8 * bitsOf va (12 + 9 * 3) 9 = 0x2000 := by unfold bitsOf; omega
  have h3 : 0x3000 + 8 * bitsOf va (12 + 9 * 2) 9 = 0x3000 := by unfold bitsOf; omega
  rw [walk_entry (e := 0x2001) (by rw [h5, crammed_phys]; decide) (by decide) (by decide), if_neg (by decide), show bitsOf 0x2001 12 28 * 4096 = 0x2000 by decide,
    walk_entry (e := 0x3001) (by rw [h4, crammed_phys]; decide) (by decide) (by decide), if_neg (by decide), show bitsOf 0x3001 12 28 * 4096 = 0x3000 by decide,
    walk_entry (e := 15) (by rw [h3, crammed_phys]; decide) (by decide) (by decide), if_pos (by decide)]

theorem crammed_pool (mg : Mgmt) (k : Nat) (h : k < 2 ^ 24) : ∃ l, translateRange (crammedBy mg) noTlb 0 0x10000000 (max 1 (16 * k)) .write = .ok l := by
  refine translateRange_ok (by omega) fun v h1 h2 => ?_
  rw [translate_fresh rfl, Nat.mod_eq_of_lt (by omega)]
  unfold freshTranslate
  rw [show ((crammedBy mg).ctx 0).root.toNat / 4096 * 4096 % 2 ^ 40 = 0x1000 by
      rw [show (crammedBy mg).ctx 0 = crammed.ctx 0 from rfl]
      decide, walk_first_GiB mg v (by omega),
    show canonical v = true by unfold canonical bitsOf; simp; omega]
  exact ⟨_, rfl⟩

theorem crammed_offset (mg : Mgmt) (k : BitVec 24) : roomOffset (crammedBy mg) 0 (16 * k.toNat) = some 0 := by
  have hl := k.isLt
  unfold roomOffset
  rw [show (crammedBy mg).rooms = [] from rfl, show ((crammedBy mg).ctx 0).splen.toNat = 0x10000000 from rfl]
  have hf : decide (0 + 16 * k.toNat ≤ 0x10000000) = true := by
    rw [decide_eq_true_eq]
    omega
  simp only [List.filter, List.map, List.all, hf, Bool.and_self, List.min?, List.foldl]

theorem reserveRoom_ok {s : State} {g : Grid} {n size off : Nat} {l : List (PA × Nat)} (hs : imageRoom g.launch (s.faults.filter fun r => r.grid == g.num && r.team == n).length = size)
    (ho : roomOffset s g.ctx size = some off) (hl : translateRange s noTlb g.ctx (poolVa s g.ctx off) (max 1 size) .write = .ok l) :
    ∃ t, reserveRoom s g n = some t := by
  unfold reserveRoom
  simp only [hs, ho, writeSegs, hl]
  exact ⟨_, rfl⟩

/-- The team that fills its core. -/
def crammer : Grid := { num := 1, launch := { launch with spad := 4194304 }, started := 1 }

/-- The room of a team of one warp stays below 256 MiB, whatever the firmware's records need. -/
theorem room_below {l : Launch} (hw : l.wpt = 1) (ha : l.accg ≤ 33) (hq : l.queues ≤ 4) (hs : l.spad ≤ 4194304) (h16 : l.spad % 16 = 0)
    (hv : l.vregs ≤ 64) (ht : (l.tiles == 0) = false) : ∃ k : BitVec 24, imageRoom l 0 = 16 * k.toNat := by
  have c (n : Nat) : ∃ m, recordCap l n = 16 * m ∧ m < 65537 := ⟨1 + (Config.saveCap n (resources l)).toNat, by unfold recordCap; omega, by omega⟩
  obtain ⟨_, h1, _⟩ := c 0; obtain ⟨_, h2, _⟩ := c 1; obtain ⟨_, h3, _⟩ := c 2; obtain ⟨_, h4, _⟩ := c 3; obtain ⟨_, h5, _⟩ := c 0x12
  obtain ⟨_, h6, _⟩ := c 0x20; obtain ⟨_, h7, _⟩ := c 0x21; obtain ⟨m, h8, _⟩ := c 0x22; obtain ⟨n, h9, _⟩ := c 0x23
  obtain ⟨_, h10, _⟩ := c 0x30; obtain ⟨_, h11, _⟩ := c 0x31; obtain ⟨_, h12, _⟩ := c 0x32; obtain ⟨_, h13, _⟩ := c 0x50
  have hm : l.accg * m ≤ 33 * 65536 := Nat.mul_le_mul ha (by omega)
  have hn : l.queues * n ≤ 4 * 65536 := Nat.mul_le_mul hq (by omega)
  suffices ∃ k, imageRoom l 0 = 16 * k ∧ k < 2 ^ 24 by
    obtain ⟨k, hk, hl⟩ := this
    exact ⟨BitVec.ofNat 24 k, by rw [BitVec.toNat_ofNat, Nat.mod_eq_of_lt hl, hk]⟩
  refine ⟨imageRoom l 0 / 16, ?_, ?_⟩ <;>
    simp only [imageRoom, h1, h2, h3, h4, h5, h6, h7, h8, h9, h10, h11, h12, h13, hw, ht, Bool.false_eq_true, if_false, Nat.mul_left_comm _ 16] <;> omega

theorem crammed_room (mg : Mgmt) (g : Grid) (hg : g.ctx = 0) (n : Nat) (k : BitVec 24) (hk : imageRoom g.launch 0 = 16 * k.toNat) :
    ∃ s, reserveRoom (crammedBy mg) g n = some s := by
  obtain ⟨l, h⟩ := crammed_pool mg k.toNat k.isLt
  refine reserveRoom_ok (off := 0) (l := l) hk ?_ ?_
  · rw [hg]
    exact crammed_offset mg k
  · rw [hg, show poolVa (crammedBy mg) 0 0 = 0x10000000 from rfl]
    exact h

theorem crammer_size : ∃ k : BitVec 24, imageRoom crammer.launch 0 = 16 * k.toNat :=
  room_below (l := crammer.launch) rfl (by decide) (by decide) (by decide) (by decide) (by decide) rfl

theorem beginSave_one {s t : State} {g : Grid} {m : Team} {n : Nat} {b : Bool} (hg : s.grid? g.num = some g) (hm : takes s g.num n = [m])
    (h : reserveRoom s g m.index = some t) : ∃ u, beginSave s g.num n b = some u := by
  unfold beginSave
  rw [hg, hm]
  simp only [List.map, reserveAll, h, Option.bind, Option.map]
  exact ⟨_, rfl⟩

theorem crammed_save (mg : Mgmt) (by' : Bool) : ∃ s, beginSave (crammedBy mg) 1 0 by' = some s := by
  obtain ⟨k, hk⟩ := crammer_size
  obtain ⟨s, h⟩ := crammed_room mg crammer rfl 0 k hk
  have hm : takes (crammedBy mg) 1 0 = [{ grid := 1, threads := [atRest] }] := by
    rw [show takes (crammedBy mg) 1 0 = takes crammed 1 0 from rfl]
    decide
  exact beginSave_one (g := crammer) rfl hm h

/-- The only core that a team may be placed on is core 0. -/
theorem crammed_cores (gone : List (Nat × Nat)) (l : Launch) (hl : l.coh = 1) :
    coresFor (without crammed gone) l = if fitsCore (without crammed gone) 0 l then some [0] else none := by
  have hf : (List.range' 1 383).filter (fun c => fitsCore (without crammed gone) c l) = [] := by
    rw [List.filter_eq_nil_iff]
    intro c hc
    simp [fitsCore, hc, without, crammed, crammedBy]
  have hr : List.range 384 = 0 :: List.range' 1 383 := by rw [List.range_eq_range', List.range'_succ]
  unfold coresFor
  rw [if_pos (by omega), hr, List.filter_cons, hf]
  split <;> rfl

theorem crammed_wait (gone : List (Nat × Nat)) : coresForWait (without crammed gone) { grid := 2, prio := 7, order := 1 } =
    if fitsCore (without crammed gone) 0 { launch with spad := 4194304, prio := 7 } then some [0] else none := by
  rw [← crammed_cores gone _ rfl]
  unfold coresForWait
  rw [show stayed (without crammed gone) { grid := 2, prio := 7, order := 1 } = [] from rfl]
  rfl

theorem victims_one {s : State} {t : Team} {p : Nat} (ht : s.teams = [t]) (hs : savable t.phase = true) (hp : prioOf s t.grid < p)
    (h : ∃ u, beginSave s t.grid t.index false = some u) : victims s p = [t] := by
  obtain ⟨u, h⟩ := h
  simp [victims, ht, hs, hp, hasRoom, h, sortBy, insertBy]

theorem target_of {s : State} {w : Wait} {r : List Wait} {v : Team} (hp : pendingOrder s = w :: r) (hv : victims s w.prio = [v])
    (h1 : (coresForWait (without s (leaving s)) w).isSome = false) (h2 : (coresForWait (without s (leaving s ++ cohortIds s v)) w).isSome = true) :
    priorityTarget s = some (v.grid, v.index) := by
  have h2' : (coresForWait (without s (leaving s ++ cohortIds s v)) w).isNone = false := by
    rw [← Option.not_isSome, h2]
    rfl
  unfold priorityTarget
  simp only [hp, hv, List.flatMap_cons, List.flatMap_nil, List.append_nil, h1, h2', Bool.or_self, Bool.false_eq_true, if_false, List.head?_cons,
    Option.map_some]

theorem witness_preemption : ∃ s, priorityTarget crammed = some (1, 0) ∧ beginSave crammed 1 0 false = some s := by
  obtain ⟨s, h⟩ : ∃ s, beginSave crammed 1 0 false = some s := crammed_save _ _
  refine ⟨s, target_of (w := { grid := 2, prio := 7, order := 1 }) (r := []) (v := { grid := 1, threads := [atRest] }) (by decide)
    (victims_one rfl rfl (by decide) ⟨s, h⟩) ?_ ?_, h⟩ <;> rw [crammed_wait] <;> decide

/-- TCTL.SAVE of a running team whose image has room. -/
theorem witness_save : crammed.mgmt.devstate = 1 ∧ (crammed.team? 1 0).map (fun t => savable t.phase) = some true ∧
    ∃ s, beginSave (nameTctl crammed 1 0 3) 1 0 true = some s := ⟨by decide, by decide, crammed_save _ _⟩

theorem witness_Placement_and_preemption_events :
    (placeable cohort = some ({ grid := 0 }, [0, 1]) ∧ (cohort.grid? 0).isSome = true) ∧
    (let s := { cohort with cc := 1200000 }
     pendingOrder s = [{ grid := 0 }] ∧ ({ grid := 0 } : Wait).since + 1200000 ≤ s.cc ∧ s.placeHold = none) ∧
    (let m : Team := { phase := .saving false false, threads := [{ atRest with place := .held }] }
     let s := { calm with teams := [m] }
     (s.grid? 0) = some { launch := launch } ∧ savingMembers s 0 0 = [m] ∧ allStopped s { launch := launch } m (wasHeldOf m) = true ∧
     saveDrained s m = true ∧ runningChannels s m = [] ∧ hoopsFor s m = []) ∧
    (let m : Team := { phase := .saving false false, threads := [{ atRest with place := .held }] }
     let s := { calm with teams := [m], scribes := [{ die := 0, ch := 0, status := 1, holder := some (0, 0) }] }
     savingMembers s 0 0 = [m] ∧ toSuspend s { launch := launch } [m] ≠ []) ∧
    (let m : Team := { phase := .saving false false, threads := [{ atRest with place := .held }] }
     let s := { calm with teams := [m], packets := [{ id := 60, kind := 6, grid := 0, dests := [(0, 0)] }], hoops := [{ id := 61, pkt := 60, core := 0 }] }
     savingMembers s 0 0 = [m] ∧ toSuspend s { launch := launch } [m] = [] ∧ allStopped s { launch := launch } m (wasHeldOf m) = true ∧
     s.parkedFor m.grid m.index = [] ∧ hoopsFor s m ≠ []) ∧
    (let m : Team := { phase := .saving false false, threads := [{ atRest with place := .bundle 7 }] }
     let s := { calm with teams := [m], cc := 12000000 }
     savingMembers s 0 0 = [m] ∧ m.savingSince + s.mgmt.plim.toNat ≤ s.cc ∧ allStopped s { launch := launch } m (wasHeldOf m) = false ∧
     s.parkedFor m.grid m.index = []) ∧
    (let m : Team := { phase := .pending true false }
     let s := { cohort with teams := [m], grids := [{ launch := { launch with gx := 2, coh := 2 }, started := 2 }], saves := [{ team := m, addr := 0x8000 }] }
     placeable s = some ({ grid := 0, saved := true }, [0, 1]) ∧ (s.grid? 0).isSome = true ∧
     savedOf s { grid := 0, saved := true } = [{ team := m, addr := 0x8000 }] ∧
     (match checkImage (dropHold (touchVa s 0 0x8000 1) { grid := 0, saved := true }) { team := m, addr := 0x8000 } with
      | .ok _ => true
      | .error _ => false) = true) := by
  decide +kernel


/-! ### Services, memory events and the fabric -/

theorem witness_Register_events :
    (State.reset.mgmt.devstate = 1 ∧ State.reset.mgmt.invBusy = false ∧ State.reset.mgmt.snapLatched = false ∧ State.reset.mgmt.d3hot = false ∧
      SMap.wf {} State.reset.ctxs = true ∧ (4095 : Nat) < 4096) ∧
    (let s := { calm with mgmt := { State.reset.mgmt with invBusy := true, snapLatched := true } }
     s.mgmt.invBusy = true ∧ (∀ r ∈ s.reqs, oldAccess s r = false) ∧ (0x100000000 : W64).getLsbD 32 = true ∧ s.mgmt.snapLatched = true) ∧
    (let s := { calm with ctxs := [(0, { en := true })] }
     (s.ctx 0).en = true ∧ ((0 : W64).getLsbD 0 || ((s.ctx 0).en && ctxBusy { s with grids := [] } 0)) = false) ∧
    (({ calm with mgmt := { State.reset.mgmt with devstate := 3 } } : State).mgmt.devstate ≠ 1 ∧ (0x24 : BitVec 28).toNat % 8 ≠ 0 ∧
      (0x20 : BitVec 28).toNat % 8 = 0 ∧ (0x20 : BitVec 28).toNat < 0x10000 ∧ 0x20000 ≤ (0x110020 : BitVec 28).toNat) := by and_intros <;> decide

/-- A part in service and one that is not open; a power check due, each of its outcomes; sensors at the trip points; a unit of each kind. -/
theorem witness_Iagar_events :
    (let s := State.reset
     s.mgmt.d3hot = false ∧ s.mgmt.mbstat ≠ 1 ∧ s.mgmt.devstate ≠ 2 ∧ s.mgmt.devstate ≠ 3 ∧ SMap.wf 0 s.iagar.staged = true ∧ SMap.wf [] s.keySlots = true ∧ s.fc % 240000 = 0 ∧
     (List.replicate 8 1600).length = 8 ∧ (List.replicate 16 1520).length = 16 ∧ s.iagar.clearFences = false) ∧
    ({ State.reset.mgmt with devstate := 2 }).devstate = 2 ∧
    (State.reset.mgmt.pwrcap < 3601 ∧ 100 * 3420 ≤ 95 * State.reset.mgmt.pwrcap ∧ (1552 : Nat) ≤ 1552 ∧ ¬ (1600 : Nat) < 1600 ∧ 1600 < (1601 : Nat)) ∧
    ((15 : Nat) < 16 ∧ 1680 ≤ (1680 : Nat) ∧ (7 : Nat) < 8 ∧ 1840 ≤ (1840 : Nat)) ∧
    (unitCount .core = 384 ∧ 383 ∉ fencedUnits State.reset .core ∧ 1535 < unitCount .slice ∧ 6143 < unitCount .pseudoChannel ∧
      6143 < unitCount .mscPartition) := by and_intros <;> decide

/-- The state with one request. -/
def asking (r : Req) : State := { calm with reqs := [r] }

/-- Requests that are ready, told of another home, waiting to retry, and accepted; one spot of each kind. -/
theorem witness_Home_events :
    (let r : Req := { id := 60, path := .a, va := 0x8000, len := 4, segs := [(0, 0x8000, 4)], kind := .atom 0 4 1 0 0 }
     (asking r).req? 60 = some r ∧ r.bad = false ∧ r.accepted = false ∧ r.gathered = false ∧ r.rehome = none ∧ reqReady (asking r) r = true ∧ carried (asking { r with sent := true }) { r with sent := true } = true ∧
     answersOut (asking r) 60 = false ∧ sendable (asking r) r = true ∧ (asking r).packet? 60 = none ∧
     (asking { r with rehome := some (some (1, 2)) }).req? 60 = some { r with rehome := some (some (1, 2)) } ∧
     ({ r with rehome := some none } : Req).rehomeAt + 64 ≤ ({ asking r with fc := 64 } : State).fc ∧
     (∀ q ∈ (asking { r with accepted := true }).reqs, q.gathered = false) ∧ segPoison (asking r) r.segs = 0 ∧ (asking r).memWf = true ∧
     ((asking r).ctx r.ctx).dten = false ∧ (asking r).regions = [] ∧ (asking r).press = []) ∧
    (∀ p ∈ [Spot.reg 0 0 0 63, .tile 0 0 0 511, .pad 0 0 511, .cell 0 0 0 511, .l2 (2 ^ 35 - 1), .msc 0, .tag 1535, .dram (2 ^ 35 - 1), .link 0],
      spotExists (calm atRest windowed) p = true) ∧
    spotExists { calm with l1 := [{ core := 0, word := 5 }] } (.l1 0 5) = true ∧ (calm.threadOf 0 0 0).isSome = true ∧
    ∀ p ∈ [Spot.run 0, .counter 0, .table (2 ^ 24 - 1), .flit 0],
      spotExists { calm with counters := [{}], flits := [{}], press := [{ run := some 1 }], regions := [(2 ^ 24 - 1, { st := 1 })] } p = true := by and_intros <;> decide +kernel

/-- A store of 32 bytes at a home that the core knows, and a load of an entry of its thread, by the home and, where the L1 serves it, by it. -/
theorem witness_Home_values :
    (let r : Req := { id := 60, va := 0x8000, len := 32, segs := [(0, 0x8000, 32)], kind := .store (List.replicate 32 1) (List.replicate 32 255), sent := true }
     let s := { asking r with regions := [(8, { st := 1 })] }
     s.req? 60 = some r ∧ reqReady s r = true ∧ carried s r = true ∧ (storeBytes s r (List.replicate 32 1)).length = 32 ∧ r.bad = false ∧
     (s.ctx 0).dten = false ∧ s.memWf = true ∧ (s.regions.get {} 8).st = 1 ∧ segWords (placesOf s r) = [0x800, 0x801] ∧ s.regionCache = []) ∧
    (let r : Req := { id := 60, agent := .thread 0 0 0, va := 0x8000, len := 16, segs := [(0, 0x8000, 16)], kind := .load 0 0 0, sent := true }
     let m := queued 1 [{ bytes := 16, req := 60 }]
     let s := { calm atRest m with reqs := [r], regions := [(8, { st := 1 })] }
     s.req? 60 = some r ∧ carried s r = true ∧ (∃ l, reqSegs s r = .ok l ∧ segPoison s l = 0) ∧ (m.queue? 0).isSome = true ∧
     (s.team? 0 0).map (·.queues) = some m.queues ∧ (∀ y ∈ ((m.queue? 0).getD {}).fifo 0 |>.entries, y.claimed = none) ∧
     ((((m.queue? 0).getD {}).fifo 0).entries.find? (·.req == 60)).isSome = true ∧ SMap.wf 0 m.spad = true ∧ s.l1 = [] ∧
     (l1Usable { s with l1 := [{ word := 0x800, data := List.replicate 16 7 }] } 0 0x800).isSome = true) := by
  refine ⟨by and_intros <;> decide, by decide, by decide, ⟨_, rfl, by decide⟩, ?_⟩
  and_intros <;> decide

/-- An arrival that has reached the core of its team's armed well; a packet that may begin; a flit that arrives; an old hoop; links before and after
their last retry. -/
theorem witness_Fabric_events :
    (let p : Packet := { id := 60, kind := 7, arrive := some (4064, 1), reached := [0], dests := [(0, 0)], begun := true }
     let s := { calm atRest armed with packets := [p] }
     s.packet? 60 = some p ∧ s.team? p.grid 0 = some { armed with threads := [atRest] } ∧ parked .running = false ∧ SMap.wf 0 armed.spad = true) ∧
    (let p : Packet := { id := 60, kind := 7, arrive := some (4064, 1), dests := [(1, 0)] }
     mayBegin { calm with packets := [p] } p = true) ∧
    (let p : Packet := { id := 60, kind := 3, reached := [0] }
     let s := { calm with packets := [p] }
     s.packet? 60 = some p ∧ 60 ≠ s.nextId) ∧
    (let s := { calm with flits := [{ pkt := 60, at' := 1535 }] }
     7 < 8 ∧ 191 < 192 ∧ routerBusy s (192 * 7 + 191) false = true ∧ routerId (192 * 7 + 191) false ∉ s.routed) ∧
    (let h : Hoop := { id := 3, pkt := 60, got := [0] }
     let p : Packet := { id := 60, kind := 6, data := List.replicate 128 0 }
     let s := { calm with hoops := [h], packets := [p], fc := 113688 }
     s.hoops.find? (·.id == 3) = some h ∧ h.reserved = false ∧ h.since + 113688 ≤ s.fc ∧ s.packet? h.pkt = some p ∧
     (1 < flitCount p ∧ 1 ∉ h.got) ∧ inOrder s p h.core = true ∧ inOrder s { p with ord := true, oseq := 1 } h.core = false ∧
     ({ s with packets := [] } : State).packet? h.pkt = none) ∧ State.reset.fc % 16 = 0 ∧
    draining { calm with flits := [{ ripe := 1023 }] } 0 = true ∧ draining calm 0 = false ∧
    ((linkOf calm 0).retries < 8 ∧ (linkOf { calm with links := [{ n := 0, retries := 8 }] } 0).retries = 8) := by and_intros <;> decide +kernel

/-- A channel of team 0 that runs the transfer `r`, as `f` has it. -/
def running (r : List Byte) (f : Scribe → Scribe := id) : State :=
  { calm atRest with cc := 1000000, scribes := [f { die := 0, ch := 0, status := 1, holder := some (0, 0), record := r, fmtS := 0x501FEF1, fmtD := 0x501FEF1 }] }

/-- `n` elements of 16 bytes from the given place to offset 0 of the own scratchpad. -/
def moving (n src : Nat) : List Byte :=
  leBytes 8 src ++ leBytes 8 (2 ^ 57) ++ leBytes 4 0x1A00 ++ leBytes 4 0 ++ leBytes 2 n ++ List.replicate 38 0

/-- A last piece and one that is not the last have been sent; a piece begins, and its bytes are sent; a transfer that can send no more. -/
theorem witness_scribe_pieces :
    (let s := running (moving 4 0x8000) fun c => { c with sent := 64 }
     let c := s.scribe 0 0
     mayArrive s c = true ∧ c.pieceEnd = c.total) ∧
    (let s := running (moving 257 (2 ^ 57)) fun c => { c with sent := 4096, suspend := true }
     let c := s.scribe 0 0
     mayArrive s c = true ∧ c.pieceEnd = 4096 ∧ c.total = 4112 ∧ c.sent = c.front c.pieceEnd) ∧
    (let s := running (moving 4 0x8000)
     let c := s.scribe 0 0
     mayArrive s c = false ∧ hasTurn s c = true ∧ c.reading = false) ∧
    (let s := running (moving 4 0x8000) fun c => { c with reading := true, buf := [(0, List.replicate 64 7, List.replicate 64 0xFF)] }
     let c := s.scribe 0 0
     mayArrive s c = false ∧ hasTurn s c = true ∧ maySend s c = true ∧ (nextChunk s c) = (64, none)) ∧
    (let s := running (moving 4 0xC0000000) fun c => { c with reading := true, stop := some (0, 9) }
     let c := s.scribe 0 0
     mayEnd s c = true) := by
  and_intros <;> decide +kernel

/-- A source page that is not mapped ends a transfer before its first byte (Table 15-3); poisoned source bytes end it before their element. -/
theorem test_scribe_stops :
    (let s := running (moving 4 0xC0000000)
     ((beginPiece s (s.scribe 0 0)).scribe 0 0).stop = some (0, 9)) ∧
    (let s := running (moving 4 0x8000) fun c => { c with reading := true, buf := [(0, List.replicate 64 7, List.replicate 40 0xFF ++ List.replicate 24 0)] }
     nextChunk s (s.scribe 0 0) = (32, some (32, 0x0E))) := by
  and_intros <;> decide +kernel

/-- R422, R433: 64 bytes at a scratchpad offset of 8 go as three packets, ordered, with every byte of their mask; what the second brings lands at
offset 32, and the first sector lands whole. -/
theorem test_scribe_packets :
    (let s := running (moving 4 0x8000) fun c => { c with record := leBytes 8 0x8000 ++ leBytes 8 (2 ^ 57 + 8) ++ c.record.drop 16, reading := true
                                                          buf := [(0, (List.range 64).map (BitVec.ofNat 8), List.replicate 64 0xFF)] }
     let l := chunkPackets s (s.scribe 0 0)
     l.map (fun p => (p.kind, p.offset, p.base, p.data.length, p.size, flitCount p)) =
       [(1, 8, 8, 24, 48, 4), (1, 48, 32, 32, 16, 2), (1, 64, 64, 8, 16, 2)] ∧
     ((l[1]?.map fun p => (landFlits s p [0] 0 2 []).team? 0 0).bind id).map (fun t => (t.spad.get 0 31, t.spad.get 0 32, t.spad.get 0 63, t.spad.get 0 64)) =
       some (0, 24, 55, 0) ∧
     (l[0]?.map fun p => p.upTo 2) = some 8) := by
  decide +kernel

/-- An access thread that may feed queue 0 of thread 3. -/
def fetcher : Thread := { atRest with tid := 3, pc := 0x40000000 }

/-- Its team, with its slice's code. -/
def slicing (w : W128) : State :=
  { calm with teams := [{ queued 2 [] with access := [fetcher], accessEnded := false, threads := [atRest] }]
              mem := code [Header.bits {} 6, w] ++ tables }

/-- The clauses of an access slice that an exit ends: of a NOP, and of a load that its FIFO and the engine take. -/
theorem witness_access_clauses :
    (∀ w ∈ [0, 0x54000000000000000000000000000000], let s := slicing w
     ∃ m, s.team? 0 0 = some m ∧ s.grid? 0 = some { launch := launch } ∧ m.access.find? (·.tid == 3) = some fetcher ∧
       accessRuns s m fetcher = true ∧ m.core ∉ s.mgmt.fencedCores ∧ accessBlocked s { launch := launch } m fetcher = false ∧
       accessClauseAt s 0 { launch := launch } (nextFmt m fetcher) fetcher.pc = .ok (Header.bits {} 6, [w]) ∧ termOf (Header.bits {} 6) = 6 ∧
       fetcher.resumeAt = 0 ∧ (∀ z ∈ s.bundles, z.id ≠ s.nextId) ∧ (queueNow m (LBody.of w)).kind = 2 ∧
       (∀ y ∈ ((queueNow m (LBody.of w)).fifo 3).entries, y.claimed ≠ none → y.ready = false) ∧
       guardHolds (LBody.of w).grd fetcher.pred = true ∧ (LBody.of w).qn.toNat < launch.queues) ∧
    accessDecode (Header.bits {} 6) defaultFmt [] true 0 = .ok (.nop {}) ∧
    accessDecode (Header.bits {} 6) defaultFmt [] true 0x54000000000000000000000000000000 = .ok (.qld { a := .v 0 }) := by
  refine ⟨fun w hw => ?_, by rfl, by rfl⟩
  simp only [List.mem_cons, List.not_mem_nil, or_false] at hw
  rcases hw with rfl | rfl <;>
    exact ⟨_, rfl, by decide, by rfl, by decide, by decide, by decide +kernel, by rfl, by decide, by decide, by decide, by decide, by decide, by decide, by decide⟩

theorem witness_Service_events :
    (let c : Scribe := { die := 0, ch := 0, status := 2, holder := some (0, 0) }
     ({ calm with scribeWait := [c] } : State).scribeWait.find? (fun c => c.die == 0 && c.ch == 0 && c.status != 3) = some c ∧ (calm.scribe 0 0).held = false) ∧
    (let x := { atRest with tid := 3, pc := 0x40000000 }
     let m : Team := { access := [x], accessEnded := false, threads := [atRest] }
     let s := { calm atRest m with teams := [m], mem := code [Header.bits {} 0, 0] ++ tables }
     s.team? 0 0 = some m ∧ s.grid? 0 = some { launch := launch } ∧ m.access.find? (·.tid == 3) = some x ∧ accessRuns s m x = true ∧
     m.core ∉ s.mgmt.fencedCores ∧ accessBlocked s { launch := launch } m x = false) ∧
    (let s := { calm with mgmt := { State.reset.mgmt with aps := [(0, 5)] } }
     s.mgmt.devstate = 1 ∧ hostFormed 0x8000 (.write (List.replicate 512 1)) = true ∧ peerFormed 0x8000 (.write (List.replicate 256 1)) = true ∧
     resolveWindow s 0x8000 512 .write = .at' [(0, 0x8000, 512)] none ∧ resolveWindow calm 0x8000 512 .write = .refused 1 ∧
     resolveWindow s 0x8000 4096 .read = .at' [(0, 0x8000, 4096)] none ∧ hostFormed 0x8000 (.read 4096) = true ∧ peerFormed 0x80FF (.read 1) = true ∧
     s.reqs = [] ∧ s.memWf = true) ∧
    (let m : MigStream := { port := 1 }
     m ∈ ({ calm with streams := [m] } : State).streams) ∧
    (∀ k ∈ [0, 1], ({ calm with streams := [{ port := 2, mode := k }] } : State).streams.find? (fun m => m.port == 2 && m.running && m.mode < 2) =
      some { port := 2, mode := k }) ∧
    (({ calm with streams := [{ port := 2, mode := 2 }] } : State).streams.find? (fun m => m.port == 2 && m.running && m.mode == 2) =
      some { port := 2, mode := 2 } ∧ openFrame calm { port := 2, mode := 2 } [] = none) := by
  decide +kernel

/-- A stream whose next round sends its one page, and one that can number no more frames. -/
theorem witness_migration_round (n : Nat) (h : n = 0 ∨ n = 2 ^ 32 - 1) :
    let m : MigStream := { port := 2, va := 0x8000, len := 4096, seq := n, status := 0x9000 }
    let s : State := { calm with streams := [m] }
    s.streams.find? (fun m => m.port == 2 && m.running && m.mode < 2) = some m ∧ allPages m = [0x8000] ∧
    (∃ a, devicePage (sweepRange s 0 0x8000 1).1 0 0x8000 = some a ∧ (sweepRange s 0 0x8000 1).1.poisonOf 0 a 4096 = 0) ∧
    s.reqs = [] ∧ s.regions = [] ∧ s.memWf = true ∧ (n = 0 → m.seq + 1 + 1 < 2 ^ 32) ∧ (n = 2 ^ 32 - 1 → 2 ^ 32 ≤ m.seq + 1) := by
  rcases h with rfl | rfl <;> refine ⟨by decide, by decide, ⟨0x8000, by decide +kernel, by decide +kernel⟩, by decide, by decide, by decide, by decide, by decide⟩

/-- Tracking tables whose walk ends at a leaf for one page, and none. -/
theorem witness_sweep :
    (let s := { calm with ctxs := [(0, { root := 0x1000, dtbase := 0x5000 })], mem := tables ++ [(0x5000, 1), (0x5001, 0x60), (0x6000, 1), (0x6001, 0x70), (0x7000, 1), (0x7001, 0x80), (0x8000, 1), (0x8001, 0x90)] }
     s.memWf = true ∧ dirtyLeaf s 0 0 ≠ none) ∧ dirtyLeaf calm 0 0 = none := by and_intros <;> decide

/-! ### Memory and translation -/

theorem witness_Memory_bytes : State.reset.memWf = true ∧ SMap.wf 0 ({} : Team).spad = true ∧ SMap.wf 0 State.reset.poison = true ∧
    32 * 3 ≤ 32 * 3 ∧ 32 * 3 + 32 ≤ 96 + (List.replicate 32 (1 : Byte)).length := by and_intros <;> decide

/-- The tables with an entry that is malformed at 0x3018. -/
def torn : State := { calm with mem := tables ++ [(0x3018, 1), (0x3019, 1)] }

theorem witness_Translation :
    (canonical (2 ^ 56) = false ∧ canonical (2 ^ 56 - 1) = true ∧ canonical (2 ^ 64 - 2 ^ 56) = true ∧ calm.tlb = []) ∧
    (torn.phys64 0x3020 = 0 ∧ torn.phys64 0x3018 = 0x101 ∧ pteBad 0x101 3 = true ∧ torn.phys64 0x3000 = 15 ∧ pteBad 15 3 = false ∧
      (15 : Nat).testBit 1 = true ∧ torn.phys64 0x1000 = 0x2001 ∧ pteBad 0x2001 5 = false ∧ (0x2001 : Nat).testBit 1 = false) ∧
    (walk torn 0x1000 0xC0000000 5 = .inl (3, 3) ∧ walk torn 0x1000 0x100000000 5 = .inl (1, 3) ∧ walk torn 0x1000 0x8000 5 = .inr (15, 3) ∧
      walk torn 0x1000 0x40000000 5 = .inr (23, 3)) ∧
    ((15 : Nat).testBit 2 = true ∧ (15 : Nat).testBit 3 = true ∧ (23 : Nat).testBit 4 = true ∧ (15 : Nat) / 2 ^ 5 % 4 = 0 ∧ (15 : Nat).testBit 4 = false ∧
      (23 : Nat).testBit 3 = false) := by and_intros <;> decide

/-- A core's TLB entry that serves its page; a host leaf, a peer leaf that a port reaches, and one that none reaches. -/
theorem witness_Translation_kinds :
    (let t : TlbEntry := { tag := entryTag 0x8000 3, level := 3, entry := 15 }
     seesUnit 0 t.unit = true ∧ t.serves 0 0x8000 = true) ∧
    ((0x2F : Nat) / 2 ^ 5 % 4 = 1 ∧ (0x4F : Nat) / 2 ^ 5 % 4 = 2 ∧ peerReachable { calm with links := [{ n := 10, up := true, peers := [0] }] } 0 = true ∧
      peerReachable calm 0 = false) := by and_intros <;> decide

/-- A state whose next step is a word's, with memory in canonical form. -/
theorem witness_Steps_keep_memory_canonical : (State.reset.withFetchWord 128 0).memWf = true ∧
    (match step (State.reset.withFetchWord 128 0) with
      | .next _ => true
      | _ => false) = true := by and_intros <;> decide

/-! ### Compressed granules (R335's examples) -/

/-- Eight binary32 values 1.0 to 1.0 + 7 × 2^−23. -/
theorem test_granule_base_delta :
    granuleMode ((List.range 8).flatMap fun i => leBytes 4 (0x3F800000 + i)) = (3, [0x00, 0x00, 0x80, 0x3F, 0, 1, 2, 3, 4, 5, 6, 7]) := by
  decide +kernel

/-- Sixteen BF16 values from [1, 2), one of each eighth. -/
theorem test_granule_exponents :
    granuleMode ((List.range 16).flatMap fun i => leBytes 2 (0x3F80 + 8 * i)) =
      (5, 0x7F :: (List.range 16).map fun i => BitVec.ofNat 8 (8 * i)) := by
  decide +kernel

end Sys2Proof.Machine.Test
end

section
/-! The stochastic generator (R57). -/

namespace Sys2Proof.Machine

/-- The old s1 becomes the new s0. -/
theorem xsNext_s0 (s0 s1 : W64) : (xsNext s0 s1).2.1 = s1 := rfl

/-- The new s1 mixes s0, spread by a left shift of 23, with the old s1; the shifts are logical. -/
theorem xsNext_s1 (s0 s1 : W64) :
    (xsNext s0 s1).2.2 =
      (s0 ^^^ (s0 <<< 23)) ^^^ s1 ^^^ ((s0 ^^^ (s0 <<< 23)) >>> 17) ^^^ (s1 >>> 26) := rfl

/-- The value drawn is the sum of the state after the step: the new s1, and the new s0, which is the old s1. -/
theorem xsNext_draw (s0 s1 : W64) : (xsNext s0 s1).1 = (xsNext s0 s1).2.2 + s1 := rfl

/-- Settles O13: one equation for each component of the step; the sum of two 64-bit words is taken mod 2^64. -/
theorem generator_step : Obligations.Generator_step := by
  intro s0 s1
  refine ⟨xsNext_s0 s0 s1, xsNext_s1 s0 s1, ?_⟩
  rw [xsNext_draw, BitVec.toNat_add]

end Sys2Proof.Machine
end

section
/-! The guard field and the opcodes outside the map (R79, R95, R96). -/

namespace Sys2Proof.Machine

/-! ## Bits of the masks -/

theorem bitsMask_bit (n lo i : Nat) : (bitsMask n lo).getLsbD i = (decide (i < 128) && !decide (i < lo) && decide (i < lo + n)) := by
  rw [bitsMask, BitVec.getLsbD_shiftLeft, BitVec.getLsbD_ofNat, Nat.testBit_two_pow_sub_one]
  grind

theorem bitsMask_above {n lo i : Nat} (h : lo + n ≤ i) : (bitsMask n lo).getLsbD i = false := by
  rw [bitsMask_bit, decide_eq_false (Nat.not_lt.mpr h), Bool.and_false]

theorem bitsMask_below {n lo i : Nat} (h : i < lo) : (bitsMask n lo).getLsbD i = false := by
  rw [bitsMask_bit, decide_eq_true h, Bool.not_true, Bool.and_false, Bool.false_and]

theorem clsMask_above {c : Cls} {lo i : Nat} (h : lo + 10 ≤ i) : (clsMask c lo).getLsbD i = false := by
  unfold clsMask
  split
  · exact BitVec.getLsbD_zero
  · exact bitsMask_above h

theorem mMod_above {m i : Nat} (h : 67 ≤ i) : (mMod m).getLsbD i = false := by
  have hlt : m % 8 < 2 ^ (i - 64) :=
    calc m % 8 < 2 ^ 3 := Nat.mod_lt m (by decide)
      _ ≤ 2 ^ (i - 64) := Nat.pow_le_pow_right (by decide) (by omega)
  rw [mMod, BitVec.getLsbD_shiftLeft, BitVec.getLsbD_ofNat, Nat.testBit_lt_two_pow hlt, Bool.and_false, Bool.and_false]

theorem ite_bit (p : Prop) [Decidable p] (x y : W128) (i : Nat) :
    (if p then x else y).getLsbD i = if p then x.getLsbD i else y.getLsbD i := apply_ite (BitVec.getLsbD · i) p x y

/-! ## The rows of the opcode map -/

/-- What a defined opcode's row says, whatever the opcode: the map ends at XCMD, and no row's mask reaches the guard field. -/
theorem rowOf_some {lim : Limits} {w : W128} {r : Row} (h : rowOf lim w = some r) :
    opcOf w ≤ 0x240 ∧ ∀ i, 113 ≤ i → r.mask.getLsbD i = false := by
  unfold rowOf at h
  unfold opcOf
  dsimp only at h
  split at h
  rotate_right
  · cases h
  all_goals
    refine ⟨by omega, fun i hi => ?_⟩
    simp only [← apply_ite some, Option.some.injEq] at h
    subst h
    simp (disch := omega) only [apply_ite Row.mask, ite_bit, BitVec.getLsbD_or, BitVec.ofNat_eq_ofNat, BitVec.getLsbD_zero, bitsMask_above,
      mMod_above, mFS, mWidth, mFL, mRU, mImm, mSys, mFS2, mSel, mSel3, mSub, mLut, mSeg, mScope, mHint, mOpx, mQn, mSz, mKf, mAux5, mFunc, mCh, ite_self,
      Bool.or_false]

theorem rowOf_none_of_lt {lim : Limits} {w : W128} (h : 0x240 < opcOf w) : rowOf lim w = none := by
  cases hr : rowOf lim w with
  | none => rfl
  | some r =>
    have := (rowOf_some hr).1
    omega

/-! ## Faults of the guard field and of an opcode outside the map -/

theorem isHint_iff {w : W128} : isHint w = true ↔ 0x380 ≤ opcOf w ∧ opcOf w < 0x3C0 := by
  have hlt : opcOf w < 1024 := (fieldOf 10 118 w).isLt
  rw [hint_of_opc rfl, beq_iff_eq, ← BitVec.toNat_inj, BitVec.extractLsb'_toNat, Nat.shiftRight_eq_div_pow]
  change opcOf w / 2 ^ 6 % 2 ^ 4 = 14 ↔ _
  omega

theorem marker_beq_false {w : W128} (h : opcOf w ≠ 0x3FF) : (fieldOf 10 118 w == 0x3FF) = false :=
  beq_eq_false_iff_ne.mpr fun he => h (by rw [opcOf, he]; rfl)

theorem decodeWord_error {lim : Limits} {brx : Bool} {w : W128} {f : DecodeFault} (h : checkWord lim brx w = some f) :
    decodeWord lim brx w = .error f := by
  rw [decodeWord, h]

theorem checkWord_unmapped {lim : Limits} {brx : Bool} {w : W128} (hm : opcOf w ≠ 0x3FF) (hh : isHint w = false)
    (hr : rowOf lim w = none) : checkWord lim brx w = some (.illegalOpcode (opcOf w)) := by
  simp only [checkWord, marker_beq_false hm, hh, hr, Bool.false_eq_true, if_false, opcOf]

theorem checkWord_reserved {lim : Limits} {brx : Bool} {w : W128} {r : Row} {bit : Nat} (hm : opcOf w ≠ 0x3FF) (hh : isHint w = false)
    (hr : rowOf lim w = some r) (hb : r.reserved brx w = some bit) : checkWord lim brx w = some (.reservedField bit) := by
  simp only [checkWord, marker_beq_false hm, hh, hr, hb, Bool.false_eq_true, if_false]

theorem lowestSet_isSome {w : W128} {i : Nat} (h : w.getLsbD i = true) : (lowestSet w).isSome = true :=
  List.find?_isSome.mpr ⟨i, List.mem_range.mpr (BitVec.lt_of_getLsbD h), h⟩

/-- A set bit outside the row's allowed bits is a reserved-field fault, at that bit or a lower one. -/
theorem reserved_of_bit {r : Row} {brx : Bool} {w : W128} {i : Nat} (hw : w.getLsbD i = true) (ha : (r.allowed brx w).getLsbD i = false) :
    ∃ bit, r.reserved brx w = some bit := by
  have hbit : (w &&& ~~~ r.allowed brx w).getLsbD i = true := by
    rw [BitVec.getLsbD_and, BitVec.getLsbD_not, hw, ha, decide_eq_true (BitVec.lt_of_getLsbD hw)]
    rfl
  obtain ⟨k, hk⟩ := Option.isSome_iff_exists.mp (lowestSet_isSome hbit)
  rw [Row.reserved, hk]
  exact Option.isSome_iff_exists.mp (List.isSome_min?_of_mem (List.mem_append_left _ (List.mem_singleton_self k)))

/-- Without bit 117 the guard field is not among the allowed bits of a row of the map. -/
theorem allowed_guard {lim : Limits} {r : Row} {brx : Bool} {w : W128} {i : Nat} (hr : rowOf lim w = some r) (hg : w.getLsbD 117 = false)
    (h1 : 113 ≤ i) (h2 : i < 118) : (r.allowed brx w).getLsbD i = false := by
  have hm := (rowOf_some hr).2 i h1
  simp (disch := omega) only [Row.allowed, hg, hm, BitVec.getLsbD_or, BitVec.ofNat_eq_ofNat, BitVec.getLsbD_zero, ite_bit, bitsMask_above,
    bitsMask_below, clsMask_above, mImm, ite_self, Bool.or_false, Bool.false_eq_true, if_false]

theorem fieldOf_ne_zero {n lo : Nat} {w : W128} (h : fieldOf n lo w ≠ 0) : ∃ i, i < n ∧ w.getLsbD (lo + i) = true := by
  refine Classical.byContradiction fun hn => h (BitVec.eq_of_getLsbD_eq fun i hi => ?_)
  have hw : w.getLsbD (lo + i) = false := Bool.eq_false_iff.mpr fun hw => hn ⟨i, hi, hw⟩
  rw [fieldOf, BitVec.getLsbD_extractLsb', hw, Bool.and_false, BitVec.ofNat_eq_ofNat, BitVec.getLsbD_zero]

theorem guard_ofCode_on (d : Fin 8) (n : Bool) : Guard.ofCode (1#1 ++ BitVec.ofBool n ++ BitVec.ofNat 3 d.val) = .on d n :=
  guard_code (.on d n)

theorem exec_always (e : Env) : e.exec .always = e.threads := List.filter_eq_self.mpr fun _ _ => rfl

theorem mem_exec_on {e : Env} {x : Thread} {d : Fin 8} {n : Bool} :
    x ∈ e.exec (.on d n) ↔ x ∈ e.threads ∧ x.pred.getD d.val false = !n := by
  rw [Env.exec, List.mem_filter, guardHolds, bne_iff_ne, ne_eq, Bool.eq_not]

/-- R96: an opcode from 0x300 to 0x37F is no header marker, no hint and in no row of the map. -/
theorem decodeWord_experimental {lim : Limits} {brx : Bool} {w : W128} (hlo : 0x300 ≤ opcOf w) (hhi : opcOf w ≤ 0x37F) :
    decodeWord lim brx w = .error (.illegalOpcode (opcOf w)) := by
  have hh : isHint w = false := Bool.eq_false_iff.mpr fun h => by
    have := (isHint_iff.mp h).1
    omega
  exact decodeWord_error (checkWord_unmapped (by omega) hh (rowOf_none_of_lt (by omega)))

/-- R79: a guard field 0xxxx with a set bit faults, since that bit is not allowed in the word's row. -/
theorem decodeWord_guard_reserved {lim : Limits} {brx : Bool} {w : W128} (hm : opcOf w ≠ 0x3FF) (hh : isHint w = false)
    (hs : (rowOf lim w).isSome = true) (hg : w.getLsbD 117 = false) (hf : fieldOf 4 113 w ≠ 0) :
    ∃ bit, decodeWord lim brx w = .error (.reservedField bit) := by
  obtain ⟨r, hr⟩ := Option.isSome_iff_exists.mp hs
  obtain ⟨i, hi, hw⟩ := fieldOf_ne_zero hf
  obtain ⟨bit, hb⟩ := reserved_of_bit (brx := brx) hw (allowed_guard hr hg (by omega) (by omega))
  exact ⟨bit, decodeWord_error (checkWord_reserved hm hh hr hb)⟩

/-- Settles O4: the two faults from what every row of the map has in common, the guards from the codes and from the threads that execute. -/
theorem guard_and_opcode_fields : Obligations.Guard_and_opcode_fields :=
  ⟨fun _ _ _ => decodeWord_experimental, fun _ _ _ => decodeWord_guard_reserved, rfl, guard_ofCode_on,
    fun e _ hx => by rwa [exec_always], fun _ _ _ _ => mem_exec_on⟩

end Sys2Proof.Machine
end

section
/-! Lanes of a register (R61, R142, R144, R149): packing and taking out, what a source gives each lane, and what a lane-wise word delivers. -/

namespace Sys2Proof.Machine

/-! ## Packing -/

/-- The number whose digits in base 2^w are the elements, element 0 lowest. -/
def packNat (w : Nat) (l : List Nat) : Nat := l.foldr (fun x acc => x % 2 ^ w + 2 ^ w * acc) 0

theorem packElems_eq (w : Nat) (l : List Nat) : packElems w l = BitVec.ofNat 64 (packNat w l) := rfl

theorem packNat_cons (w x : Nat) (l : List Nat) : packNat w (x :: l) = x % 2 ^ w + 2 ^ w * packNat w l := rfl

theorem packNat_lt (w : Nat) (l : List Nat) : packNat w l < 2 ^ (l.length * w) := by
  induction l with
  | nil => exact Nat.two_pow_pos _
  | cons x l ih =>
    have hx : x % 2 ^ w < 2 ^ w := Nat.mod_lt _ (Nat.two_pow_pos w)
    calc packNat w (x :: l) < 2 ^ w + 2 ^ w * packNat w l := Nat.add_lt_add_right hx _
      _ = 2 ^ w * (packNat w l + 1) := by rw [Nat.mul_succ, Nat.add_comm]
      _ ≤ 2 ^ w * 2 ^ (l.length * w) := Nat.mul_le_mul_left _ ih
      _ = 2 ^ ((x :: l).length * w) := by rw [List.length_cons, Nat.succ_mul, Nat.add_comm, Nat.pow_add]

theorem packNat_digit (w : Nat) (l : List Nat) (i : Nat) (h : i < l.length) : packNat w l / 2 ^ (w * i) % 2 ^ w = l[i] % 2 ^ w := by
  induction l generalizing i with
  | nil => cases h
  | cons x l ih =>
    rw [packNat_cons]
    cases i with
    | zero => rw [Nat.mul_zero, Nat.pow_zero, Nat.div_one, Nat.add_mul_mod_self_left, Nat.mod_mod, List.getElem_cons_zero]
    | succ i =>
      rw [Nat.mul_succ, Nat.pow_add, Nat.mul_comm (2 ^ (w * i)), ← Nat.div_div_eq_div_mul, Nat.add_mul_div_left _ _ (Nat.two_pow_pos w),
        Nat.div_eq_of_lt (Nat.mod_lt _ (Nat.two_pow_pos w)), Nat.zero_add]
      exact ih i (Nat.lt_of_succ_lt_succ h)

/-- R61: element `i` of a packed register is the `i`-th. -/
theorem elemOf_packElems {w : Nat} {l : List Nat} (hl : l.length * w ≤ 64) {i : Nat} (h : i < l.length) :
    elemOf w i (packElems w l) = l[i] % 2 ^ w := by
  have hlt : packNat w l < 2 ^ 64 := Nat.lt_of_lt_of_le (packNat_lt w l) (Nat.pow_le_pow_right (by decide) hl)
  rw [elemOf, packElems_eq, BitVec.toNat_ofNat, Nat.mod_eq_of_lt hlt, packNat_digit w l i h]

theorem elemOf_mapLanes {w : Nat} (op : Nat → Nat → Nat → Nat) (a b c : W64) {k : Nat} (hk : k < 64 / w) :
    elemOf w k (mapLanes w op a b c) = op (elemOf w k a) (elemOf w k b) (elemOf w k c) % 2 ^ w := by
  have hlen : ((List.range (64 / w)).map fun i => op (elemOf w i a) (elemOf w i b) (elemOf w i c)).length = 64 / w := by
    rw [List.length_map, List.length_range]
  rw [mapLanes, elemOf_packElems (by rw [hlen]; exact Nat.div_mul_le_self ..) (by rw [hlen]; exact hk), List.getElem_map, List.getElem_range]

/-! ## Sources -/

theorem laneWidth_pos (fs : BitVec 4) : 0 < laneWidth fs :=
  Nat.div_pos (Nat.pow_le_pow_right (n := 2) (by decide) (by omega : fs.toNat % 4 ≤ 6)) (Nat.two_pow_pos _)

theorem laneIn_lt (s : State) (e : Env) (f : VBody) (x : Thread) (o : Operand) (k : Nat) : laneIn s e f x o k < 2 ^ laneWidth f.fs := by
  unfold laneIn elemOf
  split <;> exact Nat.mod_lt _ (Nat.two_pow_pos _)

/-- R144: lane `k` of a source as a lane-wise word reads it. -/
theorem elemOf_readLanes (s : State) (e : Env) (f : VBody) (x : Thread) (o : Operand) {k : Nat} (hk : k < 64 / laneWidth f.fs) :
    elemOf (laneWidth f.fs) k (readLanes s e f.imm (laneWidth f.fs) x o) = laneIn s e f x o k := by
  unfold readLanes laneIn
  simp only [beq_iff_eq]
  split
  · rw [elemOf_packElems (by rw [List.length_replicate]; exact Nat.div_mul_le_self ..) (by rw [List.length_replicate]; exact hk),
      List.getElem_replicate, Nat.mod_mod]
  · rfl

/-- A word over whole registers reads an immediate as any other operand: one lane of 64 bits. -/
theorem readLanes_whole (s : State) (e : Env) (imm : BitVec 32) (x : Thread) (o : Operand) :
    readLanes s e imm 64 x o = readOp s e imm x o := by
  unfold readLanes
  by_cases ho : o = .imm
  · subst ho
    rw [if_pos (beq_self_eq_true _), packElems_eq]
    have hone : packNat 64 (List.replicate (64 / 64) ((imm.signExtend 64).toNat % 2 ^ 64)) = (imm.signExtend 64).toNat % 2 ^ 64 % 2 ^ 64 := rfl
    rw [hone, Nat.mod_mod, Nat.mod_eq_of_lt (imm.signExtend 64).isLt, BitVec.ofNat_toNat, BitVec.setWidth_eq, readOp]
  · rw [if_neg (mt eq_of_beq ho)]

/-! ## Results -/

theorem wordUnder_delivers {i : Instr} {s : State} {e : Env} {f : Body} {w : Nat} {srcs : List Operand} {op : Thread → W64 → W64 → W64 → W64}
    (hi : exec i s = wordUnder w s f srcs op) (h : Issues s e f { reads := srcs.flatMap regsOf, writes := regsOf f.d }) :
    Delivers i s e f id fun x => op x (readLanes s e f.imm w x f.a) (readLanes s e f.imm w x f.b) (readLanes s e f.imm w x f.c) :=
  regWord_delivers hi h rfl rfl id _ (fun _ _ => rfl) fun _ _ => rfl

/-- What a lane-wise word with the operation `op` puts into lane `k` of D in thread `x`. -/
def laneOut (s : State) (e : Env) (f : VBody) (op : Nat → Bool → Bool → Nat → Nat → Nat → Nat) (x : Thread) (k : Nat) : Nat :=
  op (laneWidth f.fs) (f.mod3.getLsbD 0) (f.mod3.getLsbD 1) (laneIn s e f x f.a k) (laneIn s e f x f.b k) (laneIn s e f x f.c k) %
    2 ^ laneWidth f.fs

/-- A lane-wise word delivers `laneOut` in each lane, and so whatever is true of it. -/
theorem laneWord_delivers {i : Instr} {s : State} {e : Env} {f : VBody} {srcs : List Operand} {op : Nat → Bool → Bool → Nat → Nat → Nat → Nat}
    (ok : Thread → Nat → Nat → Prop) (hi : exec i s = laneWord s f srcs op) (hok : ∀ x k, ok x k (laneOut s e f op x k))
    (h : Issues s e f.toBody { reads := srcs.flatMap regsOf, writes := regsOf f.d }) :
    ∃ val, Delivers i s e f.toBody id val ∧ ∀ x ∈ e.exec f.grd, ∀ k < 64 / laneWidth f.fs, ok x k (elemOf (laneWidth f.fs) k (val x)) := by
  refine ⟨_, wordUnder_delivers hi h, fun x _ k hk => ?_⟩
  rw [elemOf_mapLanes _ _ _ _ hk]
  simp only [elemOf_readLanes s e f x _ hk]
  exact hok x k

/-- A word over whole registers delivers its operation's value at the sources. -/
theorem aluWord_delivers {i : Instr} {s : State} {e : Env} {f : VBody} {srcs : List Operand} {op : Thread → W64 → W64 → W64 → W64}
    (hi : exec i s = aluWord s f.toBody srcs op) (h : Issues s e f.toBody { reads := srcs.flatMap regsOf, writes := regsOf f.d }) :
    Delivers i s e f.toBody id fun x => op x (readOp s e f.imm x f.a) (readOp s e f.imm x f.b) (readOp s e f.imm x f.c) := by
  have := wordUnder_delivers hi h
  simpa only [readLanes_whole] using this

/-! ## Lane values -/

theorem signedOf_eq_toInt (w x : Nat) : signedOf w x = (BitVec.ofNat w x).toInt := by
  rw [signedOf, BitVec.toInt_eq_toNat_cond, BitVec.toNat_ofNat]
  cases w with
  | zero => rw [Nat.pow_zero, Nat.mod_one]
  | succ n =>
    have : 2 * (x % 2 ^ (n + 1)) < 2 ^ (n + 1) ↔ x % 2 ^ (n + 1) < 2 ^ n := by rw [Nat.pow_succ]; omega
    simp only [this, Nat.add_sub_cancel]

theorem laneVal_unsigned (w x : Nat) : laneVal w false x = (BitVec.ofNat w x).toNat := by
  rw [BitVec.toNat_ofNat]; rfl

theorem laneVal_signed (w x : Nat) : laneVal w true x = (BitVec.ofNat w x).toInt := signedOf_eq_toInt w x

/-- A lane value is the lane's bits up to a multiple of 2^w. -/
theorem laneVal_emod (w : Nat) (sg : Bool) (x : Nat) : laneVal w sg x % 2 ^ w = (x : Int) % 2 ^ w := by
  cases sg with
  | false =>
    rw [laneVal_unsigned, BitVec.toNat_ofNat]
    push_cast
    exact Int.emod_emod _ _
  | true =>
    have h := Int.bmod_emod (x := (x : Int) % 2 ^ w) (m := 2 ^ w)
    push_cast at h
    rw [laneVal_signed, BitVec.toInt_eq_toNat_bmod, BitVec.toNat_ofNat]
    push_cast
    rw [h, Int.emod_emod]

end Sys2Proof.Machine
end

section
/-! Integer arithmetic words (R149, R150). -/

namespace Sys2Proof.Machine

/-! ## Exact lane results, wrapped and clamped -/

/-- The least value of a lane. -/
def laneLo (w : Nat) (signed : Bool) : Int := if signed then -(2 ^ (w - 1)) else 0

/-- The greatest value of a lane. -/
def laneHi (w : Nat) (signed : Bool) : Int := if signed then 2 ^ (w - 1) - 1 else 2 ^ w - 1

theorem laneLo_le_laneHi (w : Nat) (sg : Bool) : laneLo w sg ≤ laneHi w sg := by
  have h1 : (0 : Int) < 2 ^ (w - 1) := Int.pow_pos (by decide)
  have h2 : (0 : Int) < 2 ^ w := Int.pow_pos (by decide)
  cases sg <;> simp only [laneLo, laneHi, if_true, if_false, Bool.false_eq_true] <;> omega

theorem deliver_wrap (x : Int) (w : Nat) (sg : Bool) : deliver x w sg false = (BitVec.ofInt w x).toNat := by
  rw [BitVec.toNat_ofInt]; rfl

theorem deliver_clamp (x : Int) (w : Nat) (sg : Bool) :
    deliver x w sg true = (BitVec.ofInt w (max (laneLo w sg) (min (laneHi w sg) x))).toNat := by
  rw [BitVec.toNat_ofInt]
  cases sg <;> simp only [deliver, laneLo, laneHi, if_true, if_false, Bool.false_eq_true] <;> push_cast <;> rfl

theorem deliver_lt (x : Int) (w : Nat) (sg sat : Bool) : deliver x w sg sat < 2 ^ w := by
  cases sat with
  | false => rw [deliver_wrap]; exact BitVec.isLt _
  | true => rw [deliver_clamp]; exact BitVec.isLt _

/-- A value in a lane's range is the value of its bits. -/
theorem laneVal_ofInt {w : Nat} (hw : 0 < w) {sg : Bool} {y : Int} (hlo : laneLo w sg ≤ y) (hhi : y ≤ laneHi w sg) :
    laneVal w sg (BitVec.ofInt w y).toNat = y := by
  cases sg with
  | false =>
    have hy : y % 2 ^ w = y := Int.emod_eq_of_lt hlo (Int.lt_of_le_sub_one hhi)
    rw [laneVal_unsigned, BitVec.ofNat_toNat, BitVec.setWidth_eq, BitVec.toNat_ofInt]
    push_cast
    rw [hy]
    exact Int.toNat_of_nonneg hlo
  | true =>
    rw [laneVal_signed, BitVec.ofNat_toNat, BitVec.setWidth_eq]
    exact BitVec.toInt_ofInt_eq_self hw hlo (Int.lt_of_le_sub_one hhi)

/-- R149: an exact result that is delivered is clamped under .sat and reduced otherwise. -/
theorem laneIs_deliver {w : Nat} (hw : 0 < w) (sg sat : Bool) (x : Int) : LaneIs w sg sat x (deliver x w sg sat % 2 ^ w) := by
  rw [Nat.mod_eq_of_lt (deliver_lt x w sg sat)]
  refine ⟨deliver_lt x w sg sat, ?_⟩
  cases sat with
  | false =>
    have hpos : (0 : Int) < 2 ^ w := Int.pow_pos (by decide)
    rw [deliver_wrap, BitVec.toNat_ofInt]
    push_cast
    rw [Int.toNat_of_nonneg (Int.emod_nonneg x (Int.ne_of_gt hpos))]
    exact Int.emod_eq_emod_iff_emod_sub_eq_zero.mp (Int.emod_emod x _)
  | true =>
    have hrange := laneLo_le_laneHi w sg
    rw [deliver_clamp]
    exact laneVal_ofInt hw (by omega) (by omega)

/-- A source lane delivered as it is holds its own value. -/
theorem laneIs_laneVal (w : Nat) (sg : Bool) (a : Nat) : LaneIs w sg false (laneVal w sg a) (a % 2 ^ w) := by
  refine ⟨Nat.mod_lt _ (Nat.two_pow_pos w), Int.emod_eq_emod_iff_emod_sub_eq_zero.mp ?_⟩
  push_cast
  rw [laneVal_emod, Int.emod_emod]

theorem laneIs_laneMulh {w : Nat} (hw : 0 < w) (sg sat : Bool) (a b c : Nat) :
    LaneIs w sg false (laneVal w sg a * laneVal w sg b / 2 ^ w) (laneMulh w sg sat a b c % 2 ^ w) := by
  have h := laneIs_deliver hw sg false (laneVal w sg a * laneVal w sg b / (2 ^ w : Nat))
  push_cast at h
  unfold laneMulh
  push_cast
  exact h

theorem laneIs_laneMin (w : Nat) (sg sat : Bool) (a b c : Nat) :
    LaneIs w sg false (min (laneVal w sg a) (laneVal w sg b)) (laneMin w sg sat a b c % 2 ^ w) := by
  unfold laneMin
  split
  next h => rw [Int.min_eq_right (Int.le_of_lt h)]; exact laneIs_laneVal w sg b
  next h => rw [Int.min_eq_left (Int.not_lt.mp h)]; exact laneIs_laneVal w sg a

theorem laneIs_laneMax (w : Nat) (sg sat : Bool) (a b c : Nat) :
    LaneIs w sg false (max (laneVal w sg a) (laneVal w sg b)) (laneMax w sg sat a b c % 2 ^ w) := by
  unfold laneMax
  split
  next h => rw [Int.max_eq_right (Int.le_of_lt h)]; exact laneIs_laneVal w sg b
  next h => rw [Int.max_eq_left (Int.not_lt.mp h)]; exact laneIs_laneVal w sg a

/-- A lane-wise word whose operation yields exact results: each lane of D holds the result. -/
theorem laneWord_laneIs {i : Instr} {s : State} {e : Env} {f : VBody} {srcs : List Operand} {op : Nat → Bool → Bool → Nat → Nat → Nat → Nat}
    {sat : Bool} {r : Thread → Nat → Int} (hi : exec i s = laneWord s f srcs op)
    (hr : ∀ x k, LaneIs (laneWidth f.fs) (f.mod3.getLsbD 0) sat (r x k) (laneOut s e f op x k))
    (h : Issues s e f.toBody { reads := srcs.flatMap regsOf, writes := regsOf f.d }) :
    ∃ val, Delivers i s e f.toBody id val ∧ ∀ x ∈ e.exec f.grd, ∀ k < 64 / laneWidth f.fs,
      LaneIs (laneWidth f.fs) (f.mod3.getLsbD 0) sat (r x k) (elemOf (laneWidth f.fs) k (val x)) :=
  laneWord_delivers (fun x k => LaneIs _ _ sat (r x k)) hi hr h

/-! ## Pairs -/

theorem putRegs_two (x : Thread) (n : Nat) (v w : W64) : x.putRegs n [v, w] = (x.write n v).write (n + 1) w := by
  have hp : (x.vpoison.filter fun r => !(decide (n ≤ r) && decide (r < n + 2))) = (x.vpoison.filter (· != n)).filter (· != n + 1) := by
    rw [List.filter_filter]
    refine List.filter_congr fun r _ => ?_
    rw [Bool.eq_iff_iff]
    simp only [Bool.not_eq_true', Bool.and_eq_false_iff, decide_eq_false_iff_not, Bool.and_eq_true, bne_iff_ne]
    omega
  unfold Thread.putRegs Thread.write
  simp only [List.length_cons, List.length_nil]
  rw [hp]
  rfl

/-- R150: a thread after a pair result goes to `d` and, under .c, the carry or borrow `p` to the predicates. -/
def Thread.takePair (x : Thread) (d : Nat) (r : W128) (push p : Bool) : Thread :=
  (({ x with pred := if push then p :: x.pred.take 7 else x.pred } : Thread).write d (r.extractLsb' 0 64)).write (d + 1) (r.extractLsb' 64 64)

theorem shortThread_vector (d : Fin 320) (y : Thread) (vals : List W64) : shortThread (.v d) { th := y, vals := vals } = y.putRegs d.val vals := by
  simp only [shortThread, BitVec.ofNat_eq_ofNat, BitVec.or_zero]

/-- A free short word whose results go to D and the registers after it writes them there. -/
theorem regWord_vector {i : Instr} {s : State} {e : Env} {f : Body} {u : Use} {uni : Bool} {eff : Env → Thread → Except Trap Out} {d : Fin 320}
    (hi : exec i s = regWord s f u uni eff) (h : Issues s e f u) (hl : u.long = false) (hd : f.d = .v d) (hw : u.writes ≠ [])
    (g : Thread → Thread) (vals : Thread → List W64) (hg : ∀ x ∈ e.exec f.grd, (g x).tid = x.tid)
    (hok : ∀ x ∈ e.exec f.grd, eff e x = .ok { th := g x, vals := vals x }) :
    ∃ t, exec i s = .next t ∧ ShortEnd s t e f (fun x => (g x).putRegs d.val (vals x)) e.b.kw := by
  have hres : (resultIn f u).d = .v d := by
    rw [resultIn, hd]
    exact (congrArg Body.d (if_neg fun he => hw (List.isEmpty_iff.mp he))).trans hd
  have hshort := regWord_short (uni := uni) h hl (fun x => { th := g x, vals := vals x }) hok fun _ _ => rfl
  rw [hshort, hres] at hi
  simp only [shortThread_vector, kwAfter] at hi
  exact ⟨_, hi, finish_short h.1 (fun x => (g x).putRegs d.val (vals x)) hg _⟩

/-- A pair word leaves the pair in D and the register after it. -/
theorem pairWord_ends {i : Instr} {s : State} {e : Env} {f : VBody} {d : Fin 320} (r : W128 → W128 → W128) (p : W128 → W128 → Bool)
    (hi : exec i s = pairWord s f fun a b => (r a b, p a b)) (hd : f.d = .v d)
    (h : Issues s e f.toBody { reads := regsOf f.a 2 ++ regsOf f.b 2, writes := [d.val, d.val + 1] }) :
    ∃ t, exec i s = .next t ∧ ShortEnd s t e f.toBody (fun x => x.takePair d.val (r (readPair x f.a) (readPair x f.b)) (f.mod3.getLsbD 2)
      (p (readPair x f.a) (readPair x f.b))) e.b.kw := by
  have hw : regsOf f.d 2 = [d.val, d.val + 1] := by rw [hd]; rfl
  rw [pairWord, hw] at hi
  obtain ⟨t, ht, hend⟩ := regWord_vector hi h rfl hd (List.cons_ne_nil _ _)
    (fun x => { x with pred := if f.mod3.getLsbD 2 then p (readPair x f.a) (readPair x f.b) :: x.pred.take 7 else x.pred })
    (fun x => [(r (readPair x f.a) (readPair x f.b)).extractLsb' 0 64, (r (readPair x f.a) (readPair x f.b)).extractLsb' 64 64])
    (fun _ _ => rfl) fun x _ => by cases f.mod3.getLsbD 2 <;> rfl
  simp only [putRegs_two] at hend
  exact ⟨t, ht, hend⟩

/-- Settles O6: the exact results through what a delivered result is, the pairs through two register writes. -/
theorem integer_arithmetic : Obligations.Integer_arithmetic := by
  refine ⟨fun s e f => ?_, fun s e f d hd h => ⟨pairWord_ends (· + ·) (fun a b => decide (2 ^ 128 ≤ a.toNat + b.toNat)) rfl hd h,
    pairWord_ends (· - ·) (fun a b => decide (a.toNat < b.toNat)) rfl hd h⟩⟩
  have hw := laneWidth_pos f.fs
  exact ⟨laneWord_laneIs rfl fun _ _ => laneIs_deliver hw ..,
    laneWord_laneIs rfl fun _ _ => laneIs_deliver hw ..,
    laneWord_laneIs rfl fun _ _ => laneIs_deliver hw ..,
    laneWord_laneIs rfl fun _ _ => laneIs_laneMulh hw ..,
    laneWord_laneIs rfl fun _ _ => laneIs_deliver hw ..,
    laneWord_laneIs rfl fun _ _ => laneIs_deliver hw ..,
    laneWord_laneIs rfl fun _ _ => laneIs_deliver hw ..,
    laneWord_laneIs rfl fun _ _ => laneIs_laneMin ..,
    laneWord_laneIs rfl fun _ _ => laneIs_laneMax ..⟩

end Sys2Proof.Machine
end

section
/-! Shifts and rotations of a lane (R151). -/

namespace Sys2Proof.Machine

theorem laneShl_eq (w : Nat) (p q : Bool) (a n c : Nat) : laneShl w p q a n c % 2 ^ w = (BitVec.ofNat w a <<< n).toNat := by
  rw [BitVec.toNat_shiftLeft, BitVec.toNat_ofNat, Nat.shiftLeft_eq, Nat.mod_mul_mod, laneShl]
  split
  next h =>
    obtain ⟨m, rfl⟩ := Nat.exists_eq_add_of_le h
    rw [Nat.zero_mod, Nat.pow_add, Nat.mul_left_comm, Nat.mul_mod_right]
  next => exact Nat.mod_mod ..

theorem laneShr_eq {w a : Nat} (ha : a < 2 ^ w) (p q : Bool) (n c : Nat) :
    laneShr w p q a n c % 2 ^ w = (BitVec.ofNat w a >>> n).toNat := by
  have hlt : a / 2 ^ n < 2 ^ w := Nat.lt_of_le_of_lt (Nat.div_le_self ..) ha
  rw [BitVec.toNat_ushiftRight, BitVec.toNat_ofNat, Nat.mod_eq_of_lt ha, Nat.shiftRight_eq_div_pow, laneShr]
  split
  next h =>
    rw [Nat.zero_mod, Nat.div_eq_of_lt (Nat.lt_of_lt_of_le ha (Nat.pow_le_pow_right (by decide) h))]
  next => exact Nat.mod_eq_of_lt hlt

/-- An arithmetic shift by the width or more leaves copies of the top bit. -/
theorem sshiftRight_min {w : Nat} (x : BitVec w) (n : Nat) : x.sshiftRight (min n w) = x.sshiftRight n := by
  apply BitVec.eq_of_getLsbD_eq
  intro i hi
  have hiff : min n w + i < w ↔ n + i < w := by omega
  rw [BitVec.getLsbD_sshiftRight, BitVec.getLsbD_sshiftRight]
  by_cases h : n + i < w
  · rw [if_pos h, if_pos (hiff.mpr h), Nat.min_eq_left (by omega)]
  · rw [if_neg h, if_neg (mt hiff.mp h)]

theorem laneSar_eq (w : Nat) (p q : Bool) (a n c : Nat) : laneSar w p q a n c % 2 ^ w = ((BitVec.ofNat w a).sshiftRight n).toNat := by
  rw [laneSar, Nat.mod_eq_of_lt (deliver_lt ..), deliver_wrap, signedOf_eq_toInt, ← sshiftRight_min, BitVec.sshiftRight_eq,
    Int.shiftRight_eq_div_pow]

/-- A rotation to the right is one to the left by the rest of the width. -/
theorem rotateRight_eq_rotateLeft {w : Nat} (hw : 0 < w) (x : BitVec w) (n : Nat) : x.rotateRight n = x.rotateLeft ((w - n % w) % w) := by
  have hn := Nat.mod_lt n hw
  rw [BitVec.rotateRight_def, BitVec.rotateLeft_def, Nat.mod_mod]
  rcases Nat.eq_zero_or_pos (n % w) with h0 | hpos
  · rw [h0, Nat.sub_zero, Nat.mod_self, Nat.sub_zero, BitVec.shiftLeft_eq_zero (Nat.le_refl w), BitVec.ushiftRight_eq_zero (Nat.le_refl w),
      BitVec.ushiftRight_zero, BitVec.shiftLeft_zero]
  · rw [Nat.mod_eq_of_lt (Nat.sub_lt hw hpos), Nat.sub_sub_self (Nat.le_of_lt hn), BitVec.or_comm]

/-- The two parts of a rotation share no bit, so their sum is their union. -/
theorem rotateLeft_toNat {w : Nat} (x : BitVec w) {k : Nat} (hk : k < w) :
    (x.rotateLeft k).toNat = x.toNat * 2 ^ k % 2 ^ w + x.toNat / 2 ^ (w - k) := by
  have hpow : 2 ^ w = 2 ^ k * 2 ^ (w - k) := by rw [← Nat.pow_add, Nat.add_sub_of_le (Nat.le_of_lt hk)]
  have hlow : x.toNat / 2 ^ (w - k) < 2 ^ k := Nat.div_lt_of_lt_mul (by rw [Nat.mul_comm, ← hpow]; exact x.isLt)
  rw [BitVec.toNat_rotateLeft, Nat.mod_eq_of_lt hk, Nat.shiftLeft_eq, Nat.shiftRight_eq_div_pow, hpow, Nat.mul_comm x.toNat,
    Nat.mul_mod_mul_left, Nat.two_pow_add_eq_or_of_lt hlow]

theorem laneRot_eq {w a : Nat} (hw : 0 < w) (ha : a < 2 ^ w) (right q : Bool) (n c : Nat) :
    laneRot w right q a n c % 2 ^ w =
      (if right then (BitVec.ofNat w a).rotateRight n else (BitVec.ofNat w a).rotateLeft n).toNat := by
  have hrot : ∀ k < w, a * 2 ^ k % 2 ^ w + a / 2 ^ (w - k) = ((BitVec.ofNat w a).rotateLeft k).toNat := fun k hk => by
    rw [rotateLeft_toNat _ hk, BitVec.toNat_ofNat, Nat.mod_eq_of_lt ha]
  cases right with
  | true =>
    simp only [laneRot, if_true, hrot _ (Nat.mod_lt _ hw), rotateRight_eq_rotateLeft hw]
    exact Nat.mod_eq_of_lt (BitVec.isLt _)
  | false =>
    simp only [laneRot, Bool.false_eq_true, if_false, hrot _ (Nat.mod_lt _ hw), BitVec.rotateLeft_mod_eq_rotateLeft]
    exact Nat.mod_eq_of_lt (BitVec.isLt _)

/-- A lane-wise word whose operation is `r` on bit vectors. -/
theorem laneWord_toNat {i : Instr} {s : State} {e : Env} {f : VBody} {op : Nat → Bool → Bool → Nat → Nat → Nat → Nat}
    {r : Thread → Nat → BitVec (laneWidth f.fs)} (hi : exec i s = laneWord s f [f.a, f.b] op)
    (hr : ∀ x k, laneOut s e f op x k = (r x k).toNat)
    (h : Issues s e f.toBody { reads := regsOf f.a ++ regsOf f.b, writes := regsOf f.d }) :
    ∃ val, Delivers i s e f.toBody id val ∧ ∀ x ∈ e.exec f.grd, ∀ k < 64 / laneWidth f.fs, elemOf (laneWidth f.fs) k (val x) = (r x k).toNat :=
  laneWord_delivers (fun x k v => v = (r x k).toNat) hi hr (by simpa only [List.flatMap_cons, List.flatMap_nil, List.append_nil] using h)

/-- Settles O7: each operation on a lane's number is the bit vector's. -/
theorem shifts : Obligations.Shifts := fun _ _ f h =>
  ⟨laneWord_toNat rfl (fun _ _ => laneShl_eq ..) h, laneWord_toNat rfl (fun _ _ => laneShr_eq (laneIn_lt ..) ..) h,
    laneWord_toNat rfl (fun _ _ => laneSar_eq ..) h, laneWord_toNat rfl (fun _ _ => laneRot_eq (laneWidth_pos f.fs) (laneIn_lt ..) ..) h⟩

end Sys2Proof.Machine
end

section
/-! Bit counts of each lane and bit fields (R155, R156). -/

namespace Sys2Proof.Machine

/-! ## Counts -/

/-- `r` counts the zeros of the `w` bits of `v` above its highest one. -/
def LeadingZeros (w v r : Nat) : Prop := r ≤ w ∧ (∀ j < w, w - r ≤ j → v.testBit j = false) ∧ (r < w → v.testBit (w - 1 - r) = true)

/-- `r` counts the zeros of the `w` bits of `v` below its lowest one. -/
def TrailingZeros (w v r : Nat) : Prop := r ≤ w ∧ (∀ j < r, v.testBit j = false) ∧ (r < w → v.testBit r = true)

/-- The `w` bits of `r` are those of `v` in the other order. -/
def Reversed (w v r : Nat) : Prop := ∀ j < w, r.testBit (w - 1 - j) = v.testBit j

theorem mod_two_pow_of_le {r w : Nat} (h : r ≤ w) : r % 2 ^ w = r := Nat.mod_eq_of_lt (Nat.lt_of_le_of_lt h Nat.lt_two_pow_self)

theorem lanePopc_mod (w : Nat) (p q : Bool) (v b c : Nat) : lanePopc w p q v b c % 2 ^ w = ((List.range w).filter fun j => v.testBit j).length :=
  mod_two_pow_of_le (Nat.le_trans (List.length_filter_le ..) (Nat.le_of_eq List.length_range))

theorem lt_two_pow_bitLen (v : Nat) : v < 2 ^ bitLen v := by
  unfold bitLen
  split
  next h => rw [eq_of_beq h]; exact Nat.one_pos
  next => exact Nat.lt_log2_self

theorem bitLen_le {v w : Nat} (hv : v < 2 ^ w) : bitLen v ≤ w := by
  unfold bitLen
  split
  next => exact Nat.zero_le w
  next h => exact (Nat.log2_lt fun h0 => h (beq_iff_eq.mpr h0)).mpr hv

theorem testBit_bitLen_pred {v : Nat} (h : 0 < bitLen v) : v.testBit (bitLen v - 1) = true := by
  unfold bitLen at h ⊢
  split at h
  next => cases h
  next hv => rw [if_neg hv, Nat.add_sub_cancel]; exact Nat.testBit_log2 fun h0 => hv (beq_iff_eq.mpr h0)

theorem laneClz_leadingZeros {w v : Nat} (hv : v < 2 ^ w) (p q : Bool) (b c : Nat) : LeadingZeros w v (laneClz w p q v b c % 2 ^ w) := by
  have hle := bitLen_le hv
  rw [laneClz, mod_two_pow_of_le (Nat.sub_le ..)]
  refine ⟨Nat.sub_le .., fun j _ hj => ?_, fun hlt => ?_⟩
  · exact Nat.testBit_lt_two_pow (Nat.lt_of_lt_of_le (lt_two_pow_bitLen v) (Nat.pow_le_pow_right (by decide) (by omega)))
  · rw [show w - 1 - (w - bitLen v) = bitLen v - 1 by omega]
    exact testBit_bitLen_pred (by omega)

theorem laneCtz_trailingZeros (w v : Nat) (p q : Bool) (b c : Nat) : TrailingZeros w v (laneCtz w p q v b c % 2 ^ w) := by
  unfold laneCtz
  cases h : (List.range w).find? v.testBit with
  | none =>
    have hz := List.find?_range_eq_none.mp h
    rw [Option.getD_none, mod_two_pow_of_le (Nat.le_refl w)]
    exact ⟨Nat.le_refl w, fun j hj => by simpa only [Bool.not_eq_true'] using hz j hj, fun hlt => absurd hlt (Nat.lt_irrefl w)⟩
  | some r =>
    obtain ⟨hr, hmem, hz⟩ := List.find?_range_eq_some.mp h
    have hlt := List.mem_range.mp hmem
    rw [Option.getD_some, mod_two_pow_of_le (Nat.le_of_lt hlt)]
    exact ⟨Nat.le_of_lt hlt, fun j hj => by simpa only [Bool.not_eq_true'] using hz j hj, fun _ => hr⟩

theorem laneBrev_succ (w : Nat) (p q : Bool) (v b c : Nat) :
    laneBrev (w + 1) p q v b c = 2 * laneBrev w p q v b c + (v.testBit w).toNat := by
  rw [laneBrev, List.range_succ, List.foldl_append]
  cases h : v.testBit w <;> simp only [laneBrev, List.foldl_cons, List.foldl_nil, h, if_true, if_false, Bool.false_eq_true, Bool.toNat_true, Bool.toNat_false]

theorem laneBrev_lt (w : Nat) (p q : Bool) (v b c : Nat) : laneBrev w p q v b c < 2 ^ w := by
  induction w with
  | zero => exact Nat.one_pos
  | succ w ih =>
    have hbit := Bool.toNat_lt (v.testBit w)
    rw [laneBrev_succ, Nat.pow_succ]
    omega

theorem laneBrev_reversed (w v : Nat) (p q : Bool) (b c : Nat) : Reversed w v (laneBrev w p q v b c % 2 ^ w) := by
  rw [Nat.mod_eq_of_lt (laneBrev_lt ..)]
  induction w with
  | zero => exact fun j hj => absurd hj (Nat.not_lt_zero j)
  | succ w ih =>
    intro j hj
    have hbit := Bool.toNat_lt (v.testBit w)
    rw [laneBrev_succ, Nat.add_sub_cancel]
    rcases Nat.lt_succ_iff_lt_or_eq.mp hj with hlt | rfl
    · rw [show w - j = w - 1 - j + 1 by omega, Nat.testBit_succ, Nat.mul_add_div (by decide), Nat.div_eq_of_lt hbit, Nat.add_zero]
      exact ih j hlt
    · rw [Nat.sub_self, Nat.testBit_zero]
      cases v.testBit j <;> simp only [Bool.toNat_true, Bool.toNat_false, decide_eq_true_eq, decide_eq_false_iff_not] <;> omega

/-- A lane-wise word of one source whose results stand in `ok` to the source's lanes. -/
theorem laneWord_one {i : Instr} {s : State} {e : Env} {f : VBody} {op : Nat → Bool → Bool → Nat → Nat → Nat → Nat}
    (ok : Nat → Nat → Prop) (hi : exec i s = laneWord s f [f.a] op)
    (hok : ∀ v < 2 ^ laneWidth f.fs, ∀ b c, ok v (op (laneWidth f.fs) (f.mod3.getLsbD 0) (f.mod3.getLsbD 1) v b c % 2 ^ laneWidth f.fs))
    (h : Issues s e f.toBody { reads := regsOf f.a, writes := regsOf f.d }) :
    ∃ val, Delivers i s e f.toBody id val ∧ ∀ x ∈ e.exec f.grd, ∀ k < 64 / laneWidth f.fs,
      ok (laneIn s e f x f.a k) (elemOf (laneWidth f.fs) k (val x)) :=
  laneWord_delivers (fun x k => ok (laneIn s e f x f.a k)) hi (fun _ _ => hok _ (laneIn_lt ..) _ _)
    (by simpa only [List.flatMap_cons, List.flatMap_nil, List.append_nil] using h)

/-! ## Fields -/

/-- R156: position of the field that a control value names. -/
def fieldPos (ctl : W64) : Nat := ctl.toNat % 256

/-- R156: length of the field as the control value gives it. -/
def fieldLen (ctl : W64) : Nat := ctl.toNat / 256 % 256

/-- The bits of the field up to bit 63. -/
def fieldBits (ctl : W64) : Nat := min (fieldPos ctl + fieldLen ctl) 64 - fieldPos ctl

/-- The control value names a field. -/
def FieldValid (ctl : W64) : Prop := fieldLen ctl ≠ 0 ∧ fieldPos ctl < 64

theorem fieldSpan_valid {ctl : W64} (h : FieldValid ctl) : fieldSpan ctl = some (fieldPos ctl, fieldBits ctl) := by
  obtain ⟨hlen, hpos⟩ := h
  have hc : ¬ ((fieldLen ctl == 0 || decide (64 ≤ fieldPos ctl)) = true) := by
    simp only [Bool.or_eq_true, beq_iff_eq, decide_eq_true_eq]
    omega
  exact if_neg hc

theorem fieldSpan_invalid {ctl : W64} (h : ¬ FieldValid ctl) : fieldSpan ctl = none := by
  have hc : (fieldLen ctl == 0 || decide (64 ≤ fieldPos ctl)) = true := by
    simp only [Bool.or_eq_true, beq_iff_eq, decide_eq_true_eq]
    unfold FieldValid at h
    omega
  exact if_pos hc

theorem bfx_invalid (signed : Bool) (a : W64) {ctl : W64} (h : ¬ FieldValid ctl) : bfx signed a ctl = 0 := by
  rw [bfx, fieldSpan_invalid h]

theorem bfi_invalid (a b : W64) {ctl : W64} (h : ¬ FieldValid ctl) : bfi a b ctl = a := by
  rw [bfi, fieldSpan_invalid h]

theorem fieldBits_pos {ctl : W64} (h : FieldValid ctl) : 0 < fieldBits ctl := by
  obtain ⟨hlen, hpos⟩ := h
  unfold fieldBits
  omega

/-- A valid field extracted is its bits, extended by its top bit or by zeros. -/
theorem bfx_valid (signed : Bool) (a : W64) {ctl : W64} (h : FieldValid ctl) :
    bfx signed a ctl = if signed then (a.extractLsb' (fieldPos ctl) (fieldBits ctl)).signExtend 64
      else (a.extractLsb' (fieldPos ctl) (fieldBits ctl)).setWidth 64 := by
  have hx : a.toNat / 2 ^ fieldPos ctl % 2 ^ fieldBits ctl = (a.extractLsb' (fieldPos ctl) (fieldBits ctl)).toNat := by
    rw [BitVec.extractLsb'_toNat, Nat.shiftRight_eq_div_pow]
  simp only [bfx, fieldSpan_valid h, hx, signedOf_eq_toInt, BitVec.ofNat_toNat, BitVec.setWidth_eq]
  rfl

theorem bfx_bit (signed : Bool) (a : W64) {ctl : W64} (h : FieldValid ctl) {j : Nat} (hj : j < 64) :
    (bfx signed a ctl).getLsbD j = if j < fieldBits ctl then a.getLsbD (fieldPos ctl + j)
      else signed && a.getLsbD (fieldPos ctl + fieldBits ctl - 1) := by
  have hn := fieldBits_pos h
  have htop : fieldPos ctl + (fieldBits ctl - 1) = fieldPos ctl + fieldBits ctl - 1 := by omega
  rw [bfx_valid signed a h]
  cases signed with
  | false =>
    rw [if_neg Bool.false_ne_true, BitVec.getLsbD_setWidth, BitVec.getLsbD_extractLsb', decide_eq_true hj, Bool.true_and, Bool.false_and]
    by_cases hlt : j < fieldBits ctl
    · rw [if_pos hlt, decide_eq_true hlt, Bool.true_and]
    · rw [if_neg hlt, decide_eq_false hlt, Bool.false_and]
  | true =>
    rw [if_pos rfl, BitVec.getLsbD_signExtend, BitVec.msb_eq_getLsbD_last, BitVec.getLsbD_extractLsb', BitVec.getLsbD_extractLsb', htop,
      decide_eq_true hj, decide_eq_true (Nat.sub_lt hn Nat.one_pos), Bool.true_and, Bool.true_and]
    by_cases hlt : j < fieldBits ctl
    · rw [if_pos hlt, if_pos hlt, decide_eq_true hlt, Bool.true_and]
    · rw [if_neg hlt, if_neg hlt]

theorem fieldMask_bit (pos n : Nat) {j : Nat} (hj : j < 64) :
    (BitVec.ofNat 64 ((2 ^ n - 1) * 2 ^ pos)).getLsbD j = decide (pos ≤ j ∧ j < pos + n) := by
  rw [BitVec.getLsbD_ofNat, Nat.mul_comm, Nat.testBit_two_pow_mul, Nat.testBit_two_pow_sub_one]
  simp only [hj, decide_true, Bool.true_and, ge_iff_le, ← Bool.decide_and]
  congr 1
  simp only [eq_iff_iff]
  omega

theorem bfi_bit (a b : W64) {ctl : W64} (h : FieldValid ctl) {j : Nat} (hj : j < 64) :
    (bfi a b ctl).getLsbD j = if fieldPos ctl ≤ j ∧ j < fieldPos ctl + fieldBits ctl then b.getLsbD (j - fieldPos ctl) else a.getLsbD j := by
  simp only [bfi, fieldSpan_valid h, BitVec.getLsbD_or, BitVec.getLsbD_and, BitVec.getLsbD_not, BitVec.getLsbD_shiftLeft, fieldMask_bit _ _ hj]
  by_cases hin : fieldPos ctl ≤ j ∧ j < fieldPos ctl + fieldBits ctl
  · rw [if_pos hin, decide_eq_true hin, decide_eq_true hj, decide_eq_false (Nat.not_lt.mpr hin.1), Bool.not_true, Bool.and_false,
      Bool.and_false, Bool.false_or, Bool.not_false, Bool.true_and, Bool.true_and, Bool.and_true]
  · rw [if_neg hin, decide_eq_false hin, decide_eq_true hj, Bool.not_false, Bool.and_false, Bool.or_false, Bool.and_true, Bool.and_true]

theorem bfx_delivers {s : State} {e : Env} {f : VBody}
    (h : Issues s e f.toBody { reads := regsOf f.a ++ regsOf f.b, writes := regsOf f.d }) :
    Delivers (.bfx f) s e f.toBody id fun x => bfx (f.mod3.getLsbD 0) (readOp s e f.imm x f.a) (readOp s e f.imm x f.b) :=
  aluWord_delivers (srcs := [f.a, f.b]) (op := fun _ a b _ => bfx (f.mod3.getLsbD 0) a b) rfl
    (by simpa only [List.flatMap_cons, List.flatMap_nil, List.append_nil] using h)

theorem bfi_delivers {s : State} {e : Env} {f : VBody}
    (h : Issues s e f.toBody { reads := regsOf f.a ++ regsOf f.b ++ regsOf f.c, writes := regsOf f.d }) :
    Delivers (.bfi f) s e f.toBody id fun x => bfi (readOp s e f.imm x f.a) (readOp s e f.imm x f.b) (readOp s e f.imm x f.c) :=
  aluWord_delivers (srcs := [f.a, f.b, f.c]) (op := fun _ => bfi) rfl
    (by simpa only [List.flatMap_cons, List.flatMap_nil, List.append_nil, List.append_assoc] using h)

/-- Settles O8: the counts from what each lane operation computes, the fields bit by bit. -/
theorem bit_counts_and_fields : Obligations.Bit_counts_and_fields := by
  refine ⟨fun s e f h => ⟨?_, ?_, ?_, ?_⟩, fun s e f => ⟨fun h => ⟨_, bfx_delivers h, fun x _ => ⟨fun hv => ?_, fun hv j hj => ?_⟩⟩,
    fun h => ⟨_, bfi_delivers h, fun x _ => ⟨fun hv => ?_, fun hv j hj => ?_⟩⟩⟩⟩
  · exact laneWord_one (fun v r => r = ((List.range _).filter fun j => v.testBit j).length) rfl (fun _ _ _ _ => lanePopc_mod ..) h
  · exact laneWord_one (LeadingZeros _) rfl (fun _ hv _ _ => laneClz_leadingZeros hv ..) h
  · exact laneWord_one (TrailingZeros _) rfl (fun v _ _ _ => laneCtz_trailingZeros _ v ..) h
  · exact laneWord_one (Reversed _) rfl (fun v _ _ _ => laneBrev_reversed _ v _ _ _ _) h
  · exact bfx_invalid _ _ hv
  · exact bfx_bit (f.mod3.getLsbD 0) (readOp s e f.imm x f.a) (ctl := readOp s e f.imm x f.b) hv hj
  · exact bfi_invalid _ _ hv
  · exact bfi_bit (readOp s e f.imm x f.a) (readOp s e f.imm x f.b) (ctl := readOp s e f.imm x f.c) hv hj

end Sys2Proof.Machine
end

section
/-! Element words that choose codes: one Out for each executing thread, and EBLEND (R58, R172, R181). -/

namespace Sys2Proof.Machine

/-- A group word that leaves the team alone and never faults acts in each executing thread on its own. -/
theorem groupWord_eq_regWord (s : State) (f : Body) (u : Use) (uni : Bool) (out : Env → List Thread → Thread → Out) :
    groupWord s f u uni (fun e ex => .ok (e.t, ex.map (out e ex))) = regWord s f u uni fun e x => .ok (out e (e.exec f.grd) x) := by
  unfold groupWord regWord
  cases s.env? with
  | none => rfl
  | some e => simp only [splitOuts_ok (e.exec f.grd) _ (out e (e.exec f.grd)) fun _ _ => rfl]

/-! ## The generator -/

theorem exec_eq_of_tid {e : Env} {g : Guard} {x y : Thread} (hx : x ∈ e.exec g) (hy : y ∈ e.exec g) (h : y.tid = x.tid) : y = x := by
  have hty := (mem_exec hy).1
  rw [h, (mem_exec hx).1] at hty
  exact (Option.some.inj hty).symm

theorem drawer_mem {l : List Thread} {x : Thread} (uni : Bool) (hx : x ∈ l) : drawer uni l x ∈ l := by
  cases uni with
  | false => exact hx
  | true =>
    cases l with
    | nil => cases hx
    | cons y l => exact List.mem_cons_self

/-- A generator that no element drew from goes back as it was: under a uniform word only its own thread stores it. -/
theorem drawer_restore {e : Env} {g : Guard} {x : Thread} (uni : Bool) (hx : x ∈ e.exec g) :
    (if (drawer uni (e.exec g) x).tid == x.tid then
      { x with s0 := (drawer uni (e.exec g) x).rng.s0, s1 := (drawer uni (e.exec g) x).rng.s1 } else x) = x := by
  split
  next h => rw [exec_eq_of_tid hx (drawer_mem uni hx) (eq_of_beq h)]; rfl
  next => rfl

/-! ## Words that choose codes -/

theorem srcElem_lt (s : State) (e : Env) (f : VBody) (x : Thread) (o : Operand) (w k : Nat) : srcElem s e f x o w k < 2 ^ w := by
  unfold srcElem elemOf
  split <;> exact Nat.mod_lt _ (Nat.two_pow_pos w)

/-- R61: element `k` of a register packed under a format. -/
theorem elemOf_packElems_fmt (fm : Fmt) (code : Nat → Nat) {k : Nat} (hk : k < fm.elems) :
    elemOf fm.width k (packElems fm.width ((List.range fm.elems).map code)) = code k % 2 ^ fm.width := by
  have hlen : ((List.range fm.elems).map code).length = fm.elems := by rw [List.length_map, List.length_range]
  rw [elemOf_packElems (by rw [hlen]; exact Nat.div_mul_le_self ..) (by rw [hlen]; exact hk), List.getElem_map, List.getElem_range]

/-- Elements none of which has a flag leave the flags as they were. -/
theorem foldl_keep {α β : Type} (a : α) (l : List β) : l.foldl (fun a _ => a) a = a := by
  induction l with
  | nil => rfl
  | cons _ l ih => exact ih

/-- A short element word that raises no flag, draws nothing and pushes no predicate delivers the value it builds, under any slot and
with any trap enabled. -/
theorem elemWord_delivers {i : Instr} {s : State} {e : Env} {f : VBody} {srcs : List Operand}
    {gen : Env → List Thread → Thread → Rng → List W64 × Efl × Rng × Option Bool} (val : Thread → W64)
    (hi : exec i s = elemWord s f srcs false false true gen) (hgen : ∀ x r, gen e (e.exec f.grd) x r = ([val x], 0, r, none))
    (h : Issues s e f.toBody { reads := srcs.flatMap regsOf, writes := regsOf f.d }) : Delivers i s e f.toBody id val := by
  simp only [elemWord, Bool.false_eq_true, if_false, if_true, List.append_nil] at hi
  refine regWord_delivers (hi.trans (groupWord_eq_regWord ..)) h rfl rfl id val (fun _ _ => rfl) fun x hx => ?_
  simp only [hgen, drawer_restore _ hx, id]

/-- A word of three sources that chooses codes without a flag: each element of D is the code chosen. -/
theorem codeWord_three_delivers {i : Instr} {s : State} {e : Env} {f : VBody} {op : Fmt → Nat → Nat → Nat → Nat}
    (hi : exec i s = codeWord s f [f.a, f.b, f.c] fun fm a b c => (op fm a b c, 0))
    (h : Issues s e f.toBody { reads := regsOf f.a ++ regsOf f.b ++ regsOf f.c, writes := regsOf f.d }) :
    let fm := Fmt.of (e.slot f.fs.toNat)
    let code := fun (o : Operand) (x : Thread) (k : Nat) => srcElem s e f x o fm.width k
    Delivers i s e f.toBody id fun x =>
      packElems fm.width ((List.range fm.elems).map fun k => op fm (code f.a x k) (code f.b x k) (code f.c x k)) := by
  refine elemWord_delivers _ hi (fun x r => ?_) (by simpa only [List.flatMap_cons, List.flatMap_nil, List.append_nil, List.append_assoc] using h)
  simp only [List.map_map, List.foldl_map, BitVec.ofNat_eq_ofNat, BitVec.or_zero, foldl_keep]
  rfl

/-- Settles O15: EBLEND chooses between the codes of A and B, which are elements of the slot's width already, by the top bit of C's. -/
theorem element_blend : Obligations.Element_blend := by
  intro s e f fm at' h
  refine ⟨_, codeWord_three_delivers (op := fun fm a b c => if c.testBit (fm.width - 1) then a else b) rfl h, fun x _ k hk => ?_⟩
  rw [elemOf_packElems_fmt fm _ hk]
  refine Nat.mod_eq_of_lt ?_
  split <;> exact srcElem_lt ..

end Sys2Proof.Machine
end
